-- ==== Sys2Proof/Word.lean ====
section
/-! DEFINITION. The word and the byte of the block (00_scope.md R7). -/

namespace Sys2Proof

/-- A register word: 32 bits, bit 0 the least significant (R7, 20_memory.md R62 and R64). -/
abbrev Word := BitVec 32

/-- A byte (R7). -/
abbrev Byte := BitVec 8

end Sys2Proof
end

