-- ==== Sys2Proof/Config.lean ====
section
/-! DEFINITION. What is fixed for a machine (00_scope.md R6, 10_state.md R48) and the free values: what the spec leaves
to the engine, to the clock, to the host framework and to the order of the agents. A free value is a constant without a
body, so nothing can be proved of it but what holds for every value. -/

namespace Sys2Proof

/-- The two registers of the engine that the block reads (10_state.md R35). -/
inductive PortReg where
  | csr
  | rsp
  deriving DecidableEq, Repr

/-- One entry of a Master's history: what the oracle may see (20_memory.md R66). The last argument is the time at which it
happened, in microseconds. -/
inductive Event where
  /-- `MemRead(addr, 4)` returned `w`. -/
  | read (addr : Nat) (w : Word) (at_ : Nat)
  /-- `MemWrite(addr, 4, w)`. -/
  | write (addr : Nat) (w : Word) (at_ : Nat)
  /-- `Sleep(d)`. -/
  | sleep (d : Nat) (at_ : Nat)
  deriving DecidableEq, Repr

/-- Parameter `PROGRESS` (40_master_control.md R143): what restarts the 100 ms bound of a wait. -/
inductive Progress where
  /-- Either pending count differs from the previous poll: the spec's reference. -/
  | eitherCount
  /-- Never: the fixed bound. -/
  | never
  deriving DecidableEq, Repr

/-- Parameter `TUNE_BUS_KEY` (43_params_and_commands.md R222): what the `<bus>` of a tuning line is matched against. -/
inductive BusKey where
  /-- The external bus number, printed as `adap=`: the spec's reference. -/
  | external
  /-- The identity of the bus within the Master of that id. -/
  | identity (master : Nat)
  deriving DecidableEq, Repr

/-- Parameter `DA_POLICY` (41_transfer_encode.md R172) on the items whose data-ack-required flag the formats of
30_encoding.md R96 leave open: placeholders and continuation items, the last one apart. ADDR, WDATA and BRLEN items carry
1 by their format. -/
structure DaPolicy where
  placeholder : Bool
  lastPlaceholder : Bool
  continuation : Bool
  lastContinuation : Bool
  deriving DecidableEq, Repr

/-- The spec's own policy (R172). -/
def DaPolicy.reference : DaPolicy := ⟨true, false, true, false⟩

/-! ### `LAYOUT` (30_encoding.md R91): where the fields of the three words lie -/

/-- A field's place in a word: its lowest bit and its width. -/
abbrev Span := Nat × Nat

/-- Two fields that share no bit. -/
abbrev Span.apart (a b : Span) : Prop := a.1 + a.2 ≤ b.1 ∨ b.1 + b.2 ≤ a.1

/-- Fields that fit a word side by side. -/
abbrev fitWord (l : List Span) : Prop := l.Pairwise Span.apart ∧ ∀ f ∈ l, f.1 + f.2 ≤ 32

/-- The lowest bit of each field of the request word. The widths are those of 10_state.md R38, but for the session size, which
may be narrower (30_encoding.md R95). The transfer index and the session size are never in one word (R93) and may lie in one
place. -/
structure ReqPlaces where
  bs : Nat
  st : Nat
  sp : Nat
  dod : Nat
  da : Nat
  br : Nat
  ed : Nat
  t : Nat
  dat : Nat
  ti : Nat
  ss : Nat
  ssWidth : Nat
  d : Nat
  deriving DecidableEq, Repr

/-- The lowest bit of each field of the response word (10_state.md R40). -/
structure RspPlaces where
  ti : Nat
  fe : Nat
  ovf : Nat
  ackError : Nat
  timeoutError : Nat
  busConflictError : Nat
  flushed : Nat
  d : Nat
  deriving DecidableEq, Repr

/-- The lowest bit of each field of the control/status word (10_state.md R36), and the two bits that are left. -/
structure CsrPlaces where
  reset : Nat
  fe : Nat
  ver : Nat
  brb : Nat
  nrq : Nat
  nrs : Nat
  fsz : Nat
  foe : Nat
  sp : Nat
  rsvHigh : Nat
  rsvLow : Nat
  deriving DecidableEq, Repr

/-- Parameter `LAYOUT` (30_encoding.md R91). -/
structure Layout where
  req : ReqPlaces
  rsp : RspPlaces
  csr : CsrPlaces
  deriving DecidableEq, Repr

/-- The fields of a request word at one position of its session: the first, or any other (R93). -/
def ReqPlaces.spans (p : ReqPlaces) (first : Bool) : List Span :=
  [(p.bs, 4), (p.st, 1), (p.sp, 1), (p.dod, 1), (p.da, 1), (p.br, 1), (p.ed, 1), (p.t, 2), (p.dat, 2),
    if first then (p.ss, p.ssWidth) else (p.ti, 4), (p.d, 8)]

/-- The fields of a response word. -/
def RspPlaces.spans (p : RspPlaces) : List Span :=
  [(p.ti, 4), (p.fe, 1), (p.ovf, 1), (p.ackError, 1), (p.timeoutError, 1), (p.busConflictError, 1), (p.flushed, 1), (p.d, 8)]

/-- The fields of a control/status word. -/
def CsrPlaces.spans (p : CsrPlaces) : List Span :=
  [(p.reset, 1), (p.fe, 1), (p.ver, 2), (p.brb, 1), (p.nrq, 10), (p.nrs, 10), (p.fsz, 2), (p.foe, 1), (p.sp, 2),
    (p.rsvHigh, 1), (p.rsvLow, 1)]

/-- A layout that R91 admits: the fields of each word lie side by side, the fields of the control/status word take up all of
it, and the session size is at most as wide as the record's. -/
abbrev Layout.ok (l : Layout) : Prop :=
  fitWord (l.req.spans true) ∧ fitWord (l.req.spans false) ∧ l.req.ssWidth ≤ 10 ∧ fitWord l.rsp.spans ∧
    fitWord l.csr.spans ∧ ∀ i < 32, ∃ f ∈ l.csr.spans, f.1 ≤ i ∧ i < f.1 + f.2

/-- `LAYOUT_REF` (30_encoding.md R92, R98, R101). -/
def Layout.reference : Layout where
  req := { bs := 28, st := 27, sp := 26, dod := 25, da := 24, br := 23, ed := 22, t := 20, dat := 18, ti := 8, ss := 8
           ssWidth := 10, d := 0 }
  rsp := { ti := 28, fe := 27, ovf := 26, ackError := 25, timeoutError := 24, busConflictError := 23, flushed := 22, d := 0 }
  csr := { reset := 31, fe := 30, ver := 28, brb := 27, nrq := 17, nrs := 7, fsz := 5, foe := 4, sp := 2, rsvHigh := 1
           rsvLow := 0 }

/-- The parameters of 00_scope.md R6 that a model takes as arguments. -/
structure Config where
  /-- `LAYOUT` (30_encoding.md R91). -/
  layout : Layout
  /-- `REQ_OFF`, `CSR_OFF`, `RSP_OFF` (20_memory.md R61). -/
  reqOff : Nat
  csrOff : Nat
  rspOff : Nat
  /-- `DEFAULT_BUS_COUNT` (43_params_and_commands.md R225). -/
  defaultBusCount : Nat
  /-- `MAX_BUS_COUNT`. -/
  maxBusCount : Nat
  progress : Progress
  /-- `FE_ON_FINAL_ACCEPTED` (42_transfer_decode.md R192). -/
  feOnFinalAccepted : Bool
  /-- `SLEEP_EXACT` (60_exceptions.md R263). -/
  sleepExact : Bool
  daPolicy : DaPolicy
  tuneBusKey : BusKey
  /-- The switch of 40_master_control.md R135: `true` is the spec's choice D18. -/
  faultedForcesReset : Bool
  deriving DecidableEq, Repr

/-- The reference values of R6. The three offsets and the default bus count are OPEN there: DESIGN CHOICE, log 3. -/
def Config.reference : Config where
  layout := Layout.reference
  reqOff := 0
  csrOff := 4
  rspOff := 8
  defaultBusCount := 8
  maxBusCount := 16
  progress := .eitherCount
  feOnFinalAccepted := true
  sleepExact := false
  daPolicy := DaPolicy.reference
  tuneBusKey := .external
  faultedForcesReset := true

/-- What R61 and R63 ask of the offsets: multiples of 4, pairwise distinct. -/
abbrev Config.offsetsOk (c : Config) : Prop :=
  c.reqOff % 4 = 0 ∧ c.csrOff % 4 = 0 ∧ c.rspOff % 4 = 0 ∧
    c.reqOff ≠ c.csrOff ∧ c.reqOff ≠ c.rspOff ∧ c.csrOff ≠ c.rspOff

/-- FREE VALUE (log 4): the word the engine answers to a read of register `r` by the Master of creation `life`, given
everything that has happened on it and the time (20_memory.md R66, U1). No two Masters have one `life`, and a history only
grows, so no two reads of a run share a value. -/
opaque Config.engineWord (r : PortReg) (life : Nat) (hist : List Event) (time : Nat) : Word

/-- FREE VALUE (logs 5 and 7): the n-th number drawn for the Master of creation `life`: by how much a Sleep overshoots or time
advances between two steps (60_exceptions.md R263), or which waiting command gets the lock (20_memory.md R74). -/
opaque Config.freeDraw (life : Nat) (n : Nat) : Nat

/-- FREE VALUE (log 12): the n-th external bus number the host framework hands out (10_state.md R26). -/
opaque Config.freeAdap (n : Nat) : Nat

/-- FREE VALUE (log 6): which of the agents that can move takes the n-th turn. -/
opaque Config.freeTurn (n : Nat) : Nat

/-- FREE VALUE (log 6): after how many of its accesses the n-th turn of a command is cut short, if it is (20_memory.md R77). -/
opaque Config.freeCut (n : Nat) : Option Nat

end Sys2Proof
end

