-- ==== Sys2Proof/Syntax.lean ====
section
/-! DEFINITION. The records of the three word formats (10_state.md R36, R38, R40), the message (R41), and the ONE
inductive of everything the opcode table lists: the seven request items, the two data formats, the host's commands and
the block's primitives. -/

namespace Sys2Proof

/-- The request item (10_state.md R38). -/
structure ReqItem where
  ti : BitVec 4
  bs : BitVec 4
  st : Bool
  sp : Bool
  dod : Bool
  da : Bool
  br : Bool
  ed : Bool
  t : BitVec 2
  dat : BitVec 2
  d : Byte
  ss : BitVec 10
  deriving DecidableEq, Repr

/-- The response item (10_state.md R40). -/
structure Rsp where
  ti : BitVec 4
  fe : Bool
  ovf : Bool
  ackError : Bool
  timeoutError : Bool
  busConflictError : Bool
  flushed : Bool
  d : Byte
  deriving DecidableEq, Repr

/-- The control/status register (10_state.md R36). -/
structure Csr where
  reset : Bool
  fe : Bool
  ver : BitVec 2
  brb : Bool
  nrq : BitVec 10
  nrs : BitVec 10
  fsz : BitVec 2
  foe : Bool
  sp : BitVec 2
  rsv : BitVec 2
  deriving DecidableEq, Repr

/-- A message of a TRANSFER (10_state.md R41). `buf` is where its buffer begins in host memory and `cap` the buffer's
capacity in bytes (log 11). -/
structure Message where
  addr : Nat
  read : Bool
  tenBit : Bool
  vlr : Bool
  noStart : Bool
  buf : Nat
  cap : Nat
  length : Nat
  deriving DecidableEq, Repr

/-- Where a word stands: a request item's place in its session (30_encoding.md R93, R96, R97), or the register and the
direction of a data word (R98, R101). The words themselves do not tell. -/
inductive Slot where
  | addrFirst
  | addrLater
  | writeData
  | readData
  | blockLength
  | contFirst
  | contLater
  | response
  | statusRead
  | statusWrite
  deriving DecidableEq, Repr

/-- One constructor per row of spec/opcode_table.json, in the table's order. -/
inductive Instr where
  /-- `ADDR.F`: the address item of message 0 (41_transfer_encode.md R167). -/
  | addrF (bs : BitVec 4) (sp : Bool) (t dat : BitVec 2) (ss : BitVec 10) (d : Byte)
  /-- `ADDR.N`: the address item of a later message (R167). -/
  | addrN (bs : BitVec 4) (sp : Bool) (t dat : BitVec 2) (ti : BitVec 4) (d : Byte)
  /-- `WDATA.N`: a data item of a write message (R168). -/
  | wdataN (bs : BitVec 4) (sp : Bool) (t dat : BitVec 2) (ti : BitVec 4) (d : Byte)
  /-- `RDATA.N`: a placeholder of a read message (R169). -/
  | rdataN (bs : BitVec 4) (sp da : Bool) (t dat : BitVec 2) (ti : BitVec 4)
  /-- `BRLEN.N`: the block-read item (R170). -/
  | brlenN (bs : BitVec 4) (sp ed : Bool) (t dat : BitVec 2) (ti : BitVec 4)
  /-- `CONT.F`: the first item of a continuation session (42_transfer_decode.md R203). -/
  | contF (bs : BitVec 4) (sp da : Bool) (t dat : BitVec 2) (ss : BitVec 10)
  /-- `CONT.N`: a later item of a continuation session (R203). -/
  | contN (bs : BitVec 4) (sp da : Bool) (t dat : BitVec 2) (ti : BitVec 4)
  /-- `RSP`: a word read from the response register (30_encoding.md R100, 42_transfer_decode.md R193). -/
  | rsp (r : Rsp)
  /-- `CSR`: a word read from (`write` false) or written to (`write` true) the control/status register (R104). -/
  | csr (write : Bool) (c : Csr)
  /-- `TRANSFER` (41_transfer_encode.md R160): a bus handle and the message list. -/
  | transfer (handle : Nat) (msgs : List Message)
  /-- `CAPS` (43_params_and_commands.md R224). -/
  | caps (handle : Nat)
  /-- `TUNE` (R221): the text line as it came. -/
  | tune (line : List Char)
  /-- `DUMP` (R223). -/
  | dump
  /-- `CREATE` (R225): register address, master-id, bus count if given. -/
  | create (regAddr masterId : Nat) (busCount : Option Nat)
  /-- `TEARDOWN` (R226). -/
  | teardown (masterId : Nat)
  /-- `open` (R227): the external identity of a bus. -/
  | openBus (adap : Nat)
  /-- `reset` (40_master_control.md R132). -/
  | resetEngine
  /-- `enter` (R134): the requested force-one-error flag. -/
  | enter (forceOneError : Bool)
  /-- `leave` (R136). -/
  | leave (hadError : Bool)
  /-- `wait_for_completion` (R140). -/
  | waitForCompletion (bs : BitVec 4) (addr : BitVec 7)
  /-- `validate` (42_transfer_decode.md R190). -/
  | validate (r : Rsp) (e : BitVec 4) (isLast : Bool)
  /-- `lookup` (43_params_and_commands.md R220): a bus handle and a device address. -/
  | lookup (handle : Nat) (addr : BitVec 7)
  deriving DecidableEq, Repr

end Sys2Proof
end

