-- ==== Sys2Proof/WellFormed.lean ====
section
/-! DEFINITION. Well-formed instructions. The widths of 30_encoding.md R95 are in the types; what is left of that rule is
the session size of a first item. The inputs a TRANSFER, a CREATE or a tuning line may not hold are no matter of form:
they are refused or rejected by the meanings (41_transfer_encode.md R162, 43_params_and_commands.md R222, R225). -/

namespace Sys2Proof

/-- 30_encoding.md R95: a first item carries a session size of at least 1 (and at most 1023, by its width). -/
def Instr.wf : Instr → Bool
  | .addrF _ _ _ _ ss _ => ss != 0
  | .addrN _ _ _ _ _ _ => true
  | .wdataN _ _ _ _ _ _ => true
  | .rdataN _ _ _ _ _ _ => true
  | .brlenN _ _ _ _ _ _ => true
  | .contF _ _ _ _ _ ss => ss != 0
  | .contN _ _ _ _ _ _ => true
  | .rsp _ => true
  | .csr _ _ => true
  | .transfer _ _ => true
  | .caps _ => true
  | .tune _ => true
  | .dump => true
  | .create _ _ _ => true
  | .teardown _ => true
  | .openBus _ => true
  | .resetEngine => true
  | .enter _ => true
  | .leave _ => true
  | .waitForCompletion _ _ => true
  | .validate _ _ _ => true
  | .lookup _ _ => true

end Sys2Proof
end

