-- ==== Sys2Proof/Decode.lean ====
section
/-! DEFINITION. The formats of 30_encoding.md under any layout: packing and unpacking of the three words, the decoder of a
word at its slot and of the text lines, the encoder. Every function is total. A word that does not fit its slot, a short
input and a malformed creation line are rejected by name. -/

namespace Sys2Proof

/-! ### The three words -/

/-- The word with value `v` in the field `f` and nothing else: bits of `v` beyond the field's width are no part of it. -/
def place (f : Span) (v : Nat) : Word := BitVec.ofNat 32 (v % 2 ^ f.2) <<< f.1

/-- Values in their fields, every other bit 0. -/
def packFields : List Span → List Nat → Word
  | f :: fs, v :: vs => place f v ||| packFields fs vs
  | _, _ => 0#32

/-- The word of a request item (30_encoding.md R94): on the first item of a session it holds the session size, on every other
the transfer index (R93). -/
def reqWord (p : ReqPlaces) (it : ReqItem) (first : Bool) : Word :=
  packFields (p.spans first)
    [it.bs.toNat, it.st.toNat, it.sp.toNat, it.dod.toNat, it.da.toNat, it.br.toNat, it.ed.toNat, it.t.toNat, it.dat.toNat,
      if first then it.ss.toNat else it.ti.toNat, it.d.toNat]

/-- The well-formed items, at a position (30_encoding.md R95): a first item has index 0 and a size of at least 1 that the
layout can hold, any other has no size. The other ranges of the rule are the fields' widths. -/
def reqOk (p : ReqPlaces) (it : ReqItem) (first : Bool) : Bool :=
  if first then it.ti == 0 && it.ss != 0 && decide (it.ss.toNat < 2 ^ p.ssWidth) else it.ss == 0

/-- `packReq(it, first)` (R94), defined exactly on the well-formed items (R91 (d)). -/
def packReq (p : ReqPlaces) (it : ReqItem) (first : Bool) : Option Word :=
  if reqOk p it first then some (reqWord p it first) else none

/-- `unpackReq(word, first)` (R94): the inverse, for a reader that knows the position. On a first item the transfer index
is 0 by definition, on any other the session size is not carried (R93). -/
def unpackReq (p : ReqPlaces) (w : Word) (first : Bool) : ReqItem where
  ti := if first then 0#4 else w.extractLsb' p.ti 4
  bs := w.extractLsb' p.bs 4
  st := w.getLsbD p.st
  sp := w.getLsbD p.sp
  dod := w.getLsbD p.dod
  da := w.getLsbD p.da
  br := w.getLsbD p.br
  ed := w.getLsbD p.ed
  t := w.extractLsb' p.t 2
  dat := w.extractLsb' p.dat 2
  d := w.extractLsb' p.d 8
  ss := if first then (w.extractLsb' p.ss p.ssWidth).setWidth 10 else 0#10

/-- `unpackRsp(w)` (R100): total, the reserved bits dropped (R99). -/
def unpackRsp (p : RspPlaces) (w : Word) : Rsp where
  ti := w.extractLsb' p.ti 4
  fe := w.getLsbD p.fe
  ovf := w.getLsbD p.ovf
  ackError := w.getLsbD p.ackError
  timeoutError := w.getLsbD p.timeoutError
  busConflictError := w.getLsbD p.busConflictError
  flushed := w.getLsbD p.flushed
  d := w.extractLsb' p.d 8

/-- `packRsp` (R100): the reserved bits zero. -/
def packRsp (p : RspPlaces) (r : Rsp) : Word :=
  packFields p.spans
    [r.ti.toNat, r.fe.toNat, r.ovf.toNat, r.ackError.toNat, r.timeoutError.toNat, r.busConflictError.toNat,
      r.flushed.toNat, r.d.toNat]

/-- `unpackCsr(w)` (R104): total, the reserved bits kept in `rsv` (R102). -/
def unpackCsr (p : CsrPlaces) (w : Word) : Csr where
  reset := w.getLsbD p.reset
  fe := w.getLsbD p.fe
  ver := w.extractLsb' p.ver 2
  brb := w.getLsbD p.brb
  nrq := w.extractLsb' p.nrq 10
  nrs := w.extractLsb' p.nrs 10
  fsz := w.extractLsb' p.fsz 2
  foe := w.getLsbD p.foe
  sp := w.extractLsb' p.sp 2
  rsv := BitVec.ofBool (w.getLsbD p.rsvHigh) ++ BitVec.ofBool (w.getLsbD p.rsvLow)

/-- `packCsr(c)` (R104). -/
def packCsr (p : CsrPlaces) (c : Csr) : Word :=
  packFields p.spans
    [c.reset.toNat, c.fe.toNat, c.ver.toNat, c.brb.toNat, c.nrq.toNat, c.nrs.toNat, c.fsz.toNat, c.foe.toNat, c.sp.toNat,
      (c.rsv.getLsbD 1).toNat, (c.rsv.getLsbD 0).toNat]

/-! ### The seven item kinds as records (30_encoding.md R96) -/

/-- `ADDR.F`: `bbbb 1 p 0 1 0 0 tt qq ssssssssss dddddddd`. -/
def addrFItem (bs : BitVec 4) (sp : Bool) (t dat : BitVec 2) (ss : BitVec 10) (d : Byte) : ReqItem :=
  { ti := 0, bs, st := true, sp, dod := false, da := true, br := false, ed := false, t, dat, d, ss }

/-- `ADDR.N`: `bbbb 0 p 0 1 0 0 tt qq 000000iiii dddddddd`. -/
def addrNItem (bs : BitVec 4) (sp : Bool) (t dat : BitVec 2) (ti : BitVec 4) (d : Byte) : ReqItem :=
  { ti, bs, st := false, sp, dod := false, da := true, br := false, ed := false, t, dat, d, ss := 0 }

/-- `WDATA.N`: `bbbb 0 p 0 1 0 0 tt qq 000000iiii dddddddd`. -/
def wdataNItem (bs : BitVec 4) (sp : Bool) (t dat : BitVec 2) (ti : BitVec 4) (d : Byte) : ReqItem :=
  { ti, bs, st := false, sp, dod := false, da := true, br := false, ed := false, t, dat, d, ss := 0 }

/-- `RDATA.N`: `bbbb 0 p 1 a 0 0 tt qq 000000iiii 00000000`. -/
def rdataNItem (bs : BitVec 4) (sp da : Bool) (t dat : BitVec 2) (ti : BitVec 4) : ReqItem :=
  { ti, bs, st := false, sp, dod := true, da, br := false, ed := false, t, dat, d := 0, ss := 0 }

/-- `BRLEN.N`: `bbbb 0 p 1 1 1 e tt qq 000000iiii 00000000`. -/
def brlenNItem (bs : BitVec 4) (sp ed : Bool) (t dat : BitVec 2) (ti : BitVec 4) : ReqItem :=
  { ti, bs, st := false, sp, dod := true, da := true, br := true, ed, t, dat, d := 0, ss := 0 }

/-- `CONT.F`: `bbbb 0 p 1 a 0 0 tt qq ssssssssss 00000000`. -/
def contFItem (bs : BitVec 4) (sp da : Bool) (t dat : BitVec 2) (ss : BitVec 10) : ReqItem :=
  { ti := 0, bs, st := false, sp, dod := true, da, br := false, ed := false, t, dat, d := 0, ss }

/-- `CONT.N`: `bbbb 0 p 1 a 0 0 tt qq 000000iiii 00000000`. -/
def contNItem (bs : BitVec 4) (sp da : Bool) (t dat : BitVec 2) (ti : BitVec 4) : ReqItem :=
  { ti, bs, st := false, sp, dod := true, da, br := false, ed := false, t, dat, d := 0, ss := 0 }

/-! ### Decoding a word -/

/-- Why an input does not decode. -/
inductive DecodeError where
  /-- A fixed bit of the slot's row does not match. -/
  | fixedBits
  /-- Fewer bytes than a word. -/
  | shortInput
  /-- A line that begins `smbus_master` and is no creation line (30_encoding.md R111). -/
  | malformedCreateLine
  /-- Nothing to decode: the input is no instruction. -/
  | noInstruction
  deriving DecidableEq, Repr

/-- An instruction read from a word, if the word has the fixed bits of its row: if it is that item's word. -/
def readAs (p : ReqPlaces) (w : Word) (first : Bool) (it : ReqItem) (i : Instr) : Except DecodeError Instr :=
  if reqWord p it first = w then .ok i else .error .fixedBits

/-- The instruction that word `w` is at slot `sl` (30_encoding.md R93, R96, R98, R101): the fields are taken, and the fixed
bits of the slot's row must be as its format has them. -/
def decodeAt (l : Layout) (sl : Slot) (w : Word) : Except DecodeError Instr :=
  let a := unpackReq l.req w true
  let n := unpackReq l.req w false
  match sl with
  | .addrFirst => readAs l.req w true (addrFItem a.bs a.sp a.t a.dat a.ss a.d) (.addrF a.bs a.sp a.t a.dat a.ss a.d)
  | .addrLater => readAs l.req w false (addrNItem n.bs n.sp n.t n.dat n.ti n.d) (.addrN n.bs n.sp n.t n.dat n.ti n.d)
  | .writeData => readAs l.req w false (wdataNItem n.bs n.sp n.t n.dat n.ti n.d) (.wdataN n.bs n.sp n.t n.dat n.ti n.d)
  | .readData => readAs l.req w false (rdataNItem n.bs n.sp n.da n.t n.dat n.ti) (.rdataN n.bs n.sp n.da n.t n.dat n.ti)
  | .blockLength =>
    readAs l.req w false (brlenNItem n.bs n.sp n.ed n.t n.dat n.ti) (.brlenN n.bs n.sp n.ed n.t n.dat n.ti)
  | .contFirst => readAs l.req w true (contFItem a.bs a.sp a.da a.t a.dat a.ss) (.contF a.bs a.sp a.da a.t a.dat a.ss)
  | .contLater => readAs l.req w false (contNItem n.bs n.sp n.da n.t n.dat n.ti) (.contN n.bs n.sp n.da n.t n.dat n.ti)
  | .response => .ok (.rsp (unpackRsp l.rsp w))
  | .statusRead => .ok (.csr false (unpackCsr l.csr w))
  | .statusWrite => .ok (.csr true (unpackCsr l.csr w))

/-- The rows of the opcode table that have a word, by their slots, in the table's order. -/
def tableSlots : List Slot := [.addrFirst, .addrLater, .writeData, .readData, .blockLength, .contFirst, .contLater, .response]

/-- The slot taken for a word of which nothing but its bits is known: the first row of the opcode table, in the table's
order, whose fixed bits the word has. Every word fits the row RSP (DESIGN CHOICE, log 10). -/
def tableSlot (l : Layout) (w : Word) : Slot :=
  (tableSlots.find? (fun sl => match decodeAt l sl w with | .ok _ => true | .error _ => false)).getD .response

/-- The four bytes of a word, the least significant first (log 9: no rule of the block sees the order, 20_memory.md R64). -/
def wordBytes (w : Word) : List Byte :=
  [w.extractLsb' 0 8, w.extractLsb' 8 8, w.extractLsb' 16 8, w.extractLsb' 24 8]

/-- Decoding from bytes: the instruction at slot `sl` and the bytes after it. -/
def decode (l : Layout) (sl : Slot) : List Byte → Except DecodeError (Instr × List Byte)
  | b0 :: b1 :: b2 :: b3 :: rest =>
    match decodeAt l sl (b3 ++ b2 ++ b1 ++ b0 : BitVec 32) with
    | .ok i => .ok (i, rest)
    | .error e => .error e
  | _ => .error .shortInput

/-- The instruction the decoder reads from `nbits` table bits of value `w`, at the slot `tableSlot` gives the word. The table's
bits are those of the reference layout. -/
def decodeTableWord (nbits w : Nat) : Option Instr :=
  if nbits = 0 || nbits > 32 then none
  else
    let word := BitVec.ofNat 32 (w % 2 ^ nbits)
    match decode .reference (tableSlot .reference word) (wordBytes word) with
    | .ok (i, _) => some i
    | .error _ => none

/-! ### Text lines (30_encoding.md R109, R111) -/

/-- White space between fields: space, tab, line feed, vertical tab, form feed, carriage return (PRESUMED, log 19). -/
def isBlank (c : Char) : Bool := c.toNat == 32 || (9 ≤ c.toNat && c.toNat ≤ 13)

/-- The fields of a line, `cur` the one being read. -/
def fieldsFrom (cur : List Char) : List Char → List (List Char)
  | [] => if cur.isEmpty then [] else [cur]
  | c :: cs =>
    if isBlank c then (if cur.isEmpty then fieldsFrom [] cs else cur :: fieldsFrom [] cs)
    else fieldsFrom (cur ++ [c]) cs

/-- The fields of a line "separated by white space". -/
def fields (line : List Char) : List (List Char) := fieldsFrom [] line

/-- The value of a digit in a base; hexadecimal letters in either case (PRESUMED, log 19). -/
def digitValue (base : Nat) (c : Char) : Option Nat :=
  let n := c.toNat
  let v := if 48 ≤ n && n ≤ 57 then n - 48 else if 97 ≤ n && n ≤ 102 then n - 87 else if 65 ≤ n && n ≤ 70 then n - 55 else 16
  if v < base then some v else none

/-- The number a string of digits writes, read on from `acc`. -/
def digitsFrom (base acc : Nat) : List Char → Option Nat
  | [] => some acc
  | c :: cs =>
    match digitValue base c with
    | some v => digitsFrom base (acc * base + v) cs
    | none => none

/-- One integer of a line: "0x-prefixed hex or decimal" (R109). A field without a digit is no number. -/
def parseNumber : List Char → Option Nat
  | [] => none
  | [c] => digitsFrom 10 0 [c]
  | c0 :: c1 :: cs =>
    if c0 == '0' && c1 == 'x' then (if cs.isEmpty then none else digitsFrom 16 0 cs)
    else digitsFrom 10 0 (c0 :: c1 :: cs)

/-- The six integers of a tuning line. -/
structure TuneNumbers where
  bus : Nat
  addr : Nat
  t : Nat
  datr : Nat
  datw : Nat
  ed : Nat
  deriving DecidableEq, Repr

/-- `<bus> <address> <t> <datr> <datw> <ed>`: six numbers, neither fewer nor more, else the line is malformed (R109). -/
def parseTuneLine (line : List Char) : Option TuneNumbers :=
  match fields line with
  | [f0, f1, f2, f3, f4, f5] =>
    match parseNumber f0, parseNumber f1, parseNumber f2, parseNumber f3, parseNumber f4, parseNumber f5 with
    | some b, some a, some t, some r, some w, some e => some ⟨b, a, t, r, w, e⟩
    | _, _, _, _, _, _ => none
  | _ => none

/-- The word that begins a creation line. -/
def createWord : List Char := ['s', 'm', 'b', 'u', 's', '_', 'm', 'a', 's', 't', 'e', 'r']

/-- A text line: `smbus_master <register-address> <master-id> [<bus-count>]` (R111), else a tuning line, which is passed on
as it came because a malformed one is rejected by TUNE, not here (43_params_and_commands.md R222). R111 gives the fields of a
creation line no base: they are read as R109 reads those of a tuning line (DEDUCED, log 19). -/
def decodeLine (line : List Char) : Except DecodeError Instr :=
  match fields line with
  | [] => .ok (.tune line)
  | w :: rest =>
    if w == createWord then
      match rest with
      | [a, m] =>
        match parseNumber a, parseNumber m with
        | some a, some m => .ok (.create a m none)
        | _, _ => .error .malformedCreateLine
      | [a, m, n] =>
        match parseNumber a, parseNumber m, parseNumber n with
        | some a, some m, some n => .ok (.create a m (some n))
        | _, _, _ => .error .malformedCreateLine
      | _ => .error .malformedCreateLine
    else .ok (.tune line)

/-! ### Encoding -/

/-- The slot of an instruction that has a word. -/
def slotOf : Instr → Option Slot
  | .addrF _ _ _ _ _ _ => some .addrFirst
  | .addrN _ _ _ _ _ _ => some .addrLater
  | .wdataN _ _ _ _ _ _ => some .writeData
  | .rdataN _ _ _ _ _ _ => some .readData
  | .brlenN _ _ _ _ _ _ => some .blockLength
  | .contF _ _ _ _ _ _ => some .contFirst
  | .contN _ _ _ _ _ _ => some .contLater
  | .rsp _ => some .response
  | .csr write _ => some (if write then .statusWrite else .statusRead)
  | .transfer _ _ => none
  | .caps _ => none
  | .tune _ => none
  | .dump => none
  | .create _ _ _ => none
  | .teardown _ => none
  | .openBus _ => none
  | .resetEngine => none
  | .enter _ => none
  | .leave _ => none
  | .waitForCompletion _ _ => none
  | .validate _ _ _ => none
  | .lookup _ _ => none

/-- The words of an instruction, from the tables of 30_encoding.md: one for the rows that have a bit pattern, none for the
operations the table gives no encoding. -/
def encode (l : Layout) : Instr → List Word
  | .addrF bs sp t dat ss d => [reqWord l.req (addrFItem bs sp t dat ss d) true]
  | .addrN bs sp t dat ti d => [reqWord l.req (addrNItem bs sp t dat ti d) false]
  | .wdataN bs sp t dat ti d => [reqWord l.req (wdataNItem bs sp t dat ti d) false]
  | .rdataN bs sp da t dat ti => [reqWord l.req (rdataNItem bs sp da t dat ti) false]
  | .brlenN bs sp ed t dat ti => [reqWord l.req (brlenNItem bs sp ed t dat ti) false]
  | .contF bs sp da t dat ss => [reqWord l.req (contFItem bs sp da t dat ss) true]
  | .contN bs sp da t dat ti => [reqWord l.req (contNItem bs sp da t dat ti) false]
  | .rsp r => [packRsp l.rsp r]
  | .csr _ c => [packCsr l.csr c]
  | .transfer _ _ => []
  | .caps _ => []
  | .tune _ => []
  | .dump => []
  | .create _ _ _ => []
  | .teardown _ => []
  | .openBus _ => []
  | .resetEngine => []
  | .enter _ => []
  | .leave _ => []
  | .waitForCompletion _ _ => []
  | .validate _ _ _ => []
  | .lookup _ _ => []

/-- The digits of `n` in base 10, put before `acc`; `fuel` bounds their number. -/
def decimalFrom (fuel n : Nat) (acc : List Char) : List Char :=
  match fuel with
  | 0 => acc
  | f + 1 => if n < 10 then Nat.digitChar n :: acc else decimalFrom f (n / 10) (Nat.digitChar (n % 10) :: acc)

/-- A number in decimal (30_encoding.md R110). -/
def decimal (n : Nat) : List Char := decimalFrom (n + 1) n []

/-- Two lower-case hexadecimal digits without prefix (R110). -/
def hex2 (n : Nat) : List Char := [Nat.digitChar (n / 16 % 16), Nat.digitChar (n % 16)]

/-- The text of an instruction that is a line, with numbers in decimal. -/
def encodeLine : Instr → Option (List Char)
  | .tune line => some line
  | .create a m none => some (createWord ++ [' '] ++ decimal a ++ [' '] ++ decimal m)
  | .create a m (some n) => some (createWord ++ [' '] ++ decimal a ++ [' '] ++ decimal m ++ [' '] ++ decimal n)
  | .addrF _ _ _ _ _ _ => none
  | .addrN _ _ _ _ _ _ => none
  | .wdataN _ _ _ _ _ _ => none
  | .rdataN _ _ _ _ _ _ => none
  | .brlenN _ _ _ _ _ _ => none
  | .contF _ _ _ _ _ _ => none
  | .contN _ _ _ _ _ _ => none
  | .rsp _ => none
  | .csr _ _ => none
  | .transfer _ _ => none
  | .caps _ => none
  | .dump => none
  | .teardown _ => none
  | .openBus _ => none
  | .resetEngine => none
  | .enter _ => none
  | .leave _ => none
  | .waitForCompletion _ _ => none
  | .validate _ _ _ => none
  | .lookup _ _ => none

end Sys2Proof
end

