-- ==== Sys2Proof/Machine/State.lean ====
section
/-! DEFINITION. The state of the machine: everything the spec gives the block (10_state.md), the Masters and their buses,
the host's memory, what the host presents and what it gets back, and the plain data that stands for the engine's answers,
the passing of time and the order of the agents. -/

namespace Sys2Proof.Machine

/-! ### Parts of a Master -/

/-- `x[mc]` (10_state.md R24). -/
inductive McState where
  | idle
  | entering
  | ready
  | faulted
  deriving DecidableEq, Repr

/-- `x[lock]` (R22): `held` carries the identity of the command that holds it. -/
inductive Lock where
  | free
  | held (owner : Nat)
  deriving DecidableEq, Repr

/-- The phase of the sequencer (R31). The last two are the model's own: what a TEARDOWN does after its lock
(43_params_and_commands.md R226, log 18). -/
inductive Phase where
  | idle
  | precheck
  | lock
  | size
  | enter
  | capchk
  | encode
  | wait
  | decode
  | contEncode
  | contWait
  | leave
  | unlock
  | tearReset
  | tearDestroy
  deriving DecidableEq, Repr

/-! Where a primitive of Master Control stands: its next access. Between two accesses the block of another Master may move
(20_memory.md R77). -/

/-- In `reset()` (40_master_control.md R132). -/
inductive ResetSpot where
  /-- The read of CSR. -/
  | read
  /-- The write of the value `c` read, with `reset` and `foe` set. -/
  | write (c : Csr)
  /-- `Sleep` of the first of the backoff slots left; none left, the recovery has failed. -/
  | sleep (slots : List Nat)
  /-- Asleep for `d`, `slots` left after it. -/
  | wake (d : Nat) (slots : List Nat)
  /-- The re-read of CSR. -/
  | poll (slots : List Nat)
  deriving DecidableEq, Repr

/-- In `enter()` (R134, R135). -/
inductive EnterSpot where
  | start
  /-- In the reset() that a `Faulted` Master begins with. -/
  | recover (at_ : ResetSpot)
  /-- The read of CSR. -/
  | read
  /-- In the reset() of a dirty engine. -/
  | clean (at_ : ResetSpot)
  /-- The test of the flags on the value read last, and the corrective write. -/
  | judge
  /-- The re-read after the corrective write. -/
  | confirm
  deriving DecidableEq, Repr

/-- In `leave()` (R136). -/
inductive LeaveSpot where
  | read
  /-- `n` responses still to be read and discarded. -/
  | drain (n : Nat)
  /-- The second read of CSR. -/
  | again
  /-- The write of the value `c` read, with `reset` set. -/
  | arm (c : Csr)
  deriving DecidableEq, Repr

/-- In `wait_for_completion()` (R140). -/
inductive WaitSpot where
  /-- `Now()` before the loop. -/
  | start
  /-- The read of CSR. -/
  | read
  /-- `Now()` and the tests on the value read, which stands in `x[cs]`. -/
  | test
  /-- The write-back that clears frame-empty. -/
  | clear
  /-- Asleep for `d`. -/
  | wake (d : Nat)
  deriving DecidableEq, Repr

/-- The spot in the primitive in progress, if one is. -/
inductive Spot where
  | outside
  | reset (at_ : ResetSpot)
  | enter (at_ : EnterSpot)
  | leave (at_ : LeaveSpot)
  | wait (at_ : WaitSpot)
  deriving DecidableEq, Repr

/-- What `validate` answers for a bad response (42_transfer_decode.md R190). -/
inductive Code where
  | ackError
  | timeoutError
  | busConflict
  | flushed
  | earlyFrameEmpty
  | indexMismatch
  deriving DecidableEq, Repr

/-- A diagnostic record (60_exceptions.md R253). -/
inductive DiagCode where
  | expectedNack
  | failed (c : Code)
  deriving DecidableEq, Repr

/-- The five kinds of failure the host sees (R250). -/
inductive Kind where
  | unsupported
  | sessionOverflow
  | timeout
  | ioFailure
  | framingProtocol
  deriving DecidableEq, Repr

/-- `x[err]`: a failure with its sub-cause and the value recorded with it (R251, R252). -/
inductive Failure where
  | unsupportedTenBit
  | unsupportedMultiBlockRead
  /-- `SessionOverflow(Declared)` with `x[ss]` and the capacity. -/
  | overflowDeclared (ss capacity : Nat)
  /-- `SessionOverflow(WaitOverflow)` with the CSR value read. -/
  | overflowWait (c : Csr)
  /-- `Timeout` with the CSR value last read. -/
  | timedOut (c : Csr)
  /-- `IOFailure(EnterFailed)` with the CSR value last read. -/
  | enterFailed (c : Csr)
  /-- `IOFailure` of a response, with the response word and the expected index. -/
  | badResponse (code : Code) (w : Word) (e : BitVec 4)
  /-- `FramingProtocol` with the announced length. -/
  | framing (n : Byte)
  deriving DecidableEq, Repr

/-- A Bus Parameter Record (10_state.md R28). -/
structure ParamRec where
  addr : BitVec 7
  t : BitVec 2
  datr : BitVec 2
  datw : BitVec 2
  ed : Bool
  deriving DecidableEq, Repr

/-- What a lookup answers (43_params_and_commands.md R220). -/
structure Params where
  t : BitVec 2
  datr : BitVec 2
  datw : BitVec 2
  ed : Bool
  deriving DecidableEq, Repr

/-- A Logical Bus (10_state.md R26, R27). -/
structure Bus where
  busId : Nat
  handle : Nat
  /-- The external bus number, printed as `adap=`. -/
  adap : Nat
  registered : Bool
  params : List ParamRec
  deriving DecidableEq, Repr

/-- A command that waits for the lock (20_memory.md R74). `cmd` is its identity. -/
inductive Blocked where
  /-- A TRANSFER in phase LOCK. -/
  | transfer (cmd bus : Nat) (msgs : List Message)
  /-- A TUNE that has been accepted. -/
  | tune (cmd bus : Nat) (r : ParamRec)
  /-- A DUMP that has printed `lines` so far. -/
  | dump (cmd : Nat) (lines : List (List Char))
  /-- A lookup called by itself (log 14). -/
  | lookup (cmd bus : Nat) (addr : BitVec 7)
  /-- A TEARDOWN whose buses are unregistered. -/
  | teardown (cmd : Nat)
  deriving DecidableEq, Repr

/-- One Master: its configuration (R21), its state (R22 to R25), its sequencer and working registers (R30, R31; one set per
Master, 60_exceptions.md R265), its diagnostics (R43), and its view of the engine and of the clock. -/
structure Master where
  id : Nat
  /-- The model's own: which creation made it, the identity of its CREATE. The free values of two creations under one id have
  nothing to do with each other (10_state.md R47, 70_reset_and_hazards.md R281; log 4). -/
  life : Nat
  base : Nat
  busCount : Nat
  lock : Lock
  rid : Nat
  mc : McState
  buses : List Bus
  pc : Phase
  /-- The model's own: where the primitive of Master Control in progress stands. -/
  spot : Spot
  /-- The model's own: where a wait called by itself stands, if one is in progress (log 14). -/
  bare : Option WaitSpot
  /-- Message index and byte index (R31, R32). -/
  i : Nat
  j : Nat
  /-- The model's own: the walk has passed the address item of message `i`, or its response. -/
  ad : Bool
  ss : Nat
  k : Nat
  e : BitVec 4
  rem : Nat
  err : Option Failure
  cs : Csr
  ver : BitVec 2
  fsz : BitVec 2
  /-- `x[N]`. -/
  nAnn : Byte
  tLast : Nat
  prev : Option (BitVec 10 × BitVec 10)
  bus : Nat
  msgs : List Message
  diag : List DiagCode
  /-- Commands blocked on the lock. -/
  waiting : List Blocked
  /-- The clock as this Master's commands read it (log 5). -/
  time : Nat
  /-- Every access and sleep so far, oldest first. -/
  hist : List Event
  /-- The model's own (log 4): the next answers to reads of CSR and of RSP. When a list is empty the answer is the free
  value `Config.engineWord`. -/
  csrIn : List Word
  rspIn : List Word
  /-- The model's own (logs 5 and 7): the next free numbers; when empty, `Config.freeDraw`. -/
  draws : List Nat
  nDraw : Nat
  deriving DecidableEq, Repr

/-! ### Towards the host -/

/-- The capability names (43_params_and_commands.md R224). -/
inductive Capability where
  | quickCommand
  | byte
  | byteData
  | wordData
  | blockData
  | rawI2C
  | noStart
  deriving DecidableEq, Repr

/-- The result of a Master Control primitive (40_master_control.md). -/
inductive PrimResult where
  | ok
  | recoveryFailure
  | enterFailed
  | waitOverflow
  | waitTimeout
  deriving DecidableEq, Repr

/-- What a command or a primitive answers. -/
inductive Answer where
  /-- TRANSFER succeeded: the messages with their final lengths (10_state.md R42); the bytes are in host memory. -/
  | success (msgs : List Message)
  /-- TRANSFER failed: the kind and nothing else (R42, 60_exceptions.md R257). -/
  | failure (k : Kind)
  /-- TUNE. -/
  | accepted
  | rejected
  /-- DUMP: one line per record. -/
  | lines (ls : List (List Char))
  /-- CAPS. -/
  | capabilities (cs : List Capability)
  /-- CREATE: the Master exists. -/
  | created (masterId : Nat)
  /-- TEARDOWN: the Master is gone. -/
  | tornDown (masterId : Nat)
  /-- open. -/
  | handle (h : Nat)
  /-- reset, enter, wait_for_completion. -/
  | prim (r : PrimResult)
  /-- validate. -/
  | verdict (c : Option Code)
  /-- lookup. -/
  | params (p : Params)
  deriving DecidableEq, Repr

/-- An answer and the identity of the command it is for. -/
structure Reply where
  cmd : Nat
  answer : Answer
  deriving DecidableEq, Repr

/-- Who takes a step (10_state.md R20). -/
inductive Agent where
  /-- The host presents the next of its inputs. -/
  | host
  /-- The block of this Master goes on with its command, or gives its freed lock. -/
  | master (id : Nat)
  /-- The engine or the clock: nothing of the block changes (10_state.md R20). -/
  | world
  deriving DecidableEq, Repr

/-- What the host presents. -/
inductive Input where
  /-- A word of the three formats, at its slot. -/
  | word (sl : Slot) (w : Word)
  /-- A text line: a tuning line or a creation line. -/
  | line (text : List Char)
  /-- An operation that the opcode table gives no bits. -/
  | op (i : Instr)
  /-- No command: the host stores bytes in its own memory, from `addr` on (20_memory.md R70, R71; log 17). -/
  | fill (addr : Nat) (bytes : List Byte)
  deriving DecidableEq, Repr

/-! ### Stops -/

/-- The machine never stops with a fault: the block's failures are next states (60_exceptions.md R256), and a command that
waits for ever (00_scope.md R10) leaves the other agents their steps. -/
inductive Fault where
  deriving DecidableEq, Repr

/-- The spec gives no meaning (00_scope.md R10; 93_implementation_defined.md section 4). All are safe: the model has no step
and proves nothing about it. -/
inductive Refusal where
  /-- Raised by `exec` for an instruction whose meaning is not written yet. Safe. -/
  | notModelled (mnemonic : String)
  /-- Raised by the host's turn: its input does not decode. Safe. -/
  | undecodable
  /-- Raised by the host's turn: the instruction is not well formed (30_encoding.md R95). Safe. -/
  | illFormed
  /-- Raised by an item, a data word or a primitive when no Master is in hand (43_params_and_commands.md R226). Safe. -/
  | noMasterInHand
  /-- Raised by an item, a data word or a primitive of Master Control when nobody holds the lock (40_master_control.md,
  opening; 20_memory.md R75; 60_exceptions.md R261). Safe. -/
  | lockNotHeld
  /-- F1, raised by TRANSFER: the handle names no registered bus (41_transfer_encode.md R162). Safe. -/
  | busNotRegistered
  /-- F2, raised by TRANSFER: empty message list. Safe. -/
  | emptyMessageList
  /-- F3, raised by TRANSFER: an address above 0x7F. Safe. -/
  | addressOutOfRange
  /-- F4, raised by TRANSFER: `vlr` on a write message. Safe. -/
  | vlrOnWrite
  /-- F5, raised by TRANSFER: `vlr` with length 0. Safe. -/
  | vlrLengthZero
  /-- F6, raised by TRANSFER: `no_start` on message 0. Safe. -/
  | noStartFirst
  /-- F7, raised by TRANSFER and by a buffer access: the buffer is too small (20_memory.md R70). Safe. -/
  | bufferTooSmall
  /-- F8, raised by TRANSFER: a bus identity of 16 or more. Safe. -/
  | busIdTooWide
  /-- F9, raised while decoding: under protocol version below 2 the block-read item is not the last of its session
  (42_transfer_decode.md R202). Safe. -/
  | blockReadNotLast
  /-- F13, raised by a request item and by the phases ENCODE and CONT_ENCODE: an item that the layout cannot encode
  (30_encoding.md R91 (d), R95). Safe. -/
  | notEncodable
  /-- F10, raised by the host's turn: it stores into a buffer of a TRANSFER that has not returned (20_memory.md R76). Safe. -/
  | bufferChanged
  /-- F11, raised by CREATE: a bus count of 0 or above the largest (43_params_and_commands.md R225). Safe. -/
  | busCountOutOfRange
  /-- F11, raised by CREATE: the master-id is in use. Safe. -/
  | masterIdInUse
  /-- F11, raised by CREATE: a misaligned register address (20_memory.md R63). Safe. -/
  | misalignedAddress
  /-- F11, raised by CREATE: a register shared with another Master, or two of its own at one address (R61, R68). Safe. -/
  | sharedAddress
  /-- F12, raised by open and by lookup: no such registered bus (43_params_and_commands.md R227). Safe. -/
  | noSuchBus
  /-- Raised by TEARDOWN: no such Master (R226: "After TEARDOWN the Master has no state and every command on it is refused").
  Safe. -/
  | noSuchMaster
  deriving DecidableEq, Repr

/-! ### The state -/

/-- Host memory: byte cells, addresses strictly rising, none listed that reads as an unlisted one does (log 11). -/
abbrev Memory := List Host.Cell

/-- The whole machine. -/
structure State where
  /-- Configuration: no step changes it (10_state.md R48). -/
  cfg : Config
  /-- The Masters by rising id (43_params_and_commands.md R227). -/
  masters : List Master
  /-- Host memory (10_state.md R46). -/
  mem : Memory
  /-- The Master in hand (00_scope.md R8): the one that items and primitives act on. -/
  inHand : Nat
  /-- What the host presents, oldest first. -/
  inbox : List Input
  /-- What the host has been answered, oldest first. -/
  replies : List Reply
  nextCmd : Nat
  nextHandle : Nat
  /-- The model's own (log 6): whose turns come next, and after how many of its accesses each is cut short, if it is; when
  empty, `Config.freeTurn` and `Config.freeCut` choose. -/
  sched : List (Agent × Option Nat)
  nTurn : Nat
  /-- The model's own (log 6): after how many of its accesses the turn in hand is cut short, if it is (20_memory.md R77). -/
  cut : Option Nat
  /-- The model's own (log 12): the next external bus numbers; when empty, `Config.freeAdap`. -/
  adapIn : List Nat
  nAdap : Nat
  deriving DecidableEq, Repr

/-- A control/status record with every field 0. -/
def Csr.zero : Csr :=
  { reset := false, fe := false, ver := 0, brb := false, nrq := 0, nrs := 0, fsz := 0, foe := false, sp := 0, rsv := 0 }

/-- A Master directly after its creation (10_state.md R47): lock free, identifier 0, state Idle, the buses given, no
register touched. The working registers, which R47 leaves unspecified, are 0 or empty: DESIGN CHOICE, log 2. -/
def Master.fresh (id life base : Nat) (buses : List Bus) : Master where
  id := id
  life := life
  base := base
  busCount := buses.length
  lock := .free
  rid := 0
  mc := .idle
  buses := buses
  pc := .idle
  spot := .outside
  bare := none
  i := 0
  j := 0
  ad := false
  ss := 0
  k := 0
  e := 0
  rem := 0
  err := none
  cs := Csr.zero
  ver := 0
  fsz := 0
  nAnn := 0
  tLast := 0
  prev := none
  bus := 0
  msgs := []
  diag := []
  waiting := []
  time := 0
  hist := []
  csrIn := []
  rspIn := []
  draws := []
  nDraw := 0

/-- A registered bus with an empty store. -/
def Bus.fresh (busId handle adap : Nat) : Bus :=
  { busId, handle, adap, registered := true, params := [] }

/-- The machine right after reset: one Master just created, since creation is the block's reset (10_state.md R47,
70_reset_and_hazards.md R280). Its operands are those of the example of 43_params_and_commands.md R225,
`smbus_master 0x8000 1 4`: DESIGN CHOICE, log 1. -/
def State.reset : State where
  cfg := Config.reference
  masters := [Master.fresh 1 0 0x8000 [Bus.fresh 0 0 0, Bus.fresh 1 1 1, Bus.fresh 2 2 2, Bus.fresh 3 3 3]]
  mem := []
  inHand := 1
  inbox := []
  replies := []
  nextCmd := 1
  nextHandle := 4
  sched := []
  nTurn := 0
  cut := none
  adapIn := []
  nAdap := 0

end Sys2Proof.Machine
end

