-- ==== Sys2Proof/Machine/Ops.lean ====
section
/-! DEFINITION. The shared operations: host memory, the Register Port, the clock, the lock, raising a failure and returning
from it, and what a meaning gives back to the machine. -/

namespace Sys2Proof.Machine

/-! ### Host memory (20_memory.md R70, R71) -/

/-- What a byte of host memory that nothing has written reads as (DESIGN CHOICE, log 11). -/
def Memory.unlisted : Byte := 0#8

/-- One byte of host memory. -/
def Memory.read : Memory → Nat → Byte
  | [], _ => Memory.unlisted
  | (x, v) :: r, a => if a = x then v else Memory.read r a

/-- Store one byte. The canonical form is kept: writing what an unlisted byte reads as removes the entry. -/
def Memory.write : Memory → Nat → Byte → Memory
  | [], a, b => if b = Memory.unlisted then [] else [(a, b)]
  | (x, v) :: r, a, b =>
    if a < x then (if b = Memory.unlisted then (x, v) :: r else (a, b) :: (x, v) :: r)
    else if a = x then (if b = Memory.unlisted then r else (a, b) :: r)
    else (x, v) :: Memory.write r a b

/-- Store bytes at rising addresses. -/
def writeBytes (mem : Memory) (a : Nat) : List Byte → Memory
  | [] => mem
  | b :: bs => writeBytes (Memory.write mem a b) (a + 1) bs

/-- The canonical form: addresses strictly rising, no entry that an unlisted byte would read as. -/
abbrev Memory.wf (m : Memory) : Prop :=
  m.Pairwise (fun x y => x.1 < y.1) ∧ ∀ c ∈ m, c.2 ≠ Memory.unlisted

/-- `BufRead(m, j)` (R70): byte j of the message's buffer; only for `j < cap`. -/
def bufRead (mem : Memory) (msg : Message) (j : Nat) : Byte := Memory.read mem (msg.buf + j)

/-- `BufWrite(m, j, b)` (R70); only for `j < cap`. -/
def bufWrite (mem : Memory) (msg : Message) (j : Nat) (b : Byte) : Memory := Memory.write mem (msg.buf + j) b

/-! ### The Register Port (20_memory.md R60 to R68) -/

/-- `REQ = base + REQ_OFF` (R61). -/
def reqAddr (cfg : Config) (m : Master) : Nat := m.base + cfg.reqOff

/-- `CSR = base + CSR_OFF` (R61). -/
def csrAddr (cfg : Config) (m : Master) : Nat := m.base + cfg.csrOff

/-- `RSP = base + RSP_OFF` (R61). -/
def rspAddr (cfg : Config) (m : Master) : Nat := m.base + cfg.rspOff

/-! ### The clock (60_exceptions.md R263) -/

/-- The next free number of this Master. -/
def drawn (m : Master) : Nat :=
  match m.draws with
  | d :: _ => d
  | [] => Config.freeDraw m.life m.nDraw

/-- The Master after that number has been drawn. -/
def afterDraw (m : Master) : Master :=
  match m.draws with
  | _ :: ds => { m with draws := ds }
  | [] => { m with nDraw := m.nDraw + 1 }

/-- Time advances by `d`, and by a free amount more unless `SLEEP_EXACT` is set. -/
def advanceTime (cfg : Config) (d : Nat) (m : Master) : Master :=
  if cfg.sleepExact then { m with time := m.time + d } else { afterDraw m with time := m.time + d + drawn m }

/-- `Now()`: the time stands in `time` after it; time may have passed since the step before. -/
def readClock (cfg : Config) (m : Master) : Master := advanceTime cfg 0 m

/-! ### Accesses (20_memory.md R65, R69) -/

/-- An access or the beginning of a sleep: time may have passed since the step before, then it stands in the history. -/
def record (cfg : Config) (ev : Nat → Event) (m : Master) : Master :=
  let m1 := readClock cfg m
  { m1 with hist := m1.hist ++ [ev m1.time] }

/-- A read of CSR that the engine answers with `w`. -/
def csrReadIs (cfg : Config) (w : Word) (m : Master) : Master := record cfg (.read (csrAddr cfg m) w) m

/-- A read of RSP that the engine answers with `w`. -/
def rspReadIs (cfg : Config) (w : Word) (m : Master) : Master := record cfg (.read (rspAddr cfg m) w) m

/-- The oracle's answer to the next read of CSR (R66). -/
def csrAnswer (m : Master) : Word :=
  match m.csrIn with
  | w :: _ => w
  | [] => Config.engineWord .csr m.life m.hist m.time

/-- The oracle's answer to the next read of RSP (R66). -/
def rspAnswer (m : Master) : Word :=
  match m.rspIn with
  | w :: _ => w
  | [] => Config.engineWord .rsp m.life m.hist m.time

/-- `MemRead(CSR, 4)`: the word is `csrAnswer m`, the Master after it this one. -/
def readCsr (cfg : Config) (m : Master) : Master := csrReadIs cfg (csrAnswer m) { m with csrIn := m.csrIn.tail }

/-- `unpackCsr` of that word. -/
def csrNow (cfg : Config) (m : Master) : Csr := unpackCsr cfg.layout.csr (csrAnswer m)

/-- `x[cs] <- unpackCsr(MemRead(CSR, 4))`. -/
def fetchStatus (cfg : Config) (m : Master) : Master := { readCsr cfg m with cs := csrNow cfg m }

/-- `MemRead(RSP, 4)`: the word is `rspAnswer m`, the Master after it this one. -/
def readRsp (cfg : Config) (m : Master) : Master := rspReadIs cfg (rspAnswer m) { m with rspIn := m.rspIn.tail }

/-- `MemWrite(CSR, 4, packCsr(c))`. -/
def writeCsr (cfg : Config) (c : Csr) (m : Master) : Master :=
  record cfg (.write (csrAddr cfg m) (packCsr cfg.layout.csr c)) m

/-- `MemWrite(REQ, 4, w)`. -/
def writeReq (cfg : Config) (w : Word) (m : Master) : Master := record cfg (.write (reqAddr cfg m) w) m

/-- The call of `Sleep(d)`; it returns by `advanceTime cfg d`, if it ever does (00_scope.md R10). -/
def fallAsleep (cfg : Config) (d : Nat) (m : Master) : Master := record cfg (.sleep d) m

/-- `x[k]` counts an item whose word `w` is written to REQ (41_transfer_encode.md R173). -/
def emitWord (cfg : Config) (w : Word) (m : Master) : Master := { writeReq cfg w m with k := m.k + 1 }

/-! ### The lock (20_memory.md R74) and the sequencer -/

/-- The identity of the command that holds the lock; 0 if it is free. -/
def Lock.owner : Lock → Nat
  | .free => 0
  | .held n => n

/-- `Diag(code)` (10_state.md R43). -/
def addDiag (c : DiagCode) (m : Master) : Master := { m with diag := m.diag ++ [c] }

/-- The kind of a failure, all that the host sees of it (60_exceptions.md R250, R251). -/
def Failure.kind : Failure → Kind
  | .unsupportedTenBit => .unsupported
  | .unsupportedMultiBlockRead => .unsupported
  | .overflowDeclared _ _ => .sessionOverflow
  | .overflowWait _ => .sessionOverflow
  | .timedOut _ => .timeout
  | .enterFailed _ => .ioFailure
  | .badResponse _ _ _ => .ioFailure
  | .framing _ => .framingProtocol

/-- The number of a kind (R251). -/
def Kind.code : Kind → Nat
  | .unsupported => 1
  | .sessionOverflow => 2
  | .timeout => 3
  | .ioFailure => 4
  | .framingProtocol => 5

/-- The number of a TRANSFER's status (R251): 0 is success. -/
def statusCode : Option Kind → Nat
  | none => 0
  | some k => k.code

/-- TAKING THE EXCEPTION: `raise K` of a command that holds the lock (60_exceptions.md R256). `x[err]` is written and the
sequencer goes to LEAVE, where leave(true) runs; nothing else is saved. -/
def raiseFailure (f : Failure) (m : Master) : Master := { m with err := some f, pc := .leave, spot := .outside }

/-- RETURNING: `Unlock(M); pc <- IDLE` (R256, R258; 41_transfer_encode.md R160). -/
def unlockIdle (m : Master) : Master := { m with lock := .free, pc := .idle, spot := .outside }

/-- What a TRANSFER returns: success with the final lengths, or the kind of the first error (R255, 10_state.md R42). -/
def transferAnswer (m : Master) : Answer :=
  match m.err with
  | none => .success m.msgs
  | some f => .failure f.kind

/-! ### The Master in hand and what a meaning gives back -/

/-- What a step of the block can reach: the configuration, one Master, host memory. Nothing of another Master
(20_memory.md R77). -/
structure Hand where
  cfg : Config
  m : Master
  mem : Memory
  deriving DecidableEq, Repr

/-- What one phase of a command does. -/
inductive Adv where
  /-- The command goes on. -/
  | go (h : Hand)
  /-- The command sleeps, or its step ends here. -/
  | pause (h : Hand)
  /-- Command `cmd` ends, or a primitive returns to it, with an answer. -/
  | done (h : Hand) (cmd : Nat) (a : Answer)
  /-- TEARDOWN ends: the Master no longer exists. -/
  | gone (h : Hand) (cmd : Nat)
  /-- The spec gives no meaning. -/
  | refuse (r : Refusal)
  deriving DecidableEq, Repr

/-- The same hand with another Master. -/
def Hand.withM (h : Hand) (m : Master) : Hand := { h with m := m }

/-- The Master of this id. -/
def State.master? (s : State) (id : Nat) : Option Master := s.masters.find? (fun m => m.id == id)

/-- The Master in hand. -/
def State.hand (s : State) : Option Master := s.master? s.inHand

/-- The Masters with the one of this id replaced. -/
def putIn (m : Master) (ms : List Master) : List Master := ms.map (fun x => if x.id = m.id then m else x)

/-- Store a Master back. -/
def State.putMaster (s : State) (m : Master) : State := { s with masters := putIn m s.masters }

/-- A Master put in its place by rising id. -/
def insertById (m : Master) : List Master → List Master
  | [] => [m]
  | x :: xs => if m.id < x.id then m :: x :: xs else x :: insertById m xs

/-- Destroy a Master with its buses and stores (43_params_and_commands.md R226). -/
def State.dropMaster (s : State) (id : Nat) : State := { s with masters := s.masters.filter (fun m => m.id != id) }

/-- Answer a command. -/
def State.post (s : State) (cmd : Nat) (a : Answer) : State := { s with replies := s.replies ++ [⟨cmd, a⟩] }

/-- Store back what the block of one Master can reach. -/
def State.commit (s : State) (h : Hand) : State := { s.putMaster h.m with mem := h.mem }

end Sys2Proof.Machine
end

