-- ==== Sys2Proof/Machine/Outcome.lean ====
section
/-! DEFINITION. What becomes of the machine when the block of one Master has moved: the text of a DUMP, the commands that
still wait for a Master that is destroyed, the outcome of a phase, and running a phase on the Master in hand. -/

namespace Sys2Proof.Machine

/-! ### DUMP (43_params_and_commands.md R223, 30_encoding.md R110) -/

/-- One line: `<master-id>/<bus-id>/<address-hex>: adap=<n> t=<t> datr=<datr> datw=<datw> ed=<ed>`. -/
def dumpLine (masterId : Nat) (b : Bus) (r : ParamRec) : List Char :=
  decimal masterId ++ ['/'] ++ decimal b.busId ++ ['/'] ++ hex2 r.addr.toNat ++ [':', ' ', 'a', 'd', 'a', 'p', '='] ++
    decimal b.adap ++ [' ', 't', '='] ++ decimal r.t.toNat ++ [' ', 'd', 'a', 't', 'r', '='] ++ decimal r.datr.toNat ++
    [' ', 'd', 'a', 't', 'w', '='] ++ decimal r.datw.toNat ++ [' ', 'e', 'd', '='] ++ decimal r.ed.toNat

/-- The lines of one Master: buses by rising identity, records in list order. -/
def dumpLines (m : Master) : List (List Char) := m.buses.flatMap (fun b => b.params.map (dumpLine m.id b))

/-- DUMP over the Masters left, in rising id, each under its lock: it goes on to the end or, cut short, to the next Master; at
a held lock it waits with what it has printed (log 32). -/
def dumpRun (cut : Option Nat) (cmd : Nat) : List Master → List (List Char) → State → State
  | [], ls, s => s.post cmd (.lines ls)
  | m :: ms, ls, s =>
    if m.lock = .free ∧ cut ≠ some 0 then dumpRun (cut.map (· - 1)) cmd ms (ls ++ dumpLines m) s
    else s.putMaster { m with waiting := m.waiting ++ [.dump cmd ls] }

/-! ### Commands that wait for a lock -/

/-- A command that still waits for the lock of Master `id` when that Master is destroyed (43_params_and_commands.md R226): a
TUNE is rejected, a DUMP goes on with the Masters after it, any other command is refused and has no answer (log 18). -/
def release (id : Nat) (s : State) (b : Blocked) : State :=
  match b with
  | .transfer _ _ _ => s
  | .tune cmd _ _ => s.post cmd .rejected
  | .dump cmd ls => dumpRun none cmd (s.masters.filter (fun x => id < x.id)) ls s
  | .lookup _ _ _ => s
  | .teardown _ => s

/-- Destroy the Master of the hand, answer its TEARDOWN, and see to the commands that still wait for it. -/
def destroy (s : State) (h : Hand) (cmd : Nat) : State :=
  h.m.waiting.foldl (release h.m.id) (((s.commit h).dropMaster h.m.id).post cmd (.tornDown h.m.id))

/-! ### The outcome of a phase -/

/-- The outcome of a phase for the whole machine. -/
def settle (s : State) : Adv → Host.Outcome State Fault Refusal
  | .go h => .next (s.commit h)
  | .pause h => .next (s.commit h)
  | .done h cmd a => .next ((s.commit h).post cmd a)
  | .gone h cmd => .next (destroy s h cmd)
  | .refuse r => .refused r

/-- Run a phase on the Master in hand, whose lock somebody must hold: the one access right of the block
(60_exceptions.md R261, 20_memory.md R75). -/
def withHand (s : State) (f : Hand → Adv) : Host.Outcome State Fault Refusal :=
  match s.hand with
  | none => .refused .noMasterInHand
  | some m => if m.lock = .free then .refused .lockNotHeld else settle s (f ⟨s.cfg, m, s.mem⟩)

end Sys2Proof.Machine
end

