-- ==== Sys2Proof/Machine/Flags.lean ====
section
/-! DEFINITION. The conditions of the block: `dirty`, the three one-bit conditions of 10_state.md R33, the class tables,
progress, and the validator. -/

namespace Sys2Proof.Machine

/-- `dirty(c)` (40_master_control.md R130); `reset` and `foe` are no part of it. -/
def dirty (c : Csr) : Bool := c.fe || c.brb || c.nrq != 0 || c.nrs != 0

/-- `had_error` (10_state.md R33): the argument of the command's leave(). -/
def hadError (m : Master) : Bool := m.err.isSome

/-- `is_last` (R33, 42_transfer_decode.md R192), of a Master whose `rem` already counts the response in hand. -/
def isLast (m : Master) : Bool := m.rem == 0

/-- `CAPACITY[fsz]` (30_encoding.md R103): 127, 255, 511, 1023 for the classes 0, 1, 2, 3. -/
def capacity (fsz : BitVec 2) : Nat := 2 ^ (7 + fsz.toNat) - 1

/-- `PER_BYTE_DELAY[sp]` (R103): 110, 35, 14, 14 microseconds. -/
def perByteDelay (sp : BitVec 2) : Nat :=
  if sp = 0 then 110 else if sp = 1 then 35 else 14

/-- `BACKOFF` (00_scope.md R6, 60_exceptions.md R262), in microseconds. -/
def backoff : List Nat := [1000, 2000, 4000, 8000]

/-- `WAIT_TIMEOUT` (R262), in microseconds. -/
def waitTimeout : Nat := 100000

/-- The length of one wait sleep (40_master_control.md R145, 00_scope.md R13): an exact natural number. -/
def waitSleep (c : Csr) : Nat := (c.nrq.toNat + 1) * perByteDelay c.sp

/-- Progress (40_master_control.md R143): after the first iteration, the pair of counts differs from the pair before. -/
def progressed (cfg : Config) (prev : Option (BitVec 10 × BitVec 10)) (c : Csr) : Bool :=
  match cfg.progress with
  | .never => false
  | .eitherCount =>
    match prev with
    | none => false
    | some p => p != (c.nrq, c.nrs)

/-- Is `fe` on a response early (42_transfer_decode.md R192)? -/
def feEarly (cfg : Config) (last : Bool) : Bool := !(last && cfg.feOnFinalAccepted)

/-- `validate(r, e, is_last)` (R190), the tests in the rule's order (R191). `d` and `ovf` play no part. -/
def validateRsp (cfg : Config) (r : Rsp) (e : BitVec 4) (last : Bool) : Option Code :=
  if r.ackError then some .ackError
  else if r.timeoutError then some .timeoutError
  else if r.busConflictError then some .busConflict
  else if r.flushed then some .flushed
  else if r.fe && feEarly cfg last then some .earlyFrameEmpty
  else if r.ti ≠ e then some .indexMismatch
  else none

/-- The diagnostic of a failed validation (R193, R195): the expected negative-acknowledge on the first address item. -/
def diagFor (isFirstAddr : Bool) (c : Code) : DiagCode :=
  if isFirstAddr && c == .ackError then .expectedNack else .failed c

/-- The announced length is in range (R199): 1 to 32 inclusive. -/
def lengthInRange (n : Byte) : Bool := 1 ≤ n.toNat && n.toNat ≤ 32

/-- Protocol version 2 or above: the inline extension (R201). -/
def inlineExtension (ver : BitVec 2) : Bool := 2 ≤ ver.toNat

end Sys2Proof.Machine
end

