-- ==== Sys2Proof/Machine/Operands.lean ====
section
/-! DEFINITION. Operand forms: the address byte, the parameter lookup, the prechecks of a TRANSFER, the session size, an
item in its place, and the walk over the messages and their bytes. -/

namespace Sys2Proof.Machine

/-- The address byte `(a << 1) | r` (00_scope.md R12, 30_encoding.md R105), for an address of 7 bits. -/
def addressByte (a : Nat) (read : Bool) : Byte := ((BitVec.ofNat 8 a) <<< 1) ||| BitVec.ofNat 8 read.toNat

/-! ### The Bus Parameter Store -/

/-- The compiled default record (10_state.md R29). -/
def compiledDefault : Params := { t := 1, datr := 3, datw := 3, ed := false }

/-- The four values of a record. -/
def ParamRec.values (r : ParamRec) : Params := { t := r.t, datr := r.datr, datw := r.datw, ed := r.ed }

/-- `lookup(bus, a)` (43_params_and_commands.md R220): exact address, else the bus-wide record, else the compiled default. -/
def lookupParams (store : List ParamRec) (a : BitVec 7) : Params :=
  match store.find? (fun r => r.addr == a) with
  | some r => r.values
  | none =>
    match store.find? (fun r => r.addr == 0) with
    | some r => r.values
    | none => compiledDefault

/-- Overwrite the record of the same address in its place, else append (43_params_and_commands.md R221). -/
def updateStore (r : ParamRec) : List ParamRec → List ParamRec
  | [] => [r]
  | x :: xs => if x.addr = r.addr then r :: xs else x :: updateStore r xs

/-- The bus of this identity within a Master. -/
def Master.bus? (m : Master) (id : Nat) : Option Bus := m.buses.find? (fun b => b.busId == id)

/-- The store of the bus of this identity; empty if there is none. -/
def Master.storeOf (m : Master) (id : Nat) : List ParamRec :=
  match m.bus? id with
  | some b => b.params
  | none => []

/-- The parameters of a message on the bus of the command in hand. -/
def msgParams (m : Master) (msg : Message) : Params := lookupParams (m.storeOf m.bus) (BitVec.ofNat 7 msg.addr)

/-! ### Prechecks (41_transfer_encode.md R161, R162) -/

/-- The requests that are "rejected outright" (R161); the ten-bit test comes first. -/
def unsupported (msgs : List Message) : Option Failure :=
  if msgs.any (·.tenBit) then some .unsupportedTenBit
  else if 2 ≤ msgs.countP (·.vlr) then some .unsupportedMultiBlockRead
  else none

/-- The capacity a message's buffer must have (R162, 70_reset_and_hazards.md R287). -/
def neededCap (msg : Message) : Nat := if msg.vlr then msg.length + 32 else msg.length

/-- The preconditions of R162 on one message that is not ten-bit. -/
def msgRefusal (msg : Message) : Option Refusal :=
  if 0x7F < msg.addr then some .addressOutOfRange
  else if msg.vlr && !msg.read then some .vlrOnWrite
  else if msg.vlr && msg.length == 0 then some .vlrLengthZero
  else if msg.cap < neededCap msg then some .bufferTooSmall
  else none

/-- The preconditions of R162 on the list and the bus identity. -/
def listRefusal (busId : Nat) (msgs : List Message) : Option Refusal :=
  match msgs with
  | [] => some .emptyMessageList
  | m0 :: _ =>
    if m0.noStart then some .noStartFirst
    else if 16 ≤ busId then some .busIdTooWide
    else msgs.findSome? msgRefusal

/-! ### Session size and items (R164, R167 to R173) -/

/-- The items of one message: its address item unless `no_start`, then one per data byte. -/
def msgItemCount (msg : Message) : Nat := (if msg.noStart then 0 else 1) + msg.length

/-- `size(msgs)` (R164): exact, never wraps (00_scope.md R11). -/
def sessionSize (msgs : List Message) : Nat := (msgs.map msgItemCount).sum

/-- The fields of an item that do not depend on its position. -/
structure Proto where
  dod : Bool
  da : Bool
  br : Bool
  ed : Bool
  t : BitVec 2
  dat : BitVec 2
  d : Byte
  deriving DecidableEq, Repr

/-- `dat` of a message (R171): `datr` for a read, `datw` for a write, address item included. -/
def datOf (msg : Message) (p : Params) : BitVec 2 := if msg.read then p.datr else p.datw

/-- `ADDR` (R167). -/
def addrProto (msg : Message) (p : Params) : Proto :=
  { dod := false, da := true, br := false, ed := false, t := p.t, dat := datOf msg p, d := addressByte msg.addr msg.read }

/-- `WDATA` (R168) with payload byte `b`. -/
def wdataProto (msg : Message) (p : Params) (b : Byte) : Proto :=
  { dod := false, da := true, br := false, ed := false, t := p.t, dat := datOf msg p, d := b }

/-- `RDATA` (R169) for data item `j`; `da` by R172. -/
def rdataProto (cfg : Config) (msg : Message) (p : Params) (j : Nat) : Proto :=
  { dod := true
    da := if j + 1 = msg.length then cfg.daPolicy.lastPlaceholder else cfg.daPolicy.placeholder
    br := false, ed := false, t := p.t, dat := datOf msg p, d := 0 }

/-- `BRLEN` (R170). -/
def brlenProto (msg : Message) (p : Params) : Proto :=
  { dod := true, da := true, br := true, ed := p.ed, t := p.t, dat := datOf msg p, d := 0 }

/-- Data item `j` of a message (R173): which of the three kinds it is. -/
def dataProto (cfg : Config) (mem : Memory) (msg : Message) (p : Params) (j : Nat) : Proto :=
  if !msg.read then wdataProto msg p (bufRead mem msg j)
  else if msg.vlr && j == 0 then brlenProto msg p
  else rdataProto cfg msg p j

/-- An item at position `k` of a session of `ss` items (R171): the index modulo 16, `stop` by the unwrapped position, the
size on the first item only. `start` is given: 1 iff `k = 0` in a main session, 0 in a continuation. -/
def placeItem (start : Bool) (bs : BitVec 4) (ss k : Nat) (p : Proto) : ReqItem :=
  { ti := BitVec.ofNat 4 (k % 16), bs, st := start, sp := k + 1 == ss, dod := p.dod, da := p.da, br := p.br, ed := p.ed
    t := p.t, dat := p.dat, d := p.d, ss := if k = 0 then BitVec.ofNat 10 ss else 0 }

/-- The item at position `q` of a continuation of `n` items (42_transfer_decode.md R203). -/
def contItem (cfg : Config) (bs : BitVec 4) (p : Params) (n q : Nat) : ReqItem :=
  placeItem false bs n q
    { dod := true, da := if q + 1 = n then cfg.daPolicy.lastContinuation else cfg.daPolicy.continuation
      br := false, ed := false, t := p.t, dat := p.datr, d := 0 }

/-- Every item of the continuation session for message `msg` (R203). -/
def contItems (h : Hand) (msg : Message) : List ReqItem :=
  (List.range h.m.nAnn.toNat).map (contItem h.cfg (BitVec.ofNat 4 h.m.bus) (msgParams h.m msg) h.m.nAnn.toNat)

/-- Does every write message's payload lie within its buffer (20_memory.md R70)? -/
def payloadsFit (msgs : List Message) : Bool := msgs.all (fun m => m.read || decide (m.length ≤ m.cap))

/-! ### The walk over the messages and their bytes (10_state.md R32, 41_transfer_encode.md R173, 42_transfer_decode.md R194) -/

/-- From message `i`, byte `j`, with the address item of message `i` passed or not, the position of the next item, or of the
response expected next, among the messages `rest` that are left; `none` when every message has been walked. -/
def seek : List Message → Nat → Nat → Bool → Option (Nat × Nat × Bool)
  | [], _, _, _ => none
  | msg :: rest, i, j, ad =>
    if (!ad && !msg.noStart) || j < msg.length then some (i, j, ad) else seek rest (i + 1) 0 false

/-- The position of the next item of the command in hand in ENCODE, or of its next response in DECODE (10_state.md R32). -/
def nextPosition (m : Master) : Option (Nat × Nat × Bool) := seek (m.msgs.drop m.i) m.i m.j m.ad

/-- Is the position that of an address item (41_transfer_encode.md R173), or of its response (R194)? -/
def atAddress (msg : Message) (ad : Bool) : Bool := !ad && !msg.noStart

/-- The item of message `msg` at a position of the walk, at place `x[k]` of the main session (41_transfer_encode.md R173). -/
def walkItem (h : Hand) (msg : Message) (j : Nat) (ad : Bool) : ReqItem :=
  let p := msgParams h.m msg
  placeItem (h.m.k == 0) (BitVec.ofNat 4 h.m.bus) h.m.ss h.m.k
    (if atAddress msg ad then addrProto msg p else dataProto h.cfg h.mem msg p j)

/-- The walk has passed the item at position `(i, j, ad)` (10_state.md R32). -/
def passItem (msg : Message) (i j : Nat) (ad : Bool) (m : Master) : Master :=
  { m with i := i, j := if atAddress msg ad then j else j + 1, ad := true }

/-- A request word written within ENCODE takes the walk past its item (10_state.md R32); in another phase, and past the last
item, it leaves the walk where it is. -/
def walkOn (m : Master) : Master :=
  if m.pc = .encode then
    match nextPosition m with
    | none => m
    | some (i, j, ad) =>
      match m.msgs[i]? with
      | none => m
      | some msg => passItem msg i j ad m
  else m

/-- A session begins: `x[k] <- 0` (R173, 42_transfer_decode.md R202), and in ENCODE the walk stands before the first item. -/
def beginSession (m : Master) : Master :=
  if m.pc = .encode then { m with k := 0, i := 0, j := 0, ad := false } else { m with k := 0 }

end Sys2Proof.Machine
end

