-- ==== Sys2Proof/Machine/Items.lean ====
section
/-! DEFINITION. The meanings of the seven request items (41_transfer_encode.md R167 to R170, 42_transfer_decode.md R203):
the block writes the item's word to REQ of the Master in hand, counts it in `x[k]` (R173) and in ENCODE walks past it (R32). -/

namespace Sys2Proof.Machine

/-- Emit an item at a position of its session (R173): one write of its word to REQ, and `x[k]` counts it; within ENCODE the walk
passes it (10_state.md R32). An item the layout cannot encode is refused (30_encoding.md R91 (d), R95). -/
def emitItem (first : Bool) (it : ReqItem) (h : Hand) : Adv :=
  match packReq h.cfg.layout.req it first with
  | none => .refuse .notEncodable
  | some w => .go (h.withM (emitWord h.cfg w (walkOn h.m)))

/-- Emit an item as the first of its session, which begins with it (R173, 42_transfer_decode.md R203). -/
def emitFirst (it : ReqItem) (h : Hand) : Adv := emitItem true it (h.withM (beginSession h.m))

/-- Emit an item at a later position of its session. -/
def emitLater (it : ReqItem) (h : Hand) : Adv := emitItem false it h

/-- `ADDR.F` (R167). -/
def execAddrF (bs : BitVec 4) (sp : Bool) (t dat : BitVec 2) (ss : BitVec 10) (d : Byte) (s : State) :
    Host.Outcome State Fault Refusal :=
  withHand s (emitFirst (addrFItem bs sp t dat ss d))

/-- `ADDR.N` (R167). -/
def execAddrN (bs : BitVec 4) (sp : Bool) (t dat : BitVec 2) (ti : BitVec 4) (d : Byte) (s : State) :
    Host.Outcome State Fault Refusal :=
  withHand s (emitLater (addrNItem bs sp t dat ti d))

/-- `WDATA.N` (R168). -/
def execWdataN (bs : BitVec 4) (sp : Bool) (t dat : BitVec 2) (ti : BitVec 4) (d : Byte) (s : State) :
    Host.Outcome State Fault Refusal :=
  withHand s (emitLater (wdataNItem bs sp t dat ti d))

/-- `RDATA.N` (R169). -/
def execRdataN (bs : BitVec 4) (sp da : Bool) (t dat : BitVec 2) (ti : BitVec 4) (s : State) :
    Host.Outcome State Fault Refusal :=
  withHand s (emitLater (rdataNItem bs sp da t dat ti))

/-- `BRLEN.N` (R170). -/
def execBrlenN (bs : BitVec 4) (sp ed : Bool) (t dat : BitVec 2) (ti : BitVec 4) (s : State) :
    Host.Outcome State Fault Refusal :=
  withHand s (emitLater (brlenNItem bs sp ed t dat ti))

/-- `CONT.F` (42_transfer_decode.md R203). -/
def execContF (bs : BitVec 4) (sp da : Bool) (t dat : BitVec 2) (ss : BitVec 10) (s : State) :
    Host.Outcome State Fault Refusal :=
  withHand s (emitFirst (contFItem bs sp da t dat ss))

/-- `CONT.N` (R203). -/
def execContN (bs : BitVec 4) (sp da : Bool) (t dat : BitVec 2) (ti : BitVec 4) (s : State) :
    Host.Outcome State Fault Refusal :=
  withHand s (emitLater (contNItem bs sp da t dat ti))

end Sys2Proof.Machine
end

