-- ==== Sys2Proof/Machine/MasterControl.lean ====
section
/-! DEFINITION. Master Control (40_master_control.md): reset, enter, leave and wait_for_completion, each as its steps of at most
one access, so that the block of another Master may move between any two (20_memory.md R77); and the meanings of
reset, enter and leave called by themselves. -/

namespace Sys2Proof.Machine

/-- What a step of a primitive comes to: a further spot, or the return, with `true` for `Ok`. -/
inductive Prim (σ : Type) where
  | at_ (spot : σ)
  | ret (ok : Bool)
  deriving DecidableEq, Repr

/-- A primitive's steps to its return, at most `n`. -/
def runPrim {σ : Type} (next : σ → Master → Prim σ × Master) : Nat → σ → Master → Bool × Master
  | 0, _, m => (false, m)
  | n + 1, x, m =>
    let r := next x m
    match r.1 with
    | .at_ y => runPrim next n y r.2
    | .ret ok => (ok, r.2)

/-! ### reset (R132, R133) -/

/-- A step of `reset()`. -/
def resetStep (cfg : Config) : ResetSpot → Master → Prim ResetSpot × Master
  | .read, m => (.at_ (.write (csrNow cfg m)), readCsr cfg m)
  | .write c, m => (.at_ (.sleep backoff), writeCsr cfg { c with reset := true, foe := true } m)
  | .sleep [], m => (.ret false, { m with mc := .faulted })
  | .sleep (d :: ds), m => (.at_ (.wake d ds), fallAsleep cfg d m)
  | .wake d ds, m => (.at_ (.poll ds), advanceTime cfg d m)
  | .poll ds, m =>
    let m1 := fetchStatus cfg m
    if !m1.cs.reset && !dirty m1.cs then (.ret true, if m1.mc = .faulted then { m1 with mc := .idle } else m1)
    else (.at_ (.sleep ds), m1)

/-- `reset()`: `true` is `Ok`, `false` is `Fail(RecoveryFailure)`. -/
def resetOp (cfg : Config) (m : Master) : Bool × Master := runPrim (resetStep cfg) 16 .read m

/-! ### enter (R134, R135, R137) -/

/-- A step of a reset() inside enter(): `inside` is the spot while it runs, `after` where enter() goes on. -/
def nested (inside : ResetSpot → EnterSpot) (after : EnterSpot) (r : Prim ResetSpot × Master) : Prim EnterSpot × Master :=
  match r.1 with
  | .at_ y => (.at_ (inside y), r.2)
  | .ret true => (.at_ after, r.2)
  | .ret false => (.ret false, r.2)

/-- A step of `enter(force_one_error)`. From `Faulted` it performs reset() first (R135, switch `faultedForcesReset`). It goes on
with `x[cs]` and `x[mc]` as it finds them: where a control/status word or a primitive run by itself has replaced them between two
of its steps, the corrective write can carry frame-empty and `Ready` can follow any state, which R137 and R131 do not have
(DESIGN CHOICE, logs 14 and 15). -/
def enterStep (cfg : Config) (f : Bool) : EnterSpot → Master → Prim EnterSpot × Master
  | .start, m => (.at_ (if m.mc = .faulted && cfg.faultedForcesReset then .recover .read else .read), m)
  | .recover r, m => nested .recover .read (resetStep cfg r m)
  | .read, m =>
    let m1 := fetchStatus cfg { m with mc := .entering }
    (.at_ (if dirty m1.cs then .clean .read else .judge), m1)
  | .clean r, m => nested .clean .judge (resetStep cfg r m)
  | .judge, m =>
    if m.cs.reset || m.cs.foe != f then (.at_ .confirm, writeCsr cfg { m.cs with reset := false, foe := f } m)
    else (.ret true, { m with mc := .ready })
  | .confirm, m =>
    let m1 := fetchStatus cfg m
    if m1.cs.reset then (.ret false, { m1 with mc := .faulted }) else (.ret true, { m1 with mc := .ready })

/-- `enter(force_one_error)`: `true` is `Ok`, `false` is `Fail(EnterFailed)`. -/
def enterOp (cfg : Config) (f : Bool) (m : Master) : Bool × Master := runPrim (enterStep cfg f) 40 .start m

/-! ### leave (R136, R138) -/

/-- The state at the end of leave(). -/
def leaveIdle (m : Master) : Master := if m.mc = .faulted then m else { m with mc := .idle }

/-- A step of `leave(had_error)`. -/
def leaveStep (cfg : Config) (hadErr : Bool) : LeaveSpot → Master → Prim LeaveSpot × Master
  | .read, m => (.at_ (if hadErr then .again else .drain (csrNow cfg m).nrs.toNat), readCsr cfg m)
  | .drain 0, m => (.at_ .again, m)
  | .drain (n + 1), m => (.at_ (.drain n), readRsp cfg m)
  | .again, m =>
    let c := csrNow cfg m
    let m1 := readCsr cfg m
    if dirty c then (.at_ (.arm c), m1) else (.ret true, leaveIdle m1)
  | .arm c, m => (.ret true, leaveIdle (writeCsr cfg { c with reset := true } m))

/-- `leave(had_error)`; it cannot fail. -/
def leaveOp (cfg : Config) (hadErr : Bool) (m : Master) : Master := (runPrim (leaveStep cfg hadErr) 1030 .read m).2

/-! ### wait_for_completion (R140 to R147) -/

/-- What the tests of one iteration come to. -/
inductive PollResult where
  | ok
  | overflow
  | timeout
  | again
  deriving DecidableEq, Repr

/-- What an iteration decides on value `c`, read at time `now`, and the time of the last progress after it: frame-empty
first (R141), then overflow (R142), then progress (R143) and the timeout (R144). -/
def pollDecision (cfg : Config) (c : Csr) (prev : Option (BitVec 10 × BitVec 10)) (tLast now : Nat) : PollResult × Nat :=
  if c.fe then (.ok, tLast)
  else if capacity c.fsz ≤ c.nrs.toNat then (.overflow, tLast)
  else
    let t := if progressed cfg prev c then now else tLast
    if waitTimeout < now - t then (.timeout, t) else (.again, t)

/-- How a wait returns. -/
inductive WaitEnd where
  | ok
  | overflow
  | timeout
  deriving DecidableEq, Repr

/-- What a step of a wait comes to. -/
inductive WaitMove where
  | at_ (spot : WaitSpot)
  | asleep (spot : WaitSpot)
  | ret (r : WaitEnd)
  deriving DecidableEq, Repr

/-- The tests of one iteration on the value in `x[cs]`, at the time read now (R141 to R145). -/
def waitTest (cfg : Config) (m : Master) : WaitMove × Master :=
  let m1 := readClock cfg m
  let dec := pollDecision cfg m1.cs m1.prev m1.tLast m1.time
  let m2 : Master := { m1 with tLast := dec.2 }
  match dec.1 with
  | .ok => (.at_ .clear, m2)
  | .overflow => (.ret .overflow, m2)
  | .timeout => (.ret .timeout, m2)
  | .again =>
    (.asleep (.wake (waitSleep m1.cs)), fallAsleep cfg (waitSleep m1.cs) { m2 with prev := some (m1.cs.nrq, m1.cs.nrs) })

/-- `x[t_last] <- Now(); x[prev] <- None`. -/
def beginWait (cfg : Config) (m : Master) : Master :=
  let m1 := readClock cfg m
  { m1 with tLast := m1.time, prev := none }

/-- A step of `wait_for_completion()`. -/
def waitStep (cfg : Config) : WaitSpot → Master → WaitMove × Master
  | .start, m => (.at_ .read, beginWait cfg m)
  | .read, m => (.at_ .test, fetchStatus cfg m)
  | .test, m => waitTest cfg m
  | .clear, m => (.ret .ok, writeCsr cfg m.cs m)
  | .wake d, m => (.at_ .read, advanceTime cfg d m)

/-- The value `c` read from CSR by a wait that stands at `w`, which has come to its next read. A wait that stands between its read
and its tests or its write-back begins a new iteration with `c`: the one in hand is dropped, also one that has read frame-empty
set (R141; DESIGN CHOICE, log 15). -/
def waitReads (cfg : Config) (c : Csr) (w : WaitSpot) (m : Master) : Master :=
  let m0 := match w with
    | .start => beginWait cfg m
    | .read => m
    | .test => m
    | .clear => m
    | .wake d => advanceTime cfg d m
  { csrReadIs cfg (packCsr cfg.layout.csr c) m0 with cs := c }

/-- Where a command's wait stands; one that has not begun stands at its beginning. -/
def waitSpot (m : Master) : WaitSpot :=
  match m.spot with
  | .wait w => w
  | .outside => .start
  | .reset _ => .start
  | .enter _ => .start
  | .leave _ => .start

/-- The end of a command's wait: DECODE from its beginning (42_transfer_decode.md R193), or after a continuation the rest of
the walk (R204). -/
def endWait (m : Master) : Master :=
  if m.pc = .contWait then { m with e := 0, rem := m.nAnn.toNat, pc := .decode, spot := .outside }
  else { m with e := 0, rem := m.ss, i := 0, j := 0, ad := false, pc := .decode, spot := .outside }

/-- A step of the phases WAIT and CONT_WAIT: the wait's, then DECODE or a failure (41_transfer_encode.md R175,
42_transfer_decode.md R204). -/
def phaseWait (h : Hand) : Adv :=
  let r := waitStep h.cfg (waitSpot h.m) h.m
  match r.1 with
  | .at_ w => .go (h.withM { r.2 with spot := .wait w })
  | .asleep w => .pause (h.withM { r.2 with spot := .wait w })
  | .ret .ok => .go (h.withM (endWait r.2))
  | .ret .overflow => .go (h.withM (raiseFailure (.overflowWait r.2.cs) r.2))
  | .ret .timeout => .go (h.withM (raiseFailure (.timedOut r.2.cs) r.2))

/-- The answer of a wait called by itself. -/
def WaitEnd.result : WaitEnd → PrimResult
  | .ok => .ok
  | .overflow => .waitOverflow
  | .timeout => .waitTimeout

/-- A step of a wait called by itself, which stands at `w`; it returns to the holder of the lock (log 14). It tests and writes
back the `x[cs]` it finds: cut short after its read of CSR, it goes on with the value that a primitive run by itself meanwhile
has left there (DESIGN CHOICE, log 14). -/
def bareStep (w : WaitSpot) (h : Hand) : Adv :=
  let r := waitStep h.cfg w h.m
  match r.1 with
  | .at_ w => .go (h.withM { r.2 with bare := some w })
  | .asleep w => .pause (h.withM { r.2 with bare := some w })
  | .ret e => .done (h.withM { r.2 with bare := none }) h.m.lock.owner (.prim e.result)

/-! ### The primitives by themselves -/

/-- A primitive's `Ok` or its failure. -/
def primAnswer (ok : Bool) (fail : PrimResult) : Answer := .prim (if ok then .ok else fail)

/-- `reset` (R132). Called by itself where no rule calls it, it follows R132 whatever the state: a failed one makes `Faulted` of
`Ready` too, which the table of R131 does not have (DESIGN CHOICE, log 14). -/
def execReset (s : State) : Host.Outcome State Fault Refusal :=
  withHand s (fun h =>
    let r := resetOp h.cfg h.m
    .done (h.withM r.2) h.m.lock.owner (primAnswer r.1 .recoveryFailure))

/-- `enter` (R134). Called by itself from `Ready` or `Entering` it goes to `Entering` as R134 says, which the table of R131 has
from `Idle` alone (DESIGN CHOICE, log 14). -/
def execEnter (f : Bool) (s : State) : Host.Outcome State Fault Refusal :=
  withHand s (fun h =>
    let r := enterOp h.cfg f h.m
    .done (h.withM r.2) h.m.lock.owner (primAnswer r.1 .enterFailed))

/-- `leave` (R136): it has no result. Called by itself from `Entering` or `Idle` it ends in `Idle` as R136 says, which the table of
R131 has from `Ready` alone (DESIGN CHOICE, log 14). -/
def execLeave (hadErr : Bool) (s : State) : Host.Outcome State Fault Refusal :=
  withHand s (fun h => .go (h.withM (leaveOp h.cfg hadErr h.m)))

end Sys2Proof.Machine
end

