-- ==== Sys2Proof/Machine/Transfer.lean ====
section
/-! DEFINITION. The Transfer Engine (41_transfer_encode.md, 42_transfer_decode.md): the phases of a TRANSFER, the handling of
one response, the run of a command from one wait to the next, and the meanings of TRANSFER, of a response word and of a
control/status word. A step makes at most one access. -/

namespace Sys2Proof.Machine

/-! ### Decoding one response (42_transfer_decode.md R193 to R202) -/

/-- `x[rem] <- x[rem] - 1`, then validate, then `x[e] <- (x[e] + 1) mod 16` (R193): the verdict and the Master. With `x[rem]`
already 0, which no command of the block meets, it stays 0, the response counts as the last, and frame-empty is accepted
(DESIGN CHOICE, log 15). -/
def countResponse (cfg : Config) (r : Rsp) (m : Master) : Option Code × Master :=
  let m1 : Master := { m with rem := m.rem - 1 }
  (validateRsp cfg r m.e (isLast m1), { m1 with e := m1.e + 1 })

/-- The length of message `i` grows by `n` (R200). -/
def growMessage (msgs : List Message) (i n : Nat) : List Message :=
  msgs.modify i (fun x => { x with length := x.length + n })

/-- After a block-length response has been stored (R198 to R202): the range check, the growth, then the inline extension
or the continuation session. `n` is the announced length, `h.m.j` already counts the byte. -/
def blockLength (n : Byte) (h : Hand) : Adv :=
  let m1 : Master := { h.m with nAnn := n }
  if !lengthInRange n then .go (h.withM (raiseFailure (.framing n) m1))
  else
    let m2 : Master := { m1 with msgs := growMessage m1.msgs m1.i n.toNat }
    if inlineExtension m2.ver then .go (h.withM { m2 with rem := m2.rem + n.toNat })
    else if m2.rem ≠ 0 then .refuse .blockReadNotLast
    else .go (h.withM { m2 with pc := .contEncode, ss := n.toNat, k := 0 })

/-- A good response at data item `j` of message `msg` (R196 to R198): a read message's byte is stored; the response to the
block-read item announces the length. -/
def dataResponse (r : Rsp) (msg : Message) (j : Nat) (h : Hand) : Adv :=
  if !msg.read then .go (h.withM { h.m with j := j + 1 })
  else if msg.cap ≤ j then .refuse .bufferTooSmall
  else
    let h1 : Hand := { h with mem := bufWrite h.mem msg j r.d, m := { h.m with j := j + 1 } }
    if msg.vlr && j == 0 then blockLength r.d h1 else .go h1

/-- A good response at position `p` of the walk (R194, R196); past the walk it is discarded (log 15). -/
def placeResponse (r : Rsp) (p : Option (Nat × Nat × Bool)) (h : Hand) : Adv :=
  match p with
  | none => .go h
  | some (i, j, ad) =>
    match h.m.msgs[i]? with
    | none => .go h
    | some msg =>
      let h1 := h.withM { h.m with i := i, j := j, ad := true }
      if atAddress msg ad then .go h1 else dataResponse r msg j h1

/-- Is this the position of the address response of message 0 (10_state.md R33)? -/
def isFirstAddr (m : Master) (p : Option (Nat × Nat × Bool)) : Bool :=
  match p with
  | some (0, _, ad) =>
    match m.msgs[0]? with
    | some msg => atAddress msg ad
    | none => false
  | _ => false

/-- `next_response` on the response word `w` already read (R193), and what its position does with it. -/
def takeResponse (w : Word) (h : Hand) : Adv :=
  let r := unpackRsp h.cfg.layout.rsp w
  let p := nextPosition h.m
  let v := countResponse h.cfg r h.m
  match v.1 with
  | some c =>
    .go (h.withM (raiseFailure (.badResponse c w h.m.e) (addDiag (diagFor (isFirstAddr h.m p) c) v.2)))
  | none => placeResponse r p (h.withM v.2)

/-! ### The phases (41_transfer_encode.md R160) -/

/-- LOCK with the lock free, and what follows directly (R163): the lock is taken, `x[rid]` grows, `x[err]` is cleared, the
operands are latched. -/
def beginTransfer (cmd bus : Nat) (msgs : List Message) (m : Master) : Master :=
  { m with lock := .held cmd, rid := m.rid + 1, err := none, bus := bus, msgs := msgs, pc := .size, spot := .outside }

/-- SIZE (R164). -/
def phaseSize (h : Hand) : Adv := .go (h.withM { h.m with ss := sessionSize h.m.msgs, pc := .enter })

/-- Where enter() stands; one that has not begun stands at its beginning. -/
def enterSpot (m : Master) : EnterSpot :=
  match m.spot with
  | .enter e => e
  | .outside => .start
  | .reset _ => .start
  | .leave _ => .start
  | .wait _ => .start

/-- ENTER (R165): a step of `enter(1)`; at its return `x[ver]` and `x[fsz]` are latched. -/
def phaseEnter (h : Hand) : Adv :=
  let r := enterStep h.cfg true (enterSpot h.m) h.m
  match r.1 with
  | .at_ e => .go (h.withM { r.2 with spot := .enter e })
  | .ret true => .go (h.withM { r.2 with ver := r.2.cs.ver, fsz := r.2.cs.fsz, pc := .capchk, spot := .outside })
  | .ret false => .go (h.withM (raiseFailure (.enterFailed r.2.cs) r.2))

/-- CAPCHK (R166); then the session begins (R173). -/
def phaseCapchk (h : Hand) : Adv :=
  if capacity h.m.fsz < h.m.ss then .go (h.withM (raiseFailure (.overflowDeclared h.m.ss (capacity h.m.fsz)) h.m))
  else .go (h.withM (beginSession { h.m with pc := .encode }))

/-- ENCODE (R173): the item at the position of the walk, to which `i` and `j` have come (10_state.md R32), at place `x[k]` of the
session; after the last the wait begins (R175). -/
def phaseEncode (h : Hand) : Adv :=
  if payloadsFit h.m.msgs then
    match nextPosition h.m with
    | none => .go (h.withM { h.m with pc := .wait, spot := .outside })
    | some (i, j, ad) =>
      match h.m.msgs[i]? with
      | none => .go (h.withM { h.m with pc := .wait, spot := .outside })
      | some msg => emitItem (h.m.k == 0) (walkItem h msg j ad) h
  else .refuse .bufferTooSmall

/-- DECODE: one response, or the end of the walk (42_transfer_decode.md R193, R205). -/
def phaseDecode (h : Hand) : Adv :=
  match nextPosition h.m with
  | none => .go (h.withM { h.m with pc := .leave, spot := .outside })
  | some _ => takeResponse (rspAnswer h.m) (h.withM (readRsp h.cfg h.m))

/-- CONT_ENCODE (R202, R203): item `x[k]` of the continuation session of the message the walk stands at; after the last the
second wait begins (R204). -/
def phaseContEncode (h : Hand) : Adv :=
  match h.m.msgs[h.m.i]? with
  | none => .go (h.withM { h.m with pc := .leave, spot := .outside })
  | some msg =>
    match (contItems h msg)[h.m.k]? with
    | none => .go (h.withM { h.m with pc := .contWait, spot := .outside })
    | some it => emitItem (h.m.k == 0) it h

/-- Where leave() stands; one that has not begun stands at its beginning. -/
def leaveSpot (m : Master) : LeaveSpot :=
  match m.spot with
  | .leave l => l
  | .outside => .read
  | .reset _ => .read
  | .enter _ => .read
  | .wait _ => .read

/-- LEAVE (40_master_control.md R136): a step of leave(had_error), on success and on failure alike (60_exceptions.md R256). -/
def phaseLeave (h : Hand) : Adv :=
  let r := leaveStep h.cfg (hadError h.m) (leaveSpot h.m) h.m
  match r.1 with
  | .at_ l => .go (h.withM { r.2 with spot := .leave l })
  | .ret _ => .go (h.withM { r.2 with pc := .unlock, spot := .outside })

/-- UNLOCK: the command returns. -/
def phaseUnlock (h : Hand) : Adv := .done (h.withM (unlockIdle h.m)) h.m.lock.owner (transferAnswer h.m)

/-- Where reset() stands; one that has not begun stands at its beginning. -/
def resetSpot (m : Master) : ResetSpot :=
  match m.spot with
  | .reset r => r
  | .outside => .read
  | .enter _ => .read
  | .leave _ => .read
  | .wait _ => .read

/-- A step of the reset of a TEARDOWN, its result ignored (43_params_and_commands.md R226); the destruction is a turn of its
own (70_reset_and_hazards.md R283). -/
def phaseTearReset (h : Hand) : Adv :=
  let r := resetStep h.cfg (resetSpot h.m) h.m
  match r.1 with
  | .at_ x => .go (h.withM { r.2 with spot := .reset x })
  | .ret _ => .pause (h.withM { r.2 with pc := .tearDestroy, spot := .outside })

/-- The end of a TEARDOWN: Unlock, then the Master is destroyed (R226). -/
def phaseTearDestroy (h : Hand) : Adv := .gone (h.withM (unlockIdle h.m)) h.m.lock.owner

/-- A step of the phase of the command in hand. In IDLE, PRECHECK and LOCK the block has no step of its own. -/
def phaseStep (h : Hand) : Adv :=
  match h.m.pc with
  | .idle => .pause h
  | .precheck => .pause h
  | .lock => .pause h
  | .size => phaseSize h
  | .enter => phaseEnter h
  | .capchk => phaseCapchk h
  | .encode => phaseEncode h
  | .wait => phaseWait h
  | .decode => phaseDecode h
  | .contEncode => phaseContEncode h
  | .contWait => phaseWait h
  | .leave => phaseLeave h
  | .unlock => phaseUnlock h
  | .tearReset => phaseTearReset h
  | .tearDestroy => phaseTearDestroy h

/-- A step of the block of one Master: of the wait called by itself, if one is in progress, else of the command. -/
def advance (h : Hand) : Adv :=
  match h.m.bare with
  | some w => bareStep w h
  | none => phaseStep h

/-- Step after step while `goOn` holds, until the command sleeps, ends or is refused; at most `n` steps. -/
def runWhile (goOn : Master → Bool) : Nat → Hand → Adv
  | 0, h => .go h
  | n + 1, h =>
    if goOn h.m then
      match advance h with
      | .go h1 => runWhile goOn n h1
      | .pause h1 => .pause h1
      | .done h1 c a => .done h1 c a
      | .gone h1 c => .gone h1 c
      | .refuse r => .refuse r
    else .go h

/-- More steps than a command makes before it sleeps or ends: enter() at most 40, leave() at most 1030, one per item and per
response, at most 32 more of each for a block read, and the phases between. -/
def budget (m : Master) : Nat := 2 * sessionSize m.msgs + m.ss + m.rem + 1200

/-- Run the command in hand: to its next sleep in a wait or its end, or, cut short, at most so many steps. -/
def continueCommand (cut : Option Nat) (h : Hand) : Adv := runWhile (fun _ => true) (cut.getD (budget h.m)) h

/-! ### TRANSFER (R160 to R163) -/

/-- The registered bus a handle names, with its Master (41_transfer_encode.md R162, 70_reset_and_hazards.md R284). -/
def State.busOf (s : State) (handle : Nat) : Option (Master × Bus) :=
  s.masters.findSome? (fun m =>
    (m.buses.find? (fun b => b.handle == handle && b.registered)).map (fun b => (m, b)))

/-- The command takes the lock and runs, or blocks in LOCK (20_memory.md R74). -/
def startTransfer (cmd : Nat) (m : Master) (bus : Nat) (msgs : List Message) (s : State) :
    Host.Outcome State Fault Refusal :=
  if m.lock = .free then
    let s1 := { s with inHand := m.id }
    settle s1 (continueCommand s.cut ⟨s.cfg, beginTransfer cmd bus msgs m, s.mem⟩)
  else .next (s.putMaster { m with waiting := m.waiting ++ [.transfer cmd bus msgs] })

/-- `TRANSFER(bus, msgs)`: PRECHECK (R161, R162), then the command. -/
def execTransfer (handle : Nat) (msgs : List Message) (s : State) : Host.Outcome State Fault Refusal :=
  let cmd := s.nextCmd
  let s1 := { s with nextCmd := s.nextCmd + 1 }
  match unsupported msgs with
  | some f => .next (s1.post cmd (.failure f.kind))
  | none =>
    match s1.busOf handle with
    | none => .refused .busNotRegistered
    | some (m, b) =>
      match listRefusal b.busId msgs with
      | some r => .refused r
      | none => startTransfer cmd m b.busId msgs s1

/-! ### The two data words, and the wait by itself -/

/-- `RSP`: the block reads response `r` from RSP, one destructive read. In DECODE it is `next_response` and what the position
does with it (42_transfer_decode.md R193); elsewhere it is discarded, as leave() does (40_master_control.md R136; log 15). The
instruction is the record, so the word read, and recorded with a failure, is its packing, the reserved bits zero (log 15). -/
def execRsp (r : Rsp) (s : State) : Host.Outcome State Fault Refusal :=
  withHand s (fun h =>
    let w := packRsp h.cfg.layout.rsp r
    let h1 := h.withM (rspReadIs h.cfg w h.m)
    if h.m.pc = .decode then takeResponse w h1 else .go h1)

/-- The value `c` read from CSR outside a wait, or by the wait in progress, which then makes its iteration on it (log 15). -/
def statusRead (c : Csr) (h : Hand) : Adv :=
  match h.m.bare with
  | some w => runWhile (·.bare.isSome) 2 (h.withM { waitReads h.cfg c w h.m with bare := some .test })
  | none =>
    if h.m.pc = .wait || h.m.pc = .contWait then
      runWhile (fun m => m.pc = .wait || m.pc = .contWait) 2
        (h.withM { waitReads h.cfg c (waitSpot h.m) h.m with spot := .wait .test })
    else .go (h.withM { csrReadIs h.cfg (packCsr h.cfg.layout.csr c) h.m with cs := c })

/-- `CSR`: written (`write` true), the word is stored to the register (30_encoding.md R104); read, it becomes `x[cs]`, and a
wait makes an iteration on it (40_master_control.md R140; log 15). -/
def execCsr (write : Bool) (c : Csr) (s : State) : Host.Outcome State Fault Refusal :=
  withHand s (fun h => if write then .go (h.withM (writeCsr h.cfg c h.m)) else statusRead c h)

/-- `wait_for_completion` (40_master_control.md R140): the wait begins and makes its first iteration. Its operands are for
diagnostics only (D44, log 22). If it sleeps, the turns of this Master that follow are its further iterations. Called while a
wait called by itself is in progress it takes that one's place, which then has no answer; while the command waits (R147 has no
second call) it shares `x[t_last]` and `x[prev]` with the command's wait (DESIGN CHOICE, log 14). -/
def execWait (_bs : BitVec 4) (_addr : BitVec 7) (s : State) : Host.Outcome State Fault Refusal :=
  withHand s (fun h => runWhile (·.bare.isSome) 4 (h.withM { h.m with bare := some .start }))

end Sys2Proof.Machine
end

