-- ==== Sys2Proof/Machine/Commands.lean ====
section
/-! DEFINITION. The host's other commands (43_params_and_commands.md): TUNE, DUMP, CAPS, CREATE, TEARDOWN, open; and the
two pure primitives validate and lookup called by themselves. -/

namespace Sys2Proof.Machine

/-! ### TUNE (R221, R222) -/

/-- The registered bus a `<bus>` number names, with its Master: by external bus number, or by identity within one Master
(parameter `TUNE_BUS_KEY`, R222). -/
def State.tuneBus (s : State) (n : Nat) : Option (Master × Bus) :=
  match s.cfg.tuneBusKey with
  | .external =>
    s.masters.findSome? (fun m => (m.buses.find? (fun b => b.adap == n && b.registered)).map (fun b => (m, b)))
  | .identity id =>
    match s.master? id with
    | none => none
    | some m => (m.buses.find? (fun b => b.busId == n && b.registered)).map (fun b => (m, b))

/-- The ranges of R222. -/
def tuneInRange (n : TuneNumbers) : Bool :=
  n.addr ≤ 0x7F && n.t ≤ 3 && n.datr ≤ 3 && n.datw ≤ 3 && n.ed ≤ 1

/-- The record a line in range writes (10_state.md R28). -/
def tuneRecord (n : TuneNumbers) : ParamRec :=
  { addr := BitVec.ofNat 7 n.addr, t := BitVec.ofNat 2 n.t, datr := BitVec.ofNat 2 n.datr, datw := BitVec.ofNat 2 n.datw
    ed := n.ed == 1 }

/-- The update of one bus's store (R221). -/
def tuneStore (busId : Nat) (r : ParamRec) (m : Master) : Master :=
  { m with buses := m.buses.map (fun b => if b.busId = busId then { b with params := updateStore r b.params } else b) }

/-- `TUNE(line)`: rejected without any change, or the record is written under the lock; with the lock held by another
command TUNE blocks (20_memory.md R74, R75). -/
def execTune (line : List Char) (s : State) : Host.Outcome State Fault Refusal :=
  let cmd := s.nextCmd
  let s1 := { s with nextCmd := s.nextCmd + 1 }
  match parseTuneLine line with
  | none => .next (s1.post cmd .rejected)
  | some n =>
    if !tuneInRange n then .next (s1.post cmd .rejected)
    else
      match s1.tuneBus n.bus with
      | none => .next (s1.post cmd .rejected)
      | some (m, b) =>
        if m.lock = .free then .next ((s1.putMaster (tuneStore b.busId (tuneRecord n) m)).post cmd .accepted)
        else .next (s1.putMaster { m with waiting := m.waiting ++ [.tune cmd b.busId (tuneRecord n)] })

/-! ### DUMP (R223) -/

/-- `DUMP()`: the Masters in rising id, each under its lock; a held lock makes it wait, a turn cut short makes it go on later. -/
def execDump (s : State) : Host.Outcome State Fault Refusal :=
  .next (dumpRun s.cut s.nextCmd s.masters [] { s with nextCmd := s.nextCmd + 1 })

/-! ### CAPS (R224) -/

/-- The seven names. -/
def allCapabilities : List Capability :=
  [.quickCommand, .byte, .byteData, .wordData, .blockData, .rawI2C, .noStart]

/-- `CAPS(bus)`: constant, whatever the bus. -/
def execCaps (_handle : Nat) (s : State) : Host.Outcome State Fault Refusal :=
  .next ({ s with nextCmd := s.nextCmd + 1 }.post s.nextCmd (.capabilities allCapabilities))

/-! ### CREATE (R225) -/

/-- A number not among `used`: the one given if it is free, else one above them all (log 12). -/
def freshAdap (used : List Nat) (n : Nat) : Nat := if n ∈ used then used.foldl max 0 + 1 else n

/-- The number the host framework hands out next. -/
def adapDrawn (s : State) : Nat :=
  match s.adapIn with
  | n :: _ => n
  | [] => Config.freeAdap s.nAdap

/-- The machine after that. -/
def afterAdap (s : State) : State :=
  match s.adapIn with
  | _ :: ns => { s with adapIn := ns }
  | [] => { s with nAdap := s.nAdap + 1 }

/-- The external bus numbers in use. -/
def State.adaps (s : State) : List Nat := s.masters.flatMap (fun m => m.buses.map (·.adap))

/-- `n` new buses with identities from `busId` on, each registered toward the host framework. -/
def makeBuses : Nat → Nat → List Nat → State → List Bus × State
  | 0, _, _, s => ([], s)
  | n + 1, busId, used, s =>
    let a := freshAdap used (adapDrawn s)
    let s1 := afterAdap s
    let r := makeBuses n (busId + 1) (a :: used) { s1 with nextHandle := s1.nextHandle + 1 }
    (Bus.fresh busId s1.nextHandle a :: r.1, r.2)

/-- The three register addresses of a base (20_memory.md R61). -/
def portAddrs (cfg : Config) (base : Nat) : List Nat := [base + cfg.reqOff, base + cfg.csrOff, base + cfg.rspOff]

/-- Does the new Master share a register with another, or has it two at one address (R61, R68)? -/
def sharesAddress (s : State) (base : Nat) : Bool :=
  !(portAddrs s.cfg base).Nodup ||
    s.masters.any (fun m => (portAddrs s.cfg m.base).any (fun a => (portAddrs s.cfg base).contains a))

/-- What CREATE refuses (R225, 20_memory.md R63, R68). -/
def createRefusal (s : State) (base id count : Nat) : Option Refusal :=
  if count = 0 || s.cfg.maxBusCount < count then some .busCountOutOfRange
  else if s.masters.any (fun m => m.id == id) then some .masterIdInUse
  else if (portAddrs s.cfg base).any (fun a => a % 4 != 0) then some .misalignedAddress
  else if sharesAddress s base then some .sharedAddress
  else none

/-- `CREATE`: no register access. -/
def execCreate (base id : Nat) (busCount : Option Nat) (s : State) : Host.Outcome State Fault Refusal :=
  let count := busCount.getD s.cfg.defaultBusCount
  match createRefusal s base id count with
  | some r => .refused r
  | none =>
    let b := makeBuses count 0 s.adaps { s with nextCmd := s.nextCmd + 1 }
    let s1 := b.2
    .next ({ s1 with masters := insertById (Master.fresh id s.nextCmd base b.1) s1.masters, inHand := id }.post s.nextCmd (.created id))

/-! ### TEARDOWN (R226, 70_reset_and_hazards.md R283) -/

/-- Unregister every bus of a Master. -/
def unregisterAll (m : Master) : Master := { m with buses := m.buses.map (fun b => { b with registered := false }) }

/-- The first step of `TEARDOWN(M)`: the buses are unregistered; then the lock is taken if it is free, else TEARDOWN waits
(20_memory.md R74; log 18). The reset and the destruction are steps of their own (R283). A TEARDOWN of a Master whose teardown
has begun unregisters nothing more and waits. -/
def execTeardown (id : Nat) (s : State) : Host.Outcome State Fault Refusal :=
  match s.master? id with
  | none => .refused .noSuchMaster
  | some m =>
    let cmd := s.nextCmd
    let s1 := { s with nextCmd := s.nextCmd + 1 }
    if m.lock = .free then
      .next ({ s1 with inHand := id }.putMaster { unregisterAll m with lock := .held cmd, pc := .tearReset, spot := .outside })
    else .next (s1.putMaster { unregisterAll m with waiting := m.waiting ++ [.teardown cmd] })

/-! ### open (R227) -/

/-- The registered bus of an external identity. -/
def State.openBus? (s : State) (adap : Nat) : Option Bus :=
  s.masters.findSome? (fun m => m.buses.find? (fun b => b.adap == adap && b.registered))

/-- `open(external-identity)`: the handle, and no other effect. -/
def execOpen (adap : Nat) (s : State) : Host.Outcome State Fault Refusal :=
  match s.openBus? adap with
  | none => .refused .noSuchBus
  | some b => .next ({ s with nextCmd := s.nextCmd + 1 }.post s.nextCmd (.handle b.handle))

/-! ### validate and lookup -/

/-- `validate(r, e, is_last)` (42_transfer_decode.md R190): it reads nothing but its operands. -/
def execValidate (r : Rsp) (e : BitVec 4) (last : Bool) (s : State) : Host.Outcome State Fault Refusal :=
  .next ({ s with nextCmd := s.nextCmd + 1 }.post s.nextCmd (.verdict (validateRsp s.cfg r e last)))

/-- `lookup(bus, a)` (R220): under the Master's lock it reads the bus's store and writes nothing; with the lock held by another
command it waits (20_memory.md R75; log 14). -/
def execLookup (handle : Nat) (addr : BitVec 7) (s : State) : Host.Outcome State Fault Refusal :=
  match s.busOf handle with
  | none => .refused .noSuchBus
  | some (m, b) =>
    let s1 := { s with nextCmd := s.nextCmd + 1 }
    if m.lock = .free then .next (s1.post s.nextCmd (.params (lookupParams b.params addr)))
    else .next (s1.putMaster { m with waiting := m.waiting ++ [.lookup s.nextCmd b.busId addr] })

end Sys2Proof.Machine
end

