-- ==== Sys2Proof/Machine/Dispatch.lean ====
section
/-! DEFINITION. One arm per row of the opcode table. -/

namespace Sys2Proof.Machine

def exec (i : Instr) (s : State) : Host.Outcome State Fault Refusal :=
  match i with
  | .addrF bs sp t dat ss d => Sys2Proof.Machine.execAddrF bs sp t dat ss d s
  | .addrN bs sp t dat ti d => Sys2Proof.Machine.execAddrN bs sp t dat ti d s
  | .wdataN bs sp t dat ti d => Sys2Proof.Machine.execWdataN bs sp t dat ti d s
  | .rdataN bs sp da t dat ti => Sys2Proof.Machine.execRdataN bs sp da t dat ti s
  | .brlenN bs sp ed t dat ti => Sys2Proof.Machine.execBrlenN bs sp ed t dat ti s
  | .contF bs sp da t dat ss => Sys2Proof.Machine.execContF bs sp da t dat ss s
  | .contN bs sp da t dat ti => Sys2Proof.Machine.execContN bs sp da t dat ti s
  | .rsp r => Sys2Proof.Machine.execRsp r s
  | .csr write c => Sys2Proof.Machine.execCsr write c s
  | .transfer handle msgs => Sys2Proof.Machine.execTransfer handle msgs s
  | .caps handle => Sys2Proof.Machine.execCaps handle s
  | .tune line => Sys2Proof.Machine.execTune line s
  | .dump => Sys2Proof.Machine.execDump s
  | .create base id busCount => Sys2Proof.Machine.execCreate base id busCount s
  | .teardown id => Sys2Proof.Machine.execTeardown id s
  | .openBus adap => Sys2Proof.Machine.execOpen adap s
  | .resetEngine => Sys2Proof.Machine.execReset s
  | .enter f => Sys2Proof.Machine.execEnter f s
  | .leave hadErr => Sys2Proof.Machine.execLeave hadErr s
  | .waitForCompletion bs addr => Sys2Proof.Machine.execWait bs addr s
  | .validate r e last => Sys2Proof.Machine.execValidate r e last s
  | .lookup handle addr => Sys2Proof.Machine.execLookup handle addr s

end Sys2Proof.Machine
end

