-- ==== Sys2Proof/Machine/Turns.lean ====
section
/-! DEFINITION. Who moves, and what a turn does: the host presents its next input, or the block of one Master goes on with
its command, or a freed lock is given to a command that waits (10_state.md R20, 20_memory.md R74, R77). -/

namespace Sys2Proof.Machine

/-! ### The host's turn -/

/-- What an input of the host is. -/
def decodeInput (l : Layout) : Input → Except DecodeError Instr
  | .word sl w => decodeAt l sl w
  | .line text => decodeLine text
  | .op i => .ok i
  | .fill _ _ => .error .noInstruction

/-- Run an instruction that has been decoded. -/
def runDecoded (i : Instr) (s : State) : Host.Outcome State Fault Refusal :=
  if i.wf then exec i s else .refused .illFormed

/-- The messages of a TRANSFER that waits for the lock. -/
def Blocked.messages : Blocked → List Message
  | .transfer _ _ msgs => msgs
  | .tune _ _ _ => []
  | .dump _ _ => []
  | .lookup _ _ _ => []
  | .teardown _ => []

/-- Is the sequencer of this Master inside a TRANSFER? -/
def inTransfer (m : Master) : Bool :=
  match m.pc with
  | .idle => false
  | .precheck => true
  | .lock => true
  | .size => true
  | .enter => true
  | .capchk => true
  | .encode => true
  | .wait => true
  | .decode => true
  | .contEncode => true
  | .contWait => true
  | .leave => true
  | .unlock => true
  | .tearReset => false
  | .tearDestroy => false

/-- The messages of every TRANSFER that has begun on this Master and not returned. -/
def openMessages (m : Master) : List Message :=
  (if inTransfer m then m.msgs else []) ++ m.waiting.flatMap Blocked.messages

/-- Is address `a` a byte of a buffer that the host must leave alone (20_memory.md R76)? -/
def inOpenBuffer (s : State) (a : Nat) : Bool :=
  s.masters.any (fun m => (openMessages m).any (fun msg => msg.buf ≤ a && a < msg.buf + msg.cap))

/-- The host stores bytes in its own memory; into a buffer of a running command the spec gives that no meaning (R76). -/
def hostFill (addr : Nat) (bytes : List Byte) (s : State) : Host.Outcome State Fault Refusal :=
  if (List.range bytes.length).any (fun k => inOpenBuffer s (addr + k)) then .refused .bufferChanged
  else .next { s with mem := writeBytes s.mem addr bytes }

/-- The host presents its oldest input. -/
def hostTurn (s : State) : Host.Outcome State Fault Refusal :=
  match s.inbox with
  | [] => .next s
  | .fill a bs :: rest => hostFill a bs { s with inbox := rest }
  | x :: rest =>
    match decodeInput s.cfg.layout x with
    | .ok i => runDecoded i { s with inbox := rest }
    | .error _ => .refused .undecodable

/-! ### A Master's turn -/

/-- One of a list, by a free number, which from a list of one makes no difference. -/
def pick (n : Nat) : List Blocked → Option Blocked
  | [] => none
  | [b] => some b
  | bs => bs[n % bs.length]?

/-- A command that waited gets the lock, and is carried out on the bus found before it waited, although a TEARDOWN may have
unregistered that bus since: a TRANSFER (DEDUCED, log 18), a TUNE (DEDUCED, log 31), a lookup (DESIGN CHOICE, log 31). -/
def resumeBlocked (b : Blocked) (m : Master) (s : State) : Host.Outcome State Fault Refusal :=
  match b with
  | .transfer cmd bus msgs => settle s (continueCommand s.cut ⟨s.cfg, beginTransfer cmd bus msgs m, s.mem⟩)
  | .tune cmd bus r => .next ((s.putMaster (tuneStore bus r m)).post cmd .accepted)
  | .dump cmd ls =>
    .next (dumpRun s.cut cmd (s.masters.filter (fun x => m.id < x.id)) (ls ++ dumpLines m) (s.putMaster m))
  | .lookup cmd bus addr => .next ((s.putMaster m).post cmd (.params (lookupParams (m.storeOf bus) addr)))
  | .teardown cmd => .next (s.putMaster { m with lock := .held cmd, pc := .tearReset, spot := .outside })

/-- A free lock with commands waiting: one of them gets it, any of them (20_memory.md R74). -/
def grantLock (m : Master) (s : State) : Host.Outcome State Fault Refusal :=
  match pick (drawn m) m.waiting with
  | none => .next s
  | some b => resumeBlocked b { afterDraw m with waiting := m.waiting.erase b } s

/-- Is a command of this Master, or a wait called by itself, in progress? -/
def inProgress (m : Master) : Bool := m.pc != .idle || m.bare.isSome

/-- The turn of the Master `id`: its command goes on; or its free lock is given; or nothing moves, since its lock is held by no
command that can go on: the commands that wait for it wait (00_scope.md R10, log 25). -/
def masterTurn (id : Nat) (s : State) : Host.Outcome State Fault Refusal :=
  match s.master? id with
  | none => .next s
  | some m =>
    if m.lock = .free then grantLock m { s with inHand := id }
    else if inProgress m then settle { s with inHand := id } (continueCommand s.cut ⟨s.cfg, m, s.mem⟩)
    else .next s

/-! ### Whose turn it is -/

/-- Can this Master move? -/
def canMove (m : Master) : Bool := if m.lock = .free then !m.waiting.isEmpty else inProgress m

/-- The agents that can move: the engine and the clock always, the host while it has something to present, and the Masters
that can. -/
def movers (s : State) : List Agent :=
  .world :: (if s.inbox.isEmpty then [] else [.host]) ++ (s.masters.filter canMove).map (fun m => .master m.id)

/-- One agent's turn. -/
def turn (a : Agent) (s : State) : Host.Outcome State Fault Refusal :=
  match a with
  | .host => hostTurn s
  | .master id => masterTurn id s
  | .world => .next s

/-- The next turn: the one `sched` names, else a free choice among the agents that can move (log 6). When none of the block
and the host can, the machine waits as it is: `pc = IDLE` (10_state.md R31). -/
def nextTurn (s : State) : Host.Outcome State Fault Refusal :=
  match s.sched with
  | (a, c) :: rest => turn a { s with sched := rest, cut := c }
  | [] =>
    match movers s with
    | [] => .next s
    | [_] => .next s
    | a :: b :: as =>
      match (a :: b :: as)[Config.freeTurn s.nTurn % (as.length + 2)]? with
      | some x => turn x { s with nTurn := s.nTurn + 1, cut := Config.freeCut s.nTurn }
      | none => .next s

/-! ### Placing a word to be run next -/

/-- The Master with its lock held, by command `cmd` if it was free. -/
def holdLock (cmd : Nat) (m : Master) : Master := if m.lock = .free then { m with lock := .held cmd } else m

/-- The lock of the Master in hand held, as an item or a data word needs (60_exceptions.md R261). -/
def State.holdInHand (s : State) : State :=
  match s.hand with
  | none => s
  | some m => { s.putMaster (holdLock s.nextCmd m) with nextCmd := s.nextCmd + 1 }

/-- The word `w` presented first, and the next turn the host's (log 8). -/
def presentWord (w : Word) (s : State) : State :=
  let s1 := s.holdInHand
  { s1 with inbox := .word (tableSlot s.cfg.layout w) w :: s1.inbox, sched := (.host, none) :: s1.sched }

end Sys2Proof.Machine
end

