-- ==== Sys2Proof/Machine/Step.lean ====
section
/-! DEFINITION. One step of the machine, and how a word comes to be the next thing it runs. -/

namespace Sys2Proof.Machine

/-- One step: the turn of one agent. A turn of a Master runs its command to its next wait or to its end. -/
def step (s : State) : Host.Outcome State Fault Refusal := nextTurn s

/-- `s` with the instruction whose table bits are `w` presented so that the very next step runs it (log 8). -/
def State.withFetchWord (s : State) (nbits w : Nat) : State := presentWord (BitVec.ofNat 32 (w % 2 ^ nbits)) s

end Sys2Proof.Machine
end

