-- ==== Sys2Proof/Safety.lean ====
section
/-! DEFINITION. The terms claims are made in: what holds of every good state, what an access is apart from its time, what a
history may hold, and what the bytes of a good run of responses leave in host memory. -/

namespace Sys2Proof.Machine

/-! ### Good states -/

/-- The Masters stand by rising id, no id twice (43_params_and_commands.md R227). -/
abbrev IdsRising (s : State) : Prop := s.masters.Pairwise (fun a b => a.id < b.id)

/-- The buses are the identities 0 to `bus_count - 1`, in order (10_state.md R25). -/
abbrev BusIdsInOrder (m : Master) : Prop := m.buses.map (·.busId) = List.range m.busCount

/-- The records of a store have pairwise distinct addresses (10_state.md R27). -/
abbrev StoreDistinct (b : Bus) : Prop := (b.params.map (·.addr)).Nodup

/-- With the lock free no command is in progress: `pc` is IDLE between commands (10_state.md R31). -/
abbrev IdleWhenFree (m : Master) : Prop := m.lock = .free → m.pc = .idle ∧ m.bare = none

/-- The phases of a TRANSFER before LEAVE (10_state.md R31). -/
abbrev beforeLeave : List Phase := [.size, .enter, .capchk, .encode, .wait, .decode, .contEncode, .contWait]

/-- No failure is recorded before LEAVE, so none is recorded twice (60_exceptions.md R255). -/
abbrev NoErrorBeforeLeave (m : Master) : Prop := m.pc ∈ beforeLeave → m.err = none

/-- What holds of one Master. -/
abbrev MasterOk (m : Master) : Prop :=
  BusIdsInOrder m ∧ (∀ b ∈ m.buses, StoreDistinct b) ∧ IdleWhenFree m ∧ NoErrorBeforeLeave m

/-- The invariant of the machine: host memory in its canonical form, the Masters in order, each of them good. -/
abbrev Inv (s : State) : Prop := Memory.wf s.mem ∧ IdsRising s ∧ ∀ m ∈ s.masters, MasterOk m

/-- The registers of the Masters: aligned, three at three addresses each, none shared (20_memory.md R61, R63, R68). -/
abbrev PortsApart (s : State) : Prop :=
  s.masters.Pairwise (fun a b => ∀ x ∈ portAddrs s.cfg a.base, x ∉ portAddrs s.cfg b.base) ∧
    ∀ m ∈ s.masters, (portAddrs s.cfg m.base).Nodup ∧ ∀ x ∈ portAddrs s.cfg m.base, x % 4 = 0

/-- The handles of all buses (10_state.md R26). -/
def State.handles (s : State) : List Nat := s.masters.flatMap (fun m => m.buses.map (·.handle))

/-- No two buses have one handle or one external bus number, and no handle is given out twice (10_state.md R26,
43_params_and_commands.md R222; logs 12 and 13); no two Masters come from one creation, and no creation comes twice (log 4). -/
abbrev NamesDistinct (s : State) : Prop :=
  s.adaps.Nodup ∧ s.handles.Nodup ∧ (∀ h ∈ s.handles, h < s.nextHandle) ∧
    (s.masters.map (·.life)).Nodup ∧ ∀ m ∈ s.masters, m.life < s.nextCmd

/-! ### Formats -/

/-- The session size an instruction carries, if it is the first item of a session (30_encoding.md R93). -/
def sizeOf? : Instr → Option (BitVec 10)
  | .addrF _ _ _ _ ss _ => some ss
  | .addrN _ _ _ _ _ _ => none
  | .wdataN _ _ _ _ _ _ => none
  | .rdataN _ _ _ _ _ _ => none
  | .brlenN _ _ _ _ _ _ => none
  | .contF _ _ _ _ _ ss => some ss
  | .contN _ _ _ _ _ _ => none
  | .rsp _ => none
  | .csr _ _ => none
  | .transfer _ _ => none
  | .caps _ => none
  | .tune _ => none
  | .dump => none
  | .create _ _ _ => none
  | .teardown _ => none
  | .openBus _ => none
  | .resetEngine => none
  | .enter _ => none
  | .leave _ => none
  | .waitForCompletion _ _ => none
  | .validate _ _ _ => none
  | .lookup _ _ => none

/-! ### What a meaning finds -/

/-- The Master in hand is `m`, and its lock is held: what an item, a data word or a primitive of Master Control needs
(20_memory.md R75, 60_exceptions.md R261). -/
abbrev HeldInHand (s : State) (m : Master) : Prop := s.hand = some m ∧ m.lock ≠ .free

/-- A TRANSFER that no rule refuses or rejects (41_transfer_encode.md R161, R162): `msgs` on
the registered bus `b` of Master `m`, whose lock is free. -/
abbrev Accepted (s : State) (handle : Nat) (msgs : List Message) (m : Master) (b : Bus) : Prop :=
  s.busOf handle = some (m, b) ∧ m.lock = .free ∧ unsupported msgs = none ∧ listRefusal b.busId msgs = none

/-- A control/status value that ends a backoff loop (40_master_control.md R132). -/
abbrev CleanWord (cfg : Config) (w : Word) : Prop :=
  (unpackCsr cfg.layout.csr w).reset = false ∧ dirty (unpackCsr cfg.layout.csr w) = false

/-- The items of one message in order (41_transfer_encode.md R173). -/
def msgProtos (cfg : Config) (mem : Memory) (msg : Message) (p : Params) : List Proto :=
  (if msg.noStart then [] else [addrProto msg p]) ++ (List.range msg.length).map (dataProto cfg mem msg p)

/-- Every item of the main session of the command in hand, in emission order (R173). -/
def sessionItems (h : Hand) : List ReqItem :=
  (h.m.msgs.flatMap (fun msg => msgProtos h.cfg h.mem msg (msgParams h.m msg))).mapIdx
    (fun k p => placeItem (k == 0) (BitVec.ofNat 4 h.m.bus) h.m.ss k p)

/-- The items a TRANSFER of `msgs` on the bus `busId` of `m` emits (41_transfer_encode.md R173). -/
def itemsOf (cfg : Config) (m : Master) (busId : Nat) (msgs : List Message) (mem : Memory) : List ReqItem :=
  sessionItems ⟨cfg, { m with bus := busId, msgs := msgs, ss := sessionSize msgs }, mem⟩

/-! ### Accesses without their times -/

/-- An access or a sleep, its time left out. -/
inductive Access where
  | read (addr : Nat) (w : Word)
  | write (addr : Nat) (w : Word)
  | sleep (d : Nat)
  deriving DecidableEq, Repr

/-- The access of an event. -/
def accessOf : Event → Access
  | .read a w _ => .read a w
  | .write a w _ => .write a w
  | .sleep d _ => .sleep d

/-- The accesses and sleeps of a Master so far. -/
def accesses (m : Master) : List Access := m.hist.map accessOf

/-- The sleeps and reads of a backoff loop that reads the words `ws` (40_master_control.md R132). -/
def backoffAccesses (csr : Nat) (ds : List Nat) (ws : List Word) : List Access :=
  (ds.zip ws).flatMap (fun x => [.sleep x.1, .read csr x.2])

/-- `m'` is `m` after the accesses and sleeps `new`: nothing else of the Master has changed but the clock and the model's free
numbers; and at least `took` microseconds have passed, exactly so many under `SLEEP_EXACT` (60_exceptions.md R263). -/
abbrev PortRun (cfg : Config) (m m' : Master) (new : List Access) (took : Nat) : Prop :=
  m' = { m with hist := m'.hist, time := m'.time, draws := m'.draws, nDraw := m'.nDraw } ∧
  accesses m' = accesses m ++ new ∧ m.time + took ≤ m'.time ∧ (cfg.sleepExact = true → m'.time = m.time + took)

/-! ### What a primitive of Master Control reads and comes to -/

/-- The value `w` with reset and force-one-error set, as reset() writes it back (40_master_control.md R132). -/
def resetWord (cfg : Config) (w : Word) : Word :=
  packCsr cfg.layout.csr { unpackCsr cfg.layout.csr w with reset := true, foe := true }

/-- The value `w` with reset set, as leave() writes it back (R136). -/
def armedWord (cfg : Config) (w : Word) : Word := packCsr cfg.layout.csr { unpackCsr cfg.layout.csr w with reset := true }

/-- A backoff loop that re-reads `pre` and then `v` ends there: `v` is the first clean value or the fourth (R132). -/
abbrev BackoffEnds (cfg : Config) (pre : List Word) (v : Word) : Prop :=
  (∀ x ∈ pre, ¬CleanWord cfg x) ∧ pre.length ≤ 3 ∧ (CleanWord cfg v ∨ pre.length = 3)

/-- The accesses of a reset() that reads `w0` and then re-reads `pre` and `v` (R132). -/
def resetAccesses (cfg : Config) (m : Master) (w0 : Word) (pre : List Word) (v : Word) : List Access :=
  [.read (m.base + cfg.csrOff) w0, .write (m.base + cfg.csrOff) (resetWord cfg w0)] ++
    backoffAccesses (m.base + cfg.csrOff) [1000, 2000, 4000, 8000] (pre ++ [v])

/-- The time such a reset() sleeps. -/
def resetSleeps (pre : List Word) : Nat := ([1000, 2000, 4000, 8000].take (pre.length + 1)).sum

/-- What enter(f) does with a value `v` that is not dirty (R134, R137): as it is asked to be, nothing; else one corrective write
of `v` with `reset` clear and `foe` as asked, and one re-read, which must show `reset` clear. `acc` are the accesses, `ok` the
result, `last` the value read last, `rest` the answers after it. -/
def Judged (cfg : Config) (m : Master) (f : Bool) (v : Word) (answers : List Word) (acc : List Access) (ok : Bool)
    (last : Word) (rest : List Word) : Prop :=
  let c := unpackCsr cfg.layout.csr v
  if c.reset = false ∧ c.foe = f then acc = [] ∧ ok = true ∧ last = v ∧ rest = answers
  else answers = last :: rest ∧ ok = !(unpackCsr cfg.layout.csr last).reset ∧
    acc = [.write (m.base + cfg.csrOff) (packCsr cfg.layout.csr { c with reset := false, foe := f }),
      .read (m.base + cfg.csrOff) last]

/-- The sleep that ends before a wait that stands at `w` comes to its next read. -/
def dueSleep : WaitSpot → Nat
  | .start => 0
  | .read => 0
  | .test => 0
  | .clear => 0
  | .wake d => d

/-! ### A response read in DECODE -/

/-- The block reads the response record `r` in DECODE, by a step of its own while responses are expected or presented as an
instruction (log 15), and `out` is the hand after it, of the word read and the Master that has read it. -/
def Responds (h : Hand) (r : Rsp) (out : Word → Master → Hand) : Prop :=
  (h.m.bare = none → nextPosition h.m ≠ none → unpackRsp h.cfg.layout.rsp (rspAnswer h.m) = r →
    ∃ m1, PortRun h.cfg { h.m with rspIn := h.m.rspIn.tail } m1 [.read (h.m.base + h.cfg.rspOff) (rspAnswer h.m)] 0 ∧
      advance h = .go (out (rspAnswer h.m) m1)) ∧
  ∀ s : State, HeldInHand s h.m → s.cfg = h.cfg → s.mem = h.mem →
    ∃ m1, PortRun h.cfg h.m m1 [.read (h.m.base + h.cfg.rspOff) (packRsp h.cfg.layout.rsp r)] 0 ∧
      exec (.rsp r) s = .next (s.commit (out (packRsp h.cfg.layout.rsp r) m1))

/-- The same, where the spec gives no meaning. -/
def RespondsRefused (h : Hand) (r : Rsp) (why : Refusal) : Prop :=
  (h.m.bare = none → nextPosition h.m ≠ none → unpackRsp h.cfg.layout.rsp (rspAnswer h.m) = r → advance h = .refuse why) ∧
  ∀ s : State, HeldInHand s h.m → s.cfg = h.cfg → s.mem = h.mem → exec (.rsp r) s = .refused why

/-! ### Histories -/

/-- The time of an event. -/
def timeOf : Event → Nat
  | .read _ _ t => t
  | .write _ _ t => t
  | .sleep _ t => t

/-- What the block may do at its Register Port (10_state.md R35, 20_memory.md R61): read CSR and RSP, write REQ and CSR, of
its own Master, and sleep. -/
def legalEvent (cfg : Config) (m : Master) : Event → Prop
  | .read a _ _ => a = m.base + cfg.csrOff ∨ a = m.base + cfg.rspOff
  | .write a _ _ => a = m.base + cfg.csrOff ∨ a = m.base + cfg.reqOff
  | .sleep _ _ => True

/-- Master `m'` is `m` after some legal accesses: the same Master at the same address, its history longer at its end by
legal events, at times that do not fall from that of `m` to that of `m'` (60_exceptions.md R263). -/
def HistoryExtends (cfg : Config) (m m' : Master) : Prop :=
  m'.id = m.id ∧ m'.base = m.base ∧ m.time ≤ m'.time ∧
    ∃ new : List Event, m'.hist = m.hist ++ new ∧ (∀ ev ∈ new, legalEvent cfg m ev ∧ m.time ≤ timeOf ev ∧ timeOf ev ≤ m'.time) ∧
      new.Pairwise (fun a b => timeOf a ≤ timeOf b)

/-! ### The bytes a run of responses stores -/

/-- The messages with the block read among them longer by `n` (42_transfer_decode.md R200). -/
def grown (n : Nat) (msgs : List Message) : List Message :=
  msgs.map (fun x => if x.vlr then { x with length := x.length + n } else x)

/-- The bytes of the responses `rs` stored from offset `j` of a message's buffer on (42_transfer_decode.md R197). -/
def storeBytes (msg : Message) : Nat → List Rsp → Memory → Memory
  | _, [], mem => mem
  | j, r :: rs, mem => storeBytes msg (j + 1) rs (bufWrite mem msg j r.d)

/-- The responses `rs` of a whole session dealt to its messages (R194, R196, R197): each message takes one for its address
item, unless `no_start`, and one per data byte; a read message stores its data bytes. -/
def storeResponses : List Message → List Rsp → Memory → Memory
  | [], _, mem => mem
  | msg :: msgs, rs, mem =>
    let data := if msg.noStart then rs else rs.drop 1
    let mem' := if msg.read then storeBytes msg 0 (data.take msg.length) mem else mem
    storeResponses msgs (data.drop msg.length) mem'

end Sys2Proof.Machine
end

