-- ==== Sys2Proof/Certificates/Slice0/Obligations.lean ====
section
/-! DEFINITION. The statements for the provers. Each says in its docstring which rule of the spec it formalises, or which
log entry it rests on. -/

open Sys2Proof Sys2Proof.Machine

/-! ### Reset and the machine as a whole -/

/-- The model's reset state (log 1) is one Master as its creation leaves it (10_state.md R47): lock free, identifier 0,
`Idle`, `pc` in IDLE, no diagnostics, no access made, every bus registered with an empty store; host memory lists nothing. -/
def Obligations.ResetIsAJustCreatedMaster : Prop :=
  ∃ m, State.reset.masters = [m] ∧ m.lock = .free ∧ m.rid = 0 ∧ m.mc = .idle ∧ m.pc = .idle ∧ m.diag = [] ∧ m.hist = [] ∧
    m.waiting = [] ∧ BusIdsInOrder m ∧ (∀ b ∈ m.buses, b.registered = true ∧ b.params = []) ∧
    State.reset.mem = [] ∧ State.reset.inHand = m.id ∧ State.reset.inbox = [] ∧ State.reset.replies = []

/-- The reset state meets the invariant of the machine and has no two names or registers alike. That state is the model's
choice (log 1), and so are the handles and the external bus numbers in it (logs 12 and 13). -/
def Obligations.ResetMeetsTheInvariants : Prop :=
  Inv State.reset ∧ PortsApart State.reset ∧ NamesDistinct State.reset

/-- Every step keeps the invariant: host memory canonical, Masters by rising id, bus identities 0 to `bus_count - 1`
(10_state.md R25), stores with pairwise distinct addresses (R27), `pc` in IDLE when the lock is free (R31), no failure
recorded before LEAVE (60_exceptions.md R255). -/
def Obligations.EveryStepKeepsTheInvariant : Prop :=
  ∀ s t : State, Inv s → Machine.step s = .next t → Inv t

/-- Every step keeps the Masters' registers aligned, distinct and unshared (20_memory.md R61, R63, R68). It keeps distinct,
by the model's own choice, handles and external bus numbers (logs 12 and 13) and the creations of Masters (log 4). -/
def Obligations.EveryStepKeepsPortsAndNamesApart : Prop :=
  ∀ s t : State, IdsRising s → PortsApart s → NamesDistinct s → Machine.step s = .next t → PortsApart t ∧ NamesDistinct t

/-- The one access discipline (10_state.md R35, 20_memory.md R61, R69): whatever step the machine takes, the history of a
Master that exists before and after it is only lengthened at its end, and by reads of its CSR and RSP, writes of its CSR and
REQ, and sleeps; and its time never falls, and the new entries bear times in their order, between the time before the step and
the time after it (60_exceptions.md R263). -/
def Obligations.HistoriesGrowByLegalAccesses : Prop :=
  ∀ s t : State, IdsRising s → Machine.step s = .next t →
    ∀ m ∈ s.masters, ∀ m' ∈ t.masters, m'.id = m.id → HistoryExtends s.cfg m m'

/-- Configuration is no mutable state (10_state.md R21, R48): no step changes the parameters, nor a Master's register
address or bus count; its request identifier never falls and grows by at most one in a step (R23). -/
def Obligations.ConfigurationIsFixed : Prop :=
  ∀ s t : State, IdsRising s → Machine.step s = .next t → t.cfg = s.cfg ∧
    ∀ m ∈ s.masters, ∀ m' ∈ t.masters, m'.id = m.id →
      m'.base = m.base ∧ m'.busCount = m.busCount ∧ (m'.rid = m.rid ∨ m'.rid = m.rid + 1)

/-- A record is created or changed by a tuning command only (10_state.md R27): every other instruction leaves the store of
every bus of every Master that goes on existing as it was, and so does every step, the turn of a Master that runs the rest of
a command among them, unless the host presents a tuning line or a TUNE waits for the lock of that Master. -/
def Obligations.OnlyTuneChangesStores : Prop :=
  (∀ (i : Instr) (s t : State), IdsRising s → (∀ line, i ≠ .tune line) → Machine.exec i s = .next t →
    ∀ m ∈ s.masters, ∀ m' ∈ t.masters, m'.id = m.id → m'.buses.map (·.params) = m.buses.map (·.params)) ∧
  ∀ s t : State, IdsRising s → Machine.step s = .next t →
    ∀ m ∈ s.masters, ∀ m' ∈ t.masters, m'.id = m.id → m'.buses.map (·.params) ≠ m.buses.map (·.params) →
      (∃ x rest line, s.inbox = x :: rest ∧ decodeInput s.cfg.layout x = .ok (.tune line)) ∨
        ∃ cmd bus r, Blocked.tune cmd bus r ∈ m.waiting

/-- Masters share no state (20_memory.md R77): an item, a data word, a primitive of Master Control or a TRANSFER leaves every
Master but the one it acts on as it was, and the turn of a Master does so too unless a DUMP waits for its lock, which goes
on to other Masters. The block of a Master makes at most one access in a step, so that the block of another can move between
any two; where the steps of a turn end is the model's choice, log 6. -/
def Obligations.MastersAreIndependent : Prop :=
  (∀ (i : Instr) (s t : State), IdsRising s → Machine.exec i s = .next t →
    ((slotOf i).isSome = true ∨ i = .resetEngine ∨ (∃ f, i = .enter f) ∨ (∃ f, i = .leave f) ∨
      ∃ bs a, i = .waitForCompletion bs a) → ∀ x ∈ s.masters, x.id ≠ s.inHand → x ∈ t.masters) ∧
  (∀ (handle : Nat) (msgs : List Message) (s t : State), IdsRising s → Machine.exec (.transfer handle msgs) s = .next t →
    ∀ x ∈ s.masters, (∀ m b, s.busOf handle = some (m, b) → x.id ≠ m.id) → x ∈ t.masters) ∧
  (∀ (id : Nat) (s t : State), IdsRising s → masterTurn id s = .next t →
    (∀ m, s.master? id = some m → ∀ cmd ls, Blocked.dump cmd ls ∉ m.waiting) →
    ∀ x ∈ s.masters, x.id ≠ id → x ∈ t.masters) ∧
  ∀ h h' : Hand, advance h = .go h' ∨ advance h = .pause h' → (accesses h'.m).length ≤ (accesses h.m).length + 1

/-- When the host moves and its oldest input decodes to a well-formed instruction, the step is that instruction at the state
with the input taken; an input that does not decode, or is not well formed (30_encoding.md R95), is refused; bytes that the
host stores in its memory are there after the step, and nothing else changes, unless one of them lies in a buffer of a TRANSFER
that has not returned (20_memory.md R76). That the host presents inputs one by one and a turn of its own runs the oldest is the
model's choice (logs 6 and 8), and so are the refusal of a malformed creation line (log 20) and the bytes as an input (log 17). -/
def Obligations.StepRunsTheDecodedInput : Prop :=
  ∀ (s : State) (x : Input) (rest : List Input) (cut : Option Nat) (turns : List (Agent × Option Nat)),
    s.sched = (.host, cut) :: turns → s.inbox = x :: rest →
    (∀ i, decodeInput s.cfg.layout x = .ok i → i.wf = true →
      Machine.step s = Machine.exec i { s with sched := turns, cut := cut, inbox := rest }) ∧
    (∀ i, decodeInput s.cfg.layout x = .ok i → i.wf = false → Machine.step s = .refused .illFormed) ∧
    (∀ e, decodeInput s.cfg.layout x = .error e → (∀ a bs, x ≠ .fill a bs) → Machine.step s = .refused .undecodable) ∧
    (∀ a bs, x = .fill a bs → (∃ y, a ≤ y ∧ y < a + bs.length ∧ inOpenBuffer s y = true) →
      Machine.step s = .refused .bufferChanged) ∧
    (∀ a bs, x = .fill a bs → Memory.wf s.mem → (∀ y, a ≤ y → y < a + bs.length → inOpenBuffer s y = false) →
      ∃ mem, Machine.step s = .next { s with sched := turns, cut := cut, inbox := rest, mem := mem } ∧
        (∀ k, k < bs.length → some (Memory.read mem (a + k)) = bs[k]?) ∧
        ∀ y, y < a ∨ a + bs.length ≤ y → Memory.read mem y = Memory.read s.mem y)

/-! ### Formats -/

/-- Words written out from the tables of 30_encoding.md and the worked examples of 41_transfer_encode.md R167 to R170 and
42_transfer_decode.md R203 decode under the reference layout to what they stand for. -/
def Obligations.SpecWordsDecode : Prop :=
  let at_ := decodeAt .reference
  at_ .addrFirst 0x091C08A0#32 = .ok (.addrF 0 false 1 3 8 0xA0) ∧
  at_ .addrFirst 0x0D1C0158#32 = .ok (.addrF 0 true 1 3 1 0x58) ∧
  at_ .addrLater 0x011C04A1#32 = .ok (.addrN 0 false 1 3 4 0xA1) ∧
  at_ .writeData 0x011C0222#32 = .ok (.wdataN 0 false 1 3 2 0x22) ∧
  at_ .readData 0x061C0700#32 = .ok (.rdataN 0 true false 1 3 7) ∧
  at_ .blockLength 0x37E40300#32 = .ok (.brlenN 3 true true 2 1 3) ∧
  at_ .contFirst 0x031C0500#32 = .ok (.contF 0 false true 1 3 5) ∧
  at_ .contLater 0x061C0400#32 = .ok (.contN 0 true false 1 3 4) ∧
  at_ .response 0x50000011#32 = .ok (.rsp ⟨5, false, false, false, false, false, false, 0x11⟩) ∧
  at_ .statusRead 0x60000414#32 = .ok (.csr false ⟨false, true, 2, false, 0, 8, 0, true, 1, 0⟩)

/-- Under every layout that 30_encoding.md R91 admits (the model's layouts are positions, log 16), decoding gives back every
instruction that has a word, with every operand at every value of its width: from the word, and from its bytes with any bytes
after them. A session size must be one the layout can hold (R95). -/
def Obligations.DecodeInvertsEncode : Prop :=
  ∀ (l : Layout) (i : Instr) (sl : Slot), l.ok → slotOf i = some sl →
    (∀ ss, sizeOf? i = some ss → ss.toNat < 2 ^ l.req.ssWidth) →
    ∃ w, encode l i = [w] ∧ decodeAt l sl w = .ok i ∧ ∀ rest, decode l sl (wordBytes w ++ rest) = .ok (i, rest)

/-- The other direction: a word that decodes at a slot is the encoding of what it decodes to, but for the reserved bits of a
response word, which are dropped (30_encoding.md R99); and the records of the two words read are the inverse of their packing,
as R91 (b), (c) and (e) ask of a layout. The layouts are the model's, which give each field its place in one piece (`Layout.ok`:
DESIGN CHOICE, log 16). -/
def Obligations.EncodeInvertsDecode : Prop :=
  (∀ (l : Layout) (sl : Slot) (w : Word) (i : Instr), l.ok → decodeAt l sl w = .ok i →
    slotOf i = some sl ∧ (sl ≠ .response → encode l i = [w]) ∧
      (sl = .response → encode l i = [packRsp l.rsp (unpackRsp l.rsp w)])) ∧
  (∀ l : Layout, l.ok → (∀ r : Rsp, unpackRsp l.rsp (packRsp l.rsp r) = r) ∧
    (∀ c : Csr, unpackCsr l.csr (packCsr l.csr c) = c) ∧ ∀ w : Word, packCsr l.csr (unpackCsr l.csr w) = w) ∧
  ∀ (w : Word) (i : Instr), decodeAt .reference .response w = .ok i → encode .reference i = [w &&& 0xFFC000FF#32]

/-- The request word under the reference layout (30_encoding.md R94): the sum of its shifted fields, the size in `seq` on a
first item and the index on any other. Under every layout of the model, which gives each field its place in one piece
(`Layout.ok`: DESIGN CHOICE, log 16), `packReq` is defined on the well-formed items, a session size the layout cannot hold apart,
and on them `unpackReq` is its inverse, so it is injective (R91 (d), R95). -/
def Obligations.RequestWordLayout : Prop :=
  (∀ (it : ReqItem) (first : Bool),
    (reqWord Layout.reference.req it first).toNat = it.bs.toNat <<< 28 ||| it.st.toNat <<< 27 ||| it.sp.toNat <<< 26 |||
      it.dod.toNat <<< 25 ||| it.da.toNat <<< 24 ||| it.br.toNat <<< 23 ||| it.ed.toNat <<< 22 ||| it.t.toNat <<< 20 |||
      it.dat.toNat <<< 18 ||| (if first then it.ss.toNat else it.ti.toNat) <<< 8 ||| it.d.toNat) ∧
  ∀ (l : Layout) (it : ReqItem) (first : Bool), l.ok →
    (packReq l.req it first = none ↔ ¬(if first then it.ti = 0 ∧ it.ss ≠ 0 ∧ it.ss.toNat < 2 ^ l.req.ssWidth else it.ss = 0)) ∧
    ∀ w, packReq l.req it first = some w → w = reqWord l.req it first ∧ unpackReq l.req w first = it

/-- The control/status word under the reference layout (30_encoding.md R104): `packCsr` is the sum of the shifted fields, and
`unpackCsr` takes each field from its bits. -/
def Obligations.StatusWordLayout : Prop :=
  (∀ c : Csr, (packCsr Layout.reference.csr c).toNat = c.reset.toNat <<< 31 ||| c.fe.toNat <<< 30 ||| c.ver.toNat <<< 28 |||
    c.brb.toNat <<< 27 ||| c.nrq.toNat <<< 17 ||| c.nrs.toNat <<< 7 ||| c.fsz.toNat <<< 5 ||| c.foe.toNat <<< 4 |||
    c.sp.toNat <<< 2 ||| c.rsv.toNat) ∧
  ∀ w : Word, let c := unpackCsr Layout.reference.csr w
    c.reset.toNat = w.toNat / 2 ^ 31 ∧ c.fe.toNat = w.toNat / 2 ^ 30 % 2 ∧ c.ver.toNat = w.toNat / 2 ^ 28 % 4 ∧
    c.brb.toNat = w.toNat / 2 ^ 27 % 2 ∧ c.nrq.toNat = w.toNat / 2 ^ 17 % 1024 ∧ c.nrs.toNat = w.toNat / 2 ^ 7 % 1024 ∧
    c.fsz.toNat = w.toNat / 2 ^ 5 % 4 ∧ c.foe.toNat = w.toNat / 2 ^ 4 % 2 ∧ c.sp.toNat = w.toNat / 2 ^ 2 % 4 ∧
    c.rsv.toNat = w.toNat % 4

/-- The response word under the reference layout (30_encoding.md R100): `unpackRsp` takes each field from its bits, and
`packRsp` is the inverse with the reserved bits zero. -/
def Obligations.ResponseWordLayout : Prop :=
  (∀ w : Word, let r := unpackRsp Layout.reference.rsp w
    r.ti.toNat = w.toNat / 2 ^ 28 ∧ r.fe.toNat = w.toNat / 2 ^ 27 % 2 ∧ r.ovf.toNat = w.toNat / 2 ^ 26 % 2 ∧
    r.ackError.toNat = w.toNat / 2 ^ 25 % 2 ∧ r.timeoutError.toNat = w.toNat / 2 ^ 24 % 2 ∧
    r.busConflictError.toNat = w.toNat / 2 ^ 23 % 2 ∧ r.flushed.toNat = w.toNat / 2 ^ 22 % 2 ∧
    r.d.toNat = w.toNat % 256) ∧
  (∀ w : Word, packRsp Layout.reference.rsp (unpackRsp Layout.reference.rsp w) = w &&& 0xFFC000FF#32) ∧
  ∀ r : Rsp, unpackRsp Layout.reference.rsp (packRsp Layout.reference.rsp r) = r

/-- The text lines (30_encoding.md R109, R111). Words without white space, a space between them, are the fields of their line. A
number reads back from its decimal digits, and from its hexadecimal digits after `0x`; a field is a number exactly if it is
decimal digits, at least one, or `0x` and hexadecimal digits, at least one (in either case of the letters: PRESUMED, log 19). A
tuning line is six numbers, and any other is malformed. A creation line is the word `smbus_master` and two or three numbers; any
other line that begins with that word is rejected by name as malformed, at once (the model's choice, log 20), and a line that does
not begin with it is passed to TUNE as it came. A creation line written in decimal, with or without its bus count, is read back as
it was written. That the numbers of a creation line are written as those of a tuning line is the model's reading, log 19. -/
def Obligations.TextLinesReadBack : Prop :=
  let hexDigit (c : Char) : Prop := c.isDigit = true ∨ 'a' ≤ c ∧ c ≤ 'f' ∨ 'A' ≤ c ∧ c ≤ 'F'
  (∀ ws : List (List Char), (∀ w ∈ ws, w ≠ [] ∧ ∀ c ∈ w, isBlank c = false) → fields ([' '].intercalate ws) = ws) ∧
  (∀ n : Nat, decimal n = Nat.toDigits 10 n ∧ parseNumber (decimal n) = some n ∧
    parseNumber ('0' :: 'x' :: Nat.toDigits 16 n) = some n) ∧
  (∀ f : List Char, (∃ n, parseNumber f = some n) ↔
    (f ≠ [] ∧ ∀ c ∈ f, c.isDigit = true) ∨ ∃ ds, f = '0' :: 'x' :: ds ∧ ds ≠ [] ∧ ∀ c ∈ ds, hexDigit c) ∧
  (∀ (line : List Char) (b a t r w e : Nat), parseTuneLine line = some ⟨b, a, t, r, w, e⟩ ↔
    (fields line).map parseNumber = [some b, some a, some t, some r, some w, some e]) ∧
  (∀ line : List Char,
    let first := (fields line).head? = some "smbus_master".toList
    let numbers := (fields line).tail.map parseNumber
    (∀ a m, decodeLine line = .ok (.create a m none) ↔ first ∧ numbers = [some a, some m]) ∧
    (∀ a m n, decodeLine line = .ok (.create a m (some n)) ↔ first ∧ numbers = [some a, some m, some n]) ∧
    (first → (¬∃ a m, numbers = [some a, some m]) → (¬∃ a m n, numbers = [some a, some m, some n]) →
      decodeLine line = .error .malformedCreateLine) ∧
    (¬first → decodeLine line = .ok (.tune line))) ∧
  ∀ (a m : Nat) (n : Option Nat), ∃ line, encodeLine (.create a m n) = some line ∧ decodeLine line = .ok (.create a m n)

/-! ### Encoding a session -/

/-- Every item the block emits is of one of the seven kinds, in its place (30_encoding.md R96, R97): the first item of a
main session is an `ADDR.F` and every later one an `ADDR.N`, `WDATA.N`, `RDATA.N` or `BRLEN.N`; a continuation session is one
`CONT.F` and then `CONT.N`. -/
def Obligations.OnlyTheSevenItemKinds : Prop :=
  (∀ (cfg : Config) (m : Master) (busId : Nat) (msgs : List Message) (mem : Memory) (k : Nat) (it : ReqItem),
    listRefusal busId msgs = none → (itemsOf cfg m busId msgs mem)[k]? = some it →
    if k = 0 then ∃ bs sp t dat ss d, it = addrFItem bs sp t dat ss d
    else (∃ bs sp t dat ti d, it = addrNItem bs sp t dat ti d) ∨ (∃ bs sp t dat ti d, it = wdataNItem bs sp t dat ti d) ∨
      (∃ bs sp da t dat ti, it = rdataNItem bs sp da t dat ti) ∨ ∃ bs sp ed t dat ti, it = brlenNItem bs sp ed t dat ti) ∧
  ∀ (h : Hand) (msg : Message) (q : Nat) (it : ReqItem), (contItems h msg)[q]? = some it →
    if q = 0 then ∃ bs sp da t dat ss, it = contFItem bs sp da t dat ss
    else ∃ bs sp da t dat ti, it = contNItem bs sp da t dat ti

/-- The framing invariant (41_transfer_encode.md R174, R164, R171): the session has as many items as its size; `start` is on
item 0 alone, `stop` on item `ss - 1` alone, item k has index k mod 16, and item 0 carries the size, whatever the size up to
the largest capacity. -/
def Obligations.MainSessionFraming : Prop :=
  ∀ (cfg : Config) (m : Master) (busId : Nat) (msgs : List Message) (mem : Memory),
    listRefusal busId msgs = none → sessionSize msgs ≤ 1023 →
    (itemsOf cfg m busId msgs mem).length = sessionSize msgs ∧ 1 ≤ sessionSize msgs ∧
    ∀ k it, (itemsOf cfg m busId msgs mem)[k]? = some it →
      (it.st = true ↔ k = 0) ∧ (it.sp = true ↔ k + 1 = sessionSize msgs) ∧ it.ti.toNat = k % 16 ∧
      it.bs.toNat = busId ∧ it.ss.toNat = if k = 0 then sessionSize msgs else 0

/-- The items of one message (41_transfer_encode.md R167 to R173, R176), at the places they have in their session, that is
after the items of the messages `pre` before it: the address item unless `no_start`, with the address byte and `da = 1`; then
per data byte a `WDATA` with the buffer's byte, the `BRLEN` of a vlr message at j = 0 with the record's extra-data flag, or a
placeholder with `da` by the reference policy (R172). Timing is from the lookup of the message's address in the store of the
command's bus (R171, 43_params_and_commands.md R220), `datr` for a read and `datw` for a write, address item included. -/
def Obligations.MessageItems : Prop :=
  ∀ (cfg : Config) (m : Master) (b : Bus) (pre : List Message) (msg : Message) (post : List Message) (mem : Memory),
    cfg.daPolicy = DaPolicy.reference → b ∈ m.buses → (m.buses.map (·.busId)).Nodup → msg.addr ≤ 0x7F →
    let items := itemsOf cfg m b.busId (pre ++ msg :: post) mem
    let p := lookupParams b.params (BitVec.ofNat 7 msg.addr)
    let first := sessionSize pre
    let data := if msg.noStart then first else first + 1
    (msg.noStart = false → ∃ it, items[first]? = some it ∧ it.dod = false ∧ it.da = true ∧ it.br = false ∧ it.ed = false ∧
      it.t = p.t ∧ it.dat = (if msg.read then p.datr else p.datw) ∧
      it.d.toNat = 2 * msg.addr + (if msg.read then 1 else 0)) ∧
    ∀ j, j < msg.length → ∃ it, items[data + j]? = some it ∧ it.t = p.t ∧
      if msg.read = false then it.dod = false ∧ it.da = true ∧ it.br = false ∧ it.ed = false ∧ it.dat = p.datw ∧
        it.d = Memory.read mem (msg.buf + j)
      else it.dod = true ∧ it.dat = p.datr ∧ it.d = 0 ∧
        if msg.vlr = true ∧ j = 0 then it.da = true ∧ it.br = true ∧ it.ed = p.ed
        else it.da = (j + 1 != msg.length) ∧ it.br = false ∧ it.ed = false

/-- The continuation items (42_transfer_decode.md R203): N items for the announced length N in range; no `start`, `stop` on
the last alone, indices from 0 modulo 16, the size on the first alone, `dod = 1`, `d = 0`, `br = ed = 0`, `da` clear on the
last alone, bus, timing class and read timing of the vlr message by its lookup in the store of the command's bus. -/
def Obligations.ContinuationItems : Prop :=
  ∀ (h : Hand) (b : Bus) (msg : Message), h.cfg.daPolicy = DaPolicy.reference → b ∈ h.m.buses → h.m.bus = b.busId →
    (h.m.buses.map (·.busId)).Nodup → b.busId < 16 → h.m.nAnn.toNat ≤ 32 →
    let p := lookupParams b.params (BitVec.ofNat 7 msg.addr)
    (contItems h msg).length = h.m.nAnn.toNat ∧
    ∀ q it, (contItems h msg)[q]? = some it →
      it.st = false ∧ (it.sp = true ↔ q + 1 = h.m.nAnn.toNat) ∧ it.ti.toNat = q % 16 ∧
      it.ss.toNat = (if q = 0 then h.m.nAnn.toNat else 0) ∧ it.dod = true ∧ it.d = 0 ∧ it.br = false ∧ it.ed = false ∧
      (it.da = false ↔ q + 1 = h.m.nAnn.toNat) ∧ it.bs.toNat = b.busId ∧ it.t = p.t ∧ it.dat = p.datr

/-- Emission, item by item (41_transfer_encode.md R173, 42_transfer_decode.md R203, 10_state.md R32). A step of the phase
ENCODE, whatever the messages, block reads among them, writes to REQ, once, the word of the item at the position of the walk: the
item `x[k]` of the session where `x[k]` counts the items before that position. `x[k]` grows by one and `i`, `j` walk on, past the
address item, or to the message's next byte. A step of CONT_ENCODE writes item `x[k]` of the continuation of the vlr message, at
which `i` and `j` stay. After the last item the wait begins. An item that the layout cannot encode, a session size too wide for
it, is refused (30_encoding.md R95). -/
def Obligations.EmissionWritesEachItemOnce : Prop :=
  ∀ h : Hand, h.m.bare = none →
    let width := 2 ^ h.cfg.layout.req.ssWidth
    let emits (it : ReqItem) (m : Master) : Prop :=
      (it.ss.toNat < width → (h.m.k = 0 → it.ss ≠ 0) → ∃ m', advance h = .go (h.withM m') ∧
        PortRun h.cfg m m' [.write (h.m.base + h.cfg.reqOff) (reqWord h.cfg.layout.req it (h.m.k == 0))] 0) ∧
      (h.m.k = 0 → width ≤ it.ss.toNat → advance h = .refuse .notEncodable)
    (h.m.pc = .encode → payloadsFit h.m.msgs = true →
      (∀ i j ad msg, nextPosition h.m = some (i, j, ad) → h.m.msgs[i]? = some msg →
        h.m.k = sessionSize (h.m.msgs.take i) + (if atAddress msg ad then 0 else (if msg.noStart then 0 else 1) + j) →
        ∃ it, (sessionItems h)[h.m.k]? = some it ∧
          emits it { h.m with k := h.m.k + 1, i := i, j := if atAddress msg ad then j else j + 1, ad := true }) ∧
      (nextPosition h.m = none → advance h = .go (h.withM { h.m with pc := .wait, spot := .outside }))) ∧
    (h.m.pc = .contEncode → ∀ msg, h.m.msgs[h.m.i]? = some msg →
      (∀ it, (contItems h msg)[h.m.k]? = some it → emits it { h.m with k := h.m.k + 1 }) ∧
      ((contItems h msg).length ≤ h.m.k → advance h = .go (h.withM { h.m with pc := .contWait, spot := .outside })))

/-- The seven request items executed: each is one write of its word to REQ of the Master in hand (41_transfer_encode.md
R173, 20_memory.md R62), and `x[k]` counts it, from 0 on a first item. Within ENCODE the walk passes the next position, from the
walk's beginning on a first item, and past its end it stays (10_state.md R32). That an item is run by itself, and that it then
counts and walks: the model's choice, log 15. Nothing else changes: no other register, no other Master, no byte of host memory. A
first item whose size is 0 or too wide for the layout is refused (30_encoding.md R95). -/
def Obligations.ItemsWriteTheirWord : Prop :=
  ∀ (s : State) (m : Master), HeldInHand s m →
    let start (first : Bool) : Master := if first = true ∧ m.pc = .encode then { m with i := 0, j := 0, ad := false } else m
    let walks (m0 : Master) (i j : Nat) (ad : Bool) : Prop :=
      (m.pc = .encode → ∀ a b c msg, nextPosition m0 = some (a, b, c) → m.msgs[a]? = some msg →
        i = a ∧ j = (if atAddress msg c then b else b + 1) ∧ ad = true) ∧
      (m.pc ≠ .encode ∨ nextPosition m0 = none → i = m0.i ∧ j = m0.j ∧ ad = m0.ad)
    let writes (instr : Instr) (it : ReqItem) (first : Bool) (k : Nat) : Prop :=
      ∃ m' i j ad, Machine.exec instr s = .next (s.putMaster m') ∧ walks (start first) i j ad ∧
        PortRun s.cfg { m with k := k, i := i, j := j, ad := ad } m'
          [.write (m.base + s.cfg.reqOff) (reqWord s.cfg.layout.req it first)] 0
    let fits (ss : BitVec 10) : Prop := ss ≠ 0 ∧ ss.toNat < 2 ^ s.cfg.layout.req.ssWidth
    (∀ bs sp t dat ss d, fits ss → writes (.addrF bs sp t dat ss d) (addrFItem bs sp t dat ss d) true 1) ∧
    (∀ bs sp t dat ti d, writes (.addrN bs sp t dat ti d) (addrNItem bs sp t dat ti d) false (m.k + 1)) ∧
    (∀ bs sp t dat ti d, writes (.wdataN bs sp t dat ti d) (wdataNItem bs sp t dat ti d) false (m.k + 1)) ∧
    (∀ bs sp da t dat ti, writes (.rdataN bs sp da t dat ti) (rdataNItem bs sp da t dat ti) false (m.k + 1)) ∧
    (∀ bs sp ed t dat ti, writes (.brlenN bs sp ed t dat ti) (brlenNItem bs sp ed t dat ti) false (m.k + 1)) ∧
    (∀ bs sp da t dat ss, fits ss → writes (.contF bs sp da t dat ss) (contFItem bs sp da t dat ss) true 1) ∧
    (∀ bs sp da t dat ti, writes (.contN bs sp da t dat ti) (contNItem bs sp da t dat ti) false (m.k + 1)) ∧
    ∀ bs sp da t dat ss d, ¬fits ss → Machine.exec (.addrF bs sp t dat ss d) s = .refused .notEncodable ∧
      Machine.exec (.contF bs sp da t dat ss) s = .refused .notEncodable

/-- No access without the lock (20_memory.md R75, 60_exceptions.md R261, 40_master_control.md): an item, a data word, or a
primitive of Master Control is refused while nobody holds the lock of the Master in hand (log 14). -/
def Obligations.NoAccessWithoutTheLock : Prop :=
  ∀ (s : State) (m : Master) (i : Instr), s.hand = some m → m.lock = .free →
    ((slotOf i).isSome = true ∨ i = .resetEngine ∨ (∃ f, i = .enter f) ∨ (∃ f, i = .leave f) ∨
      ∃ bs a, i = .waitForCompletion bs a) → Machine.exec i s = .refused .lockNotHeld

/-! ### The control/status word, the wait -/

/-- A control/status word written, or read while the Master in hand waits for nothing: a write is one write of the whole
word; a read becomes `x[cs]` (30_encoding.md R104; log 15). Nothing else changes. -/
def Obligations.StatusWordOutsideAWait : Prop :=
  ∀ (s : State) (m : Master) (c : Csr), HeldInHand s m →
    (∃ m', Machine.exec (.csr true c) s = .next (s.putMaster m') ∧
      PortRun s.cfg m m' [.write (m.base + s.cfg.csrOff) (packCsr s.cfg.layout.csr c)] 0) ∧
    (m.bare = none → m.pc ≠ .wait → m.pc ≠ .contWait → ∃ m', Machine.exec (.csr false c) s = .next (s.putMaster m') ∧
      PortRun s.cfg { m with cs := c } m' [.read (m.base + s.cfg.csrOff) (packCsr s.cfg.layout.csr c)] 0)

/-- Frame-empty ends the wait (40_master_control.md R141), whatever the counts are. By the block's own steps: the tests on a
value with frame-empty set go to the write-back; there the word is written back unchanged, and the command goes to DECODE with
`x[e]` 0 and `x[rem]` the session size (42_transfer_decode.md R193), or after a continuation the announced length (R204).
A value presented as an instruction (the model's choice, log 15) is read, tested and written back at once. -/
def Obligations.FrameEmptyEndsTheWait : Prop :=
  (∀ h : Hand, h.m.bare = none → h.m.pc = .wait ∨ h.m.pc = .contWait →
    (waitSpot h.m = .test → h.m.cs.fe = true →
      ∃ m', advance h = .go (h.withM { m' with spot := .wait .clear }) ∧ PortRun h.cfg h.m m' [] 0) ∧
    (waitSpot h.m = .clear →
      ∃ m', PortRun h.cfg h.m m' [.write (h.m.base + h.cfg.csrOff) (packCsr h.cfg.layout.csr h.m.cs)] 0 ∧
        (h.m.pc = .wait → advance h = .go (h.withM
          { m' with e := 0, rem := h.m.ss, i := 0, j := 0, ad := false, pc := .decode, spot := .outside })) ∧
        (h.m.pc = .contWait → advance h = .go (h.withM
          { m' with e := 0, rem := h.m.nAnn.toNat, pc := .decode, spot := .outside })))) ∧
  ∀ (s : State) (m : Master) (c : Csr), HeldInHand s m → m.bare = none → m.pc = .wait ∨ m.pc = .contWait → c.fe = true →
    let w := packCsr s.cfg.layout.csr c
    ∃ m', PortRun s.cfg { m with cs := c, tLast := m'.tLast, prev := if waitSpot m = .start then none else m.prev } m'
        [.read (m.base + s.cfg.csrOff) w, .write (m.base + s.cfg.csrOff) w] (dueSleep (waitSpot m)) ∧
      (waitSpot m ≠ .start → m'.tLast = m.tLast) ∧
      (m.pc = .wait → Machine.exec (.csr false c) s = .next (s.putMaster
        { m' with e := 0, rem := m.ss, i := 0, j := 0, ad := false, pc := .decode, spot := .outside })) ∧
      (m.pc = .contWait → Machine.exec (.csr false c) s = .next (s.putMaster
        { m' with e := 0, rem := m.nAnn.toNat, pc := .decode, spot := .outside }))

/-- The other steps of a command's wait (40_master_control.md R140, R142 to R145, 60_exceptions.md R263). It notes the time and
reads CSR; a sleep of d microseconds takes at least d, under `SLEEP_EXACT` exactly d, and CSR is read again. The tests on a
value without frame-empty: overflow when the pending responses reach the capacity of the class just read; else, after the
progress update, timeout when strictly more than 100000 microseconds have passed since the last progress; else one sleep of
`(nrq + 1)` per-byte delays. The first two raise: `x[err]` is written, the sequencer goes to LEAVE, with no sleep and no write.
A value presented as an instruction (the model's choice, log 15) is read and tested at once. -/
def Obligations.WaitIterationWithoutFrameEmpty : Prop :=
  let tested (cfg : Config) (c : Csr) (m1 : Master) (res : Master → Prop) : Prop :=
    let last := if m1.prev ≠ none ∧ m1.prev ≠ some (c.nrq, c.nrs) then m1.time else m1.tLast
    let d := (c.nrq.toNat + 1) * (if c.sp = 0 then 110 else if c.sp = 1 then 35 else 14)
    if 2 ^ (7 + c.fsz.toNat) - 1 ≤ c.nrs.toNat then res { m1 with err := some (.overflowWait c), pc := .leave, spot := .outside }
    else if 100000 < m1.time - last then
      res { m1 with tLast := last, err := some (.timedOut c), pc := .leave, spot := .outside }
    else ∃ m2, PortRun cfg { m1 with tLast := last, prev := some (c.nrq, c.nrs) } m2 [.sleep d] 0 ∧
      res { m2 with spot := .wait (.wake d) }
  (∀ h : Hand, h.m.bare = none → h.m.pc = .wait ∨ h.m.pc = .contWait → h.cfg.progress = .eitherCount →
    (waitSpot h.m = .start → ∃ m', PortRun h.cfg { h.m with tLast := m'.time, prev := none } m' [] 0 ∧
      advance h = .go (h.withM { m' with spot := .wait .read })) ∧
    (waitSpot h.m = .read →
      ∃ m', PortRun h.cfg { h.m with cs := csrNow h.cfg h.m, csrIn := h.m.csrIn.tail } m'
          [.read (h.m.base + h.cfg.csrOff) (csrAnswer h.m)] 0 ∧
        advance h = .go (h.withM { m' with spot := .wait .test })) ∧
    (∀ d, waitSpot h.m = .wake d → ∃ m', PortRun h.cfg h.m m' [] d ∧
      advance h = .go (h.withM { m' with spot := .wait .read })) ∧
    (waitSpot h.m = .test → h.m.cs.fe = false → ∃ m1, PortRun h.cfg h.m m1 [] 0 ∧
      tested h.cfg h.m.cs m1 fun m' =>
        advance h = if m'.pc = .leave then .go (h.withM m') else .pause (h.withM m'))) ∧
  ∀ (s : State) (m : Master) (c : Csr), HeldInHand s m → m.bare = none → m.pc = .wait ∨ m.pc = .contWait → c.fe = false →
    s.cfg.progress = .eitherCount →
    ∃ m1, PortRun s.cfg { m with cs := c, tLast := m1.tLast, prev := if waitSpot m = .start then none else m.prev } m1
        [.read (m.base + s.cfg.csrOff) (packCsr s.cfg.layout.csr c)] (dueSleep (waitSpot m)) ∧
      (waitSpot m ≠ .start → m1.tLast = m.tLast) ∧ (waitSpot m = .start → m.time ≤ m1.tLast ∧ m1.tLast ≤ m1.time) ∧
      tested s.cfg c m1 fun m' => Machine.exec (.csr false c) s = .next (s.putMaster m')

/-- `wait_for_completion` called by itself (40_master_control.md R140; log 14): it notes the time, reads CSR, and returns
`Ok` after writing the word back, `WaitOverflow`, or `WaitTimeout` to the holder of the lock; else it sleeps and goes on
waiting, and its further steps are those of a command's wait, a sleep of d microseconds at least d. The word read is the
engine's, whatever it is. A value presented for reading meanwhile (the model's choice, log 15) is read by this wait, wherever it
stands, and tested at once: the wait answers, or sleeps and goes on. -/
def Obligations.WaitCalledByItself : Prop :=
  let sleeps (c : Csr) : Nat := (c.nrq.toNat + 1) * (if c.sp = 0 then 110 else if c.sp = 1 then 35 else 14)
  (∀ (s : State) (m : Master) (bs : BitVec 4) (addr : BitVec 7), HeldInHand s m →
    let w := csrAnswer (beginWait s.cfg m)
    let c := unpackCsr s.cfg.layout.csr w
    let csr := m.base + s.cfg.csrOff
    let full := 2 ^ (7 + c.fsz.toNat) - 1 ≤ c.nrs.toNat
    let answers (m' : Master) (r : PrimResult) : Prop := Machine.exec (.waitForCompletion bs addr) s =
      .next ((s.putMaster { m' with bare := none }).post m.lock.owner (.prim r))
    ∃ m1, PortRun s.cfg { m with cs := c, tLast := m1.tLast, prev := none, csrIn := m.csrIn.tail } m1 [.read csr w] 0 ∧
      m.time ≤ m1.tLast ∧ m1.tLast ≤ m1.time ∧
      if c.fe = true then ∃ m2, PortRun s.cfg m1 m2 [.write csr (packCsr s.cfg.layout.csr c)] 0 ∧ answers m2 .ok
      else if full then answers m1 .waitOverflow
      else if 100000 < m1.time - m1.tLast then answers m1 .waitTimeout
      else ∃ m2, PortRun s.cfg { m1 with prev := some (c.nrq, c.nrs) } m2 [.sleep (sleeps c)] 0 ∧
        Machine.exec (.waitForCompletion bs addr) s =
          .next (s.putMaster { m2 with bare := some (.wake (sleeps c)) })) ∧
  (∀ (s : State) (m : Master) (c : Csr) (w : WaitSpot), HeldInHand s m → m.bare = some w →
    let csr := m.base + s.cfg.csrOff
    let word := packCsr s.cfg.layout.csr c
    let answers (m' : Master) (r : PrimResult) : Prop := Machine.exec (.csr false c) s =
      .next ((s.putMaster { m' with bare := none }).post m.lock.owner (.prim r))
    ∃ m1, PortRun s.cfg { m with cs := c, tLast := m1.tLast, prev := if w = .start then none else m.prev } m1
        [.read csr word] (dueSleep w) ∧
      (w ≠ .start → m1.tLast = m.tLast) ∧ (w = .start → m.time ≤ m1.tLast ∧ m1.tLast ≤ m1.time) ∧
      (c.fe = true → ∃ m2, PortRun s.cfg m1 m2 [.write csr word] 0 ∧ answers m2 .ok) ∧
      (c.fe = false → s.cfg.progress = .eitherCount →
        let last := if m1.prev ≠ none ∧ m1.prev ≠ some (c.nrq, c.nrs) then m1.time else m1.tLast
        if 2 ^ (7 + c.fsz.toNat) - 1 ≤ c.nrs.toNat then answers m1 .waitOverflow
        else if 100000 < m1.time - last then answers { m1 with tLast := last } .waitTimeout
        else ∃ m2, PortRun s.cfg { m1 with tLast := last, prev := some (c.nrq, c.nrs) } m2 [.sleep (sleeps c)] 0 ∧
          Machine.exec (.csr false c) s = .next (s.putMaster { m2 with bare := some (.wake (sleeps c)) }))) ∧
  ∀ (h : Hand) (w : WaitSpot), h.m.bare = some w →
    (∀ d, w = .wake d → ∃ m', PortRun h.cfg h.m m' [] d ∧ advance h = .go (h.withM { m' with bare := some .read })) ∧
    (w = .read →
      ∃ m', PortRun h.cfg { h.m with cs := csrNow h.cfg h.m, csrIn := h.m.csrIn.tail } m'
          [.read (h.m.base + h.cfg.csrOff) (csrAnswer h.m)] 0 ∧
        advance h = .go (h.withM { m' with bare := some .test })) ∧
    (w = .test → h.m.cs.fe = true →
      ∃ m', PortRun h.cfg h.m m' [] 0 ∧ advance h = .go (h.withM { m' with bare := some .clear })) ∧
    (w = .clear →
      ∃ m', PortRun h.cfg h.m m' [.write (h.m.base + h.cfg.csrOff) (packCsr h.cfg.layout.csr h.m.cs)] 0 ∧
        advance h = .done (h.withM { m' with bare := none }) h.m.lock.owner (.prim .ok)) ∧
    (w = .test → h.m.cs.fe = false → h.cfg.progress = .eitherCount →
      let c := h.m.cs
      ∃ m1, PortRun h.cfg h.m m1 [] 0 ∧
        let last := if h.m.prev ≠ none ∧ h.m.prev ≠ some (c.nrq, c.nrs) then m1.time else h.m.tLast
        if 2 ^ (7 + c.fsz.toNat) - 1 ≤ c.nrs.toNat then
          advance h = .done (h.withM { m1 with bare := none }) h.m.lock.owner (.prim .waitOverflow)
        else if 100000 < m1.time - last then
          advance h = .done (h.withM { m1 with tLast := last, bare := none }) h.m.lock.owner (.prim .waitTimeout)
        else ∃ m2, PortRun h.cfg { m1 with tLast := last, prev := some (c.nrq, c.nrs) } m2 [.sleep (sleeps c)] 0 ∧
          advance h = .pause (h.withM { m2 with bare := some (.wake (sleeps c)) }))

/-! ### reset, enter, leave -/

/-- `reset()` (40_master_control.md R132, 70_reset_and_hazards.md R300, 60_exceptions.md R263): read, write of the value read
with `reset` and `foe` set, then sleeps of 1000, 2000, 4000, 8000 microseconds each with a re-read, to the first clean value;
`Ok` there, a recovery failure and `Faulted` after four that are not. It takes at least the time it sleeps, exactly so long
under `SLEEP_EXACT`. Success takes a `Faulted` Master to `Idle` and leaves any other state; `x[cs]` is the last value read. The
answer goes to the holder of the lock: the model's choice, log 14. -/
def Obligations.ResetPollsWithBackoff : Prop :=
  ∀ (s : State) (m : Master) (w0 : Word) (pre : List Word) (w : Word) (post : List Word), HeldInHand s m →
    m.csrIn = w0 :: (pre ++ w :: post) → BackoffEnds s.cfg pre w →
    ∃ m', Machine.exec .resetEngine s = .next ((s.putMaster m').post m.lock.owner
        (.prim (if CleanWord s.cfg w then .ok else .recoveryFailure))) ∧
      PortRun s.cfg
        { m with csrIn := post, cs := unpackCsr s.cfg.layout.csr w,
                 mc := if CleanWord s.cfg w then (if m.mc = .faulted then .idle else m.mc) else .faulted } m'
        (resetAccesses s.cfg m w0 pre w) (resetSleeps pre)

/-- `enter(f)` on an engine that is not dirty, from a Master that is not `Faulted` (40_master_control.md R134, R137): with the
reset flag clear and `foe` as asked, one read and no write; else one corrective write of the value read with `reset` clear
and `foe` as asked, and one re-read, which must show the reset flag clear, else the state is `Faulted`. The answer goes to the
holder of the lock: the model's choice, log 14. -/
def Obligations.EnterOnACleanEngine : Prop :=
  ∀ (s : State) (m : Master) (f : Bool) (w : Word) (post : List Word) (acc : List Access) (ok : Bool) (last : Word)
    (rest : List Word), HeldInHand s m → m.mc ≠ .faulted → m.csrIn = w :: post →
    dirty (unpackCsr s.cfg.layout.csr w) = false → Judged s.cfg m f w post acc ok last rest →
    ∃ m', Machine.exec (.enter f) s = .next ((s.putMaster m').post m.lock.owner (.prim (if ok then .ok else .enterFailed))) ∧
      PortRun s.cfg
        { m with csrIn := rest, cs := unpackCsr s.cfg.layout.csr last, mc := if ok then .ready else .faulted } m'
        (.read (m.base + s.cfg.csrOff) w :: acc) 0

/-- `enter(f)` on a dirty engine (40_master_control.md R134, R137 (c), (d)), from a Master that is not `Faulted`: the reset with
its backoff; after a clean value with `foe` as asked nothing more, and with `foe` otherwise the corrective write and its re-read;
after four re-reads that are not clean, `EnterFailed` and `Faulted`, with no further access. The answer goes to the holder of
the lock: the model's choice, log 14. -/
def Obligations.EnterRecoversADirtyEngine : Prop :=
  ∀ (s : State) (m : Master) (f : Bool) (w w0 : Word) (pre : List Word) (v : Word) (post : List Word),
    HeldInHand s m → m.mc ≠ .faulted → m.csrIn = w :: w0 :: (pre ++ v :: post) →
    dirty (unpackCsr s.cfg.layout.csr w) = true → BackoffEnds s.cfg pre v →
    let ends (ok : Bool) (last : Word) (rest : List Word) (acc : List Access) : Prop :=
      ∃ m', Machine.exec (.enter f) s = .next ((s.putMaster m').post m.lock.owner (.prim (if ok then .ok else .enterFailed))) ∧
        PortRun s.cfg
          { m with csrIn := rest, cs := unpackCsr s.cfg.layout.csr last, mc := if ok then .ready else .faulted } m'
          (.read (m.base + s.cfg.csrOff) w :: (resetAccesses s.cfg m w0 pre v ++ acc)) (resetSleeps pre)
    (¬CleanWord s.cfg v → ends false v post []) ∧
    (CleanWord s.cfg v → ∀ acc ok last rest, Judged s.cfg m f v post acc ok last rest → ends ok last rest acc)

/-- `enter(f)` from `Faulted` (40_master_control.md R135, 70_reset_and_hazards.md R300, under the spec's choice D18): reset()
first, whatever the CSR shows; if it fails, `EnterFailed` and still `Faulted`; if it succeeds, enter() goes on with a fresh read
of CSR: of a value that is not dirty, as on a clean engine, the corrective write with it; of a dirty value, a second reset(), as
on a dirty engine. The answer goes to the holder of the lock: the model's choice, log 14. -/
def Obligations.EnterFromFaultedResetsFirst : Prop :=
  ∀ (s : State) (m : Master) (f : Bool) (w0 : Word) (pre : List Word) (v : Word) (post : List Word),
    HeldInHand s m → m.mc = .faulted → s.cfg.faultedForcesReset = true →
    m.csrIn = w0 :: (pre ++ v :: post) → BackoffEnds s.cfg pre v →
    let ends (ok : Bool) (last : Word) (rest : List Word) (acc : List Access) (took : Nat) : Prop :=
      ∃ m', Machine.exec (.enter f) s = .next ((s.putMaster m').post m.lock.owner (.prim (if ok then .ok else .enterFailed))) ∧
        PortRun s.cfg
          { m with csrIn := rest, cs := unpackCsr s.cfg.layout.csr last, mc := if ok then .ready else .faulted } m'
          (resetAccesses s.cfg m w0 pre v ++ acc) (resetSleeps pre + took)
    let csr := m.base + s.cfg.csrOff
    (¬CleanWord s.cfg v → ends false v post [] 0) ∧
    (CleanWord s.cfg v → ∀ w post1, post = w :: post1 →
      (dirty (unpackCsr s.cfg.layout.csr w) = false → ∀ acc ok last rest, Judged s.cfg m f w post1 acc ok last rest →
        ends ok last rest (.read csr w :: acc) 0) ∧
      (dirty (unpackCsr s.cfg.layout.csr w) = true → ∀ w1 pre1 v1 post2, post1 = w1 :: (pre1 ++ v1 :: post2) →
        BackoffEnds s.cfg pre1 v1 →
        (¬CleanWord s.cfg v1 → ends false v1 post2 (.read csr w :: resetAccesses s.cfg m w1 pre1 v1) (resetSleeps pre1)) ∧
        (CleanWord s.cfg v1 → ∀ acc ok last rest, Judged s.cfg m f v1 post2 acc ok last rest →
          ends ok last rest (.read csr w :: (resetAccesses s.cfg m w1 pre1 v1 ++ acc)) (resetSleeps pre1))))

/-- `leave(had_error)` (40_master_control.md R136): a read of CSR; without an error as many reads of RSP as that value has
pending responses, with one none; a second read of CSR; if that value is dirty, one write of it with `reset` set. The state
ends `Idle`, or `Faulted` as it was; `x[cs]` keeps its value. That leave is run by itself on the Master in hand is the model's
choice, log 14. -/
def Obligations.LeaveDrainsOrArmsAReset : Prop :=
  ∀ (s : State) (m : Master) (hadErr : Bool) (w0 w1 : Word) (rest drained rspRest : List Word), HeldInHand s m →
    m.csrIn = w0 :: w1 :: rest → m.rspIn = drained ++ rspRest →
    drained.length = (if hadErr then 0 else (unpackCsr s.cfg.layout.csr w0).nrs.toNat) →
    let csr := m.base + s.cfg.csrOff
    ∃ m', Machine.exec (.leave hadErr) s = .next (s.putMaster m') ∧
      PortRun s.cfg
        { m with csrIn := rest, rspIn := rspRest, mc := if m.mc = .faulted then .faulted else .idle } m'
        ([.read csr w0] ++ drained.map (fun w => .read (m.base + s.cfg.rspOff) w) ++ [.read csr w1] ++
          (if dirty (unpackCsr s.cfg.layout.csr w1) then [.write csr (armedWord s.cfg w1)] else [])) 0

/-- The primitives never stop on what the engine answers (20_memory.md R60, R66): with the lock held, reset, enter, leave and
wait answer a next state whatever words the oracle gives, and reset, enter and leave leave `x[mc]` as their own rules say
(40_master_control.md R132, R134, R136). That a primitive is run by itself, whom it answers, and that `x[mc]` then follows these
rules from every state, also where the table of R131 has no such transition, is the model's choice, log 14. -/
def Obligations.PrimitivesAlwaysReturn : Prop :=
  ∀ (s : State) (m : Master), HeldInHand s m →
    (∃ m' r, Machine.exec .resetEngine s = .next ((s.putMaster m').post m.lock.owner (.prim r)) ∧
      (r = .ok ∧ (m'.mc = if m.mc = .faulted then .idle else m.mc) ∨ r = .recoveryFailure ∧ m'.mc = .faulted)) ∧
    (∀ f, ∃ m' r, Machine.exec (.enter f) s = .next ((s.putMaster m').post m.lock.owner (.prim r)) ∧
      (r = .ok ∧ m'.mc = .ready ∧ m'.cs.reset = false ∨ r = .enterFailed ∧ m'.mc = .faulted)) ∧
    (∀ f, ∃ m', Machine.exec (.leave f) s = .next (s.putMaster m') ∧
      m'.mc = if m.mc = .faulted then .faulted else .idle) ∧
    ∀ bs a, ∃ t, Machine.exec (.waitForCompletion bs a) s = .next t

/-! ### Responses -/

/-- `validate` (42_transfer_decode.md R190, R191): the tests in the rule's order, the first that fails gives the code; the data
byte and the overflow flag play no part (reference setting of R192). It answers and does nothing else.
That it can be called by itself is the model's choice, log 14. -/
def Obligations.ValidateTestsInOrder : Prop :=
  ∀ (s : State) (r : Rsp) (e : BitVec 4) (last : Bool), s.cfg.feOnFinalAccepted = true →
    Machine.exec (.validate r e last) s = .next { s with
      nextCmd := s.nextCmd + 1
      replies := s.replies ++ [⟨s.nextCmd, .verdict (
        if r.ackError then some .ackError
        else if r.timeoutError then some .timeoutError
        else if r.busConflictError then some .busConflict
        else if r.flushed then some .flushed
        else if r.fe && !last then some .earlyFrameEmpty
        else if r.ti ≠ e then some .indexMismatch
        else none)⟩] }

/-- A response that fails validation (42_transfer_decode.md R193, R195, 60_exceptions.md R251, R253, R256): it is read and
counted, one diagnostic is appended, `x[err]` records the code with the response word and the expected index, and the sequencer
goes to LEAVE; nothing is stored. The diagnostic is the code, but for an acknowledge error on the address response of message 0,
which is logged as the expected negative-acknowledge. By the block's own step, and by a word presented as an instruction (the
model's choice, log 15). The layout is
one of the model's (log 16). -/
def Obligations.BadResponseRaises : Prop :=
  ∀ (h : Hand) (r : Rsp) (c : Code) (firstAddr : Bool), h.cfg.layout.ok → h.m.pc = .decode →
    validateRsp h.cfg r h.m.e (h.m.rem - 1 == 0) = some c →
    (firstAddr = true ↔ ∃ j msg, nextPosition h.m = some (0, j, false) ∧ h.m.msgs[0]? = some msg ∧ msg.noStart = false) →
    Responds h r fun w m1 => h.withM
      { m1 with
        rem := h.m.rem - 1, e := h.m.e + 1
        diag := h.m.diag ++ [if firstAddr = true ∧ c = .ackError then .expectedNack else .failed c]
        err := some (.badResponse c w h.m.e), pc := .leave, spot := .outside }

/-- A good response (42_transfer_decode.md R193, R194, R196, R197), by where it stands: at an address item or at a data item of
a write message its byte is discarded; at a data item j of a read message its byte is stored at offset j of the buffer, and
every other byte of host memory reads as before; with the walk at its end the command goes to LEAVE (R205). By the block's own
step, and by a word presented as an instruction (the model's choice, log 15); a word presented past the last expected response
is counted and discarded, and one presented outside DECODE is read and discarded (log 15). The layout is
one of the model's (log 16). -/
def Obligations.GoodResponseStoresItsByte : Prop :=
  (∀ (h : Hand) (r : Rsp), h.cfg.layout.ok → h.m.pc = .decode → validateRsp h.cfg r h.m.e (h.m.rem - 1 == 0) = none →
    (nextPosition h.m = none → Responds h r fun _ m1 => h.withM { m1 with rem := h.m.rem - 1, e := h.m.e + 1 }) ∧
    ∀ i j ad msg, nextPosition h.m = some (i, j, ad) → h.m.msgs[i]? = some msg →
      (ad = false → msg.noStart = false → Responds h r fun _ m1 => h.withM
        { m1 with rem := h.m.rem - 1, e := h.m.e + 1, i := i, j := j, ad := true }) ∧
      ((ad = true ∨ msg.noStart = true) → msg.read = false → Responds h r fun _ m1 => h.withM
        { m1 with rem := h.m.rem - 1, e := h.m.e + 1, i := i, j := j + 1, ad := true }) ∧
      ((ad = true ∨ msg.noStart = true) → msg.read = true → j < msg.cap → ¬(msg.vlr = true ∧ j = 0) →
        ∃ mem, (Responds h r fun _ m1 =>
            ⟨h.cfg, { m1 with rem := h.m.rem - 1, e := h.m.e + 1, i := i, j := j + 1, ad := true }, mem⟩) ∧
          (Memory.wf h.mem → ∀ a, Memory.read mem a = if a = msg.buf + j then r.d else Memory.read h.mem a)) ∧
      ((ad = true ∨ msg.noStart = true) → msg.read = true → msg.cap ≤ j → RespondsRefused h r .bufferTooSmall)) ∧
  (∀ h : Hand, h.m.pc = .decode → h.m.bare = none → nextPosition h.m = none →
    advance h = .go (h.withM { h.m with pc := .leave, spot := .outside })) ∧
  ∀ (s : State) (m : Master) (r : Rsp), HeldInHand s m → m.pc ≠ .decode →
    ∃ m', Machine.exec (.rsp r) s = .next (s.putMaster m') ∧
      PortRun s.cfg m m' [.read (m.base + s.cfg.rspOff) (packRsp s.cfg.layout.rsp r)] 0

/-- The announced length out of range (42_transfer_decode.md R198, R199): the count is stored at offset 0 like any data byte
and kept in `x[N]`, and the command raises the framing failure with that length; nothing more is read. By the block's own step,
and by a word presented as an instruction (the model's choice, log 15). The layout is
one of the model's (log 16). -/
def Obligations.LengthOutOfRangeIsAFramingError : Prop :=
  ∀ (h : Hand) (r : Rsp) (i : Nat) (ad : Bool) (msg : Message), h.cfg.layout.ok → h.m.pc = .decode →
    validateRsp h.cfg r h.m.e (h.m.rem - 1 == 0) = none → nextPosition h.m = some (i, 0, ad) → h.m.msgs[i]? = some msg →
    (ad = true ∨ msg.noStart = true) → msg.read = true → msg.vlr = true → 0 < msg.cap →
    (r.d.toNat < 1 ∨ 32 < r.d.toNat) →
    Responds h r fun _ m1 =>
      ⟨h.cfg,
        { m1 with
          rem := h.m.rem - 1, e := h.m.e + 1, i := i, j := 1, ad := true, nAnn := r.d
          err := some (.framing r.d), pc := .leave, spot := .outside },
        Memory.write h.mem msg.buf r.d⟩

/-- The announced length in range (42_transfer_decode.md R198, R200, R201, R202): the message grows by N. Under protocol version
2 or above N more responses are expected in the same session, and nothing else; below it, if no other response is
outstanding, the continuation session of N items follows, and if one is, the spec gives no meaning. By the block's own step,
and by a word presented as an instruction (the model's choice, log 15). The layout is
one of the model's (log 16). -/
def Obligations.LengthInRangeExtendsTheMessage : Prop :=
  ∀ (h : Hand) (r : Rsp) (i : Nat) (ad : Bool) (msg : Message), h.cfg.layout.ok → h.m.pc = .decode →
    validateRsp h.cfg r h.m.e (h.m.rem - 1 == 0) = none → nextPosition h.m = some (i, 0, ad) → h.m.msgs[i]? = some msg →
    (ad = true ∨ msg.noStart = true) → msg.read = true → msg.vlr = true → 0 < msg.cap →
    1 ≤ r.d.toNat → r.d.toNat ≤ 32 →
    let longer (m1 : Master) : Master :=
      { m1 with rem := h.m.rem - 1, e := h.m.e + 1, i := i, j := 1, ad := true, nAnn := r.d,
                msgs := h.m.msgs.set i { msg with length := msg.length + r.d.toNat } }
    let mem := Memory.write h.mem msg.buf r.d
    (2 ≤ h.m.ver.toNat → Responds h r fun _ m1 => ⟨h.cfg, { longer m1 with rem := h.m.rem - 1 + r.d.toNat }, mem⟩) ∧
    (h.m.ver.toNat < 2 → h.m.rem - 1 = 0 → Responds h r fun _ m1 =>
      ⟨h.cfg, { longer m1 with ss := r.d.toNat, k := 0, pc := .contEncode }, mem⟩) ∧
    (h.m.ver.toNat < 2 → h.m.rem - 1 ≠ 0 → RespondsRefused h r .blockReadNotLast)

/-- The phases ENCODE and CONT_ENCODE as a whole (41_transfer_encode.md R173, R175, 42_transfer_decode.md R202, R203): from
`x[k]` 0 every item of the session, or of the continuation of the vlr message, is written to REQ in order, one write each and
nothing else, and the wait begins; no enter(), no leave(), the lock stays held. In ENCODE `i` and `j` go from the beginning of the
walk over the messages and their bytes to its end (10_state.md R32); in CONT_ENCODE they stay at the vlr message. The items are
ones the layout can encode. -/
def Obligations.SessionsAreWrittenInOrder : Prop :=
  ∀ h : Hand, h.m.bare = none → h.m.k = 0 →
    let words (items : List ReqItem) : List Access :=
      items.mapIdx (fun k it => .write (h.m.base + h.cfg.reqOff) (reqWord h.cfg.layout.req it (k == 0)))
    (h.m.pc = .encode → h.m.i = 0 → h.m.j = 0 → h.m.ad = false → payloadsFit h.m.msgs = true → h.m.ss ≠ 0 →
      h.m.ss < 1024 → h.m.ss < 2 ^ h.cfg.layout.req.ssWidth →
      ∃ m', runWhile (fun m => m.pc = .encode) ((sessionItems h).length + 1) h = .go (h.withM m') ∧ nextPosition m' = none ∧
        PortRun h.cfg { h.m with k := (sessionItems h).length, i := m'.i, j := m'.j, ad := m'.ad, pc := .wait, spot := .outside }
          m' (words (sessionItems h)) 0) ∧
    (h.m.pc = .contEncode → ∀ msg, h.m.msgs[h.m.i]? = some msg → h.m.nAnn.toNat < 2 ^ h.cfg.layout.req.ssWidth →
      ∃ m', runWhile (fun m => m.pc = .contEncode) ((contItems h msg).length + 1) h = .go (h.withM m') ∧
        PortRun h.cfg { h.m with k := (contItems h msg).length, pc := .contWait, spot := .outside } m' (words (contItems h msg)) 0)

/-! ### The sequencer -/

/-- The phases follow one another only in the order of 10_state.md R31, for the phases that are the block's own steps: every
phase from ENTER to CONT_WAIT can go to LEAVE, and a phase of several accesses takes several steps. A step that writes `x[err]`
goes to LEAVE, and LEAVE and UNLOCK leave it (60_exceptions.md R255, R256). A wait called by itself (log 14) goes through no
phase. -/
def Obligations.PhasesFollowInOrder : Prop :=
  ∀ h h' : Hand, advance h = .go h' →
    (h.m.bare ≠ none → h'.m.pc = h.m.pc ∧ h'.m.err = h.m.err) ∧
    (h.m.bare = none →
      ((h.m.pc, h'.m.pc) ∈ [(Phase.size, Phase.enter), (.enter, .enter), (.enter, .capchk), (.capchk, .encode),
        (.encode, .encode), (.encode, .wait), (.wait, .wait), (.wait, .decode), (.decode, .decode), (.decode, .contEncode),
        (.contEncode, .contEncode), (.contEncode, .contWait), (.contWait, .contWait), (.contWait, .decode),
        (.enter, .leave), (.capchk, .leave), (.wait, .leave), (.decode, .leave), (.contWait, .leave), (.contEncode, .leave),
        (.leave, .leave), (.leave, .unlock), (.tearReset, .tearReset)]) ∧
      (h'.m.err ≠ h.m.err → h'.m.pc = .leave ∧ h.m.pc ∈ [Phase.enter, .capchk, .wait, .decode, .contWait]))

/-- Where each failure is raised (60_exceptions.md R252, R250, R251): by which phase, with what recorded, and its outward kind and
number, 0 for success. -/
def Obligations.FailuresBelongToTheirPhases : Prop :=
  (∀ (h h' : Hand) (f : Failure), advance h = .go h' → h.m.err = none → h'.m.err = some f →
    match f with
    | .unsupportedTenBit => False
    | .unsupportedMultiBlockRead => False
    | .enterFailed c => h.m.pc = .enter ∧ h'.m.mc = .faulted ∧ h'.m.cs = c
    | .overflowDeclared n cap => h.m.pc = .capchk ∧ n = h.m.ss ∧ cap = 2 ^ (7 + h.m.fsz.toNat) - 1 ∧ cap < n
    | .overflowWait c => (h.m.pc = .wait ∨ h.m.pc = .contWait) ∧ c = h.m.cs ∧ c.fe = false ∧
        2 ^ (7 + c.fsz.toNat) - 1 ≤ c.nrs.toNat
    | .timedOut c => (h.m.pc = .wait ∨ h.m.pc = .contWait) ∧ c = h.m.cs ∧ c.fe = false ∧ 100000 < h'.m.time - h'.m.tLast
    | .badResponse c w e => h.m.pc = .decode ∧ w = rspAnswer h.m ∧ e = h.m.e ∧
        validateRsp h.cfg (unpackRsp h.cfg.layout.rsp w) e (h.m.rem - 1 == 0) = some c
    | .framing n => h.m.pc = .decode ∧ n = (unpackRsp h.cfg.layout.rsp (rspAnswer h.m)).d ∧ (n.toNat < 1 ∨ 32 < n.toNat)) ∧
  statusCode none = 0 ∧
  ∀ f : Failure, (f.kind, statusCode (some f.kind)) = match f with
    | .unsupportedTenBit => (Kind.unsupported, 1)
    | .unsupportedMultiBlockRead => (.unsupported, 1)
    | .overflowDeclared _ _ => (.sessionOverflow, 2)
    | .overflowWait _ => (.sessionOverflow, 2)
    | .timedOut _ => (.timeout, 3)
    | .enterFailed _ => (.ioFailure, 4)
    | .badResponse _ _ _ => (.ioFailure, 4)
    | .framing _ => (.framingProtocol, 5)

/-- The abort path and the return (60_exceptions.md R256, R257; 41_transfer_encode.md R160): the turn of a Master whose command
comes to LEAVE runs leave(had_error), frees the lock, goes to IDLE and answers the command with its kind, or with success
and the final lengths (what one turn does, if it is not cut short: the model's choice, log 6); nothing else of the Master
changes, and no byte of host memory. -/
def Obligations.LeaveUnlockAndReturn : Prop :=
  ∀ (s : State) (m : Master) (cmd : Nat), s.master? m.id = some m → m.lock = .held cmd → m.pc = .leave → m.spot = .outside →
    m.bare = none → s.cut = none →
    masterTurn m.id s = .next (({ s with inHand := m.id }.putMaster
        { leaveOp s.cfg m.err.isSome m with lock := .free, pc := .idle }).post cmd
      (match m.err with
        | none => .success m.msgs
        | some f => .failure f.kind))

/-! ### TRANSFER -/

/-- Unsupported requests (41_transfer_encode.md R161): a ten-bit message anywhere, or two or more vlr messages, is answered by
`Unsupported` before the lock: no register access, no change of `x[rid]` or of anything but the answer. That it is so whatever
the bus, one that is not registered too, is the model's choice (log 27). -/
def Obligations.UnsupportedIsRejectedOutright : Prop :=
  ∀ (s : State) (handle : Nat) (msgs : List Message),
    ((∃ x ∈ msgs, x.tenBit = true) ∨ 2 ≤ (msgs.filter (·.vlr)).length) →
    Machine.exec (.transfer handle msgs) s = .next { s with
      nextCmd := s.nextCmd + 1, replies := s.replies ++ [⟨s.nextCmd, .failure .unsupported⟩] }

/-- What a TRANSFER may not hold (41_transfer_encode.md R162): a handle names a registered bus of some Master, or nothing; for a
list that is supported, each input of the table is refused, and a bus that is not registered too; and a list with none of them
is not refused for it: it is started, or waits for the lock. -/
def Obligations.TransferPreconditions : Prop :=
  (∀ (s : State) (handle : Nat),
    (∀ m b, s.busOf handle = some (m, b) → m ∈ s.masters ∧ b ∈ m.buses ∧ b.handle = handle ∧ b.registered = true) ∧
    (s.busOf handle = none → ∀ m ∈ s.masters, ∀ b ∈ m.buses, ¬(b.handle = handle ∧ b.registered = true))) ∧
  ∀ (s : State) (handle : Nat) (msgs : List Message), (∀ x ∈ msgs, x.tenBit = false) → (msgs.filter (·.vlr)).length ≤ 1 →
    (s.busOf handle = none → Machine.exec (.transfer handle msgs) s = .refused .busNotRegistered) ∧
    ∀ m b, s.busOf handle = some (m, b) →
      ((msgs = [] ∨ (∃ x, msgs.head? = some x ∧ x.noStart = true) ∨ 16 ≤ b.busId ∨
        ∃ x ∈ msgs, 0x7F < x.addr ∨ (x.vlr = true ∧ x.read = false) ∨ (x.vlr = true ∧ x.length = 0) ∨
          x.cap < x.length ∨ (x.vlr = true ∧ x.cap < x.length + 32)) →
        ∃ r, Machine.exec (.transfer handle msgs) s = .refused r) ∧
      (msgs ≠ [] → (∀ x, msgs.head? = some x → x.noStart = false) → b.busId < 16 →
        (∀ x ∈ msgs, x.addr ≤ 0x7F ∧ x.length ≤ x.cap ∧
          (x.vlr = true → x.read = true ∧ 1 ≤ x.length ∧ x.length + 32 ≤ x.cap)) →
        Machine.exec (.transfer handle msgs) s = startTransfer s.nextCmd m b.busId msgs { s with nextCmd := s.nextCmd + 1 })

/-- An accepted TRANSFER on a free Master always has a step, whatever the engine answers (20_memory.md R66): it ends with an
answer, the lock free and `pc` in IDLE, or it goes on later with the lock held, and then, if its turn is not cut short, it
sleeps in a wait. Only a list with a vlr message can meet the refusal of 42_transfer_decode.md R202, and only a layout with a
narrow session size that of 30_encoding.md R95. `x[rid]` has grown by one (R163). Where a step ends is the model's choice,
log 6. -/
def Obligations.AcceptedTransferRuns : Prop :=
  ∀ (s : State) (handle : Nat) (msgs : List Message) (m : Master) (b : Bus), Inv s → Accepted s handle msgs m b →
    (∃ t m', Machine.exec (.transfer handle msgs) s = .next t ∧ t.master? m.id = some m' ∧ m'.rid = m.rid + 1 ∧
      ((m'.lock = .free ∧ m'.pc = .idle ∧
          ∃ a, t.replies = s.replies ++ [⟨s.nextCmd, a⟩] ∧ ((∃ ms, a = .success ms) ∨ ∃ k, a = .failure k)) ∨
        (m'.lock = .held s.nextCmd ∧ t.replies = s.replies ∧
          (s.cut = none → (m'.pc = .wait ∨ m'.pc = .contWait) ∧ ∃ d, m'.spot = .wait (.wake d))))) ∨
    ((∃ x ∈ msgs, x.vlr = true) ∧ Machine.exec (.transfer handle msgs) s = .refused .blockReadNotLast) ∨
    (s.cfg.layout.req.ssWidth < 10 ∧ Machine.exec (.transfer handle msgs) s = .refused .notEncodable)

/-- A TRANSFER without a block read on a clean engine (41_transfer_encode.md R160, R173, R175; 42_transfer_decode.md R193 to
R197, R205, R207; 20_memory.md R69), whatever its messages: if the engine is clean when it is entered, the session fits, the
first wait read shows frame-empty, every response is good, and leave() finds nothing left, then the command makes exactly
these accesses in this order, stores exactly the bytes of the read messages' responses, and returns success with the lock
free. That a turn which is not cut short is all of it is the model's choice, log 6. -/
def Obligations.CleanTransferSucceeds : Prop :=
  ∀ (s : State) (handle : Nat) (msgs : List Message) (m : Master) (b : Bus) (c0 c1 c2 c3 : Word) (csrRest rs rspRest : List Word),
    Inv s → s.cut = none → Accepted s handle msgs m b → m.mc ≠ .faulted → (∀ x ∈ msgs, x.vlr = false) →
    sessionSize msgs < 2 ^ s.cfg.layout.req.ssWidth →
    m.csrIn = c0 :: c1 :: c2 :: c3 :: csrRest → m.rspIn = rs ++ rspRest →
    let csrOf := unpackCsr s.cfg.layout.csr
    CleanWord s.cfg c0 → (csrOf c0).foe = true → sessionSize msgs ≤ 2 ^ (7 + (csrOf c0).fsz.toNat) - 1 →
    (csrOf c1).fe = true → (csrOf c2).nrs = 0 → dirty (csrOf c3) = false →
    rs.length = sessionSize msgs →
    (∀ n w, rs[n]? = some w →
      validateRsp s.cfg (unpackRsp s.cfg.layout.rsp w) (BitVec.ofNat 4 n) (n + 1 == sessionSize msgs) = none) →
    let csr := m.base + s.cfg.csrOff
    ∃ t m', Machine.exec (.transfer handle msgs) s = .next t ∧ t.master? m.id = some m' ∧
      t.replies = s.replies ++ [⟨s.nextCmd, .success msgs⟩] ∧ t.nextCmd = s.nextCmd + 1 ∧
      t.mem = storeResponses msgs (rs.map (unpackRsp s.cfg.layout.rsp)) s.mem ∧
      (∀ x ∈ s.masters, x.id ≠ m.id → x ∈ t.masters) ∧
      m'.lock = .free ∧ m'.pc = .idle ∧ m'.mc = .idle ∧ m'.rid = m.rid + 1 ∧ m'.err = none ∧ m'.diag = m.diag ∧
      m'.buses = m.buses ∧ m'.waiting = m.waiting ∧ m'.csrIn = csrRest ∧ m'.rspIn = rspRest ∧
      accesses m' = accesses m ++ [.read csr c0] ++
        (itemsOf s.cfg m b.busId msgs s.mem).mapIdx
          (fun k it => .write (m.base + s.cfg.reqOff) (reqWord s.cfg.layout.req it (k == 0))) ++
        [.read csr c1, .write csr (packCsr s.cfg.layout.csr (csrOf c1))] ++
        rs.map (fun w => .read (m.base + s.cfg.rspOff) w) ++ [.read csr c2, .read csr c3]

/-- A TRANSFER with a block read on a clean engine (42_transfer_decode.md R198 to R204, R207): the vlr message stands between
`pre` and `post`, and its length response announces `n`, from 1 to 32. Under protocol version 2 or above `n` more responses are
read in the same session, and the messages after it are walked on; below it, with the vlr message last and of length 1, the
continuation session of `n` items is written, waited for and read, its responses counted from 0. Either way the command makes
exactly these accesses in this order, stores exactly the bytes of the responses, the length byte first, and returns success
with the vlr message longer by `n`. That a turn which is not cut short is all of it is the model's choice, log 6. The layout is
one of the model's (log 16). -/
def Obligations.CleanBlockReadSucceeds : Prop :=
  ∀ (s : State) (handle : Nat) (pre : List Message) (v : Message) (post : List Message) (m : Master) (b : Bus) (n : Nat)
    (c0 c1 c2 c3 : Word) (csrRest rs rspRest : List Word) (r : Word),
    let msgs := pre ++ v :: post
    Inv s → s.cut = none → s.cfg.layout.ok → Accepted s handle msgs m b → m.mc ≠ .faulted → v.vlr = true →
    sessionSize msgs < 2 ^ s.cfg.layout.req.ssWidth → 1 ≤ n → n ≤ 32 →
    let csrOf := unpackCsr s.cfg.layout.csr
    let rspOf := unpackRsp s.cfg.layout.rsp
    let csr := m.base + s.cfg.csrOff
    let size := sessionSize msgs
    let at_ := sessionSize pre + (if v.noStart then 0 else 1)
    CleanWord s.cfg c0 → (csrOf c0).foe = true → size ≤ 2 ^ (7 + (csrOf c0).fsz.toNat) - 1 →
    (csrOf c1).fe = true → (csrOf c2).nrs = 0 → dirty (csrOf c3) = false →
    m.rspIn = rs ++ rspRest → rs.length = size + n → rs[at_]? = some r → (rspOf r).d.toNat = n →
    let written (items : List ReqItem) : List Access :=
      items.mapIdx (fun k it => .write (m.base + s.cfg.reqOff) (reqWord s.cfg.layout.req it (k == 0)))
    let reads (ws : List Word) : List Access := ws.map (fun w => .read (m.base + s.cfg.rspOff) w)
    let succeeds (middle : List Access) : Prop :=
      ∃ t m', Machine.exec (.transfer handle msgs) s = .next t ∧ t.master? m.id = some m' ∧
        t.replies = s.replies ++ [⟨s.nextCmd, .success (grown n msgs)⟩] ∧
        t.mem = storeResponses (grown n msgs) (rs.map rspOf) s.mem ∧
        (∀ x ∈ s.masters, x.id ≠ m.id → x ∈ t.masters) ∧
        m'.lock = .free ∧ m'.pc = .idle ∧ m'.mc = .idle ∧ m'.rid = m.rid + 1 ∧ m'.err = none ∧ m'.diag = m.diag ∧
        m'.buses = m.buses ∧ m'.waiting = m.waiting ∧ m'.csrIn = csrRest ∧ m'.rspIn = rspRest ∧
        accesses m' = accesses m ++ [.read csr c0] ++ written (itemsOf s.cfg m b.busId msgs s.mem) ++
          [.read csr c1, .write csr (packCsr s.cfg.layout.csr (csrOf c1))] ++ middle ++ [.read csr c2, .read csr c3]
    (2 ≤ (csrOf c0).ver.toNat → m.csrIn = c0 :: c1 :: c2 :: c3 :: csrRest →
      (∀ k w, rs[k]? = some w → validateRsp s.cfg (rspOf w) (BitVec.ofNat 4 k)
        (if k = at_ then at_ + 1 == size else k + 1 == size + n) = none) →
      succeeds (reads rs)) ∧
    ((csrOf c0).ver.toNat < 2 → post = [] → v.length = 1 → n < 2 ^ s.cfg.layout.req.ssWidth →
      ∀ d1, (csrOf d1).fe = true → m.csrIn = c0 :: c1 :: d1 :: c2 :: c3 :: csrRest →
      (∀ k w, rs[k]? = some w → validateRsp s.cfg (rspOf w) (BitVec.ofNat 4 (if k < size then k else k - size))
        (k + 1 == size || k + 1 == size + n) = none) →
      succeeds (reads (rs.take size) ++
        written ((List.range n).map (contItem s.cfg (BitVec.ofNat 4 b.busId)
          (lookupParams (m.storeOf b.busId) (BitVec.ofNat 7 v.addr)) n)) ++
        [.read csr d1, .write csr (packCsr s.cfg.layout.csr (csrOf d1))] ++ reads (rs.drop size)))

/-- A session too large for the class just read (41_transfer_encode.md R166): after enter()'s one read the command fails with
session-overflow; no request word is written, no response read, host memory is untouched; leave() makes its two reads, and
arms a reset if the second value is dirty. That a turn which is not cut short is all of it is the model's choice, log 6. -/
def Obligations.DeclaredOverflowWritesNothing : Prop :=
  ∀ (s : State) (handle : Nat) (msgs : List Message) (m : Master) (b : Bus) (c0 c1 c2 : Word) (rest : List Word),
    Inv s → s.cut = none → Accepted s handle msgs m b → m.mc ≠ .faulted → m.csrIn = c0 :: c1 :: c2 :: rest →
    let csrOf := unpackCsr s.cfg.layout.csr
    CleanWord s.cfg c0 → (csrOf c0).foe = true → 2 ^ (7 + (csrOf c0).fsz.toNat) - 1 < sessionSize msgs →
    let csr := m.base + s.cfg.csrOff
    ∃ t m', Machine.exec (.transfer handle msgs) s = .next t ∧ t.master? m.id = some m' ∧
      t.replies = s.replies ++ [⟨s.nextCmd, .failure .sessionOverflow⟩] ∧ t.mem = s.mem ∧
      m'.lock = .free ∧ m'.pc = .idle ∧ m'.mc = .idle ∧ m'.rid = m.rid + 1 ∧ m'.diag = m.diag ∧ m'.buses = m.buses ∧
      m'.err = some (.overflowDeclared (sessionSize msgs) (2 ^ (7 + (csrOf c0).fsz.toNat) - 1)) ∧
      accesses m' = accesses m ++ [.read csr c0, .read csr c1, .read csr c2] ++
        (if dirty (csrOf c2) then [.write csr (armedWord s.cfg c2)] else [])

/-- A recovery that fails (41_transfer_encode.md R165, 40_master_control.md R137 (d), R138 (d)): with a dirty engine and four
re-reads that are not clean the command fails with an input/output failure, the state stays `Faulted`, leave(true) still
runs, and no request word is written. That a turn which is not cut short is all of it is the model's choice, log 6. -/
def Obligations.FailedRecoveryEndsTheTransfer : Prop :=
  ∀ (s : State) (handle : Nat) (msgs : List Message) (m : Master) (b : Bus) (c c0 r1 r2 r3 r4 l1 l2 : Word) (rest : List Word),
    Inv s → s.cut = none → Accepted s handle msgs m b → m.mc ≠ .faulted →
    m.csrIn = c :: c0 :: r1 :: r2 :: r3 :: r4 :: l1 :: l2 :: rest → dirty (unpackCsr s.cfg.layout.csr c) = true →
    (∀ x ∈ [r1, r2, r3, r4], ¬CleanWord s.cfg x) →
    let csr := m.base + s.cfg.csrOff
    ∃ t m', Machine.exec (.transfer handle msgs) s = .next t ∧ t.master? m.id = some m' ∧
      t.replies = s.replies ++ [⟨s.nextCmd, .failure .ioFailure⟩] ∧ t.mem = s.mem ∧
      m'.lock = .free ∧ m'.pc = .idle ∧ m'.mc = .faulted ∧ m'.rid = m.rid + 1 ∧
      m'.err = some (.enterFailed (unpackCsr s.cfg.layout.csr r4)) ∧
      accesses m' = accesses m ++ [.read csr c, .read csr c0, .write csr (resetWord s.cfg c0),
        .sleep 1000, .read csr r1, .sleep 2000, .read csr r2, .sleep 4000, .read csr r3, .sleep 8000, .read csr r4,
        .read csr l1, .read csr l2] ++
        (if dirty (unpackCsr s.cfg.layout.csr l2) then [.write csr (armedWord s.cfg l2)] else [])

/-- A held lock (20_memory.md R74, R75, 60_exceptions.md R265): a TRANSFER, a TUNE or a lookup on a bus of a Master whose lock
is held waits for it: it makes no access and changes nothing but that it stands among the waiting commands. A TEARDOWN of that
Master unregisters its buses and waits (43_params_and_commands.md R226), one that comes second too (log 18). A DUMP that comes
to that Master waits with the lines of the Masters before it (R223; what it has printed, log 32), if its turn is not cut short
before (log 6). That a lookup is a command which can wait is the model's choice, log 14. -/
def Obligations.HeldLockMakesCommandsWait : Prop :=
  let waits (i : Instr) (s : State) (m : Master) (x : Blocked) : Prop :=
    Machine.exec i s = .next ({ s with nextCmd := s.nextCmd + 1 }.putMaster { m with waiting := m.waiting ++ [x] })
  ∀ (s : State) (m : Master), m.lock ≠ .free →
    (∀ handle msgs b, s.busOf handle = some (m, b) → unsupported msgs = none → listRefusal b.busId msgs = none →
      waits (.transfer handle msgs) s m (.transfer s.nextCmd b.busId msgs)) ∧
    (∀ line n b, parseTuneLine line = some n → tuneInRange n = true → s.tuneBus n.bus = some (m, b) →
      waits (.tune line) s m (.tune s.nextCmd b.busId (tuneRecord n))) ∧
    (∀ handle a b, s.busOf handle = some (m, b) → waits (.lookup handle a) s m (.lookup s.nextCmd b.busId a)) ∧
    (s.master? m.id = some m →
      waits (.teardown m.id) s { m with buses := m.buses.map (fun b => { b with registered := false }) } (.teardown s.nextCmd)) ∧
    ∀ pre post, s.masters = pre ++ m :: post → (∀ x ∈ pre, x.lock = .free) → s.cut = none →
      waits .dump s m (.dump s.nextCmd (pre.flatMap dumpLines))

/-- A freed lock (20_memory.md R74): the turn of a Master whose lock is free and for which commands wait gives it to one of
them, in no order: the one its next free number names where that number names one (log 7), be it a TEARDOWN with a TRANSFER
waiting beside it (log 18). What it does then: a TRANSFER is started, as on a free Master; a TUNE writes its record and is
accepted; a DUMP goes on with the lines of this Master and the Masters after it to the end, or to the next held lock, where it
waits; a lookup answers; a TEARDOWN takes the lock and begins its reset. With no command waiting the turn changes nothing but the
Master in hand. What one turn does, if it is not cut short, is the model's choice, logs 6, 7 and 32; so is a lookup that waits,
log 14, and that a TUNE or a lookup which waits is carried out even if its bus has been unregistered since, log 31. -/
def Obligations.FreedLockGoesToAWaitingCommand : Prop :=
  ∀ (s : State) (m : Master), s.master? m.id = some m → m.lock = .free → s.cut = none →
    (m.waiting = [] → masterTurn m.id s = .next { s with inHand := m.id }) ∧
    (m.waiting ≠ [] → ∃ (b : Blocked) (m0 : Master), b ∈ m.waiting ∧
      (∀ n x, m.draws.head? = some n → m.waiting[n]? = some x → b = x) ∧
      m0 = { m with waiting := m.waiting.erase b, draws := m0.draws, nDraw := m0.nDraw } ∧
      let s1 := { s with inHand := m.id }
      let later := s.masters.filter (fun x => m.id < x.id)
      match b with
      | .transfer cmd bus msgs => masterTurn m.id s = startTransfer cmd m0 bus msgs s1
      | .tune cmd bus r => masterTurn m.id s = .next ((s1.putMaster
          { m0 with buses := m0.buses.map (fun b => if b.busId = bus then { b with params := updateStore r b.params } else b) }).post
            cmd .accepted)
      | .dump cmd ls =>
        ((∀ x ∈ later, x.lock = .free) → masterTurn m.id s =
          .next ((s1.putMaster m0).post cmd (.lines (ls ++ dumpLines m ++ later.flatMap dumpLines)))) ∧
        ∀ pre x post, later = pre ++ x :: post → (∀ y ∈ pre, y.lock = .free) → x.lock ≠ .free → masterTurn m.id s =
          .next ((s1.putMaster m0).putMaster
            { x with waiting := x.waiting ++ [.dump cmd (ls ++ dumpLines m ++ pre.flatMap dumpLines)] })
      | .lookup cmd bus a => ∀ x, m.bus? bus = some x → masterTurn m.id s =
          .next ((s1.putMaster m0).post cmd (.params (lookupParams x.params a)))
      | .teardown cmd => masterTurn m.id s =
          .next (s1.putMaster { m0 with lock := .held cmd, pc := .tearReset, spot := .outside }))

/-! ### The parameter stores and the other commands -/

/-- `lookup` (43_params_and_commands.md R220) answers and writes nothing, under the Master's lock (20_memory.md R75): with a
record of the exact address its values; else with a record of address 0 the values of that one; else timing class 1, read and
write timing 3, extra-data flag off. That it can be called by itself, and waits while another command holds the lock, is the
model's choice, log 14. -/
def Obligations.LookupPrecedence : Prop :=
  ∀ (s : State) (handle : Nat) (a : BitVec 7) (m : Master) (b : Bus), s.busOf handle = some (m, b) → StoreDistinct b →
    let answers (p : Params) : Prop :=
      (m.lock = .free → Machine.exec (.lookup handle a) s =
        .next { s with nextCmd := s.nextCmd + 1, replies := s.replies ++ [⟨s.nextCmd, .params p⟩] }) ∧
      (m.lock ≠ .free → Machine.exec (.lookup handle a) s = .next ({ s with nextCmd := s.nextCmd + 1 }.putMaster
        { m with waiting := m.waiting ++ [Blocked.lookup s.nextCmd b.busId a] })) ∧
      lookupParams b.params a = p
    (∀ r ∈ b.params, r.addr = a → answers ⟨r.t, r.datr, r.datw, r.ed⟩) ∧
    ((∀ r ∈ b.params, r.addr ≠ a) → ∀ r ∈ b.params, r.addr = 0 → answers ⟨r.t, r.datr, r.datw, r.ed⟩) ∧
    ((∀ r ∈ b.params, r.addr ≠ a ∧ r.addr ≠ 0) → answers ⟨1, 3, 3, false⟩)

/-- An accepted TUNE on a free Master (43_params_and_commands.md R221): the record of that address is the line's numbers, every
other record and every other bus is as it was, an overwritten record keeps its place and a new one stands last; no register
access; the lock is free again. -/
def Obligations.TuneWritesOneRecord : Prop :=
  ∀ (s : State) (line : List Char) (n : TuneNumbers) (m : Master) (b : Bus), parseTuneLine line = some n →
    n.addr ≤ 0x7F → n.t ≤ 3 → n.datr ≤ 3 → n.datw ≤ 3 → n.ed ≤ 1 → s.tuneBus n.bus = some (m, b) → m.lock = .free →
    ∃ store : List ParamRec → List ParamRec,
      Machine.exec (.tune line) s = .next (({ s with nextCmd := s.nextCmd + 1 }.putMaster
        { m with buses := m.buses.map (fun x : Bus => if x.busId = b.busId then { x with params := store x.params } else x) }).post
          s.nextCmd .accepted) ∧
      ∀ l : List ParamRec, (l.map (·.addr)).Nodup →
        (∃ r ∈ store l, r.addr.toNat = n.addr ∧ r.t.toNat = n.t ∧ r.datr.toNat = n.datr ∧ r.datw.toNat = n.datw ∧
          r.ed.toNat = n.ed) ∧
        (∀ r : ParamRec, r.addr.toNat ≠ n.addr → (r ∈ store l ↔ r ∈ l)) ∧
        (store l).map (·.addr) =
          if BitVec.ofNat 7 n.addr ∈ l.map (·.addr) then l.map (·.addr) else l.map (·.addr) ++ [BitVec.ofNat 7 n.addr]

/-- The bus of a tuning line (43_params_and_commands.md R222): a registered bus with that external number, of any Master, or
under the model's other setting of `TUNE_BUS_KEY` the registered bus of that identity in the Master of an id that the setting
names (DESIGN CHOICE, log 23). Rejection of a tuning line: malformed, a bus number that names none, or a value out of range: the answer is the rejection, and no other state changes,
whoever holds the lock. -/
def Obligations.TuneRejectsWithoutChange : Prop :=
  (∀ (s : State) (n : Nat), s.cfg.tuneBusKey = .external →
    (∀ m b, s.tuneBus n = some (m, b) → m ∈ s.masters ∧ b ∈ m.buses ∧ b.adap = n ∧ b.registered = true) ∧
    (s.tuneBus n = none → ∀ m ∈ s.masters, ∀ b ∈ m.buses, ¬(b.adap = n ∧ b.registered = true))) ∧
  (∀ (s : State) (n id : Nat), s.cfg.tuneBusKey = .identity id →
    (∀ m b, s.tuneBus n = some (m, b) → s.master? id = some m ∧ b ∈ m.buses ∧ b.busId = n ∧ b.registered = true) ∧
    (s.tuneBus n = none → ∀ m, s.master? id = some m → ∀ b ∈ m.buses, ¬(b.busId = n ∧ b.registered = true))) ∧
  ∀ (s : State) (line : List Char),
    (parseTuneLine line = none ∨ ∃ n, parseTuneLine line = some n ∧
      (s.tuneBus n.bus = none ∨ 0x7F < n.addr ∨ 3 < n.t ∨ 3 < n.datr ∨ 3 < n.datw ∨ 1 < n.ed)) →
    Machine.exec (.tune line) s = .next { s with
      nextCmd := s.nextCmd + 1, replies := s.replies ++ [⟨s.nextCmd, .rejected⟩] }

/-- DUMP (43_params_and_commands.md R223, 30_encoding.md R110): one line per record, Masters by rising id as they stand, their
buses in order, the records in list order, the address as two lower-case hexadecimal digits; no register access, no other
state written. With every lock free it answers at
once; it goes through the Masters up to the first whose lock is held, and waits there with the lines of those before it. That a
turn which is not cut short goes so far, and keeps what it has printed, is the model's choice, logs 6 and 32. -/
def Obligations.DumpListsEveryRecord : Prop :=
  (∀ n, n < 256 → hex2 n = Nat.toDigits 16 (n / 16) ++ Nat.toDigits 16 (n % 16)) ∧
  ∀ s : State, s.cut = none →
    let lines (ms : List Master) : List (List Char) := ms.flatMap fun m => m.buses.flatMap fun b =>
      b.params.map fun r =>
        decimal m.id ++ "/".toList ++ decimal b.busId ++ "/".toList ++ hex2 r.addr.toNat ++ ": adap=".toList ++
          decimal b.adap ++ " t=".toList ++ decimal r.t.toNat ++ " datr=".toList ++ decimal r.datr.toNat ++
          " datw=".toList ++ decimal r.datw.toNat ++ " ed=".toList ++ decimal r.ed.toNat
    ((∀ m ∈ s.masters, m.lock = .free) →
      Machine.exec .dump s = .next { s with
        nextCmd := s.nextCmd + 1
        replies := s.replies ++ [⟨s.nextCmd, .lines (lines s.masters)⟩] }) ∧
    ∀ pre m post, s.masters = pre ++ m :: post → (∀ x ∈ pre, x.lock = .free) → m.lock ≠ .free →
      Machine.exec .dump s = .next ({ s with nextCmd := s.nextCmd + 1 }.putMaster
        { m with waiting := m.waiting ++ [Blocked.dump s.nextCmd (lines pre)] })

/-- CAPS (43_params_and_commands.md R224): the seven names, the same for every bus; no state read or written but the answer.
That it answers for a number that names no bus too is the model's choice (log 28). -/
def Obligations.CapsIsConstant : Prop :=
  ∀ (s : State) (handle : Nat), Machine.exec (.caps handle) s = .next { s with
    nextCmd := s.nextCmd + 1
    replies := s.replies ++ [⟨s.nextCmd, .capabilities
      [.quickCommand, .byte, .byteData, .wordData, .blockData, .rawI2C, .noStart]⟩] }

/-- open (43_params_and_commands.md R227): the handle of a registered bus with that identity, and no other effect; refused for
an identity that names none. That the external identity of a bus is its external number is the model's reading (log 13). -/
def Obligations.OpenGivesTheHandle : Prop :=
  ∀ (s : State) (adap : Nat),
    ((∃ m ∈ s.masters, ∃ b ∈ m.buses, b.adap = adap ∧ b.registered = true) →
      ∃ b, (∃ m ∈ s.masters, b ∈ m.buses) ∧ b.adap = adap ∧ b.registered = true ∧
        Machine.exec (.openBus adap) s = .next { s with
          nextCmd := s.nextCmd + 1, replies := s.replies ++ [⟨s.nextCmd, .handle b.handle⟩] }) ∧
    ((∀ m ∈ s.masters, ∀ b ∈ m.buses, ¬(b.adap = adap ∧ b.registered = true)) →
      Machine.exec (.openBus adap) s = .refused .noSuchBus)

/-- CREATE (43_params_and_commands.md R225, 10_state.md R47): a Master with the state of its creation, the count given or the
default, each bus registered with an empty store and an external number no other bus has (log 12); no register access; every other
Master and host memory as before. What it refuses (R225): a bus count of 0 or above the largest, a master-id in use, a register
that is not at a multiple of 4 (20_memory.md R63), or that another Master (R68) or another register of its own (R61) has. That
the tests of alignment and of coincidence are on all three addresses, and that two registers of its own at one address are
refused, is the model's reading: DEDUCED, log 24. -/
def Obligations.CreateMakesAMaster : Prop :=
  ∀ (s : State) (base id : Nat) (busCount : Option Nat), IdsRising s →
    let count := busCount.getD s.cfg.defaultBusCount
    (1 ≤ count → count ≤ s.cfg.maxBusCount → (∀ m ∈ s.masters, m.id ≠ id) →
      (∀ x ∈ portAddrs s.cfg base, x % 4 = 0) → (portAddrs s.cfg base).Nodup →
      (∀ m ∈ s.masters, ∀ x ∈ portAddrs s.cfg m.base, x ∉ portAddrs s.cfg base) →
      ∃ t m', Machine.exec (.create base id busCount) s = .next t ∧ t.master? id = some m' ∧
        m'.base = base ∧ m'.busCount = count ∧ m'.lock = .free ∧ m'.rid = 0 ∧ m'.mc = .idle ∧ m'.pc = .idle ∧ m'.diag = [] ∧
        m'.hist = [] ∧ BusIdsInOrder m' ∧ (∀ b ∈ m'.buses, b.registered = true ∧ b.params = [] ∧ b.adap ∉ s.adaps) ∧
        (m'.buses.map (·.adap)).Nodup ∧ (∀ x, x ∈ t.masters ↔ x = m' ∨ x ∈ s.masters) ∧ IdsRising t ∧ t.mem = s.mem ∧
        t.cfg = s.cfg ∧ t.replies = s.replies ++ [⟨s.nextCmd, .created id⟩]) ∧
    ((count = 0 ∨ s.cfg.maxBusCount < count ∨ (∃ m ∈ s.masters, m.id = id) ∨ (∃ x ∈ portAddrs s.cfg base, x % 4 ≠ 0) ∨
        ¬(portAddrs s.cfg base).Nodup ∨ ∃ m ∈ s.masters, ∃ x ∈ portAddrs s.cfg m.base, x ∈ portAddrs s.cfg base) →
      ∃ r, Machine.exec (.create base id busCount) s = .refused r)

/-- The first step of a TEARDOWN (43_params_and_commands.md R226, 70_reset_and_hazards.md R283; log 18): it unregisters every
bus and makes no access, whoever holds the lock and whatever waits, a second TEARDOWN too; from then on no handle names a bus of
that Master. A free lock is taken (20_memory.md R74), whatever waits for it; else TEARDOWN waits. A TEARDOWN of a Master that does
not exist is refused. -/
def Obligations.TeardownUnregistersFirst : Prop :=
  (∀ (s : State) (m : Master), IdsRising s → s.master? m.id = some m →
    ∃ t m', Machine.exec (.teardown m.id) s = .next t ∧ t.master? m.id = some m' ∧ t.mem = s.mem ∧ t.replies = s.replies ∧
      (∀ x ∈ s.masters, x.id ≠ m.id → x ∈ t.masters) ∧ (∀ handle x b, t.busOf handle = some (x, b) → x.id ≠ m.id) ∧
      let unregistered := m.buses.map (fun b => { b with registered := false })
      if m.lock = .free then
        m' = { m with buses := unregistered, lock := .held s.nextCmd, pc := .tearReset, spot := .outside }
      else m' = { m with buses := unregistered, waiting := m.waiting ++ [.teardown s.nextCmd] }) ∧
  ∀ (s : State) (id : Nat), s.master? id = none → Machine.exec (.teardown id) s = .refused .noSuchMaster

/-- A TEARDOWN after its lock (43_params_and_commands.md R226): the engine's reset, its result ignored; then the lock is freed
and the Master is gone with its buses and stores, and the command is answered. Of the commands that still wait for the lock then
a TUNE is rejected, a DUMP goes on with the Masters after this one to the end, or to the next held lock, where it waits with the
lines of those before it, and any other has no answer. That these are two turns, the first not cut short, and what becomes of the waiting commands, is the model's choice
(logs 6 and 18). -/
def Obligations.TeardownResetsThenDestroys : Prop :=
  ∀ (s : State) (m : Master) (cmd : Nat), IdsRising s → s.master? m.id = some m → m.lock = .held cmd → m.bare = none →
    s.cut = none →
    (m.pc = .tearReset → m.spot = .outside → masterTurn m.id s =
      .next ({ s with inHand := m.id }.putMaster { (resetOp s.cfg m).2 with pc := .tearDestroy })) ∧
    (m.pc = .tearDestroy → ∃ t new, masterTurn m.id s = .next t ∧ t.master? m.id = none ∧
      t.masters.map (·.id) = (s.masters.map (·.id)).filter (· ≠ m.id) ∧
      (∀ x ∈ t.masters, ∃ y ∈ s.masters, y.id ≠ m.id ∧ ∃ ds, x = { y with waiting := y.waiting ++ ds } ∧
        ∀ d ∈ ds, ∃ c ls ls', d = .dump c (ls ++ ls') ∧ Blocked.dump c ls ∈ m.waiting) ∧
      t.mem = s.mem ∧ t.cfg = s.cfg ∧ (∀ handle x b', t.busOf handle = some (x, b') → x.id ≠ m.id) ∧
      t.replies = s.replies ++ ⟨cmd, .tornDown m.id⟩ :: new ∧
      (m.waiting = [] → new = [] ∧ ∀ x, x ∈ t.masters ↔ x ∈ s.masters ∧ x.id ≠ m.id) ∧
      (∀ c bus r, Blocked.tune c bus r ∈ m.waiting → ⟨c, .rejected⟩ ∈ new) ∧
      (∀ c ls, Blocked.dump c ls ∈ m.waiting → (∀ x ∈ s.masters, m.id < x.id → x.lock = .free) →
        ⟨c, .lines (ls ++ (s.masters.filter (fun x => m.id < x.id)).flatMap dumpLines)⟩ ∈ new) ∧
      (∀ c ls pre x post, Blocked.dump c ls ∈ m.waiting → s.masters.filter (fun y => m.id < y.id) = pre ++ x :: post →
        (∀ y ∈ pre, y.lock = .free) → x.lock ≠ .free →
        ∃ x' ∈ t.masters, x'.id = x.id ∧ Blocked.dump c (ls ++ pre.flatMap dumpLines) ∈ x'.waiting) ∧
      ∀ a ∈ new, (∃ c bus r, Blocked.tune c bus r ∈ m.waiting ∧ a = ⟨c, .rejected⟩) ∨
        ∃ c ls ls', Blocked.dump c ls ∈ m.waiting ∧ a = ⟨c, .lines (ls ++ ls')⟩)
end

