-- ==== Sys2Proof/Laws/Layout.lean ====
section
/-! SUPPORT. The three words under any layout that 30_encoding.md R91 admits: every field is read back as it was packed, and a
control/status word is packed back as it was read. -/

namespace Sys2Proof

/-! ### Fields side by side -/

theorem place_bit (f : Span) (v i : Nat) :
    (place f v).getLsbD i = (decide (i < 32) && decide (f.1 ≤ i) && decide (i < f.1 + f.2) && v.testBit (i - f.1)) := by
  simp only [place, BitVec.getLsbD_shiftLeft, BitVec.getLsbD_ofNat, Nat.testBit_mod_two_pow]
  have h4 : f.1 ≤ i → i < 32 → i - f.1 < 32 := by omega
  have h5 : f.1 ≤ i → ((i - f.1 < f.2) ↔ (i < f.1 + f.2)) := by omega
  by_cases h1 : i < 32 <;> by_cases h2 : f.1 ≤ i
  · simp [h1, h2, h4 h2 h1, h5 h2, Nat.not_lt.mpr h2]
  · simp [h1, h2, Nat.lt_of_not_le h2]
  · simp [h1]
  · simp [h1]

/-- A bit that no field takes up is 0. -/
theorem packFields_outside (fs : List Span) : ∀ (vs : List Nat) (i : Nat), (∀ f ∈ fs, ¬(f.1 ≤ i ∧ i < f.1 + f.2)) →
    (packFields fs vs).getLsbD i = false := by
  induction fs with
  | nil => intro vs i _; simp [packFields]
  | cons f fs ih =>
    intro vs i h
    cases vs with
    | nil => simp [packFields]
    | cons v vs =>
      simp only [packFields, BitVec.getLsbD_or, ih vs i (fun g hg => h g (by simp [hg])), Bool.or_false, place_bit]
      have := h f (by simp)
      by_cases h1 : f.1 ≤ i <;> by_cases h2 : i < f.1 + f.2 <;> simp [h1, h2] <;> omega

/-- A bit of a field is the bit of its value. -/
theorem packFields_bit (fs : List Span) : ∀ (vs : List Nat), fitWord fs → ∀ (n : Nat) (f : Span) (v i : Nat),
    fs[n]? = some f → vs[n]? = some v → f.1 ≤ i → i < f.1 + f.2 → (packFields fs vs).getLsbD i = v.testBit (i - f.1) := by
  induction fs with
  | nil => intro vs _ n f v i hf; simp at hf
  | cons g fs ih =>
    intro vs hfit n f v i hf hv h1 h2
    obtain ⟨hp, hb⟩ := hfit
    rw [List.pairwise_cons] at hp
    cases vs with
    | nil => simp at hv
    | cons w vs =>
      have hi : i < 32 := by
        have : f ∈ g :: fs := List.mem_of_getElem? hf
        have := hb f this
        omega
      simp only [packFields, BitVec.getLsbD_or, place_bit]
      cases n with
      | zero =>
        simp only [List.getElem?_cons_zero, Option.some.injEq] at hf hv
        subst hf hv
        rw [packFields_outside fs vs i]
        · simp [hi, h1, h2]
        · intro k hk hc
          have := hp.1 k hk
          simp only [Span.apart] at this
          omega
      | succ n =>
        simp only [List.getElem?_cons_succ] at hf hv
        have hm : f ∈ fs := List.mem_of_getElem? hf
        have := hp.1 f hm
        simp only [Span.apart] at this
        rw [ih vs ⟨hp.2, fun k hk => hb k (by simp [hk])⟩ n f v i hf hv h1 h2]
        have hg : (decide (g.1 ≤ i) && decide (i < g.1 + g.2)) = false := by
          by_cases a : g.1 ≤ i <;> by_cases b : i < g.1 + g.2 <;> simp [a, b]; omega
        simp [hi, hg]

/-- A field read back. -/
theorem extract_packFields {fs : List Span} {vs : List Nat} (hfit : fitWord fs) (n lo k : Nat) (v : BitVec k)
    (hf : fs[n]? = some (lo, k)) (hv : vs[n]? = some v.toNat) : (packFields fs vs).extractLsb' lo k = v := by
  apply BitVec.eq_of_getLsbD_eq
  intro i hi
  rw [BitVec.getLsbD_extractLsb', packFields_bit fs vs hfit n (lo, k) v.toNat (lo + i) hf hv (by simp) (by simp; omega)]
  simp [hi, BitVec.getLsbD]

/-- A flag read back. -/
theorem bit_packFields {fs : List Span} {vs : List Nat} (hfit : fitWord fs) (n lo : Nat) (b : Bool)
    (hf : fs[n]? = some (lo, 1)) (hv : vs[n]? = some b.toNat) : (packFields fs vs).getLsbD lo = b := by
  rw [packFields_bit fs vs hfit n (lo, 1) b.toNat lo hf hv (by simp) (by simp)]
  cases b <;> simp

/-! ### The request word -/

/-- Every field of a request word is read back: the size on a first item, if the layout can hold it, the index on any other. -/
theorem unpackReq_reqWord {p : ReqPlaces} {it : ReqItem} {first : Bool} (hfit : fitWord (p.spans first)) (hw : p.ssWidth ≤ 10)
    (hs : first = true → it.ss.toNat < 2 ^ p.ssWidth) :
    unpackReq p (reqWord p it first) first =
      { it with ti := if first then 0 else it.ti, ss := if first then it.ss else 0 } := by
  cases first with
  | true =>
    have b := fun n lo k v h1 h2 => extract_packFields (vs := [it.bs.toNat, it.st.toNat, it.sp.toNat, it.dod.toNat,
      it.da.toNat, it.br.toNat, it.ed.toNat, it.t.toNat, it.dat.toNat, it.ss.toNat, it.d.toNat]) hfit n lo k v h1 h2
    have c := fun n lo v h1 h2 => bit_packFields (vs := [it.bs.toNat, it.st.toNat, it.sp.toNat, it.dod.toNat,
      it.da.toNat, it.br.toNat, it.ed.toNat, it.t.toNat, it.dat.toNat, it.ss.toNat, it.d.toNat]) hfit n lo v h1 h2
    have h9 := b 9 p.ss p.ssWidth (it.ss.setWidth p.ssWidth) rfl (by simp [Nat.mod_eq_of_lt (hs rfl)])
    have h10 : (it.ss.setWidth p.ssWidth).setWidth 10 = it.ss := by
      apply BitVec.eq_of_toNat_eq
      simp only [BitVec.toNat_setWidth]
      rw [Nat.mod_eq_of_lt (hs rfl), Nat.mod_eq_of_lt it.ss.isLt]
    simp only [unpackReq, reqWord, if_true, b 0 p.bs 4 it.bs rfl rfl, c 1 p.st it.st rfl rfl, c 2 p.sp it.sp rfl rfl,
      c 3 p.dod it.dod rfl rfl, c 4 p.da it.da rfl rfl, c 5 p.br it.br rfl rfl, c 6 p.ed it.ed rfl rfl,
      b 7 p.t 2 it.t rfl rfl, b 8 p.dat 2 it.dat rfl rfl, b 10 p.d 8 it.d rfl rfl, h9, h10]
    rfl
  | false =>
    have b := fun n lo k v h1 h2 => extract_packFields (vs := [it.bs.toNat, it.st.toNat, it.sp.toNat, it.dod.toNat,
      it.da.toNat, it.br.toNat, it.ed.toNat, it.t.toNat, it.dat.toNat, it.ti.toNat, it.d.toNat]) hfit n lo k v h1 h2
    have c := fun n lo v h1 h2 => bit_packFields (vs := [it.bs.toNat, it.st.toNat, it.sp.toNat, it.dod.toNat,
      it.da.toNat, it.br.toNat, it.ed.toNat, it.t.toNat, it.dat.toNat, it.ti.toNat, it.d.toNat]) hfit n lo v h1 h2
    simp only [unpackReq, reqWord, Bool.false_eq_true, if_false, b 0 p.bs 4 it.bs rfl rfl, c 1 p.st it.st rfl rfl,
      c 2 p.sp it.sp rfl rfl, c 3 p.dod it.dod rfl rfl, c 4 p.da it.da rfl rfl, c 5 p.br it.br rfl rfl,
      c 6 p.ed it.ed rfl rfl, b 7 p.t 2 it.t rfl rfl, b 8 p.dat 2 it.dat rfl rfl, b 9 p.ti 4 it.ti rfl rfl,
      b 10 p.d 8 it.d rfl rfl]
    rfl

/-! ### The response word -/

theorem unpackRsp_packRsp {p : RspPlaces} (hfit : fitWord p.spans) (r : Rsp) : unpackRsp p (packRsp p r) = r := by
  have b := fun n lo k v h1 h2 => extract_packFields (vs := [r.ti.toNat, r.fe.toNat, r.ovf.toNat, r.ackError.toNat,
    r.timeoutError.toNat, r.busConflictError.toNat, r.flushed.toNat, r.d.toNat]) hfit n lo k v h1 h2
  have c := fun n lo v h1 h2 => bit_packFields (vs := [r.ti.toNat, r.fe.toNat, r.ovf.toNat, r.ackError.toNat,
    r.timeoutError.toNat, r.busConflictError.toNat, r.flushed.toNat, r.d.toNat]) hfit n lo v h1 h2
  simp only [unpackRsp, packRsp, b 0 p.ti 4 r.ti rfl rfl, c 1 p.fe r.fe rfl rfl, c 2 p.ovf r.ovf rfl rfl,
    c 3 p.ackError r.ackError rfl rfl, c 4 p.timeoutError r.timeoutError rfl rfl,
    c 5 p.busConflictError r.busConflictError rfl rfl, c 6 p.flushed r.flushed rfl rfl, b 7 p.d 8 r.d rfl rfl]

/-! ### The control/status word -/

theorem unpackCsr_packCsr {p : CsrPlaces} (hfit : fitWord p.spans) (x : Csr) : unpackCsr p (packCsr p x) = x := by
  have b := fun n lo k v h1 h2 => extract_packFields (vs := [x.reset.toNat, x.fe.toNat, x.ver.toNat, x.brb.toNat, x.nrq.toNat,
    x.nrs.toNat, x.fsz.toNat, x.foe.toNat, x.sp.toNat, (x.rsv.getLsbD 1).toNat, (x.rsv.getLsbD 0).toNat]) hfit n lo k v h1 h2
  have c := fun n lo v h1 h2 => bit_packFields (vs := [x.reset.toNat, x.fe.toNat, x.ver.toNat, x.brb.toNat, x.nrq.toNat,
    x.nrs.toNat, x.fsz.toNat, x.foe.toNat, x.sp.toNat, (x.rsv.getLsbD 1).toNat, (x.rsv.getLsbD 0).toNat]) hfit n lo v h1 h2
  have hr : BitVec.ofBool (x.rsv.getLsbD 1) ++ BitVec.ofBool (x.rsv.getLsbD 0) = x.rsv := by
    revert x; intro x _ _; generalize x.rsv = r; revert r; decide
  simp only [unpackCsr, packCsr, c 0 p.reset x.reset rfl rfl, c 1 p.fe x.fe rfl rfl, b 2 p.ver 2 x.ver rfl rfl,
    c 3 p.brb x.brb rfl rfl, b 4 p.nrq 10 x.nrq rfl rfl, b 5 p.nrs 10 x.nrs rfl rfl, b 6 p.fsz 2 x.fsz rfl rfl,
    c 7 p.foe x.foe rfl rfl, b 8 p.sp 2 x.sp rfl rfl, c 9 p.rsvHigh (x.rsv.getLsbD 1) rfl rfl,
    c 10 p.rsvLow (x.rsv.getLsbD 0) rfl rfl, hr]

/-- A bit of a control/status word is a bit of the field that has it. -/
theorem packFields_of_word {fs : List Span} {vs : List Nat} (hfit : fitWord fs) (w : Word)
    (hall : ∀ i < 32, ∃ f ∈ fs, f.1 ≤ i ∧ i < f.1 + f.2)
    (hv : ∀ (n : Nat) (f : Span), fs[n]? = some f → ∃ v : Nat, vs[n]? = some v ∧ ∀ j, j < f.2 → v.testBit j = w.getLsbD (f.1 + j)) :
    packFields fs vs = w := by
  apply BitVec.eq_of_getLsbD_eq
  intro i hi
  obtain ⟨f, hf, h1, h2⟩ := hall i hi
  obtain ⟨n, hn⟩ := List.getElem?_of_mem hf
  obtain ⟨v, hv1, hv2⟩ := hv n f hn
  rw [packFields_bit fs vs hfit n f v i hn hv1 h1 h2, hv2 (i - f.1) (by omega)]
  congr 1; omega

theorem packCsr_unpackCsr {p : CsrPlaces} (hfit : fitWord p.spans) (hall : ∀ i < 32, ∃ f ∈ p.spans, f.1 ≤ i ∧ i < f.1 + f.2)
    (w : Word) : packCsr p (unpackCsr p w) = w := by
  have field : ∀ lo k j, j < k → (w.extractLsb' lo k).toNat.testBit j = w.getLsbD (lo + j) := by
    intro lo k j h
    have := BitVec.getLsbD_extractLsb' (x := w) (start := lo) (len := k) (i := j)
    simpa [h, BitVec.getLsbD] using this
  have flag : ∀ (b : Bool) lo j, b = w.getLsbD lo → j < 1 → b.toNat.testBit j = w.getLsbD (lo + j) := by
    intro b lo j hb h
    obtain rfl : j = 0 := by omega
    subst hb
    cases w.getLsbD lo <;> simp
  have h1 : (BitVec.ofBool (w.getLsbD p.rsvHigh) ++ BitVec.ofBool (w.getLsbD p.rsvLow)).getLsbD 1 = w.getLsbD p.rsvHigh := by
    cases w.getLsbD p.rsvHigh <;> cases w.getLsbD p.rsvLow <;> rfl
  have h0 : (BitVec.ofBool (w.getLsbD p.rsvHigh) ++ BitVec.ofBool (w.getLsbD p.rsvLow)).getLsbD 0 = w.getLsbD p.rsvLow := by
    cases w.getLsbD p.rsvHigh <;> cases w.getLsbD p.rsvLow <;> rfl
  refine packFields_of_word hfit w hall ?_
  intro n f hf
  match n, hf with
  | 0, hf => cases hf; exact ⟨_, rfl, fun j => flag _ _ j rfl⟩
  | 1, hf => cases hf; exact ⟨_, rfl, fun j => flag _ _ j rfl⟩
  | 2, hf => cases hf; exact ⟨_, rfl, fun j => field _ _ j⟩
  | 3, hf => cases hf; exact ⟨_, rfl, fun j => flag _ _ j rfl⟩
  | 4, hf => cases hf; exact ⟨_, rfl, fun j => field _ _ j⟩
  | 5, hf => cases hf; exact ⟨_, rfl, fun j => field _ _ j⟩
  | 6, hf => cases hf; exact ⟨_, rfl, fun j => field _ _ j⟩
  | 7, hf => cases hf; exact ⟨_, rfl, fun j => flag _ _ j rfl⟩
  | 8, hf => cases hf; exact ⟨_, rfl, fun j => field _ _ j⟩
  | 9, hf => cases hf; exact ⟨_, rfl, fun j => flag _ _ j h1⟩
  | 10, hf => cases hf; exact ⟨_, rfl, fun j => flag _ _ j h0⟩
  | n + 11, hf => simp [CsrPlaces.spans] at hf

/-! ### The reference layout -/

theorem reference_ok : Layout.reference.ok := by decide

end Sys2Proof
end

