-- ==== Sys2Proof/Laws/Memory.lean ====
section
/-! SUPPORT. Host memory: what a read after a write gives, and that every write keeps the canonical form. -/

namespace Sys2Proof.Machine

@[simp] theorem Memory.read_nil (a : Nat) : Memory.read [] a = Memory.unlisted := rfl

theorem Memory.wf_nil : Memory.wf [] := by simp [Memory.wf]

/-- What the canonical form says of a list with a first cell. -/
theorem Memory.wf_cons {c : Host.Cell} {m : Memory} :
    Memory.wf (c :: m) ↔ (∀ x ∈ m, c.1 < x.1) ∧ c.2 ≠ Memory.unlisted ∧ Memory.wf m := by
  simp only [Memory.wf, List.pairwise_cons, List.forall_mem_cons]
  tauto

/-- Below every listed address nothing is listed. -/
theorem Memory.read_below {m : Memory} {a : Nat} (h : ∀ x ∈ m, a < x.1) : Memory.read m a = Memory.unlisted := by
  induction m with
  | nil => rfl
  | cons c m ih =>
    have h1 := h c (by simp)
    rw [Memory.read, if_neg (by omega)]
    exact ih fun x hx => h x (by simp [hx])

/-- Every address in a memory after a write was there before, or is the one written. -/
theorem Memory.write_mem {m : Memory} {a : Nat} {b : Byte} {x : Host.Cell} (h : x ∈ Memory.write m a b) :
    x = (a, b) ∨ x ∈ m := by
  induction m with
  | nil => simp only [Memory.write] at h; split at h <;> simp_all
  | cons c m ih =>
    obtain ⟨y, v⟩ := c
    simp only [Memory.write] at h
    split at h
    · split at h <;> simp_all
    · split at h
      · split at h <;> simp_all; tauto
      · rcases List.mem_cons.mp h with rfl | h
        · simp
        · rcases ih h with rfl | h <;> simp [*]

/-- A write keeps the canonical form. -/
theorem Memory.write_wf {m : Memory} (h : Memory.wf m) (a : Nat) (b : Byte) : Memory.wf (Memory.write m a b) := by
  induction m with
  | nil =>
    simp only [Memory.write]
    split
    · exact h
    · exact Memory.wf_cons.mpr ⟨by simp, by simpa, h⟩
  | cons c m ih =>
    obtain ⟨y, v⟩ := c
    obtain ⟨h1, h2, h3⟩ := Memory.wf_cons.mp h
    simp only [Memory.write]
    split
    · split
      · exact h
      · refine Memory.wf_cons.mpr ⟨?_, by simpa, h⟩
        intro x hx
        rcases List.mem_cons.mp hx with rfl | hx
        · simpa
        · have := h1 x hx; simp only at *; omega
    · split
      · split
        · exact h3
        · refine Memory.wf_cons.mpr ⟨?_, by simpa, h3⟩
          intro x hx
          have := h1 x hx
          simp only at *; omega
      · refine Memory.wf_cons.mpr ⟨?_, h2, ih h3⟩
        intro x hx
        rcases Memory.write_mem hx with rfl | hx
        · simp only; omega
        · exact h1 x hx

/-- Reading after a write: the byte written at its address, the old byte everywhere else. -/
theorem Memory.read_write {m : Memory} (h : Memory.wf m) (a x : Nat) (b : Byte) :
    Memory.read (Memory.write m a b) x = if x = a then b else Memory.read m x := by
  induction m with
  | nil => simp only [Memory.write]; split <;> simp_all [Memory.read]
  | cons c m ih =>
    obtain ⟨y, v⟩ := c
    obtain ⟨h1, h2, h3⟩ := Memory.wf_cons.mp h
    simp only [Memory.write]
    split
    · rename_i hlt
      split
      · subst_vars
        split
        · subst_vars
          exact Memory.read_below fun z hz => by
            rcases List.mem_cons.mp hz with rfl | hz
            · exact hlt
            · exact Nat.lt_trans hlt (h1 z hz)
        · rfl
      · rw [Memory.read]
    · split
      · rename_i hge heq
        subst heq
        split
        · subst_vars
          by_cases hx : x = a
          · subst hx; simpa using Memory.read_below h1
          · simp [hx, Memory.read]
        · by_cases hx : x = a <;> simp [hx, Memory.read]
      · rename_i hne
        by_cases hx : x = y
        · subst hx
          have : x ≠ a := fun h => hne h.symm
          simp [Memory.read, this]
        · simp only [Memory.read, if_neg hx]
          exact ih h3

theorem Memory.read_write_same {m : Memory} (h : Memory.wf m) (a : Nat) (b : Byte) :
    Memory.read (Memory.write m a b) a = b := by rw [Memory.read_write h, if_pos rfl]

theorem Memory.read_write_other {m : Memory} (h : Memory.wf m) {a x : Nat} (b : Byte) (hx : x ≠ a) :
    Memory.read (Memory.write m a b) x = Memory.read m x := by rw [Memory.read_write h, if_neg hx]

/-- Two canonical memories that read alike everywhere are equal. -/
theorem Memory.ext_read {m n : Memory} (hm : Memory.wf m) (hn : Memory.wf n)
    (h : ∀ a, Memory.read m a = Memory.read n a) : m = n := by
  induction m generalizing n with
  | nil =>
    cases n with
    | nil => rfl
    | cons c n =>
      obtain ⟨y, v⟩ := c
      have := h y
      simp only [Memory.read, if_true] at this
      exact absurd this.symm (Memory.wf_cons.mp hn).2.1
  | cons c m ih =>
    obtain ⟨y, v⟩ := c
    obtain ⟨h1, h2, h3⟩ := Memory.wf_cons.mp hm
    cases n with
    | nil =>
      have := h y
      simp only [Memory.read, if_true] at this
      exact absurd this h2
    | cons d n =>
      obtain ⟨z, w⟩ := d
      obtain ⟨g1, g2, g3⟩ := Memory.wf_cons.mp hn
      have hyz : y = z := by
        rcases Nat.lt_trichotomy y z with hlt | heq | hgt
        · have := h y
          rw [Memory.read_below (m := (z, w) :: n) fun x hx => by
            rcases List.mem_cons.mp hx with rfl | hx
            · exact hlt
            · exact Nat.lt_trans hlt (g1 x hx)] at this
          simp only [Memory.read, if_true] at this
          exact absurd this h2
        · exact heq
        · have := h z
          rw [Memory.read_below (m := (y, v) :: m) fun x hx => by
            rcases List.mem_cons.mp hx with rfl | hx
            · exact hgt
            · exact Nat.lt_trans hgt (h1 x hx)] at this
          simp only [Memory.read, if_true] at this
          exact absurd this.symm g2
      subst hyz
      have hv : v = w := by have := h y; simpa [Memory.read] using this
      subst hv
      congr 1
      apply ih h3 g3
      intro a
      by_cases ha : a = y
      · subst ha; rw [Memory.read_below h1, Memory.read_below g1]
      · have := h a; simpa only [Memory.read, if_neg ha] using this

/-! ### Message buffers -/

theorem writeBytes_wf {mem : Memory} (h : Memory.wf mem) (a : Nat) (bs : List Byte) :
    Memory.wf (writeBytes mem a bs) := by
  induction bs generalizing mem a with
  | nil => exact h
  | cons b bs ih => exact ih (Memory.write_wf h a b) (a + 1)

/-- What storing bytes leaves: the byte stored inside the range, what was there outside it. -/
theorem read_writeBytes {mem : Memory} (h : Memory.wf mem) (a : Nat) (bs : List Byte) (x : Nat) :
    Memory.read (writeBytes mem a bs) x = if a ≤ x then (bs[x - a]?).getD (Memory.read mem x) else Memory.read mem x := by
  induction bs generalizing mem a with
  | nil => simp [writeBytes]
  | cons b bs ih =>
    simp only [writeBytes]
    rw [ih (Memory.write_wf h a b) (a + 1), Memory.read_write h]
    by_cases h1 : a + 1 ≤ x
    · have h2 : x - a = (x - (a + 1)) + 1 := by omega
      have h3 : x ≠ a := by omega
      have h4 : a ≤ x := by omega
      simp [h1, h2, h3, h4]
    · by_cases h3 : x = a
      · subst h3; simp
      · have h4 : ¬ a ≤ x := by omega
        simp [h1, h3, h4]

theorem bufWrite_wf {mem : Memory} (h : Memory.wf mem) (msg : Message) (j : Nat) (b : Byte) :
    Memory.wf (bufWrite mem msg j b) := Memory.write_wf h _ _

theorem bufRead_bufWrite {mem : Memory} (h : Memory.wf mem) (msg : Message) (j n : Nat) (b : Byte) :
    bufRead (bufWrite mem msg j b) msg n = if n = j then b else bufRead mem msg n := by
  simp [bufRead, bufWrite, Memory.read_write h]

/-- A run of stored bytes keeps the canonical form. -/
theorem storeBytes_wf (msg : Message) (rs : List Rsp) :
    ∀ (j : Nat) {mem : Memory}, Memory.wf mem → Memory.wf (storeBytes msg j rs mem) := by
  induction rs with
  | nil => intro j mem h; exact h
  | cons r rs ih => intro j mem h; exact ih (j + 1) (bufWrite_wf h msg j r.d)

/-- The responses of a whole session keep the canonical form. -/
theorem storeResponses_wf (msgs : List Message) :
    ∀ (rs : List Rsp) {mem : Memory}, Memory.wf mem → Memory.wf (storeResponses msgs rs mem) := by
  induction msgs with
  | nil => intro rs mem h; exact h
  | cons msg msgs ih =>
    intro rs mem h
    simp only [storeResponses]
    apply ih
    split
    · exact storeBytes_wf _ _ _ h
    · exact h

/-- Reset memory is canonical. -/
theorem reset_mem_wf : Memory.wf State.reset.mem := Memory.wf_nil

end Sys2Proof.Machine
end

