-- ==== Sys2Proof/Laws/State.lean ====
section
/-! SUPPORT. One lemma per field per update: what each named update of a Master, of a hand and of the machine does to each
field. Later proofs rewrite with these and never unfold an update. -/

namespace Sys2Proof.Machine

/-! ### `afterDraw` -/

@[simp] theorem afterDraw_id (m : Master) : (afterDraw m).id = m.id := by unfold afterDraw; split <;> simp_all
@[simp] theorem afterDraw_life (m : Master) : (afterDraw m).life = m.life := by unfold afterDraw; split <;> simp_all
@[simp] theorem afterDraw_base (m : Master) : (afterDraw m).base = m.base := by unfold afterDraw; split <;> simp_all
@[simp] theorem afterDraw_busCount (m : Master) : (afterDraw m).busCount = m.busCount := by unfold afterDraw; split <;> simp_all
@[simp] theorem afterDraw_lock (m : Master) : (afterDraw m).lock = m.lock := by unfold afterDraw; split <;> simp_all
@[simp] theorem afterDraw_rid (m : Master) : (afterDraw m).rid = m.rid := by unfold afterDraw; split <;> simp_all
@[simp] theorem afterDraw_mc (m : Master) : (afterDraw m).mc = m.mc := by unfold afterDraw; split <;> simp_all
@[simp] theorem afterDraw_buses (m : Master) : (afterDraw m).buses = m.buses := by unfold afterDraw; split <;> simp_all
@[simp] theorem afterDraw_pc (m : Master) : (afterDraw m).pc = m.pc := by unfold afterDraw; split <;> simp_all
@[simp] theorem afterDraw_spot (m : Master) : (afterDraw m).spot = m.spot := by unfold afterDraw; split <;> simp_all
@[simp] theorem afterDraw_bare (m : Master) : (afterDraw m).bare = m.bare := by unfold afterDraw; split <;> simp_all
@[simp] theorem afterDraw_i (m : Master) : (afterDraw m).i = m.i := by unfold afterDraw; split <;> simp_all
@[simp] theorem afterDraw_j (m : Master) : (afterDraw m).j = m.j := by unfold afterDraw; split <;> simp_all
@[simp] theorem afterDraw_ad (m : Master) : (afterDraw m).ad = m.ad := by unfold afterDraw; split <;> simp_all
@[simp] theorem afterDraw_ss (m : Master) : (afterDraw m).ss = m.ss := by unfold afterDraw; split <;> simp_all
@[simp] theorem afterDraw_k (m : Master) : (afterDraw m).k = m.k := by unfold afterDraw; split <;> simp_all
@[simp] theorem afterDraw_e (m : Master) : (afterDraw m).e = m.e := by unfold afterDraw; split <;> simp_all
@[simp] theorem afterDraw_rem (m : Master) : (afterDraw m).rem = m.rem := by unfold afterDraw; split <;> simp_all
@[simp] theorem afterDraw_err (m : Master) : (afterDraw m).err = m.err := by unfold afterDraw; split <;> simp_all
@[simp] theorem afterDraw_cs (m : Master) : (afterDraw m).cs = m.cs := by unfold afterDraw; split <;> simp_all
@[simp] theorem afterDraw_ver (m : Master) : (afterDraw m).ver = m.ver := by unfold afterDraw; split <;> simp_all
@[simp] theorem afterDraw_fsz (m : Master) : (afterDraw m).fsz = m.fsz := by unfold afterDraw; split <;> simp_all
@[simp] theorem afterDraw_nAnn (m : Master) : (afterDraw m).nAnn = m.nAnn := by unfold afterDraw; split <;> simp_all
@[simp] theorem afterDraw_tLast (m : Master) : (afterDraw m).tLast = m.tLast := by unfold afterDraw; split <;> simp_all
@[simp] theorem afterDraw_prev (m : Master) : (afterDraw m).prev = m.prev := by unfold afterDraw; split <;> simp_all
@[simp] theorem afterDraw_bus (m : Master) : (afterDraw m).bus = m.bus := by unfold afterDraw; split <;> simp_all
@[simp] theorem afterDraw_msgs (m : Master) : (afterDraw m).msgs = m.msgs := by unfold afterDraw; split <;> simp_all
@[simp] theorem afterDraw_diag (m : Master) : (afterDraw m).diag = m.diag := by unfold afterDraw; split <;> simp_all
@[simp] theorem afterDraw_waiting (m : Master) : (afterDraw m).waiting = m.waiting := by unfold afterDraw; split <;> simp_all
@[simp] theorem afterDraw_time (m : Master) : (afterDraw m).time = m.time := by unfold afterDraw; split <;> simp_all
@[simp] theorem afterDraw_hist (m : Master) : (afterDraw m).hist = m.hist := by unfold afterDraw; split <;> simp_all
@[simp] theorem afterDraw_csrIn (m : Master) : (afterDraw m).csrIn = m.csrIn := by unfold afterDraw; split <;> simp_all
@[simp] theorem afterDraw_rspIn (m : Master) : (afterDraw m).rspIn = m.rspIn := by unfold afterDraw; split <;> simp_all
@[simp] theorem afterDraw_draws (m : Master) : (afterDraw m).draws = m.draws.tail := by unfold afterDraw; split <;> simp_all

/-! ### `advanceTime` -/

@[simp] theorem advanceTime_id (cfg : Config) (d : Nat) (m : Master) : (advanceTime cfg d m).id = m.id := by unfold advanceTime; split <;> simp
@[simp] theorem advanceTime_life (cfg : Config) (d : Nat) (m : Master) : (advanceTime cfg d m).life = m.life := by unfold advanceTime; split <;> simp
@[simp] theorem advanceTime_base (cfg : Config) (d : Nat) (m : Master) : (advanceTime cfg d m).base = m.base := by unfold advanceTime; split <;> simp
@[simp] theorem advanceTime_busCount (cfg : Config) (d : Nat) (m : Master) : (advanceTime cfg d m).busCount = m.busCount := by unfold advanceTime; split <;> simp
@[simp] theorem advanceTime_lock (cfg : Config) (d : Nat) (m : Master) : (advanceTime cfg d m).lock = m.lock := by unfold advanceTime; split <;> simp
@[simp] theorem advanceTime_rid (cfg : Config) (d : Nat) (m : Master) : (advanceTime cfg d m).rid = m.rid := by unfold advanceTime; split <;> simp
@[simp] theorem advanceTime_mc (cfg : Config) (d : Nat) (m : Master) : (advanceTime cfg d m).mc = m.mc := by unfold advanceTime; split <;> simp
@[simp] theorem advanceTime_buses (cfg : Config) (d : Nat) (m : Master) : (advanceTime cfg d m).buses = m.buses := by unfold advanceTime; split <;> simp
@[simp] theorem advanceTime_pc (cfg : Config) (d : Nat) (m : Master) : (advanceTime cfg d m).pc = m.pc := by unfold advanceTime; split <;> simp
@[simp] theorem advanceTime_spot (cfg : Config) (d : Nat) (m : Master) : (advanceTime cfg d m).spot = m.spot := by unfold advanceTime; split <;> simp
@[simp] theorem advanceTime_bare (cfg : Config) (d : Nat) (m : Master) : (advanceTime cfg d m).bare = m.bare := by unfold advanceTime; split <;> simp
@[simp] theorem advanceTime_i (cfg : Config) (d : Nat) (m : Master) : (advanceTime cfg d m).i = m.i := by unfold advanceTime; split <;> simp
@[simp] theorem advanceTime_j (cfg : Config) (d : Nat) (m : Master) : (advanceTime cfg d m).j = m.j := by unfold advanceTime; split <;> simp
@[simp] theorem advanceTime_ad (cfg : Config) (d : Nat) (m : Master) : (advanceTime cfg d m).ad = m.ad := by unfold advanceTime; split <;> simp
@[simp] theorem advanceTime_ss (cfg : Config) (d : Nat) (m : Master) : (advanceTime cfg d m).ss = m.ss := by unfold advanceTime; split <;> simp
@[simp] theorem advanceTime_k (cfg : Config) (d : Nat) (m : Master) : (advanceTime cfg d m).k = m.k := by unfold advanceTime; split <;> simp
@[simp] theorem advanceTime_e (cfg : Config) (d : Nat) (m : Master) : (advanceTime cfg d m).e = m.e := by unfold advanceTime; split <;> simp
@[simp] theorem advanceTime_rem (cfg : Config) (d : Nat) (m : Master) : (advanceTime cfg d m).rem = m.rem := by unfold advanceTime; split <;> simp
@[simp] theorem advanceTime_err (cfg : Config) (d : Nat) (m : Master) : (advanceTime cfg d m).err = m.err := by unfold advanceTime; split <;> simp
@[simp] theorem advanceTime_cs (cfg : Config) (d : Nat) (m : Master) : (advanceTime cfg d m).cs = m.cs := by unfold advanceTime; split <;> simp
@[simp] theorem advanceTime_ver (cfg : Config) (d : Nat) (m : Master) : (advanceTime cfg d m).ver = m.ver := by unfold advanceTime; split <;> simp
@[simp] theorem advanceTime_fsz (cfg : Config) (d : Nat) (m : Master) : (advanceTime cfg d m).fsz = m.fsz := by unfold advanceTime; split <;> simp
@[simp] theorem advanceTime_nAnn (cfg : Config) (d : Nat) (m : Master) : (advanceTime cfg d m).nAnn = m.nAnn := by unfold advanceTime; split <;> simp
@[simp] theorem advanceTime_tLast (cfg : Config) (d : Nat) (m : Master) : (advanceTime cfg d m).tLast = m.tLast := by unfold advanceTime; split <;> simp
@[simp] theorem advanceTime_prev (cfg : Config) (d : Nat) (m : Master) : (advanceTime cfg d m).prev = m.prev := by unfold advanceTime; split <;> simp
@[simp] theorem advanceTime_bus (cfg : Config) (d : Nat) (m : Master) : (advanceTime cfg d m).bus = m.bus := by unfold advanceTime; split <;> simp
@[simp] theorem advanceTime_msgs (cfg : Config) (d : Nat) (m : Master) : (advanceTime cfg d m).msgs = m.msgs := by unfold advanceTime; split <;> simp
@[simp] theorem advanceTime_diag (cfg : Config) (d : Nat) (m : Master) : (advanceTime cfg d m).diag = m.diag := by unfold advanceTime; split <;> simp
@[simp] theorem advanceTime_waiting (cfg : Config) (d : Nat) (m : Master) : (advanceTime cfg d m).waiting = m.waiting := by unfold advanceTime; split <;> simp
@[simp] theorem advanceTime_hist (cfg : Config) (d : Nat) (m : Master) : (advanceTime cfg d m).hist = m.hist := by unfold advanceTime; split <;> simp
@[simp] theorem advanceTime_csrIn (cfg : Config) (d : Nat) (m : Master) : (advanceTime cfg d m).csrIn = m.csrIn := by unfold advanceTime; split <;> simp
@[simp] theorem advanceTime_rspIn (cfg : Config) (d : Nat) (m : Master) : (advanceTime cfg d m).rspIn = m.rspIn := by unfold advanceTime; split <;> simp

/-! ### `readClock` -/

@[simp] theorem readClock_id (cfg : Config) (m : Master) : (readClock cfg m).id = m.id := by simp [readClock]
@[simp] theorem readClock_life (cfg : Config) (m : Master) : (readClock cfg m).life = m.life := by simp [readClock]
@[simp] theorem readClock_base (cfg : Config) (m : Master) : (readClock cfg m).base = m.base := by simp [readClock]
@[simp] theorem readClock_busCount (cfg : Config) (m : Master) : (readClock cfg m).busCount = m.busCount := by simp [readClock]
@[simp] theorem readClock_lock (cfg : Config) (m : Master) : (readClock cfg m).lock = m.lock := by simp [readClock]
@[simp] theorem readClock_rid (cfg : Config) (m : Master) : (readClock cfg m).rid = m.rid := by simp [readClock]
@[simp] theorem readClock_mc (cfg : Config) (m : Master) : (readClock cfg m).mc = m.mc := by simp [readClock]
@[simp] theorem readClock_buses (cfg : Config) (m : Master) : (readClock cfg m).buses = m.buses := by simp [readClock]
@[simp] theorem readClock_pc (cfg : Config) (m : Master) : (readClock cfg m).pc = m.pc := by simp [readClock]
@[simp] theorem readClock_spot (cfg : Config) (m : Master) : (readClock cfg m).spot = m.spot := by simp [readClock]
@[simp] theorem readClock_bare (cfg : Config) (m : Master) : (readClock cfg m).bare = m.bare := by simp [readClock]
@[simp] theorem readClock_i (cfg : Config) (m : Master) : (readClock cfg m).i = m.i := by simp [readClock]
@[simp] theorem readClock_j (cfg : Config) (m : Master) : (readClock cfg m).j = m.j := by simp [readClock]
@[simp] theorem readClock_ad (cfg : Config) (m : Master) : (readClock cfg m).ad = m.ad := by simp [readClock]
@[simp] theorem readClock_ss (cfg : Config) (m : Master) : (readClock cfg m).ss = m.ss := by simp [readClock]
@[simp] theorem readClock_k (cfg : Config) (m : Master) : (readClock cfg m).k = m.k := by simp [readClock]
@[simp] theorem readClock_e (cfg : Config) (m : Master) : (readClock cfg m).e = m.e := by simp [readClock]
@[simp] theorem readClock_rem (cfg : Config) (m : Master) : (readClock cfg m).rem = m.rem := by simp [readClock]
@[simp] theorem readClock_err (cfg : Config) (m : Master) : (readClock cfg m).err = m.err := by simp [readClock]
@[simp] theorem readClock_cs (cfg : Config) (m : Master) : (readClock cfg m).cs = m.cs := by simp [readClock]
@[simp] theorem readClock_ver (cfg : Config) (m : Master) : (readClock cfg m).ver = m.ver := by simp [readClock]
@[simp] theorem readClock_fsz (cfg : Config) (m : Master) : (readClock cfg m).fsz = m.fsz := by simp [readClock]
@[simp] theorem readClock_nAnn (cfg : Config) (m : Master) : (readClock cfg m).nAnn = m.nAnn := by simp [readClock]
@[simp] theorem readClock_tLast (cfg : Config) (m : Master) : (readClock cfg m).tLast = m.tLast := by simp [readClock]
@[simp] theorem readClock_prev (cfg : Config) (m : Master) : (readClock cfg m).prev = m.prev := by simp [readClock]
@[simp] theorem readClock_bus (cfg : Config) (m : Master) : (readClock cfg m).bus = m.bus := by simp [readClock]
@[simp] theorem readClock_msgs (cfg : Config) (m : Master) : (readClock cfg m).msgs = m.msgs := by simp [readClock]
@[simp] theorem readClock_diag (cfg : Config) (m : Master) : (readClock cfg m).diag = m.diag := by simp [readClock]
@[simp] theorem readClock_waiting (cfg : Config) (m : Master) : (readClock cfg m).waiting = m.waiting := by simp [readClock]
@[simp] theorem readClock_hist (cfg : Config) (m : Master) : (readClock cfg m).hist = m.hist := by simp [readClock]
@[simp] theorem readClock_csrIn (cfg : Config) (m : Master) : (readClock cfg m).csrIn = m.csrIn := by simp [readClock]
@[simp] theorem readClock_rspIn (cfg : Config) (m : Master) : (readClock cfg m).rspIn = m.rspIn := by simp [readClock]

/-! ### `record` -/

/-- The clock looks at nothing but itself and its free numbers. -/
theorem readClock_congr {cfg : Config} {a b : Master} (h1 : a.life = b.life) (h2 : a.time = b.time) (h3 : a.draws = b.draws)
    (h4 : a.nDraw = b.nDraw) : (readClock cfg a).time = (readClock cfg b).time ∧ (readClock cfg a).draws = (readClock cfg b).draws ∧
      (readClock cfg a).nDraw = (readClock cfg b).nDraw := by
  simp only [readClock, advanceTime, drawn, afterDraw, h1, h2, h3, h4]
  split <;> (try split) <;> simp_all

@[simp] theorem readClock_csrInSet_time (cfg : Config) (m : Master) (l : List Word) :
    (readClock cfg { m with csrIn := l }).time = (readClock cfg m).time := (readClock_congr (cfg := cfg) (a := { m with csrIn := l }) (b := m) rfl rfl rfl rfl).1

@[simp] theorem readClock_csrInSet_draws (cfg : Config) (m : Master) (l : List Word) :
    (readClock cfg { m with csrIn := l }).draws = (readClock cfg m).draws := (readClock_congr (cfg := cfg) (a := { m with csrIn := l }) (b := m) rfl rfl rfl rfl).2.1

@[simp] theorem readClock_csrInSet_nDraw (cfg : Config) (m : Master) (l : List Word) :
    (readClock cfg { m with csrIn := l }).nDraw = (readClock cfg m).nDraw := (readClock_congr (cfg := cfg) (a := { m with csrIn := l }) (b := m) rfl rfl rfl rfl).2.2

@[simp] theorem readClock_rspInSet_time (cfg : Config) (m : Master) (l : List Word) :
    (readClock cfg { m with rspIn := l }).time = (readClock cfg m).time := (readClock_congr (cfg := cfg) (a := { m with rspIn := l }) (b := m) rfl rfl rfl rfl).1

@[simp] theorem readClock_rspInSet_draws (cfg : Config) (m : Master) (l : List Word) :
    (readClock cfg { m with rspIn := l }).draws = (readClock cfg m).draws := (readClock_congr (cfg := cfg) (a := { m with rspIn := l }) (b := m) rfl rfl rfl rfl).2.1

@[simp] theorem readClock_rspInSet_nDraw (cfg : Config) (m : Master) (l : List Word) :
    (readClock cfg { m with rspIn := l }).nDraw = (readClock cfg m).nDraw := (readClock_congr (cfg := cfg) (a := { m with rspIn := l }) (b := m) rfl rfl rfl rfl).2.2

@[simp] theorem record_id (cfg : Config) (ev : Nat → Event) (m : Master) : (record cfg ev m).id = m.id := by simp [record]
@[simp] theorem record_life (cfg : Config) (ev : Nat → Event) (m : Master) : (record cfg ev m).life = m.life := by simp [record]
@[simp] theorem record_base (cfg : Config) (ev : Nat → Event) (m : Master) : (record cfg ev m).base = m.base := by simp [record]
@[simp] theorem record_busCount (cfg : Config) (ev : Nat → Event) (m : Master) : (record cfg ev m).busCount = m.busCount := by simp [record]
@[simp] theorem record_lock (cfg : Config) (ev : Nat → Event) (m : Master) : (record cfg ev m).lock = m.lock := by simp [record]
@[simp] theorem record_rid (cfg : Config) (ev : Nat → Event) (m : Master) : (record cfg ev m).rid = m.rid := by simp [record]
@[simp] theorem record_mc (cfg : Config) (ev : Nat → Event) (m : Master) : (record cfg ev m).mc = m.mc := by simp [record]
@[simp] theorem record_buses (cfg : Config) (ev : Nat → Event) (m : Master) : (record cfg ev m).buses = m.buses := by simp [record]
@[simp] theorem record_pc (cfg : Config) (ev : Nat → Event) (m : Master) : (record cfg ev m).pc = m.pc := by simp [record]
@[simp] theorem record_spot (cfg : Config) (ev : Nat → Event) (m : Master) : (record cfg ev m).spot = m.spot := by simp [record]
@[simp] theorem record_bare (cfg : Config) (ev : Nat → Event) (m : Master) : (record cfg ev m).bare = m.bare := by simp [record]
@[simp] theorem record_i (cfg : Config) (ev : Nat → Event) (m : Master) : (record cfg ev m).i = m.i := by simp [record]
@[simp] theorem record_j (cfg : Config) (ev : Nat → Event) (m : Master) : (record cfg ev m).j = m.j := by simp [record]
@[simp] theorem record_ad (cfg : Config) (ev : Nat → Event) (m : Master) : (record cfg ev m).ad = m.ad := by simp [record]
@[simp] theorem record_ss (cfg : Config) (ev : Nat → Event) (m : Master) : (record cfg ev m).ss = m.ss := by simp [record]
@[simp] theorem record_k (cfg : Config) (ev : Nat → Event) (m : Master) : (record cfg ev m).k = m.k := by simp [record]
@[simp] theorem record_e (cfg : Config) (ev : Nat → Event) (m : Master) : (record cfg ev m).e = m.e := by simp [record]
@[simp] theorem record_rem (cfg : Config) (ev : Nat → Event) (m : Master) : (record cfg ev m).rem = m.rem := by simp [record]
@[simp] theorem record_err (cfg : Config) (ev : Nat → Event) (m : Master) : (record cfg ev m).err = m.err := by simp [record]
@[simp] theorem record_cs (cfg : Config) (ev : Nat → Event) (m : Master) : (record cfg ev m).cs = m.cs := by simp [record]
@[simp] theorem record_ver (cfg : Config) (ev : Nat → Event) (m : Master) : (record cfg ev m).ver = m.ver := by simp [record]
@[simp] theorem record_fsz (cfg : Config) (ev : Nat → Event) (m : Master) : (record cfg ev m).fsz = m.fsz := by simp [record]
@[simp] theorem record_nAnn (cfg : Config) (ev : Nat → Event) (m : Master) : (record cfg ev m).nAnn = m.nAnn := by simp [record]
@[simp] theorem record_tLast (cfg : Config) (ev : Nat → Event) (m : Master) : (record cfg ev m).tLast = m.tLast := by simp [record]
@[simp] theorem record_prev (cfg : Config) (ev : Nat → Event) (m : Master) : (record cfg ev m).prev = m.prev := by simp [record]
@[simp] theorem record_bus (cfg : Config) (ev : Nat → Event) (m : Master) : (record cfg ev m).bus = m.bus := by simp [record]
@[simp] theorem record_msgs (cfg : Config) (ev : Nat → Event) (m : Master) : (record cfg ev m).msgs = m.msgs := by simp [record]
@[simp] theorem record_diag (cfg : Config) (ev : Nat → Event) (m : Master) : (record cfg ev m).diag = m.diag := by simp [record]
@[simp] theorem record_waiting (cfg : Config) (ev : Nat → Event) (m : Master) : (record cfg ev m).waiting = m.waiting := by simp [record]
@[simp] theorem record_time (cfg : Config) (ev : Nat → Event) (m : Master) : (record cfg ev m).time = (readClock cfg m).time := by simp [record]
@[simp] theorem record_hist (cfg : Config) (ev : Nat → Event) (m : Master) : (record cfg ev m).hist = m.hist ++ [ev (readClock cfg m).time] := by simp [record]
@[simp] theorem record_csrIn (cfg : Config) (ev : Nat → Event) (m : Master) : (record cfg ev m).csrIn = m.csrIn := by simp [record]
@[simp] theorem record_rspIn (cfg : Config) (ev : Nat → Event) (m : Master) : (record cfg ev m).rspIn = m.rspIn := by simp [record]
@[simp] theorem record_draws (cfg : Config) (ev : Nat → Event) (m : Master) : (record cfg ev m).draws = (readClock cfg m).draws := by simp [record]
@[simp] theorem record_nDraw (cfg : Config) (ev : Nat → Event) (m : Master) : (record cfg ev m).nDraw = (readClock cfg m).nDraw := by simp [record]

/-! ### `csrReadIs` -/

@[simp] theorem csrReadIs_id (cfg : Config) (w : Word) (m : Master) : (csrReadIs cfg w m).id = m.id := by simp [csrReadIs]
@[simp] theorem csrReadIs_life (cfg : Config) (w : Word) (m : Master) : (csrReadIs cfg w m).life = m.life := by simp [csrReadIs]
@[simp] theorem csrReadIs_base (cfg : Config) (w : Word) (m : Master) : (csrReadIs cfg w m).base = m.base := by simp [csrReadIs]
@[simp] theorem csrReadIs_busCount (cfg : Config) (w : Word) (m : Master) : (csrReadIs cfg w m).busCount = m.busCount := by simp [csrReadIs]
@[simp] theorem csrReadIs_lock (cfg : Config) (w : Word) (m : Master) : (csrReadIs cfg w m).lock = m.lock := by simp [csrReadIs]
@[simp] theorem csrReadIs_rid (cfg : Config) (w : Word) (m : Master) : (csrReadIs cfg w m).rid = m.rid := by simp [csrReadIs]
@[simp] theorem csrReadIs_mc (cfg : Config) (w : Word) (m : Master) : (csrReadIs cfg w m).mc = m.mc := by simp [csrReadIs]
@[simp] theorem csrReadIs_buses (cfg : Config) (w : Word) (m : Master) : (csrReadIs cfg w m).buses = m.buses := by simp [csrReadIs]
@[simp] theorem csrReadIs_pc (cfg : Config) (w : Word) (m : Master) : (csrReadIs cfg w m).pc = m.pc := by simp [csrReadIs]
@[simp] theorem csrReadIs_spot (cfg : Config) (w : Word) (m : Master) : (csrReadIs cfg w m).spot = m.spot := by simp [csrReadIs]
@[simp] theorem csrReadIs_bare (cfg : Config) (w : Word) (m : Master) : (csrReadIs cfg w m).bare = m.bare := by simp [csrReadIs]
@[simp] theorem csrReadIs_i (cfg : Config) (w : Word) (m : Master) : (csrReadIs cfg w m).i = m.i := by simp [csrReadIs]
@[simp] theorem csrReadIs_j (cfg : Config) (w : Word) (m : Master) : (csrReadIs cfg w m).j = m.j := by simp [csrReadIs]
@[simp] theorem csrReadIs_ad (cfg : Config) (w : Word) (m : Master) : (csrReadIs cfg w m).ad = m.ad := by simp [csrReadIs]
@[simp] theorem csrReadIs_ss (cfg : Config) (w : Word) (m : Master) : (csrReadIs cfg w m).ss = m.ss := by simp [csrReadIs]
@[simp] theorem csrReadIs_k (cfg : Config) (w : Word) (m : Master) : (csrReadIs cfg w m).k = m.k := by simp [csrReadIs]
@[simp] theorem csrReadIs_e (cfg : Config) (w : Word) (m : Master) : (csrReadIs cfg w m).e = m.e := by simp [csrReadIs]
@[simp] theorem csrReadIs_rem (cfg : Config) (w : Word) (m : Master) : (csrReadIs cfg w m).rem = m.rem := by simp [csrReadIs]
@[simp] theorem csrReadIs_err (cfg : Config) (w : Word) (m : Master) : (csrReadIs cfg w m).err = m.err := by simp [csrReadIs]
@[simp] theorem csrReadIs_cs (cfg : Config) (w : Word) (m : Master) : (csrReadIs cfg w m).cs = m.cs := by simp [csrReadIs]
@[simp] theorem csrReadIs_ver (cfg : Config) (w : Word) (m : Master) : (csrReadIs cfg w m).ver = m.ver := by simp [csrReadIs]
@[simp] theorem csrReadIs_fsz (cfg : Config) (w : Word) (m : Master) : (csrReadIs cfg w m).fsz = m.fsz := by simp [csrReadIs]
@[simp] theorem csrReadIs_nAnn (cfg : Config) (w : Word) (m : Master) : (csrReadIs cfg w m).nAnn = m.nAnn := by simp [csrReadIs]
@[simp] theorem csrReadIs_tLast (cfg : Config) (w : Word) (m : Master) : (csrReadIs cfg w m).tLast = m.tLast := by simp [csrReadIs]
@[simp] theorem csrReadIs_prev (cfg : Config) (w : Word) (m : Master) : (csrReadIs cfg w m).prev = m.prev := by simp [csrReadIs]
@[simp] theorem csrReadIs_bus (cfg : Config) (w : Word) (m : Master) : (csrReadIs cfg w m).bus = m.bus := by simp [csrReadIs]
@[simp] theorem csrReadIs_msgs (cfg : Config) (w : Word) (m : Master) : (csrReadIs cfg w m).msgs = m.msgs := by simp [csrReadIs]
@[simp] theorem csrReadIs_diag (cfg : Config) (w : Word) (m : Master) : (csrReadIs cfg w m).diag = m.diag := by simp [csrReadIs]
@[simp] theorem csrReadIs_waiting (cfg : Config) (w : Word) (m : Master) : (csrReadIs cfg w m).waiting = m.waiting := by simp [csrReadIs]
@[simp] theorem csrReadIs_time (cfg : Config) (w : Word) (m : Master) : (csrReadIs cfg w m).time = (readClock cfg m).time := by simp [csrReadIs]
@[simp] theorem csrReadIs_hist (cfg : Config) (w : Word) (m : Master) : (csrReadIs cfg w m).hist = m.hist ++ [.read (csrAddr cfg m) w (readClock cfg m).time] := by simp [csrReadIs]
@[simp] theorem csrReadIs_csrIn (cfg : Config) (w : Word) (m : Master) : (csrReadIs cfg w m).csrIn = m.csrIn := by simp [csrReadIs]
@[simp] theorem csrReadIs_rspIn (cfg : Config) (w : Word) (m : Master) : (csrReadIs cfg w m).rspIn = m.rspIn := by simp [csrReadIs]
@[simp] theorem csrReadIs_draws (cfg : Config) (w : Word) (m : Master) : (csrReadIs cfg w m).draws = (readClock cfg m).draws := by simp [csrReadIs]
@[simp] theorem csrReadIs_nDraw (cfg : Config) (w : Word) (m : Master) : (csrReadIs cfg w m).nDraw = (readClock cfg m).nDraw := by simp [csrReadIs]

/-! ### `rspReadIs` -/

@[simp] theorem rspReadIs_id (cfg : Config) (w : Word) (m : Master) : (rspReadIs cfg w m).id = m.id := by simp [rspReadIs]
@[simp] theorem rspReadIs_life (cfg : Config) (w : Word) (m : Master) : (rspReadIs cfg w m).life = m.life := by simp [rspReadIs]
@[simp] theorem rspReadIs_base (cfg : Config) (w : Word) (m : Master) : (rspReadIs cfg w m).base = m.base := by simp [rspReadIs]
@[simp] theorem rspReadIs_busCount (cfg : Config) (w : Word) (m : Master) : (rspReadIs cfg w m).busCount = m.busCount := by simp [rspReadIs]
@[simp] theorem rspReadIs_lock (cfg : Config) (w : Word) (m : Master) : (rspReadIs cfg w m).lock = m.lock := by simp [rspReadIs]
@[simp] theorem rspReadIs_rid (cfg : Config) (w : Word) (m : Master) : (rspReadIs cfg w m).rid = m.rid := by simp [rspReadIs]
@[simp] theorem rspReadIs_mc (cfg : Config) (w : Word) (m : Master) : (rspReadIs cfg w m).mc = m.mc := by simp [rspReadIs]
@[simp] theorem rspReadIs_buses (cfg : Config) (w : Word) (m : Master) : (rspReadIs cfg w m).buses = m.buses := by simp [rspReadIs]
@[simp] theorem rspReadIs_pc (cfg : Config) (w : Word) (m : Master) : (rspReadIs cfg w m).pc = m.pc := by simp [rspReadIs]
@[simp] theorem rspReadIs_spot (cfg : Config) (w : Word) (m : Master) : (rspReadIs cfg w m).spot = m.spot := by simp [rspReadIs]
@[simp] theorem rspReadIs_bare (cfg : Config) (w : Word) (m : Master) : (rspReadIs cfg w m).bare = m.bare := by simp [rspReadIs]
@[simp] theorem rspReadIs_i (cfg : Config) (w : Word) (m : Master) : (rspReadIs cfg w m).i = m.i := by simp [rspReadIs]
@[simp] theorem rspReadIs_j (cfg : Config) (w : Word) (m : Master) : (rspReadIs cfg w m).j = m.j := by simp [rspReadIs]
@[simp] theorem rspReadIs_ad (cfg : Config) (w : Word) (m : Master) : (rspReadIs cfg w m).ad = m.ad := by simp [rspReadIs]
@[simp] theorem rspReadIs_ss (cfg : Config) (w : Word) (m : Master) : (rspReadIs cfg w m).ss = m.ss := by simp [rspReadIs]
@[simp] theorem rspReadIs_k (cfg : Config) (w : Word) (m : Master) : (rspReadIs cfg w m).k = m.k := by simp [rspReadIs]
@[simp] theorem rspReadIs_e (cfg : Config) (w : Word) (m : Master) : (rspReadIs cfg w m).e = m.e := by simp [rspReadIs]
@[simp] theorem rspReadIs_rem (cfg : Config) (w : Word) (m : Master) : (rspReadIs cfg w m).rem = m.rem := by simp [rspReadIs]
@[simp] theorem rspReadIs_err (cfg : Config) (w : Word) (m : Master) : (rspReadIs cfg w m).err = m.err := by simp [rspReadIs]
@[simp] theorem rspReadIs_cs (cfg : Config) (w : Word) (m : Master) : (rspReadIs cfg w m).cs = m.cs := by simp [rspReadIs]
@[simp] theorem rspReadIs_ver (cfg : Config) (w : Word) (m : Master) : (rspReadIs cfg w m).ver = m.ver := by simp [rspReadIs]
@[simp] theorem rspReadIs_fsz (cfg : Config) (w : Word) (m : Master) : (rspReadIs cfg w m).fsz = m.fsz := by simp [rspReadIs]
@[simp] theorem rspReadIs_nAnn (cfg : Config) (w : Word) (m : Master) : (rspReadIs cfg w m).nAnn = m.nAnn := by simp [rspReadIs]
@[simp] theorem rspReadIs_tLast (cfg : Config) (w : Word) (m : Master) : (rspReadIs cfg w m).tLast = m.tLast := by simp [rspReadIs]
@[simp] theorem rspReadIs_prev (cfg : Config) (w : Word) (m : Master) : (rspReadIs cfg w m).prev = m.prev := by simp [rspReadIs]
@[simp] theorem rspReadIs_bus (cfg : Config) (w : Word) (m : Master) : (rspReadIs cfg w m).bus = m.bus := by simp [rspReadIs]
@[simp] theorem rspReadIs_msgs (cfg : Config) (w : Word) (m : Master) : (rspReadIs cfg w m).msgs = m.msgs := by simp [rspReadIs]
@[simp] theorem rspReadIs_diag (cfg : Config) (w : Word) (m : Master) : (rspReadIs cfg w m).diag = m.diag := by simp [rspReadIs]
@[simp] theorem rspReadIs_waiting (cfg : Config) (w : Word) (m : Master) : (rspReadIs cfg w m).waiting = m.waiting := by simp [rspReadIs]
@[simp] theorem rspReadIs_time (cfg : Config) (w : Word) (m : Master) : (rspReadIs cfg w m).time = (readClock cfg m).time := by simp [rspReadIs]
@[simp] theorem rspReadIs_hist (cfg : Config) (w : Word) (m : Master) : (rspReadIs cfg w m).hist = m.hist ++ [.read (rspAddr cfg m) w (readClock cfg m).time] := by simp [rspReadIs]
@[simp] theorem rspReadIs_csrIn (cfg : Config) (w : Word) (m : Master) : (rspReadIs cfg w m).csrIn = m.csrIn := by simp [rspReadIs]
@[simp] theorem rspReadIs_rspIn (cfg : Config) (w : Word) (m : Master) : (rspReadIs cfg w m).rspIn = m.rspIn := by simp [rspReadIs]
@[simp] theorem rspReadIs_draws (cfg : Config) (w : Word) (m : Master) : (rspReadIs cfg w m).draws = (readClock cfg m).draws := by simp [rspReadIs]
@[simp] theorem rspReadIs_nDraw (cfg : Config) (w : Word) (m : Master) : (rspReadIs cfg w m).nDraw = (readClock cfg m).nDraw := by simp [rspReadIs]

/-! ### `readCsr` -/

@[simp] theorem readCsr_id (cfg : Config) (m : Master) : (readCsr cfg m).id = m.id := by simp [readCsr, csrAddr]
@[simp] theorem readCsr_life (cfg : Config) (m : Master) : (readCsr cfg m).life = m.life := by simp [readCsr, csrAddr]
@[simp] theorem readCsr_base (cfg : Config) (m : Master) : (readCsr cfg m).base = m.base := by simp [readCsr, csrAddr]
@[simp] theorem readCsr_busCount (cfg : Config) (m : Master) : (readCsr cfg m).busCount = m.busCount := by simp [readCsr, csrAddr]
@[simp] theorem readCsr_lock (cfg : Config) (m : Master) : (readCsr cfg m).lock = m.lock := by simp [readCsr, csrAddr]
@[simp] theorem readCsr_rid (cfg : Config) (m : Master) : (readCsr cfg m).rid = m.rid := by simp [readCsr, csrAddr]
@[simp] theorem readCsr_mc (cfg : Config) (m : Master) : (readCsr cfg m).mc = m.mc := by simp [readCsr, csrAddr]
@[simp] theorem readCsr_buses (cfg : Config) (m : Master) : (readCsr cfg m).buses = m.buses := by simp [readCsr, csrAddr]
@[simp] theorem readCsr_pc (cfg : Config) (m : Master) : (readCsr cfg m).pc = m.pc := by simp [readCsr, csrAddr]
@[simp] theorem readCsr_spot (cfg : Config) (m : Master) : (readCsr cfg m).spot = m.spot := by simp [readCsr, csrAddr]
@[simp] theorem readCsr_bare (cfg : Config) (m : Master) : (readCsr cfg m).bare = m.bare := by simp [readCsr, csrAddr]
@[simp] theorem readCsr_i (cfg : Config) (m : Master) : (readCsr cfg m).i = m.i := by simp [readCsr, csrAddr]
@[simp] theorem readCsr_j (cfg : Config) (m : Master) : (readCsr cfg m).j = m.j := by simp [readCsr, csrAddr]
@[simp] theorem readCsr_ad (cfg : Config) (m : Master) : (readCsr cfg m).ad = m.ad := by simp [readCsr, csrAddr]
@[simp] theorem readCsr_ss (cfg : Config) (m : Master) : (readCsr cfg m).ss = m.ss := by simp [readCsr, csrAddr]
@[simp] theorem readCsr_k (cfg : Config) (m : Master) : (readCsr cfg m).k = m.k := by simp [readCsr, csrAddr]
@[simp] theorem readCsr_e (cfg : Config) (m : Master) : (readCsr cfg m).e = m.e := by simp [readCsr, csrAddr]
@[simp] theorem readCsr_rem (cfg : Config) (m : Master) : (readCsr cfg m).rem = m.rem := by simp [readCsr, csrAddr]
@[simp] theorem readCsr_err (cfg : Config) (m : Master) : (readCsr cfg m).err = m.err := by simp [readCsr, csrAddr]
@[simp] theorem readCsr_cs (cfg : Config) (m : Master) : (readCsr cfg m).cs = m.cs := by simp [readCsr, csrAddr]
@[simp] theorem readCsr_ver (cfg : Config) (m : Master) : (readCsr cfg m).ver = m.ver := by simp [readCsr, csrAddr]
@[simp] theorem readCsr_fsz (cfg : Config) (m : Master) : (readCsr cfg m).fsz = m.fsz := by simp [readCsr, csrAddr]
@[simp] theorem readCsr_nAnn (cfg : Config) (m : Master) : (readCsr cfg m).nAnn = m.nAnn := by simp [readCsr, csrAddr]
@[simp] theorem readCsr_tLast (cfg : Config) (m : Master) : (readCsr cfg m).tLast = m.tLast := by simp [readCsr, csrAddr]
@[simp] theorem readCsr_prev (cfg : Config) (m : Master) : (readCsr cfg m).prev = m.prev := by simp [readCsr, csrAddr]
@[simp] theorem readCsr_bus (cfg : Config) (m : Master) : (readCsr cfg m).bus = m.bus := by simp [readCsr, csrAddr]
@[simp] theorem readCsr_msgs (cfg : Config) (m : Master) : (readCsr cfg m).msgs = m.msgs := by simp [readCsr, csrAddr]
@[simp] theorem readCsr_diag (cfg : Config) (m : Master) : (readCsr cfg m).diag = m.diag := by simp [readCsr, csrAddr]
@[simp] theorem readCsr_waiting (cfg : Config) (m : Master) : (readCsr cfg m).waiting = m.waiting := by simp [readCsr, csrAddr]
@[simp] theorem readCsr_time (cfg : Config) (m : Master) : (readCsr cfg m).time = (readClock cfg m).time := by simp [readCsr, csrAddr]
@[simp] theorem readCsr_hist (cfg : Config) (m : Master) : (readCsr cfg m).hist = m.hist ++ [.read (csrAddr cfg m) (csrAnswer m) (readClock cfg m).time] := by simp [readCsr, csrAddr]
@[simp] theorem readCsr_csrIn (cfg : Config) (m : Master) : (readCsr cfg m).csrIn = m.csrIn.tail := by simp [readCsr, csrAddr]
@[simp] theorem readCsr_rspIn (cfg : Config) (m : Master) : (readCsr cfg m).rspIn = m.rspIn := by simp [readCsr, csrAddr]
@[simp] theorem readCsr_draws (cfg : Config) (m : Master) : (readCsr cfg m).draws = (readClock cfg m).draws := by simp [readCsr, csrAddr]
@[simp] theorem readCsr_nDraw (cfg : Config) (m : Master) : (readCsr cfg m).nDraw = (readClock cfg m).nDraw := by simp [readCsr, csrAddr]

/-! ### `fetchStatus` -/

@[simp] theorem fetchStatus_id (cfg : Config) (m : Master) : (fetchStatus cfg m).id = m.id := by simp [fetchStatus]
@[simp] theorem fetchStatus_life (cfg : Config) (m : Master) : (fetchStatus cfg m).life = m.life := by simp [fetchStatus]
@[simp] theorem fetchStatus_base (cfg : Config) (m : Master) : (fetchStatus cfg m).base = m.base := by simp [fetchStatus]
@[simp] theorem fetchStatus_busCount (cfg : Config) (m : Master) : (fetchStatus cfg m).busCount = m.busCount := by simp [fetchStatus]
@[simp] theorem fetchStatus_lock (cfg : Config) (m : Master) : (fetchStatus cfg m).lock = m.lock := by simp [fetchStatus]
@[simp] theorem fetchStatus_rid (cfg : Config) (m : Master) : (fetchStatus cfg m).rid = m.rid := by simp [fetchStatus]
@[simp] theorem fetchStatus_mc (cfg : Config) (m : Master) : (fetchStatus cfg m).mc = m.mc := by simp [fetchStatus]
@[simp] theorem fetchStatus_buses (cfg : Config) (m : Master) : (fetchStatus cfg m).buses = m.buses := by simp [fetchStatus]
@[simp] theorem fetchStatus_pc (cfg : Config) (m : Master) : (fetchStatus cfg m).pc = m.pc := by simp [fetchStatus]
@[simp] theorem fetchStatus_spot (cfg : Config) (m : Master) : (fetchStatus cfg m).spot = m.spot := by simp [fetchStatus]
@[simp] theorem fetchStatus_bare (cfg : Config) (m : Master) : (fetchStatus cfg m).bare = m.bare := by simp [fetchStatus]
@[simp] theorem fetchStatus_i (cfg : Config) (m : Master) : (fetchStatus cfg m).i = m.i := by simp [fetchStatus]
@[simp] theorem fetchStatus_j (cfg : Config) (m : Master) : (fetchStatus cfg m).j = m.j := by simp [fetchStatus]
@[simp] theorem fetchStatus_ad (cfg : Config) (m : Master) : (fetchStatus cfg m).ad = m.ad := by simp [fetchStatus]
@[simp] theorem fetchStatus_ss (cfg : Config) (m : Master) : (fetchStatus cfg m).ss = m.ss := by simp [fetchStatus]
@[simp] theorem fetchStatus_k (cfg : Config) (m : Master) : (fetchStatus cfg m).k = m.k := by simp [fetchStatus]
@[simp] theorem fetchStatus_e (cfg : Config) (m : Master) : (fetchStatus cfg m).e = m.e := by simp [fetchStatus]
@[simp] theorem fetchStatus_rem (cfg : Config) (m : Master) : (fetchStatus cfg m).rem = m.rem := by simp [fetchStatus]
@[simp] theorem fetchStatus_err (cfg : Config) (m : Master) : (fetchStatus cfg m).err = m.err := by simp [fetchStatus]
@[simp] theorem fetchStatus_cs (cfg : Config) (m : Master) : (fetchStatus cfg m).cs = csrNow cfg m := by simp [fetchStatus]
@[simp] theorem fetchStatus_ver (cfg : Config) (m : Master) : (fetchStatus cfg m).ver = m.ver := by simp [fetchStatus]
@[simp] theorem fetchStatus_fsz (cfg : Config) (m : Master) : (fetchStatus cfg m).fsz = m.fsz := by simp [fetchStatus]
@[simp] theorem fetchStatus_nAnn (cfg : Config) (m : Master) : (fetchStatus cfg m).nAnn = m.nAnn := by simp [fetchStatus]
@[simp] theorem fetchStatus_tLast (cfg : Config) (m : Master) : (fetchStatus cfg m).tLast = m.tLast := by simp [fetchStatus]
@[simp] theorem fetchStatus_prev (cfg : Config) (m : Master) : (fetchStatus cfg m).prev = m.prev := by simp [fetchStatus]
@[simp] theorem fetchStatus_bus (cfg : Config) (m : Master) : (fetchStatus cfg m).bus = m.bus := by simp [fetchStatus]
@[simp] theorem fetchStatus_msgs (cfg : Config) (m : Master) : (fetchStatus cfg m).msgs = m.msgs := by simp [fetchStatus]
@[simp] theorem fetchStatus_diag (cfg : Config) (m : Master) : (fetchStatus cfg m).diag = m.diag := by simp [fetchStatus]
@[simp] theorem fetchStatus_waiting (cfg : Config) (m : Master) : (fetchStatus cfg m).waiting = m.waiting := by simp [fetchStatus]
@[simp] theorem fetchStatus_time (cfg : Config) (m : Master) : (fetchStatus cfg m).time = (readClock cfg m).time := by simp [fetchStatus]
@[simp] theorem fetchStatus_hist (cfg : Config) (m : Master) : (fetchStatus cfg m).hist = m.hist ++ [.read (csrAddr cfg m) (csrAnswer m) (readClock cfg m).time] := by simp [fetchStatus]
@[simp] theorem fetchStatus_csrIn (cfg : Config) (m : Master) : (fetchStatus cfg m).csrIn = m.csrIn.tail := by simp [fetchStatus]
@[simp] theorem fetchStatus_rspIn (cfg : Config) (m : Master) : (fetchStatus cfg m).rspIn = m.rspIn := by simp [fetchStatus]
@[simp] theorem fetchStatus_draws (cfg : Config) (m : Master) : (fetchStatus cfg m).draws = (readClock cfg m).draws := by simp [fetchStatus]
@[simp] theorem fetchStatus_nDraw (cfg : Config) (m : Master) : (fetchStatus cfg m).nDraw = (readClock cfg m).nDraw := by simp [fetchStatus]

/-! ### `readRsp` -/

@[simp] theorem readRsp_id (cfg : Config) (m : Master) : (readRsp cfg m).id = m.id := by simp [readRsp, rspAddr]
@[simp] theorem readRsp_life (cfg : Config) (m : Master) : (readRsp cfg m).life = m.life := by simp [readRsp, rspAddr]
@[simp] theorem readRsp_base (cfg : Config) (m : Master) : (readRsp cfg m).base = m.base := by simp [readRsp, rspAddr]
@[simp] theorem readRsp_busCount (cfg : Config) (m : Master) : (readRsp cfg m).busCount = m.busCount := by simp [readRsp, rspAddr]
@[simp] theorem readRsp_lock (cfg : Config) (m : Master) : (readRsp cfg m).lock = m.lock := by simp [readRsp, rspAddr]
@[simp] theorem readRsp_rid (cfg : Config) (m : Master) : (readRsp cfg m).rid = m.rid := by simp [readRsp, rspAddr]
@[simp] theorem readRsp_mc (cfg : Config) (m : Master) : (readRsp cfg m).mc = m.mc := by simp [readRsp, rspAddr]
@[simp] theorem readRsp_buses (cfg : Config) (m : Master) : (readRsp cfg m).buses = m.buses := by simp [readRsp, rspAddr]
@[simp] theorem readRsp_pc (cfg : Config) (m : Master) : (readRsp cfg m).pc = m.pc := by simp [readRsp, rspAddr]
@[simp] theorem readRsp_spot (cfg : Config) (m : Master) : (readRsp cfg m).spot = m.spot := by simp [readRsp, rspAddr]
@[simp] theorem readRsp_bare (cfg : Config) (m : Master) : (readRsp cfg m).bare = m.bare := by simp [readRsp, rspAddr]
@[simp] theorem readRsp_i (cfg : Config) (m : Master) : (readRsp cfg m).i = m.i := by simp [readRsp, rspAddr]
@[simp] theorem readRsp_j (cfg : Config) (m : Master) : (readRsp cfg m).j = m.j := by simp [readRsp, rspAddr]
@[simp] theorem readRsp_ad (cfg : Config) (m : Master) : (readRsp cfg m).ad = m.ad := by simp [readRsp, rspAddr]
@[simp] theorem readRsp_ss (cfg : Config) (m : Master) : (readRsp cfg m).ss = m.ss := by simp [readRsp, rspAddr]
@[simp] theorem readRsp_k (cfg : Config) (m : Master) : (readRsp cfg m).k = m.k := by simp [readRsp, rspAddr]
@[simp] theorem readRsp_e (cfg : Config) (m : Master) : (readRsp cfg m).e = m.e := by simp [readRsp, rspAddr]
@[simp] theorem readRsp_rem (cfg : Config) (m : Master) : (readRsp cfg m).rem = m.rem := by simp [readRsp, rspAddr]
@[simp] theorem readRsp_err (cfg : Config) (m : Master) : (readRsp cfg m).err = m.err := by simp [readRsp, rspAddr]
@[simp] theorem readRsp_cs (cfg : Config) (m : Master) : (readRsp cfg m).cs = m.cs := by simp [readRsp, rspAddr]
@[simp] theorem readRsp_ver (cfg : Config) (m : Master) : (readRsp cfg m).ver = m.ver := by simp [readRsp, rspAddr]
@[simp] theorem readRsp_fsz (cfg : Config) (m : Master) : (readRsp cfg m).fsz = m.fsz := by simp [readRsp, rspAddr]
@[simp] theorem readRsp_nAnn (cfg : Config) (m : Master) : (readRsp cfg m).nAnn = m.nAnn := by simp [readRsp, rspAddr]
@[simp] theorem readRsp_tLast (cfg : Config) (m : Master) : (readRsp cfg m).tLast = m.tLast := by simp [readRsp, rspAddr]
@[simp] theorem readRsp_prev (cfg : Config) (m : Master) : (readRsp cfg m).prev = m.prev := by simp [readRsp, rspAddr]
@[simp] theorem readRsp_bus (cfg : Config) (m : Master) : (readRsp cfg m).bus = m.bus := by simp [readRsp, rspAddr]
@[simp] theorem readRsp_msgs (cfg : Config) (m : Master) : (readRsp cfg m).msgs = m.msgs := by simp [readRsp, rspAddr]
@[simp] theorem readRsp_diag (cfg : Config) (m : Master) : (readRsp cfg m).diag = m.diag := by simp [readRsp, rspAddr]
@[simp] theorem readRsp_waiting (cfg : Config) (m : Master) : (readRsp cfg m).waiting = m.waiting := by simp [readRsp, rspAddr]
@[simp] theorem readRsp_time (cfg : Config) (m : Master) : (readRsp cfg m).time = (readClock cfg m).time := by simp [readRsp, rspAddr]
@[simp] theorem readRsp_hist (cfg : Config) (m : Master) : (readRsp cfg m).hist = m.hist ++ [.read (rspAddr cfg m) (rspAnswer m) (readClock cfg m).time] := by simp [readRsp, rspAddr]
@[simp] theorem readRsp_csrIn (cfg : Config) (m : Master) : (readRsp cfg m).csrIn = m.csrIn := by simp [readRsp, rspAddr]
@[simp] theorem readRsp_rspIn (cfg : Config) (m : Master) : (readRsp cfg m).rspIn = m.rspIn.tail := by simp [readRsp, rspAddr]
@[simp] theorem readRsp_draws (cfg : Config) (m : Master) : (readRsp cfg m).draws = (readClock cfg m).draws := by simp [readRsp, rspAddr]
@[simp] theorem readRsp_nDraw (cfg : Config) (m : Master) : (readRsp cfg m).nDraw = (readClock cfg m).nDraw := by simp [readRsp, rspAddr]

/-! ### `writeCsr` -/

@[simp] theorem writeCsr_id (cfg : Config) (c : Csr) (m : Master) : (writeCsr cfg c m).id = m.id := by simp [writeCsr]
@[simp] theorem writeCsr_life (cfg : Config) (c : Csr) (m : Master) : (writeCsr cfg c m).life = m.life := by simp [writeCsr]
@[simp] theorem writeCsr_base (cfg : Config) (c : Csr) (m : Master) : (writeCsr cfg c m).base = m.base := by simp [writeCsr]
@[simp] theorem writeCsr_busCount (cfg : Config) (c : Csr) (m : Master) : (writeCsr cfg c m).busCount = m.busCount := by simp [writeCsr]
@[simp] theorem writeCsr_lock (cfg : Config) (c : Csr) (m : Master) : (writeCsr cfg c m).lock = m.lock := by simp [writeCsr]
@[simp] theorem writeCsr_rid (cfg : Config) (c : Csr) (m : Master) : (writeCsr cfg c m).rid = m.rid := by simp [writeCsr]
@[simp] theorem writeCsr_mc (cfg : Config) (c : Csr) (m : Master) : (writeCsr cfg c m).mc = m.mc := by simp [writeCsr]
@[simp] theorem writeCsr_buses (cfg : Config) (c : Csr) (m : Master) : (writeCsr cfg c m).buses = m.buses := by simp [writeCsr]
@[simp] theorem writeCsr_pc (cfg : Config) (c : Csr) (m : Master) : (writeCsr cfg c m).pc = m.pc := by simp [writeCsr]
@[simp] theorem writeCsr_spot (cfg : Config) (c : Csr) (m : Master) : (writeCsr cfg c m).spot = m.spot := by simp [writeCsr]
@[simp] theorem writeCsr_bare (cfg : Config) (c : Csr) (m : Master) : (writeCsr cfg c m).bare = m.bare := by simp [writeCsr]
@[simp] theorem writeCsr_i (cfg : Config) (c : Csr) (m : Master) : (writeCsr cfg c m).i = m.i := by simp [writeCsr]
@[simp] theorem writeCsr_j (cfg : Config) (c : Csr) (m : Master) : (writeCsr cfg c m).j = m.j := by simp [writeCsr]
@[simp] theorem writeCsr_ad (cfg : Config) (c : Csr) (m : Master) : (writeCsr cfg c m).ad = m.ad := by simp [writeCsr]
@[simp] theorem writeCsr_ss (cfg : Config) (c : Csr) (m : Master) : (writeCsr cfg c m).ss = m.ss := by simp [writeCsr]
@[simp] theorem writeCsr_k (cfg : Config) (c : Csr) (m : Master) : (writeCsr cfg c m).k = m.k := by simp [writeCsr]
@[simp] theorem writeCsr_e (cfg : Config) (c : Csr) (m : Master) : (writeCsr cfg c m).e = m.e := by simp [writeCsr]
@[simp] theorem writeCsr_rem (cfg : Config) (c : Csr) (m : Master) : (writeCsr cfg c m).rem = m.rem := by simp [writeCsr]
@[simp] theorem writeCsr_err (cfg : Config) (c : Csr) (m : Master) : (writeCsr cfg c m).err = m.err := by simp [writeCsr]
@[simp] theorem writeCsr_cs (cfg : Config) (c : Csr) (m : Master) : (writeCsr cfg c m).cs = m.cs := by simp [writeCsr]
@[simp] theorem writeCsr_ver (cfg : Config) (c : Csr) (m : Master) : (writeCsr cfg c m).ver = m.ver := by simp [writeCsr]
@[simp] theorem writeCsr_fsz (cfg : Config) (c : Csr) (m : Master) : (writeCsr cfg c m).fsz = m.fsz := by simp [writeCsr]
@[simp] theorem writeCsr_nAnn (cfg : Config) (c : Csr) (m : Master) : (writeCsr cfg c m).nAnn = m.nAnn := by simp [writeCsr]
@[simp] theorem writeCsr_tLast (cfg : Config) (c : Csr) (m : Master) : (writeCsr cfg c m).tLast = m.tLast := by simp [writeCsr]
@[simp] theorem writeCsr_prev (cfg : Config) (c : Csr) (m : Master) : (writeCsr cfg c m).prev = m.prev := by simp [writeCsr]
@[simp] theorem writeCsr_bus (cfg : Config) (c : Csr) (m : Master) : (writeCsr cfg c m).bus = m.bus := by simp [writeCsr]
@[simp] theorem writeCsr_msgs (cfg : Config) (c : Csr) (m : Master) : (writeCsr cfg c m).msgs = m.msgs := by simp [writeCsr]
@[simp] theorem writeCsr_diag (cfg : Config) (c : Csr) (m : Master) : (writeCsr cfg c m).diag = m.diag := by simp [writeCsr]
@[simp] theorem writeCsr_waiting (cfg : Config) (c : Csr) (m : Master) : (writeCsr cfg c m).waiting = m.waiting := by simp [writeCsr]
@[simp] theorem writeCsr_time (cfg : Config) (c : Csr) (m : Master) : (writeCsr cfg c m).time = (readClock cfg m).time := by simp [writeCsr]
@[simp] theorem writeCsr_hist (cfg : Config) (c : Csr) (m : Master) : (writeCsr cfg c m).hist = m.hist ++ [.write (csrAddr cfg m) (packCsr cfg.layout.csr c) (readClock cfg m).time] := by simp [writeCsr]
@[simp] theorem writeCsr_csrIn (cfg : Config) (c : Csr) (m : Master) : (writeCsr cfg c m).csrIn = m.csrIn := by simp [writeCsr]
@[simp] theorem writeCsr_rspIn (cfg : Config) (c : Csr) (m : Master) : (writeCsr cfg c m).rspIn = m.rspIn := by simp [writeCsr]
@[simp] theorem writeCsr_draws (cfg : Config) (c : Csr) (m : Master) : (writeCsr cfg c m).draws = (readClock cfg m).draws := by simp [writeCsr]
@[simp] theorem writeCsr_nDraw (cfg : Config) (c : Csr) (m : Master) : (writeCsr cfg c m).nDraw = (readClock cfg m).nDraw := by simp [writeCsr]

/-! ### `writeReq` -/

@[simp] theorem writeReq_id (cfg : Config) (w : Word) (m : Master) : (writeReq cfg w m).id = m.id := by simp [writeReq]
@[simp] theorem writeReq_life (cfg : Config) (w : Word) (m : Master) : (writeReq cfg w m).life = m.life := by simp [writeReq]
@[simp] theorem writeReq_base (cfg : Config) (w : Word) (m : Master) : (writeReq cfg w m).base = m.base := by simp [writeReq]
@[simp] theorem writeReq_busCount (cfg : Config) (w : Word) (m : Master) : (writeReq cfg w m).busCount = m.busCount := by simp [writeReq]
@[simp] theorem writeReq_lock (cfg : Config) (w : Word) (m : Master) : (writeReq cfg w m).lock = m.lock := by simp [writeReq]
@[simp] theorem writeReq_rid (cfg : Config) (w : Word) (m : Master) : (writeReq cfg w m).rid = m.rid := by simp [writeReq]
@[simp] theorem writeReq_mc (cfg : Config) (w : Word) (m : Master) : (writeReq cfg w m).mc = m.mc := by simp [writeReq]
@[simp] theorem writeReq_buses (cfg : Config) (w : Word) (m : Master) : (writeReq cfg w m).buses = m.buses := by simp [writeReq]
@[simp] theorem writeReq_pc (cfg : Config) (w : Word) (m : Master) : (writeReq cfg w m).pc = m.pc := by simp [writeReq]
@[simp] theorem writeReq_spot (cfg : Config) (w : Word) (m : Master) : (writeReq cfg w m).spot = m.spot := by simp [writeReq]
@[simp] theorem writeReq_bare (cfg : Config) (w : Word) (m : Master) : (writeReq cfg w m).bare = m.bare := by simp [writeReq]
@[simp] theorem writeReq_i (cfg : Config) (w : Word) (m : Master) : (writeReq cfg w m).i = m.i := by simp [writeReq]
@[simp] theorem writeReq_j (cfg : Config) (w : Word) (m : Master) : (writeReq cfg w m).j = m.j := by simp [writeReq]
@[simp] theorem writeReq_ad (cfg : Config) (w : Word) (m : Master) : (writeReq cfg w m).ad = m.ad := by simp [writeReq]
@[simp] theorem writeReq_ss (cfg : Config) (w : Word) (m : Master) : (writeReq cfg w m).ss = m.ss := by simp [writeReq]
@[simp] theorem writeReq_k (cfg : Config) (w : Word) (m : Master) : (writeReq cfg w m).k = m.k := by simp [writeReq]
@[simp] theorem writeReq_e (cfg : Config) (w : Word) (m : Master) : (writeReq cfg w m).e = m.e := by simp [writeReq]
@[simp] theorem writeReq_rem (cfg : Config) (w : Word) (m : Master) : (writeReq cfg w m).rem = m.rem := by simp [writeReq]
@[simp] theorem writeReq_err (cfg : Config) (w : Word) (m : Master) : (writeReq cfg w m).err = m.err := by simp [writeReq]
@[simp] theorem writeReq_cs (cfg : Config) (w : Word) (m : Master) : (writeReq cfg w m).cs = m.cs := by simp [writeReq]
@[simp] theorem writeReq_ver (cfg : Config) (w : Word) (m : Master) : (writeReq cfg w m).ver = m.ver := by simp [writeReq]
@[simp] theorem writeReq_fsz (cfg : Config) (w : Word) (m : Master) : (writeReq cfg w m).fsz = m.fsz := by simp [writeReq]
@[simp] theorem writeReq_nAnn (cfg : Config) (w : Word) (m : Master) : (writeReq cfg w m).nAnn = m.nAnn := by simp [writeReq]
@[simp] theorem writeReq_tLast (cfg : Config) (w : Word) (m : Master) : (writeReq cfg w m).tLast = m.tLast := by simp [writeReq]
@[simp] theorem writeReq_prev (cfg : Config) (w : Word) (m : Master) : (writeReq cfg w m).prev = m.prev := by simp [writeReq]
@[simp] theorem writeReq_bus (cfg : Config) (w : Word) (m : Master) : (writeReq cfg w m).bus = m.bus := by simp [writeReq]
@[simp] theorem writeReq_msgs (cfg : Config) (w : Word) (m : Master) : (writeReq cfg w m).msgs = m.msgs := by simp [writeReq]
@[simp] theorem writeReq_diag (cfg : Config) (w : Word) (m : Master) : (writeReq cfg w m).diag = m.diag := by simp [writeReq]
@[simp] theorem writeReq_waiting (cfg : Config) (w : Word) (m : Master) : (writeReq cfg w m).waiting = m.waiting := by simp [writeReq]
@[simp] theorem writeReq_time (cfg : Config) (w : Word) (m : Master) : (writeReq cfg w m).time = (readClock cfg m).time := by simp [writeReq]
@[simp] theorem writeReq_hist (cfg : Config) (w : Word) (m : Master) : (writeReq cfg w m).hist = m.hist ++ [.write (reqAddr cfg m) w (readClock cfg m).time] := by simp [writeReq]
@[simp] theorem writeReq_csrIn (cfg : Config) (w : Word) (m : Master) : (writeReq cfg w m).csrIn = m.csrIn := by simp [writeReq]
@[simp] theorem writeReq_rspIn (cfg : Config) (w : Word) (m : Master) : (writeReq cfg w m).rspIn = m.rspIn := by simp [writeReq]
@[simp] theorem writeReq_draws (cfg : Config) (w : Word) (m : Master) : (writeReq cfg w m).draws = (readClock cfg m).draws := by simp [writeReq]
@[simp] theorem writeReq_nDraw (cfg : Config) (w : Word) (m : Master) : (writeReq cfg w m).nDraw = (readClock cfg m).nDraw := by simp [writeReq]

/-! ### `fallAsleep` -/

@[simp] theorem fallAsleep_id (cfg : Config) (d : Nat) (m : Master) : (fallAsleep cfg d m).id = m.id := by simp [fallAsleep]
@[simp] theorem fallAsleep_life (cfg : Config) (d : Nat) (m : Master) : (fallAsleep cfg d m).life = m.life := by simp [fallAsleep]
@[simp] theorem fallAsleep_base (cfg : Config) (d : Nat) (m : Master) : (fallAsleep cfg d m).base = m.base := by simp [fallAsleep]
@[simp] theorem fallAsleep_busCount (cfg : Config) (d : Nat) (m : Master) : (fallAsleep cfg d m).busCount = m.busCount := by simp [fallAsleep]
@[simp] theorem fallAsleep_lock (cfg : Config) (d : Nat) (m : Master) : (fallAsleep cfg d m).lock = m.lock := by simp [fallAsleep]
@[simp] theorem fallAsleep_rid (cfg : Config) (d : Nat) (m : Master) : (fallAsleep cfg d m).rid = m.rid := by simp [fallAsleep]
@[simp] theorem fallAsleep_mc (cfg : Config) (d : Nat) (m : Master) : (fallAsleep cfg d m).mc = m.mc := by simp [fallAsleep]
@[simp] theorem fallAsleep_buses (cfg : Config) (d : Nat) (m : Master) : (fallAsleep cfg d m).buses = m.buses := by simp [fallAsleep]
@[simp] theorem fallAsleep_pc (cfg : Config) (d : Nat) (m : Master) : (fallAsleep cfg d m).pc = m.pc := by simp [fallAsleep]
@[simp] theorem fallAsleep_spot (cfg : Config) (d : Nat) (m : Master) : (fallAsleep cfg d m).spot = m.spot := by simp [fallAsleep]
@[simp] theorem fallAsleep_bare (cfg : Config) (d : Nat) (m : Master) : (fallAsleep cfg d m).bare = m.bare := by simp [fallAsleep]
@[simp] theorem fallAsleep_i (cfg : Config) (d : Nat) (m : Master) : (fallAsleep cfg d m).i = m.i := by simp [fallAsleep]
@[simp] theorem fallAsleep_j (cfg : Config) (d : Nat) (m : Master) : (fallAsleep cfg d m).j = m.j := by simp [fallAsleep]
@[simp] theorem fallAsleep_ad (cfg : Config) (d : Nat) (m : Master) : (fallAsleep cfg d m).ad = m.ad := by simp [fallAsleep]
@[simp] theorem fallAsleep_ss (cfg : Config) (d : Nat) (m : Master) : (fallAsleep cfg d m).ss = m.ss := by simp [fallAsleep]
@[simp] theorem fallAsleep_k (cfg : Config) (d : Nat) (m : Master) : (fallAsleep cfg d m).k = m.k := by simp [fallAsleep]
@[simp] theorem fallAsleep_e (cfg : Config) (d : Nat) (m : Master) : (fallAsleep cfg d m).e = m.e := by simp [fallAsleep]
@[simp] theorem fallAsleep_rem (cfg : Config) (d : Nat) (m : Master) : (fallAsleep cfg d m).rem = m.rem := by simp [fallAsleep]
@[simp] theorem fallAsleep_err (cfg : Config) (d : Nat) (m : Master) : (fallAsleep cfg d m).err = m.err := by simp [fallAsleep]
@[simp] theorem fallAsleep_cs (cfg : Config) (d : Nat) (m : Master) : (fallAsleep cfg d m).cs = m.cs := by simp [fallAsleep]
@[simp] theorem fallAsleep_ver (cfg : Config) (d : Nat) (m : Master) : (fallAsleep cfg d m).ver = m.ver := by simp [fallAsleep]
@[simp] theorem fallAsleep_fsz (cfg : Config) (d : Nat) (m : Master) : (fallAsleep cfg d m).fsz = m.fsz := by simp [fallAsleep]
@[simp] theorem fallAsleep_nAnn (cfg : Config) (d : Nat) (m : Master) : (fallAsleep cfg d m).nAnn = m.nAnn := by simp [fallAsleep]
@[simp] theorem fallAsleep_tLast (cfg : Config) (d : Nat) (m : Master) : (fallAsleep cfg d m).tLast = m.tLast := by simp [fallAsleep]
@[simp] theorem fallAsleep_prev (cfg : Config) (d : Nat) (m : Master) : (fallAsleep cfg d m).prev = m.prev := by simp [fallAsleep]
@[simp] theorem fallAsleep_bus (cfg : Config) (d : Nat) (m : Master) : (fallAsleep cfg d m).bus = m.bus := by simp [fallAsleep]
@[simp] theorem fallAsleep_msgs (cfg : Config) (d : Nat) (m : Master) : (fallAsleep cfg d m).msgs = m.msgs := by simp [fallAsleep]
@[simp] theorem fallAsleep_diag (cfg : Config) (d : Nat) (m : Master) : (fallAsleep cfg d m).diag = m.diag := by simp [fallAsleep]
@[simp] theorem fallAsleep_waiting (cfg : Config) (d : Nat) (m : Master) : (fallAsleep cfg d m).waiting = m.waiting := by simp [fallAsleep]
@[simp] theorem fallAsleep_time (cfg : Config) (d : Nat) (m : Master) : (fallAsleep cfg d m).time = (readClock cfg m).time := by simp [fallAsleep]
@[simp] theorem fallAsleep_hist (cfg : Config) (d : Nat) (m : Master) : (fallAsleep cfg d m).hist = m.hist ++ [.sleep d (readClock cfg m).time] := by simp [fallAsleep]
@[simp] theorem fallAsleep_csrIn (cfg : Config) (d : Nat) (m : Master) : (fallAsleep cfg d m).csrIn = m.csrIn := by simp [fallAsleep]
@[simp] theorem fallAsleep_rspIn (cfg : Config) (d : Nat) (m : Master) : (fallAsleep cfg d m).rspIn = m.rspIn := by simp [fallAsleep]
@[simp] theorem fallAsleep_draws (cfg : Config) (d : Nat) (m : Master) : (fallAsleep cfg d m).draws = (readClock cfg m).draws := by simp [fallAsleep]
@[simp] theorem fallAsleep_nDraw (cfg : Config) (d : Nat) (m : Master) : (fallAsleep cfg d m).nDraw = (readClock cfg m).nDraw := by simp [fallAsleep]

/-! ### `emitWord` -/

@[simp] theorem emitWord_id (cfg : Config) (w : Word) (m : Master) : (emitWord cfg w m).id = m.id := by simp [emitWord]
@[simp] theorem emitWord_life (cfg : Config) (w : Word) (m : Master) : (emitWord cfg w m).life = m.life := by simp [emitWord]
@[simp] theorem emitWord_base (cfg : Config) (w : Word) (m : Master) : (emitWord cfg w m).base = m.base := by simp [emitWord]
@[simp] theorem emitWord_busCount (cfg : Config) (w : Word) (m : Master) : (emitWord cfg w m).busCount = m.busCount := by simp [emitWord]
@[simp] theorem emitWord_lock (cfg : Config) (w : Word) (m : Master) : (emitWord cfg w m).lock = m.lock := by simp [emitWord]
@[simp] theorem emitWord_rid (cfg : Config) (w : Word) (m : Master) : (emitWord cfg w m).rid = m.rid := by simp [emitWord]
@[simp] theorem emitWord_mc (cfg : Config) (w : Word) (m : Master) : (emitWord cfg w m).mc = m.mc := by simp [emitWord]
@[simp] theorem emitWord_buses (cfg : Config) (w : Word) (m : Master) : (emitWord cfg w m).buses = m.buses := by simp [emitWord]
@[simp] theorem emitWord_pc (cfg : Config) (w : Word) (m : Master) : (emitWord cfg w m).pc = m.pc := by simp [emitWord]
@[simp] theorem emitWord_spot (cfg : Config) (w : Word) (m : Master) : (emitWord cfg w m).spot = m.spot := by simp [emitWord]
@[simp] theorem emitWord_bare (cfg : Config) (w : Word) (m : Master) : (emitWord cfg w m).bare = m.bare := by simp [emitWord]
@[simp] theorem emitWord_i (cfg : Config) (w : Word) (m : Master) : (emitWord cfg w m).i = m.i := by simp [emitWord]
@[simp] theorem emitWord_j (cfg : Config) (w : Word) (m : Master) : (emitWord cfg w m).j = m.j := by simp [emitWord]
@[simp] theorem emitWord_ad (cfg : Config) (w : Word) (m : Master) : (emitWord cfg w m).ad = m.ad := by simp [emitWord]
@[simp] theorem emitWord_ss (cfg : Config) (w : Word) (m : Master) : (emitWord cfg w m).ss = m.ss := by simp [emitWord]
@[simp] theorem emitWord_k (cfg : Config) (w : Word) (m : Master) : (emitWord cfg w m).k = m.k + 1 := by simp [emitWord]
@[simp] theorem emitWord_e (cfg : Config) (w : Word) (m : Master) : (emitWord cfg w m).e = m.e := by simp [emitWord]
@[simp] theorem emitWord_rem (cfg : Config) (w : Word) (m : Master) : (emitWord cfg w m).rem = m.rem := by simp [emitWord]
@[simp] theorem emitWord_err (cfg : Config) (w : Word) (m : Master) : (emitWord cfg w m).err = m.err := by simp [emitWord]
@[simp] theorem emitWord_cs (cfg : Config) (w : Word) (m : Master) : (emitWord cfg w m).cs = m.cs := by simp [emitWord]
@[simp] theorem emitWord_ver (cfg : Config) (w : Word) (m : Master) : (emitWord cfg w m).ver = m.ver := by simp [emitWord]
@[simp] theorem emitWord_fsz (cfg : Config) (w : Word) (m : Master) : (emitWord cfg w m).fsz = m.fsz := by simp [emitWord]
@[simp] theorem emitWord_nAnn (cfg : Config) (w : Word) (m : Master) : (emitWord cfg w m).nAnn = m.nAnn := by simp [emitWord]
@[simp] theorem emitWord_tLast (cfg : Config) (w : Word) (m : Master) : (emitWord cfg w m).tLast = m.tLast := by simp [emitWord]
@[simp] theorem emitWord_prev (cfg : Config) (w : Word) (m : Master) : (emitWord cfg w m).prev = m.prev := by simp [emitWord]
@[simp] theorem emitWord_bus (cfg : Config) (w : Word) (m : Master) : (emitWord cfg w m).bus = m.bus := by simp [emitWord]
@[simp] theorem emitWord_msgs (cfg : Config) (w : Word) (m : Master) : (emitWord cfg w m).msgs = m.msgs := by simp [emitWord]
@[simp] theorem emitWord_diag (cfg : Config) (w : Word) (m : Master) : (emitWord cfg w m).diag = m.diag := by simp [emitWord]
@[simp] theorem emitWord_waiting (cfg : Config) (w : Word) (m : Master) : (emitWord cfg w m).waiting = m.waiting := by simp [emitWord]
@[simp] theorem emitWord_time (cfg : Config) (w : Word) (m : Master) : (emitWord cfg w m).time = (readClock cfg m).time := by simp [emitWord]
@[simp] theorem emitWord_hist (cfg : Config) (w : Word) (m : Master) : (emitWord cfg w m).hist = m.hist ++ [.write (reqAddr cfg m) w (readClock cfg m).time] := by simp [emitWord]
@[simp] theorem emitWord_csrIn (cfg : Config) (w : Word) (m : Master) : (emitWord cfg w m).csrIn = m.csrIn := by simp [emitWord]
@[simp] theorem emitWord_rspIn (cfg : Config) (w : Word) (m : Master) : (emitWord cfg w m).rspIn = m.rspIn := by simp [emitWord]
@[simp] theorem emitWord_draws (cfg : Config) (w : Word) (m : Master) : (emitWord cfg w m).draws = (readClock cfg m).draws := by simp [emitWord]
@[simp] theorem emitWord_nDraw (cfg : Config) (w : Word) (m : Master) : (emitWord cfg w m).nDraw = (readClock cfg m).nDraw := by simp [emitWord]

/-! ### `beginWait` -/

@[simp] theorem beginWait_id (cfg : Config) (m : Master) : (beginWait cfg m).id = m.id := by simp [beginWait]
@[simp] theorem beginWait_life (cfg : Config) (m : Master) : (beginWait cfg m).life = m.life := by simp [beginWait]
@[simp] theorem beginWait_base (cfg : Config) (m : Master) : (beginWait cfg m).base = m.base := by simp [beginWait]
@[simp] theorem beginWait_busCount (cfg : Config) (m : Master) : (beginWait cfg m).busCount = m.busCount := by simp [beginWait]
@[simp] theorem beginWait_lock (cfg : Config) (m : Master) : (beginWait cfg m).lock = m.lock := by simp [beginWait]
@[simp] theorem beginWait_rid (cfg : Config) (m : Master) : (beginWait cfg m).rid = m.rid := by simp [beginWait]
@[simp] theorem beginWait_mc (cfg : Config) (m : Master) : (beginWait cfg m).mc = m.mc := by simp [beginWait]
@[simp] theorem beginWait_buses (cfg : Config) (m : Master) : (beginWait cfg m).buses = m.buses := by simp [beginWait]
@[simp] theorem beginWait_pc (cfg : Config) (m : Master) : (beginWait cfg m).pc = m.pc := by simp [beginWait]
@[simp] theorem beginWait_spot (cfg : Config) (m : Master) : (beginWait cfg m).spot = m.spot := by simp [beginWait]
@[simp] theorem beginWait_bare (cfg : Config) (m : Master) : (beginWait cfg m).bare = m.bare := by simp [beginWait]
@[simp] theorem beginWait_i (cfg : Config) (m : Master) : (beginWait cfg m).i = m.i := by simp [beginWait]
@[simp] theorem beginWait_j (cfg : Config) (m : Master) : (beginWait cfg m).j = m.j := by simp [beginWait]
@[simp] theorem beginWait_ad (cfg : Config) (m : Master) : (beginWait cfg m).ad = m.ad := by simp [beginWait]
@[simp] theorem beginWait_ss (cfg : Config) (m : Master) : (beginWait cfg m).ss = m.ss := by simp [beginWait]
@[simp] theorem beginWait_k (cfg : Config) (m : Master) : (beginWait cfg m).k = m.k := by simp [beginWait]
@[simp] theorem beginWait_e (cfg : Config) (m : Master) : (beginWait cfg m).e = m.e := by simp [beginWait]
@[simp] theorem beginWait_rem (cfg : Config) (m : Master) : (beginWait cfg m).rem = m.rem := by simp [beginWait]
@[simp] theorem beginWait_err (cfg : Config) (m : Master) : (beginWait cfg m).err = m.err := by simp [beginWait]
@[simp] theorem beginWait_cs (cfg : Config) (m : Master) : (beginWait cfg m).cs = m.cs := by simp [beginWait]
@[simp] theorem beginWait_ver (cfg : Config) (m : Master) : (beginWait cfg m).ver = m.ver := by simp [beginWait]
@[simp] theorem beginWait_fsz (cfg : Config) (m : Master) : (beginWait cfg m).fsz = m.fsz := by simp [beginWait]
@[simp] theorem beginWait_nAnn (cfg : Config) (m : Master) : (beginWait cfg m).nAnn = m.nAnn := by simp [beginWait]
@[simp] theorem beginWait_tLast (cfg : Config) (m : Master) : (beginWait cfg m).tLast = (readClock cfg m).time := by simp [beginWait]
@[simp] theorem beginWait_prev (cfg : Config) (m : Master) : (beginWait cfg m).prev = none := by simp [beginWait]
@[simp] theorem beginWait_bus (cfg : Config) (m : Master) : (beginWait cfg m).bus = m.bus := by simp [beginWait]
@[simp] theorem beginWait_msgs (cfg : Config) (m : Master) : (beginWait cfg m).msgs = m.msgs := by simp [beginWait]
@[simp] theorem beginWait_diag (cfg : Config) (m : Master) : (beginWait cfg m).diag = m.diag := by simp [beginWait]
@[simp] theorem beginWait_waiting (cfg : Config) (m : Master) : (beginWait cfg m).waiting = m.waiting := by simp [beginWait]
@[simp] theorem beginWait_time (cfg : Config) (m : Master) : (beginWait cfg m).time = (readClock cfg m).time := by simp [beginWait]
@[simp] theorem beginWait_hist (cfg : Config) (m : Master) : (beginWait cfg m).hist = m.hist := by simp [beginWait]
@[simp] theorem beginWait_csrIn (cfg : Config) (m : Master) : (beginWait cfg m).csrIn = m.csrIn := by simp [beginWait]
@[simp] theorem beginWait_rspIn (cfg : Config) (m : Master) : (beginWait cfg m).rspIn = m.rspIn := by simp [beginWait]
@[simp] theorem beginWait_draws (cfg : Config) (m : Master) : (beginWait cfg m).draws = (readClock cfg m).draws := by simp [beginWait]
@[simp] theorem beginWait_nDraw (cfg : Config) (m : Master) : (beginWait cfg m).nDraw = (readClock cfg m).nDraw := by simp [beginWait]

/-! ### `addDiag` -/

@[simp] theorem addDiag_id (c : DiagCode) (m : Master) : (addDiag c m).id = m.id := rfl
@[simp] theorem addDiag_life (c : DiagCode) (m : Master) : (addDiag c m).life = m.life := rfl
@[simp] theorem addDiag_base (c : DiagCode) (m : Master) : (addDiag c m).base = m.base := rfl
@[simp] theorem addDiag_busCount (c : DiagCode) (m : Master) : (addDiag c m).busCount = m.busCount := rfl
@[simp] theorem addDiag_lock (c : DiagCode) (m : Master) : (addDiag c m).lock = m.lock := rfl
@[simp] theorem addDiag_rid (c : DiagCode) (m : Master) : (addDiag c m).rid = m.rid := rfl
@[simp] theorem addDiag_mc (c : DiagCode) (m : Master) : (addDiag c m).mc = m.mc := rfl
@[simp] theorem addDiag_buses (c : DiagCode) (m : Master) : (addDiag c m).buses = m.buses := rfl
@[simp] theorem addDiag_pc (c : DiagCode) (m : Master) : (addDiag c m).pc = m.pc := rfl
@[simp] theorem addDiag_spot (c : DiagCode) (m : Master) : (addDiag c m).spot = m.spot := rfl
@[simp] theorem addDiag_bare (c : DiagCode) (m : Master) : (addDiag c m).bare = m.bare := rfl
@[simp] theorem addDiag_i (c : DiagCode) (m : Master) : (addDiag c m).i = m.i := rfl
@[simp] theorem addDiag_j (c : DiagCode) (m : Master) : (addDiag c m).j = m.j := rfl
@[simp] theorem addDiag_ad (c : DiagCode) (m : Master) : (addDiag c m).ad = m.ad := rfl
@[simp] theorem addDiag_ss (c : DiagCode) (m : Master) : (addDiag c m).ss = m.ss := rfl
@[simp] theorem addDiag_k (c : DiagCode) (m : Master) : (addDiag c m).k = m.k := rfl
@[simp] theorem addDiag_e (c : DiagCode) (m : Master) : (addDiag c m).e = m.e := rfl
@[simp] theorem addDiag_rem (c : DiagCode) (m : Master) : (addDiag c m).rem = m.rem := rfl
@[simp] theorem addDiag_err (c : DiagCode) (m : Master) : (addDiag c m).err = m.err := rfl
@[simp] theorem addDiag_cs (c : DiagCode) (m : Master) : (addDiag c m).cs = m.cs := rfl
@[simp] theorem addDiag_ver (c : DiagCode) (m : Master) : (addDiag c m).ver = m.ver := rfl
@[simp] theorem addDiag_fsz (c : DiagCode) (m : Master) : (addDiag c m).fsz = m.fsz := rfl
@[simp] theorem addDiag_nAnn (c : DiagCode) (m : Master) : (addDiag c m).nAnn = m.nAnn := rfl
@[simp] theorem addDiag_tLast (c : DiagCode) (m : Master) : (addDiag c m).tLast = m.tLast := rfl
@[simp] theorem addDiag_prev (c : DiagCode) (m : Master) : (addDiag c m).prev = m.prev := rfl
@[simp] theorem addDiag_bus (c : DiagCode) (m : Master) : (addDiag c m).bus = m.bus := rfl
@[simp] theorem addDiag_msgs (c : DiagCode) (m : Master) : (addDiag c m).msgs = m.msgs := rfl
@[simp] theorem addDiag_diag (c : DiagCode) (m : Master) : (addDiag c m).diag = m.diag ++ [c] := rfl
@[simp] theorem addDiag_waiting (c : DiagCode) (m : Master) : (addDiag c m).waiting = m.waiting := rfl
@[simp] theorem addDiag_time (c : DiagCode) (m : Master) : (addDiag c m).time = m.time := rfl
@[simp] theorem addDiag_hist (c : DiagCode) (m : Master) : (addDiag c m).hist = m.hist := rfl
@[simp] theorem addDiag_csrIn (c : DiagCode) (m : Master) : (addDiag c m).csrIn = m.csrIn := rfl
@[simp] theorem addDiag_rspIn (c : DiagCode) (m : Master) : (addDiag c m).rspIn = m.rspIn := rfl
@[simp] theorem addDiag_draws (c : DiagCode) (m : Master) : (addDiag c m).draws = m.draws := rfl
@[simp] theorem addDiag_nDraw (c : DiagCode) (m : Master) : (addDiag c m).nDraw = m.nDraw := rfl

/-! ### `walkOn` -/

theorem walkOn_eq (m : Master) :
    walkOn m = { m with i := (walkOn m).i, j := (walkOn m).j, ad := (walkOn m).ad } := by
  unfold walkOn
  repeat (first | rfl | split)

@[simp] theorem walkOn_id (m : Master) : (walkOn m).id = m.id := by rw [walkOn_eq]
@[simp] theorem walkOn_life (m : Master) : (walkOn m).life = m.life := by rw [walkOn_eq]
@[simp] theorem walkOn_base (m : Master) : (walkOn m).base = m.base := by rw [walkOn_eq]
@[simp] theorem walkOn_busCount (m : Master) : (walkOn m).busCount = m.busCount := by rw [walkOn_eq]
@[simp] theorem walkOn_lock (m : Master) : (walkOn m).lock = m.lock := by rw [walkOn_eq]
@[simp] theorem walkOn_rid (m : Master) : (walkOn m).rid = m.rid := by rw [walkOn_eq]
@[simp] theorem walkOn_mc (m : Master) : (walkOn m).mc = m.mc := by rw [walkOn_eq]
@[simp] theorem walkOn_buses (m : Master) : (walkOn m).buses = m.buses := by rw [walkOn_eq]
@[simp] theorem walkOn_pc (m : Master) : (walkOn m).pc = m.pc := by rw [walkOn_eq]
@[simp] theorem walkOn_spot (m : Master) : (walkOn m).spot = m.spot := by rw [walkOn_eq]
@[simp] theorem walkOn_bare (m : Master) : (walkOn m).bare = m.bare := by rw [walkOn_eq]
@[simp] theorem walkOn_ss (m : Master) : (walkOn m).ss = m.ss := by rw [walkOn_eq]
@[simp] theorem walkOn_k (m : Master) : (walkOn m).k = m.k := by rw [walkOn_eq]
@[simp] theorem walkOn_e (m : Master) : (walkOn m).e = m.e := by rw [walkOn_eq]
@[simp] theorem walkOn_rem (m : Master) : (walkOn m).rem = m.rem := by rw [walkOn_eq]
@[simp] theorem walkOn_err (m : Master) : (walkOn m).err = m.err := by rw [walkOn_eq]
@[simp] theorem walkOn_cs (m : Master) : (walkOn m).cs = m.cs := by rw [walkOn_eq]
@[simp] theorem walkOn_ver (m : Master) : (walkOn m).ver = m.ver := by rw [walkOn_eq]
@[simp] theorem walkOn_fsz (m : Master) : (walkOn m).fsz = m.fsz := by rw [walkOn_eq]
@[simp] theorem walkOn_nAnn (m : Master) : (walkOn m).nAnn = m.nAnn := by rw [walkOn_eq]
@[simp] theorem walkOn_tLast (m : Master) : (walkOn m).tLast = m.tLast := by rw [walkOn_eq]
@[simp] theorem walkOn_prev (m : Master) : (walkOn m).prev = m.prev := by rw [walkOn_eq]
@[simp] theorem walkOn_bus (m : Master) : (walkOn m).bus = m.bus := by rw [walkOn_eq]
@[simp] theorem walkOn_msgs (m : Master) : (walkOn m).msgs = m.msgs := by rw [walkOn_eq]
@[simp] theorem walkOn_diag (m : Master) : (walkOn m).diag = m.diag := by rw [walkOn_eq]
@[simp] theorem walkOn_waiting (m : Master) : (walkOn m).waiting = m.waiting := by rw [walkOn_eq]
@[simp] theorem walkOn_time (m : Master) : (walkOn m).time = m.time := by rw [walkOn_eq]
@[simp] theorem walkOn_hist (m : Master) : (walkOn m).hist = m.hist := by rw [walkOn_eq]
@[simp] theorem walkOn_csrIn (m : Master) : (walkOn m).csrIn = m.csrIn := by rw [walkOn_eq]
@[simp] theorem walkOn_rspIn (m : Master) : (walkOn m).rspIn = m.rspIn := by rw [walkOn_eq]
@[simp] theorem walkOn_draws (m : Master) : (walkOn m).draws = m.draws := by rw [walkOn_eq]
@[simp] theorem walkOn_nDraw (m : Master) : (walkOn m).nDraw = m.nDraw := by rw [walkOn_eq]

/-! ### `beginSession` -/

theorem beginSession_eq (m : Master) :
    beginSession m = { m with i := (beginSession m).i, j := (beginSession m).j, ad := (beginSession m).ad, k := (beginSession m).k } := by
  unfold beginSession; split <;> rfl

@[simp] theorem beginSession_id (m : Master) : (beginSession m).id = m.id := by rw [beginSession_eq]
@[simp] theorem beginSession_life (m : Master) : (beginSession m).life = m.life := by rw [beginSession_eq]
@[simp] theorem beginSession_base (m : Master) : (beginSession m).base = m.base := by rw [beginSession_eq]
@[simp] theorem beginSession_busCount (m : Master) : (beginSession m).busCount = m.busCount := by rw [beginSession_eq]
@[simp] theorem beginSession_lock (m : Master) : (beginSession m).lock = m.lock := by rw [beginSession_eq]
@[simp] theorem beginSession_rid (m : Master) : (beginSession m).rid = m.rid := by rw [beginSession_eq]
@[simp] theorem beginSession_mc (m : Master) : (beginSession m).mc = m.mc := by rw [beginSession_eq]
@[simp] theorem beginSession_buses (m : Master) : (beginSession m).buses = m.buses := by rw [beginSession_eq]
@[simp] theorem beginSession_pc (m : Master) : (beginSession m).pc = m.pc := by rw [beginSession_eq]
@[simp] theorem beginSession_spot (m : Master) : (beginSession m).spot = m.spot := by rw [beginSession_eq]
@[simp] theorem beginSession_bare (m : Master) : (beginSession m).bare = m.bare := by rw [beginSession_eq]
@[simp] theorem beginSession_ss (m : Master) : (beginSession m).ss = m.ss := by rw [beginSession_eq]
@[simp] theorem beginSession_e (m : Master) : (beginSession m).e = m.e := by rw [beginSession_eq]
@[simp] theorem beginSession_rem (m : Master) : (beginSession m).rem = m.rem := by rw [beginSession_eq]
@[simp] theorem beginSession_err (m : Master) : (beginSession m).err = m.err := by rw [beginSession_eq]
@[simp] theorem beginSession_cs (m : Master) : (beginSession m).cs = m.cs := by rw [beginSession_eq]
@[simp] theorem beginSession_ver (m : Master) : (beginSession m).ver = m.ver := by rw [beginSession_eq]
@[simp] theorem beginSession_fsz (m : Master) : (beginSession m).fsz = m.fsz := by rw [beginSession_eq]
@[simp] theorem beginSession_nAnn (m : Master) : (beginSession m).nAnn = m.nAnn := by rw [beginSession_eq]
@[simp] theorem beginSession_tLast (m : Master) : (beginSession m).tLast = m.tLast := by rw [beginSession_eq]
@[simp] theorem beginSession_prev (m : Master) : (beginSession m).prev = m.prev := by rw [beginSession_eq]
@[simp] theorem beginSession_bus (m : Master) : (beginSession m).bus = m.bus := by rw [beginSession_eq]
@[simp] theorem beginSession_msgs (m : Master) : (beginSession m).msgs = m.msgs := by rw [beginSession_eq]
@[simp] theorem beginSession_diag (m : Master) : (beginSession m).diag = m.diag := by rw [beginSession_eq]
@[simp] theorem beginSession_waiting (m : Master) : (beginSession m).waiting = m.waiting := by rw [beginSession_eq]
@[simp] theorem beginSession_time (m : Master) : (beginSession m).time = m.time := by rw [beginSession_eq]
@[simp] theorem beginSession_hist (m : Master) : (beginSession m).hist = m.hist := by rw [beginSession_eq]
@[simp] theorem beginSession_csrIn (m : Master) : (beginSession m).csrIn = m.csrIn := by rw [beginSession_eq]
@[simp] theorem beginSession_rspIn (m : Master) : (beginSession m).rspIn = m.rspIn := by rw [beginSession_eq]
@[simp] theorem beginSession_draws (m : Master) : (beginSession m).draws = m.draws := by rw [beginSession_eq]
@[simp] theorem beginSession_nDraw (m : Master) : (beginSession m).nDraw = m.nDraw := by rw [beginSession_eq]
@[simp] theorem beginSession_k (m : Master) : (beginSession m).k = 0 := by unfold beginSession; split <;> rfl

/-! ### `raiseFailure` -/

@[simp] theorem raiseFailure_id (f : Failure) (m : Master) : (raiseFailure f m).id = m.id := rfl
@[simp] theorem raiseFailure_life (f : Failure) (m : Master) : (raiseFailure f m).life = m.life := rfl
@[simp] theorem raiseFailure_base (f : Failure) (m : Master) : (raiseFailure f m).base = m.base := rfl
@[simp] theorem raiseFailure_busCount (f : Failure) (m : Master) : (raiseFailure f m).busCount = m.busCount := rfl
@[simp] theorem raiseFailure_lock (f : Failure) (m : Master) : (raiseFailure f m).lock = m.lock := rfl
@[simp] theorem raiseFailure_rid (f : Failure) (m : Master) : (raiseFailure f m).rid = m.rid := rfl
@[simp] theorem raiseFailure_mc (f : Failure) (m : Master) : (raiseFailure f m).mc = m.mc := rfl
@[simp] theorem raiseFailure_buses (f : Failure) (m : Master) : (raiseFailure f m).buses = m.buses := rfl
@[simp] theorem raiseFailure_pc (f : Failure) (m : Master) : (raiseFailure f m).pc = .leave := rfl
@[simp] theorem raiseFailure_spot (f : Failure) (m : Master) : (raiseFailure f m).spot = .outside := rfl
@[simp] theorem raiseFailure_bare (f : Failure) (m : Master) : (raiseFailure f m).bare = m.bare := rfl
@[simp] theorem raiseFailure_i (f : Failure) (m : Master) : (raiseFailure f m).i = m.i := rfl
@[simp] theorem raiseFailure_j (f : Failure) (m : Master) : (raiseFailure f m).j = m.j := rfl
@[simp] theorem raiseFailure_ad (f : Failure) (m : Master) : (raiseFailure f m).ad = m.ad := rfl
@[simp] theorem raiseFailure_ss (f : Failure) (m : Master) : (raiseFailure f m).ss = m.ss := rfl
@[simp] theorem raiseFailure_k (f : Failure) (m : Master) : (raiseFailure f m).k = m.k := rfl
@[simp] theorem raiseFailure_e (f : Failure) (m : Master) : (raiseFailure f m).e = m.e := rfl
@[simp] theorem raiseFailure_rem (f : Failure) (m : Master) : (raiseFailure f m).rem = m.rem := rfl
@[simp] theorem raiseFailure_err (f : Failure) (m : Master) : (raiseFailure f m).err = some f := rfl
@[simp] theorem raiseFailure_cs (f : Failure) (m : Master) : (raiseFailure f m).cs = m.cs := rfl
@[simp] theorem raiseFailure_ver (f : Failure) (m : Master) : (raiseFailure f m).ver = m.ver := rfl
@[simp] theorem raiseFailure_fsz (f : Failure) (m : Master) : (raiseFailure f m).fsz = m.fsz := rfl
@[simp] theorem raiseFailure_nAnn (f : Failure) (m : Master) : (raiseFailure f m).nAnn = m.nAnn := rfl
@[simp] theorem raiseFailure_tLast (f : Failure) (m : Master) : (raiseFailure f m).tLast = m.tLast := rfl
@[simp] theorem raiseFailure_prev (f : Failure) (m : Master) : (raiseFailure f m).prev = m.prev := rfl
@[simp] theorem raiseFailure_bus (f : Failure) (m : Master) : (raiseFailure f m).bus = m.bus := rfl
@[simp] theorem raiseFailure_msgs (f : Failure) (m : Master) : (raiseFailure f m).msgs = m.msgs := rfl
@[simp] theorem raiseFailure_diag (f : Failure) (m : Master) : (raiseFailure f m).diag = m.diag := rfl
@[simp] theorem raiseFailure_waiting (f : Failure) (m : Master) : (raiseFailure f m).waiting = m.waiting := rfl
@[simp] theorem raiseFailure_time (f : Failure) (m : Master) : (raiseFailure f m).time = m.time := rfl
@[simp] theorem raiseFailure_hist (f : Failure) (m : Master) : (raiseFailure f m).hist = m.hist := rfl
@[simp] theorem raiseFailure_csrIn (f : Failure) (m : Master) : (raiseFailure f m).csrIn = m.csrIn := rfl
@[simp] theorem raiseFailure_rspIn (f : Failure) (m : Master) : (raiseFailure f m).rspIn = m.rspIn := rfl
@[simp] theorem raiseFailure_draws (f : Failure) (m : Master) : (raiseFailure f m).draws = m.draws := rfl
@[simp] theorem raiseFailure_nDraw (f : Failure) (m : Master) : (raiseFailure f m).nDraw = m.nDraw := rfl

/-! ### `unlockIdle` -/

@[simp] theorem unlockIdle_id (m : Master) : (unlockIdle m).id = m.id := rfl
@[simp] theorem unlockIdle_life (m : Master) : (unlockIdle m).life = m.life := rfl
@[simp] theorem unlockIdle_base (m : Master) : (unlockIdle m).base = m.base := rfl
@[simp] theorem unlockIdle_busCount (m : Master) : (unlockIdle m).busCount = m.busCount := rfl
@[simp] theorem unlockIdle_lock (m : Master) : (unlockIdle m).lock = .free := rfl
@[simp] theorem unlockIdle_rid (m : Master) : (unlockIdle m).rid = m.rid := rfl
@[simp] theorem unlockIdle_mc (m : Master) : (unlockIdle m).mc = m.mc := rfl
@[simp] theorem unlockIdle_buses (m : Master) : (unlockIdle m).buses = m.buses := rfl
@[simp] theorem unlockIdle_pc (m : Master) : (unlockIdle m).pc = .idle := rfl
@[simp] theorem unlockIdle_spot (m : Master) : (unlockIdle m).spot = .outside := rfl
@[simp] theorem unlockIdle_bare (m : Master) : (unlockIdle m).bare = m.bare := rfl
@[simp] theorem unlockIdle_i (m : Master) : (unlockIdle m).i = m.i := rfl
@[simp] theorem unlockIdle_j (m : Master) : (unlockIdle m).j = m.j := rfl
@[simp] theorem unlockIdle_ad (m : Master) : (unlockIdle m).ad = m.ad := rfl
@[simp] theorem unlockIdle_ss (m : Master) : (unlockIdle m).ss = m.ss := rfl
@[simp] theorem unlockIdle_k (m : Master) : (unlockIdle m).k = m.k := rfl
@[simp] theorem unlockIdle_e (m : Master) : (unlockIdle m).e = m.e := rfl
@[simp] theorem unlockIdle_rem (m : Master) : (unlockIdle m).rem = m.rem := rfl
@[simp] theorem unlockIdle_err (m : Master) : (unlockIdle m).err = m.err := rfl
@[simp] theorem unlockIdle_cs (m : Master) : (unlockIdle m).cs = m.cs := rfl
@[simp] theorem unlockIdle_ver (m : Master) : (unlockIdle m).ver = m.ver := rfl
@[simp] theorem unlockIdle_fsz (m : Master) : (unlockIdle m).fsz = m.fsz := rfl
@[simp] theorem unlockIdle_nAnn (m : Master) : (unlockIdle m).nAnn = m.nAnn := rfl
@[simp] theorem unlockIdle_tLast (m : Master) : (unlockIdle m).tLast = m.tLast := rfl
@[simp] theorem unlockIdle_prev (m : Master) : (unlockIdle m).prev = m.prev := rfl
@[simp] theorem unlockIdle_bus (m : Master) : (unlockIdle m).bus = m.bus := rfl
@[simp] theorem unlockIdle_msgs (m : Master) : (unlockIdle m).msgs = m.msgs := rfl
@[simp] theorem unlockIdle_diag (m : Master) : (unlockIdle m).diag = m.diag := rfl
@[simp] theorem unlockIdle_waiting (m : Master) : (unlockIdle m).waiting = m.waiting := rfl
@[simp] theorem unlockIdle_time (m : Master) : (unlockIdle m).time = m.time := rfl
@[simp] theorem unlockIdle_hist (m : Master) : (unlockIdle m).hist = m.hist := rfl
@[simp] theorem unlockIdle_csrIn (m : Master) : (unlockIdle m).csrIn = m.csrIn := rfl
@[simp] theorem unlockIdle_rspIn (m : Master) : (unlockIdle m).rspIn = m.rspIn := rfl
@[simp] theorem unlockIdle_draws (m : Master) : (unlockIdle m).draws = m.draws := rfl
@[simp] theorem unlockIdle_nDraw (m : Master) : (unlockIdle m).nDraw = m.nDraw := rfl

/-! ### `leaveIdle` -/

@[simp] theorem leaveIdle_id (m : Master) : (leaveIdle m).id = m.id := by unfold leaveIdle; split <;> simp_all
@[simp] theorem leaveIdle_life (m : Master) : (leaveIdle m).life = m.life := by unfold leaveIdle; split <;> simp_all
@[simp] theorem leaveIdle_base (m : Master) : (leaveIdle m).base = m.base := by unfold leaveIdle; split <;> simp_all
@[simp] theorem leaveIdle_busCount (m : Master) : (leaveIdle m).busCount = m.busCount := by unfold leaveIdle; split <;> simp_all
@[simp] theorem leaveIdle_lock (m : Master) : (leaveIdle m).lock = m.lock := by unfold leaveIdle; split <;> simp_all
@[simp] theorem leaveIdle_rid (m : Master) : (leaveIdle m).rid = m.rid := by unfold leaveIdle; split <;> simp_all
@[simp] theorem leaveIdle_mc (m : Master) : (leaveIdle m).mc = if m.mc = .faulted then .faulted else .idle := by unfold leaveIdle; split <;> simp_all
@[simp] theorem leaveIdle_buses (m : Master) : (leaveIdle m).buses = m.buses := by unfold leaveIdle; split <;> simp_all
@[simp] theorem leaveIdle_pc (m : Master) : (leaveIdle m).pc = m.pc := by unfold leaveIdle; split <;> simp_all
@[simp] theorem leaveIdle_spot (m : Master) : (leaveIdle m).spot = m.spot := by unfold leaveIdle; split <;> simp_all
@[simp] theorem leaveIdle_bare (m : Master) : (leaveIdle m).bare = m.bare := by unfold leaveIdle; split <;> simp_all
@[simp] theorem leaveIdle_i (m : Master) : (leaveIdle m).i = m.i := by unfold leaveIdle; split <;> simp_all
@[simp] theorem leaveIdle_j (m : Master) : (leaveIdle m).j = m.j := by unfold leaveIdle; split <;> simp_all
@[simp] theorem leaveIdle_ad (m : Master) : (leaveIdle m).ad = m.ad := by unfold leaveIdle; split <;> simp_all
@[simp] theorem leaveIdle_ss (m : Master) : (leaveIdle m).ss = m.ss := by unfold leaveIdle; split <;> simp_all
@[simp] theorem leaveIdle_k (m : Master) : (leaveIdle m).k = m.k := by unfold leaveIdle; split <;> simp_all
@[simp] theorem leaveIdle_e (m : Master) : (leaveIdle m).e = m.e := by unfold leaveIdle; split <;> simp_all
@[simp] theorem leaveIdle_rem (m : Master) : (leaveIdle m).rem = m.rem := by unfold leaveIdle; split <;> simp_all
@[simp] theorem leaveIdle_err (m : Master) : (leaveIdle m).err = m.err := by unfold leaveIdle; split <;> simp_all
@[simp] theorem leaveIdle_cs (m : Master) : (leaveIdle m).cs = m.cs := by unfold leaveIdle; split <;> simp_all
@[simp] theorem leaveIdle_ver (m : Master) : (leaveIdle m).ver = m.ver := by unfold leaveIdle; split <;> simp_all
@[simp] theorem leaveIdle_fsz (m : Master) : (leaveIdle m).fsz = m.fsz := by unfold leaveIdle; split <;> simp_all
@[simp] theorem leaveIdle_nAnn (m : Master) : (leaveIdle m).nAnn = m.nAnn := by unfold leaveIdle; split <;> simp_all
@[simp] theorem leaveIdle_tLast (m : Master) : (leaveIdle m).tLast = m.tLast := by unfold leaveIdle; split <;> simp_all
@[simp] theorem leaveIdle_prev (m : Master) : (leaveIdle m).prev = m.prev := by unfold leaveIdle; split <;> simp_all
@[simp] theorem leaveIdle_bus (m : Master) : (leaveIdle m).bus = m.bus := by unfold leaveIdle; split <;> simp_all
@[simp] theorem leaveIdle_msgs (m : Master) : (leaveIdle m).msgs = m.msgs := by unfold leaveIdle; split <;> simp_all
@[simp] theorem leaveIdle_diag (m : Master) : (leaveIdle m).diag = m.diag := by unfold leaveIdle; split <;> simp_all
@[simp] theorem leaveIdle_waiting (m : Master) : (leaveIdle m).waiting = m.waiting := by unfold leaveIdle; split <;> simp_all
@[simp] theorem leaveIdle_time (m : Master) : (leaveIdle m).time = m.time := by unfold leaveIdle; split <;> simp_all
@[simp] theorem leaveIdle_hist (m : Master) : (leaveIdle m).hist = m.hist := by unfold leaveIdle; split <;> simp_all
@[simp] theorem leaveIdle_csrIn (m : Master) : (leaveIdle m).csrIn = m.csrIn := by unfold leaveIdle; split <;> simp_all
@[simp] theorem leaveIdle_rspIn (m : Master) : (leaveIdle m).rspIn = m.rspIn := by unfold leaveIdle; split <;> simp_all
@[simp] theorem leaveIdle_draws (m : Master) : (leaveIdle m).draws = m.draws := by unfold leaveIdle; split <;> simp_all
@[simp] theorem leaveIdle_nDraw (m : Master) : (leaveIdle m).nDraw = m.nDraw := by unfold leaveIdle; split <;> simp_all

/-! ### `unregisterAll` -/

@[simp] theorem unregisterAll_id (m : Master) : (unregisterAll m).id = m.id := rfl
@[simp] theorem unregisterAll_life (m : Master) : (unregisterAll m).life = m.life := rfl
@[simp] theorem unregisterAll_base (m : Master) : (unregisterAll m).base = m.base := rfl
@[simp] theorem unregisterAll_busCount (m : Master) : (unregisterAll m).busCount = m.busCount := rfl
@[simp] theorem unregisterAll_lock (m : Master) : (unregisterAll m).lock = m.lock := rfl
@[simp] theorem unregisterAll_rid (m : Master) : (unregisterAll m).rid = m.rid := rfl
@[simp] theorem unregisterAll_mc (m : Master) : (unregisterAll m).mc = m.mc := rfl
@[simp] theorem unregisterAll_buses (m : Master) : (unregisterAll m).buses = m.buses.map (fun b => { b with registered := false }) := rfl
@[simp] theorem unregisterAll_pc (m : Master) : (unregisterAll m).pc = m.pc := rfl
@[simp] theorem unregisterAll_spot (m : Master) : (unregisterAll m).spot = m.spot := rfl
@[simp] theorem unregisterAll_bare (m : Master) : (unregisterAll m).bare = m.bare := rfl
@[simp] theorem unregisterAll_i (m : Master) : (unregisterAll m).i = m.i := rfl
@[simp] theorem unregisterAll_j (m : Master) : (unregisterAll m).j = m.j := rfl
@[simp] theorem unregisterAll_ad (m : Master) : (unregisterAll m).ad = m.ad := rfl
@[simp] theorem unregisterAll_ss (m : Master) : (unregisterAll m).ss = m.ss := rfl
@[simp] theorem unregisterAll_k (m : Master) : (unregisterAll m).k = m.k := rfl
@[simp] theorem unregisterAll_e (m : Master) : (unregisterAll m).e = m.e := rfl
@[simp] theorem unregisterAll_rem (m : Master) : (unregisterAll m).rem = m.rem := rfl
@[simp] theorem unregisterAll_err (m : Master) : (unregisterAll m).err = m.err := rfl
@[simp] theorem unregisterAll_cs (m : Master) : (unregisterAll m).cs = m.cs := rfl
@[simp] theorem unregisterAll_ver (m : Master) : (unregisterAll m).ver = m.ver := rfl
@[simp] theorem unregisterAll_fsz (m : Master) : (unregisterAll m).fsz = m.fsz := rfl
@[simp] theorem unregisterAll_nAnn (m : Master) : (unregisterAll m).nAnn = m.nAnn := rfl
@[simp] theorem unregisterAll_tLast (m : Master) : (unregisterAll m).tLast = m.tLast := rfl
@[simp] theorem unregisterAll_prev (m : Master) : (unregisterAll m).prev = m.prev := rfl
@[simp] theorem unregisterAll_bus (m : Master) : (unregisterAll m).bus = m.bus := rfl
@[simp] theorem unregisterAll_msgs (m : Master) : (unregisterAll m).msgs = m.msgs := rfl
@[simp] theorem unregisterAll_diag (m : Master) : (unregisterAll m).diag = m.diag := rfl
@[simp] theorem unregisterAll_waiting (m : Master) : (unregisterAll m).waiting = m.waiting := rfl
@[simp] theorem unregisterAll_time (m : Master) : (unregisterAll m).time = m.time := rfl
@[simp] theorem unregisterAll_hist (m : Master) : (unregisterAll m).hist = m.hist := rfl
@[simp] theorem unregisterAll_csrIn (m : Master) : (unregisterAll m).csrIn = m.csrIn := rfl
@[simp] theorem unregisterAll_rspIn (m : Master) : (unregisterAll m).rspIn = m.rspIn := rfl
@[simp] theorem unregisterAll_draws (m : Master) : (unregisterAll m).draws = m.draws := rfl
@[simp] theorem unregisterAll_nDraw (m : Master) : (unregisterAll m).nDraw = m.nDraw := rfl

/-! ### The hand -/

@[simp] theorem Hand.withM_cfg (h : Hand) (m : Master) : (h.withM m).cfg = h.cfg := rfl
@[simp] theorem Hand.withM_m (h : Hand) (m : Master) : (h.withM m).m = m := rfl
@[simp] theorem Hand.withM_mem (h : Hand) (m : Master) : (h.withM m).mem = h.mem := rfl

/-! ### `State.putMaster` -/

@[simp] theorem State.putMaster_cfg (s : State) (m : Master) : (s.putMaster m).cfg = s.cfg := rfl
@[simp] theorem State.putMaster_masters (s : State) (m : Master) : (s.putMaster m).masters = putIn m s.masters := rfl
@[simp] theorem State.putMaster_mem (s : State) (m : Master) : (s.putMaster m).mem = s.mem := rfl
@[simp] theorem State.putMaster_inHand (s : State) (m : Master) : (s.putMaster m).inHand = s.inHand := rfl
@[simp] theorem State.putMaster_inbox (s : State) (m : Master) : (s.putMaster m).inbox = s.inbox := rfl
@[simp] theorem State.putMaster_replies (s : State) (m : Master) : (s.putMaster m).replies = s.replies := rfl
@[simp] theorem State.putMaster_nextCmd (s : State) (m : Master) : (s.putMaster m).nextCmd = s.nextCmd := rfl
@[simp] theorem State.putMaster_nextHandle (s : State) (m : Master) : (s.putMaster m).nextHandle = s.nextHandle := rfl
@[simp] theorem State.putMaster_sched (s : State) (m : Master) : (s.putMaster m).sched = s.sched := rfl
@[simp] theorem State.putMaster_nTurn (s : State) (m : Master) : (s.putMaster m).nTurn = s.nTurn := rfl
@[simp] theorem State.putMaster_cut (s : State) (m : Master) : (s.putMaster m).cut = s.cut := rfl
@[simp] theorem State.putMaster_adapIn (s : State) (m : Master) : (s.putMaster m).adapIn = s.adapIn := rfl
@[simp] theorem State.putMaster_nAdap (s : State) (m : Master) : (s.putMaster m).nAdap = s.nAdap := rfl

/-! ### `State.dropMaster` -/

@[simp] theorem State.dropMaster_cfg (s : State) (id : Nat) : (s.dropMaster id).cfg = s.cfg := rfl
@[simp] theorem State.dropMaster_masters (s : State) (id : Nat) : (s.dropMaster id).masters = s.masters.filter (fun m => m.id != id) := rfl
@[simp] theorem State.dropMaster_mem (s : State) (id : Nat) : (s.dropMaster id).mem = s.mem := rfl
@[simp] theorem State.dropMaster_inHand (s : State) (id : Nat) : (s.dropMaster id).inHand = s.inHand := rfl
@[simp] theorem State.dropMaster_inbox (s : State) (id : Nat) : (s.dropMaster id).inbox = s.inbox := rfl
@[simp] theorem State.dropMaster_replies (s : State) (id : Nat) : (s.dropMaster id).replies = s.replies := rfl
@[simp] theorem State.dropMaster_nextCmd (s : State) (id : Nat) : (s.dropMaster id).nextCmd = s.nextCmd := rfl
@[simp] theorem State.dropMaster_nextHandle (s : State) (id : Nat) : (s.dropMaster id).nextHandle = s.nextHandle := rfl
@[simp] theorem State.dropMaster_sched (s : State) (id : Nat) : (s.dropMaster id).sched = s.sched := rfl
@[simp] theorem State.dropMaster_nTurn (s : State) (id : Nat) : (s.dropMaster id).nTurn = s.nTurn := rfl
@[simp] theorem State.dropMaster_cut (s : State) (id : Nat) : (s.dropMaster id).cut = s.cut := rfl
@[simp] theorem State.dropMaster_adapIn (s : State) (id : Nat) : (s.dropMaster id).adapIn = s.adapIn := rfl
@[simp] theorem State.dropMaster_nAdap (s : State) (id : Nat) : (s.dropMaster id).nAdap = s.nAdap := rfl

/-! ### `State.post` -/

@[simp] theorem State.post_cfg (s : State) (cmd : Nat) (a : Answer) : (s.post cmd a).cfg = s.cfg := rfl
@[simp] theorem State.post_masters (s : State) (cmd : Nat) (a : Answer) : (s.post cmd a).masters = s.masters := rfl
@[simp] theorem State.post_mem (s : State) (cmd : Nat) (a : Answer) : (s.post cmd a).mem = s.mem := rfl
@[simp] theorem State.post_inHand (s : State) (cmd : Nat) (a : Answer) : (s.post cmd a).inHand = s.inHand := rfl
@[simp] theorem State.post_inbox (s : State) (cmd : Nat) (a : Answer) : (s.post cmd a).inbox = s.inbox := rfl
@[simp] theorem State.post_replies (s : State) (cmd : Nat) (a : Answer) : (s.post cmd a).replies = s.replies ++ [⟨cmd, a⟩] := rfl
@[simp] theorem State.post_nextCmd (s : State) (cmd : Nat) (a : Answer) : (s.post cmd a).nextCmd = s.nextCmd := rfl
@[simp] theorem State.post_nextHandle (s : State) (cmd : Nat) (a : Answer) : (s.post cmd a).nextHandle = s.nextHandle := rfl
@[simp] theorem State.post_sched (s : State) (cmd : Nat) (a : Answer) : (s.post cmd a).sched = s.sched := rfl
@[simp] theorem State.post_nTurn (s : State) (cmd : Nat) (a : Answer) : (s.post cmd a).nTurn = s.nTurn := rfl
@[simp] theorem State.post_cut (s : State) (cmd : Nat) (a : Answer) : (s.post cmd a).cut = s.cut := rfl
@[simp] theorem State.post_adapIn (s : State) (cmd : Nat) (a : Answer) : (s.post cmd a).adapIn = s.adapIn := rfl
@[simp] theorem State.post_nAdap (s : State) (cmd : Nat) (a : Answer) : (s.post cmd a).nAdap = s.nAdap := rfl

/-! ### `State.commit` -/

@[simp] theorem State.commit_cfg (s : State) (h : Hand) : (s.commit h).cfg = s.cfg := rfl
@[simp] theorem State.commit_masters (s : State) (h : Hand) : (s.commit h).masters = putIn h.m s.masters := rfl
@[simp] theorem State.commit_mem (s : State) (h : Hand) : (s.commit h).mem = h.mem := rfl
@[simp] theorem State.commit_inHand (s : State) (h : Hand) : (s.commit h).inHand = s.inHand := rfl
@[simp] theorem State.commit_inbox (s : State) (h : Hand) : (s.commit h).inbox = s.inbox := rfl
@[simp] theorem State.commit_replies (s : State) (h : Hand) : (s.commit h).replies = s.replies := rfl
@[simp] theorem State.commit_nextCmd (s : State) (h : Hand) : (s.commit h).nextCmd = s.nextCmd := rfl
@[simp] theorem State.commit_nextHandle (s : State) (h : Hand) : (s.commit h).nextHandle = s.nextHandle := rfl
@[simp] theorem State.commit_sched (s : State) (h : Hand) : (s.commit h).sched = s.sched := rfl
@[simp] theorem State.commit_nTurn (s : State) (h : Hand) : (s.commit h).nTurn = s.nTurn := rfl
@[simp] theorem State.commit_cut (s : State) (h : Hand) : (s.commit h).cut = s.cut := rfl
@[simp] theorem State.commit_adapIn (s : State) (h : Hand) : (s.commit h).adapIn = s.adapIn := rfl
@[simp] theorem State.commit_nAdap (s : State) (h : Hand) : (s.commit h).nAdap = s.nAdap := rfl

end Sys2Proof.Machine
end

