-- ==== Sys2Proof/Laws/Ops.lean ====
section
/-! SUPPORT. For each shared operation on the port and the clock, once, what it can do: what it leaves alone, how it lengthens
the history, and how time passes. -/

namespace Sys2Proof.Machine

/-! ### Histories -/

theorem HistoryExtends.of_eq {cfg : Config} {a b : Master} (h1 : b.id = a.id) (h2 : b.base = a.base)
    (h3 : b.hist = a.hist) (h4 : a.time ≤ b.time) : HistoryExtends cfg a b := ⟨h1, h2, h4, [], by simp [h3], by simp, by simp⟩

theorem HistoryExtends.refl (cfg : Config) (m : Master) : HistoryExtends cfg m m := .of_eq rfl rfl rfl (le_refl _)

theorem HistoryExtends.trans {cfg : Config} {a b c : Master} (h : HistoryExtends cfg a b) (g : HistoryExtends cfg b c) :
    HistoryExtends cfg a c := by
  obtain ⟨h1, h2, h3, n, h4, h5, h6⟩ := h
  obtain ⟨g1, g2, g3, n', g4, g5, g6⟩ := g
  refine ⟨g1.trans h1, g2.trans h2, h3.trans g3, n ++ n', by rw [g4, h4, List.append_assoc], ?_, ?_⟩
  · intro ev hev
    rcases List.mem_append.mp hev with hev | hev
    · obtain ⟨x, y, z⟩ := h5 ev hev
      exact ⟨x, y, z.trans g3⟩
    · obtain ⟨x, y, z⟩ := g5 ev hev
      refine ⟨?_, h3.trans y, z⟩
      cases ev <;> simp only [legalEvent, h2] at x ⊢ <;> exact x
  · rw [List.pairwise_append]
    exact ⟨h6, g6, fun x hx y hy => (h5 x hx).2.2.trans (g5 y hy).2.1⟩

/-! ### What the port and the clock leave alone -/

/-- A Master without its history, the oracle's scripts, the clock, `x[cs]` and `x[mc]`. -/
def portRest (m : Master) : Master :=
  { m with hist := [], csrIn := [], rspIn := [], time := 0, draws := [], nDraw := 0, cs := Csr.zero, mc := .idle }

/-- `m'` is `m` after accesses and sleeps: only what `portRest` leaves out may differ. -/
structure PortOnly (cfg : Config) (m m' : Master) : Prop where
  ext : HistoryExtends cfg m m'
  rest : portRest m' = portRest m

theorem PortOnly.refl (cfg : Config) (m : Master) : PortOnly cfg m m := ⟨.refl cfg m, rfl⟩

theorem PortOnly.trans {cfg : Config} {a b c : Master} (h : PortOnly cfg a b) (g : PortOnly cfg b c) : PortOnly cfg a c :=
  ⟨h.ext.trans g.ext, g.rest.trans h.rest⟩

theorem PortOnly.eq {cfg : Config} {m m' : Master} (h : PortOnly cfg m m') :
    m' = { m with hist := m'.hist, csrIn := m'.csrIn, rspIn := m'.rspIn, time := m'.time, draws := m'.draws,
                  nDraw := m'.nDraw, cs := m'.cs, mc := m'.mc } := by
  have h := h.rest
  cases m; cases m'
  simp only [portRest, Master.mk.injEq] at h ⊢
  simp [h]

/-- A field that `portRest` keeps. -/
theorem PortOnly.field {cfg : Config} {m m' : Master} {α : Type} (h : PortOnly cfg m m') (f : Master → α)
    (hf : ∀ x, f (portRest x) = f x) : f m' = f m := by rw [← hf m', h.rest, hf]

theorem PortOnly.id {cfg : Config} {m m' : Master} (h : PortOnly cfg m m') : m'.id = m.id := h.field Master.id fun _ => rfl
theorem PortOnly.life {cfg : Config} {m m' : Master} (h : PortOnly cfg m m') : m'.life = m.life := h.field Master.life fun _ => rfl
theorem PortOnly.base {cfg : Config} {m m' : Master} (h : PortOnly cfg m m') : m'.base = m.base := h.field Master.base fun _ => rfl
theorem PortOnly.busCount {cfg : Config} {m m' : Master} (h : PortOnly cfg m m') : m'.busCount = m.busCount :=
  h.field Master.busCount fun _ => rfl
theorem PortOnly.lock {cfg : Config} {m m' : Master} (h : PortOnly cfg m m') : m'.lock = m.lock := h.field Master.lock fun _ => rfl
theorem PortOnly.rid {cfg : Config} {m m' : Master} (h : PortOnly cfg m m') : m'.rid = m.rid := h.field Master.rid fun _ => rfl
theorem PortOnly.buses {cfg : Config} {m m' : Master} (h : PortOnly cfg m m') : m'.buses = m.buses :=
  h.field Master.buses fun _ => rfl
theorem PortOnly.pc {cfg : Config} {m m' : Master} (h : PortOnly cfg m m') : m'.pc = m.pc := h.field Master.pc fun _ => rfl
theorem PortOnly.spot {cfg : Config} {m m' : Master} (h : PortOnly cfg m m') : m'.spot = m.spot := h.field Master.spot fun _ => rfl
theorem PortOnly.bare {cfg : Config} {m m' : Master} (h : PortOnly cfg m m') : m'.bare = m.bare := h.field Master.bare fun _ => rfl
theorem PortOnly.i {cfg : Config} {m m' : Master} (h : PortOnly cfg m m') : m'.i = m.i := h.field Master.i fun _ => rfl
theorem PortOnly.j {cfg : Config} {m m' : Master} (h : PortOnly cfg m m') : m'.j = m.j := h.field Master.j fun _ => rfl
theorem PortOnly.ad {cfg : Config} {m m' : Master} (h : PortOnly cfg m m') : m'.ad = m.ad := h.field Master.ad fun _ => rfl
theorem PortOnly.ss {cfg : Config} {m m' : Master} (h : PortOnly cfg m m') : m'.ss = m.ss := h.field Master.ss fun _ => rfl
theorem PortOnly.k {cfg : Config} {m m' : Master} (h : PortOnly cfg m m') : m'.k = m.k := h.field Master.k fun _ => rfl
theorem PortOnly.e {cfg : Config} {m m' : Master} (h : PortOnly cfg m m') : m'.e = m.e := h.field Master.e fun _ => rfl
theorem PortOnly.rem {cfg : Config} {m m' : Master} (h : PortOnly cfg m m') : m'.rem = m.rem := h.field Master.rem fun _ => rfl
theorem PortOnly.err {cfg : Config} {m m' : Master} (h : PortOnly cfg m m') : m'.err = m.err := h.field Master.err fun _ => rfl
theorem PortOnly.ver {cfg : Config} {m m' : Master} (h : PortOnly cfg m m') : m'.ver = m.ver := h.field Master.ver fun _ => rfl
theorem PortOnly.fsz {cfg : Config} {m m' : Master} (h : PortOnly cfg m m') : m'.fsz = m.fsz := h.field Master.fsz fun _ => rfl
theorem PortOnly.nAnn {cfg : Config} {m m' : Master} (h : PortOnly cfg m m') : m'.nAnn = m.nAnn := h.field Master.nAnn fun _ => rfl
theorem PortOnly.tLast {cfg : Config} {m m' : Master} (h : PortOnly cfg m m') : m'.tLast = m.tLast :=
  h.field Master.tLast fun _ => rfl
theorem PortOnly.prev {cfg : Config} {m m' : Master} (h : PortOnly cfg m m') : m'.prev = m.prev := h.field Master.prev fun _ => rfl
theorem PortOnly.bus {cfg : Config} {m m' : Master} (h : PortOnly cfg m m') : m'.bus = m.bus := h.field Master.bus fun _ => rfl
theorem PortOnly.msgs {cfg : Config} {m m' : Master} (h : PortOnly cfg m m') : m'.msgs = m.msgs := h.field Master.msgs fun _ => rfl
theorem PortOnly.diag {cfg : Config} {m m' : Master} (h : PortOnly cfg m m') : m'.diag = m.diag := h.field Master.diag fun _ => rfl
theorem PortOnly.waiting {cfg : Config} {m m' : Master} (h : PortOnly cfg m m') : m'.waiting = m.waiting :=
  h.field Master.waiting fun _ => rfl

/-- Setting `x[cs]`, `x[mc]` and the oracle's scripts. -/
theorem PortOnly.set (cfg : Config) (m : Master) (cs : Csr) (mc : McState) (csrIn rspIn : List Word) :
    PortOnly cfg m { m with cs, mc, csrIn, rspIn } := ⟨.of_eq rfl rfl rfl (le_refl _), rfl⟩

/-! ### The clock (60_exceptions.md R263) -/

theorem advanceTime_time_le (cfg : Config) (d : Nat) (m : Master) : m.time + d ≤ (advanceTime cfg d m).time := by
  unfold advanceTime
  split <;> simp

theorem advanceTime_time_exact {cfg : Config} (h : cfg.sleepExact = true) (d : Nat) (m : Master) :
    (advanceTime cfg d m).time = m.time + d := by simp [advanceTime, h]

theorem readClock_time_le (cfg : Config) (m : Master) : m.time ≤ (readClock cfg m).time := advanceTime_time_le cfg 0 m

theorem readClock_time_exact {cfg : Config} (h : cfg.sleepExact = true) (m : Master) :
    (readClock cfg m).time = m.time := advanceTime_time_exact h 0 m

theorem advanceTime_rest (cfg : Config) (d : Nat) (m : Master) : portRest (advanceTime cfg d m) = portRest m := by
  unfold advanceTime afterDraw
  split
  · rfl
  · split <;> rfl

theorem advanceTime_portOnly (cfg : Config) (d : Nat) (m : Master) : PortOnly cfg m (advanceTime cfg d m) :=
  ⟨.of_eq (by simp) (by simp) (by simp) (by have := advanceTime_time_le cfg d m; omega), advanceTime_rest cfg d m⟩

theorem readClock_portOnly (cfg : Config) (m : Master) : PortOnly cfg m (readClock cfg m) := advanceTime_portOnly cfg 0 m

/-- A free number drawn changes nothing that anything but the clock and the lock looks at. -/
theorem afterDraw_portOnly (cfg : Config) (m : Master) : PortOnly cfg m (afterDraw m) :=
  ⟨.of_eq (by simp) (by simp) (by simp) (by simp), by unfold afterDraw; split <;> rfl⟩

/-! ### Accesses -/

theorem record_portOnly {cfg : Config} {m : Master} {ev : Nat → Event} (h : ∀ t, legalEvent cfg m (ev t))
    (ht : ∀ t, timeOf (ev t) = t) : PortOnly cfg m (record cfg ev m) := by
  refine ⟨⟨by simp, by simp, by simp [readClock_time_le], [ev (readClock cfg m).time], by simp, ?_, by simp⟩, ?_⟩
  · intro e he
    obtain rfl : e = ev (readClock cfg m).time := by simpa using he
    exact ⟨h _, by rw [ht]; exact readClock_time_le cfg m, by rw [ht]; simp⟩
  · exact (readClock_portOnly cfg m).rest

theorem csrReadIs_portOnly (cfg : Config) (w : Word) (m : Master) : PortOnly cfg m (csrReadIs cfg w m) :=
  record_portOnly (fun _ => Or.inl rfl) (fun _ => rfl)

theorem rspReadIs_portOnly (cfg : Config) (w : Word) (m : Master) : PortOnly cfg m (rspReadIs cfg w m) :=
  record_portOnly (fun _ => Or.inr rfl) (fun _ => rfl)

theorem readCsr_portOnly (cfg : Config) (m : Master) : PortOnly cfg m (readCsr cfg m) :=
  (PortOnly.set cfg m m.cs m.mc m.csrIn.tail m.rspIn).trans (csrReadIs_portOnly cfg (csrAnswer m) _)

theorem fetchStatus_portOnly (cfg : Config) (m : Master) : PortOnly cfg m (fetchStatus cfg m) :=
  (readCsr_portOnly cfg m).trans (PortOnly.set cfg _ (csrNow cfg m) _ _ _)

theorem readRsp_portOnly (cfg : Config) (m : Master) : PortOnly cfg m (readRsp cfg m) :=
  (PortOnly.set cfg m m.cs m.mc m.csrIn m.rspIn.tail).trans (rspReadIs_portOnly cfg (rspAnswer m) _)

theorem writeCsr_portOnly (cfg : Config) (c : Csr) (m : Master) : PortOnly cfg m (writeCsr cfg c m) :=
  record_portOnly (fun _ => Or.inl rfl) (fun _ => rfl)

theorem writeReq_portOnly (cfg : Config) (w : Word) (m : Master) : PortOnly cfg m (writeReq cfg w m) :=
  record_portOnly (fun _ => Or.inr rfl) (fun _ => rfl)

theorem fallAsleep_portOnly (cfg : Config) (d : Nat) (m : Master) : PortOnly cfg m (fallAsleep cfg d m) :=
  record_portOnly (fun _ => trivial) (fun _ => rfl)

/-- An item's word written: `x[k]` counts it. -/
theorem emitWord_portOnly (cfg : Config) (w : Word) (m : Master) :
    PortOnly cfg { m with k := m.k + 1 } (emitWord cfg w m) := by
  have h := writeReq_portOnly cfg w m
  refine ⟨?_, by simpa [emitWord, portRest] using congrArg (fun x : Master => { x with k := m.k + 1 }) h.rest⟩
  exact h.ext

end Sys2Proof.Machine
end

