-- ==== Sys2Proof/Laws/MasterControl.lean ====
section
/-! SUPPORT. Master Control: what a step of each primitive can do, that every primitive but the wait returns, and what a whole
reset(), enter() and leave() come to. -/

namespace Sys2Proof.Machine

/-! ### Running a primitive to its return -/

/-- A measure that falls at every step that does not return. -/
def Falls {σ : Type} (next : σ → Master → Prim σ × Master) (left : σ → Nat) : Prop :=
  ∀ x m y, (next x m).1 = .at_ y → left y < left x

/-- The induction over a primitive's steps, once. -/
theorem runPrim_induction {σ : Type} {next : σ → Master → Prim σ × Master} {left : σ → Nat} (hf : Falls next left)
    {P : σ → Master → Prop} {Q : Bool → Master → Prop}
    (hgo : ∀ x m y, P x m → (next x m).1 = .at_ y → P y (next x m).2)
    (hret : ∀ x m b, P x m → (next x m).1 = .ret b → Q b (next x m).2) :
    ∀ (n : Nat) (x : σ) (m : Master), left x < n → P x m → Q (runPrim next n x m).1 (runPrim next n x m).2 := by
  intro n
  induction n with
  | zero => intro x m h; omega
  | succ n ih =>
    intro x m h hp
    simp only [runPrim]
    cases hr : (next x m).1 with
    | at_ y => exact ih y _ (by have := hf x m y hr; omega) (hgo x m y hp hr)
    | ret b => exact hret x m b hp hr

/-- Steps enough are as good as any. -/
theorem runPrim_enough {σ : Type} {next : σ → Master → Prim σ × Master} {left : σ → Nat} (hf : Falls next left) :
    ∀ (n k : Nat) (x : σ) (m : Master), left x < n → left x < k → runPrim next n x m = runPrim next k x m := by
  intro n
  induction n with
  | zero => intro k x m h; omega
  | succ n ih =>
    intro k x m h1 h2
    cases k with
    | zero => omega
    | succ k =>
      simp only [runPrim]
      cases hr : (next x m).1 with
      | at_ y =>
        have := hf x m y hr
        exact ih k y _ (by omega) (by omega)
      | ret b => rfl

/-- One step of a primitive that goes on. -/
theorem runPrim_at {σ : Type} {next : σ → Master → Prim σ × Master} {n : Nat} {x y : σ} {m : Master}
    (h : (next x m).1 = .at_ y) : runPrim next (n + 1) x m = runPrim next n y (next x m).2 := by
  simp only [runPrim, h]

/-- The step of a primitive that returns. -/
theorem runPrim_ret {σ : Type} {next : σ → Master → Prim σ × Master} {n : Nat} {x : σ} {m : Master} {b : Bool}
    (h : (next x m).1 = .ret b) : runPrim next (n + 1) x m = (b, (next x m).2) := by
  simp only [runPrim, h]

/-! ### reset -/

/-- Steps of reset() left, at most, less one. -/
def resetLeft : ResetSpot → Nat
  | .read => 14
  | .write _ => 13
  | .sleep ds => 3 * ds.length
  | .wake _ ds => 3 * ds.length + 2
  | .poll ds => 3 * ds.length + 1

theorem resetStep_falls (cfg : Config) : Falls (resetStep cfg) resetLeft := by
  intro x m y h
  cases x with
  | read => cases h; simp [resetLeft]
  | write c => cases h; simp [resetLeft, backoff]
  | sleep ds =>
    cases ds with
    | nil => cases h
    | cons d ds => cases h; simp [resetLeft]; omega
  | wake d ds => cases h; simp [resetLeft]
  | poll ds =>
    simp only [resetStep] at h
    split at h
    · cases h
    · cases h; simp [resetLeft]

theorem resetStep_portOnly (cfg : Config) (x : ResetSpot) (m : Master) : PortOnly cfg m (resetStep cfg x m).2 := by
  cases x with
  | read => exact readCsr_portOnly cfg m
  | write c => exact writeCsr_portOnly cfg _ m
  | sleep ds =>
    cases ds with
    | nil => exact PortOnly.set cfg m m.cs .faulted m.csrIn m.rspIn
    | cons d ds => exact fallAsleep_portOnly cfg d m
  | wake d ds => exact advanceTime_portOnly cfg d m
  | poll ds =>
    simp only [resetStep]
    split
    · dsimp only
      split
      · exact (fetchStatus_portOnly cfg m).trans (PortOnly.set cfg _ _ .idle _ _)
      · exact fetchStatus_portOnly cfg m
    · exact fetchStatus_portOnly cfg m

/-- What reset() leaves in `x[cs]` and `x[mc]` when it returns. -/
def ResetEnds (mc : McState) (ok : Bool) (m' : Master) : Prop :=
  if ok then m'.cs.reset = false ∧ dirty m'.cs = false ∧ m'.mc = (if mc = .faulted then .idle else mc) else m'.mc = .faulted

theorem resetStep_at {cfg : Config} {x y : ResetSpot} {m : Master} (h : (resetStep cfg x m).1 = .at_ y) :
    (resetStep cfg x m).2.mc = m.mc := by
  cases x with
  | read => simp [resetStep]
  | write c => simp [resetStep]
  | sleep ds =>
    cases ds with
    | nil => cases h
    | cons d ds => simp [resetStep]
  | wake d ds => simp [resetStep]
  | poll ds =>
    simp only [resetStep] at h ⊢
    split at h
    · cases h
    · rw [if_neg ‹_›]; simp

theorem resetStep_ret {cfg : Config} {x : ResetSpot} {m : Master} {b : Bool} (h : (resetStep cfg x m).1 = .ret b) :
    ResetEnds m.mc b (resetStep cfg x m).2 := by
  cases x with
  | read => cases h
  | write c => cases h
  | sleep ds =>
    cases ds with
    | nil => cases h; rfl
    | cons d ds => cases h
  | wake d ds => cases h
  | poll ds =>
    have hmc : (fetchStatus cfg m).mc = m.mc := by simp
    simp only [resetStep] at h ⊢
    generalize fetchStatus cfg m = m1 at *
    split at h
    · rename_i hc
      cases h
      rw [if_pos hc]
      simp only [Bool.and_eq_true, Bool.not_eq_true'] at hc
      simp only [ResetEnds, if_true, ← hmc]
      split <;> exact ⟨hc.1, hc.2, rfl⟩
    · cases h

/-- `reset()` from any of its spots. -/
theorem runReset_spec (cfg : Config) (n : Nat) (x : ResetSpot) (m : Master) (h : resetLeft x < n) :
    PortOnly cfg m (runPrim (resetStep cfg) n x m).2 ∧
      ResetEnds m.mc (runPrim (resetStep cfg) n x m).1 (runPrim (resetStep cfg) n x m).2 := by
  refine runPrim_induction (P := fun _ z => PortOnly cfg m z ∧ z.mc = m.mc)
    (Q := fun b z => PortOnly cfg m z ∧ ResetEnds m.mc b z) (resetStep_falls cfg) ?_ ?_ n x m h ⟨.refl cfg m, rfl⟩
  · intro x z y ⟨p, e⟩ hr
    exact ⟨p.trans (resetStep_portOnly cfg x z), (resetStep_at hr).trans e⟩
  · intro x z b ⟨p, e⟩ hr
    exact ⟨p.trans (resetStep_portOnly cfg x z), e ▸ resetStep_ret hr⟩

theorem resetOp_spec (cfg : Config) (m : Master) :
    PortOnly cfg m (resetOp cfg m).2 ∧ ResetEnds m.mc (resetOp cfg m).1 (resetOp cfg m).2 :=
  runReset_spec cfg 16 .read m (by simp [resetLeft])

/-- The backoff loop as one function: sleep, re-read, test, over the slots left. -/
def resetLoop (cfg : Config) : List Nat → Master → Bool × Master
  | [], m => (false, { m with mc := .faulted })
  | d :: ds, m =>
    let m1 := fetchStatus cfg (advanceTime cfg d (fallAsleep cfg d m))
    if !m1.cs.reset && !dirty m1.cs then (true, if m1.mc = .faulted then { m1 with mc := .idle } else m1)
    else resetLoop cfg ds m1

theorem runReset_sleep (cfg : Config) (ds : List Nat) : ∀ (n : Nat) (m : Master), 3 * ds.length < n →
    runPrim (resetStep cfg) n (.sleep ds) m = resetLoop cfg ds m := by
  induction ds with
  | nil =>
    intro n m h
    obtain ⟨n, rfl⟩ : ∃ k, n = k + 1 := ⟨n - 1, by omega⟩
    rfl
  | cons d ds ih =>
    intro n m h
    obtain ⟨n, rfl⟩ : ∃ k, n = k + 3 := ⟨n - 3, by simp at h; omega⟩
    rw [runPrim_at (y := .wake d ds) rfl, runPrim_at (y := .poll ds) rfl]
    show runPrim _ _ _ (advanceTime cfg d (fallAsleep cfg d m)) = _
    simp only [resetLoop]
    generalize advanceTime cfg d (fallAsleep cfg d m) = m1
    by_cases hc : (!(fetchStatus cfg m1).cs.reset && !dirty (fetchStatus cfg m1).cs) = true
    · rw [runPrim_ret (b := true) (by simp only [resetStep, if_pos hc]), if_pos hc]
      simp only [resetStep, if_pos hc]
    · rw [runPrim_at (y := .sleep ds) (by simp only [resetStep, if_neg hc]), if_neg hc]
      simp only [resetStep, if_neg hc]
      exact ih n _ (by simp at h; omega)

/-- `reset()`: a read, the write, and the backoff loop. -/
theorem resetOp_eq (cfg : Config) (m : Master) :
    resetOp cfg m = resetLoop cfg backoff (writeCsr cfg { csrNow cfg m with reset := true, foe := true } (readCsr cfg m)) := by
  rw [resetOp, runPrim_at (y := .write (csrNow cfg m)) rfl, runPrim_at (y := .sleep backoff) rfl]
  exact runReset_sleep cfg backoff 14 _ (by simp [backoff])

/-! ### enter -/

/-- Steps of enter() left, at most, less one. -/
def enterLeft : EnterSpot → Nat
  | .start => 34
  | .recover r => resetLeft r + 19
  | .read => 18
  | .clean r => resetLeft r + 2
  | .judge => 1
  | .confirm => 0

theorem enterStep_falls (cfg : Config) (f : Bool) : Falls (enterStep cfg f) enterLeft := by
  intro x m y h
  cases x with
  | start => simp only [enterStep] at h; cases h; split <;> simp [enterLeft, resetLeft]
  | recover r =>
    simp only [enterStep, nested] at h
    split at h
    · rename_i z hz
      cases h
      have := resetStep_falls cfg r m z hz
      simp only [enterLeft]; omega
    · cases h; simp [enterLeft]
    · cases h
  | read => simp only [enterStep] at h; cases h; split <;> simp [enterLeft, resetLeft]
  | clean r =>
    simp only [enterStep, nested] at h
    split at h
    · rename_i z hz
      cases h
      have := resetStep_falls cfg r m z hz
      simp only [enterLeft]; omega
    · cases h; simp [enterLeft]
    · cases h
  | judge =>
    simp only [enterStep] at h
    split at h
    · cases h; simp [enterLeft]
    · cases h
  | confirm =>
    simp only [enterStep] at h
    split at h <;> cases h

theorem nested_snd (i : ResetSpot → EnterSpot) (a : EnterSpot) (r : Prim ResetSpot × Master) : (nested i a r).2 = r.2 := by
  unfold nested
  split <;> rfl

theorem enterStep_portOnly (cfg : Config) (f : Bool) (x : EnterSpot) (m : Master) : PortOnly cfg m (enterStep cfg f x m).2 := by
  cases x with
  | start => exact .refl cfg m
  | recover r => simp only [enterStep, nested_snd]; exact resetStep_portOnly cfg r m
  | read => exact (PortOnly.set cfg m m.cs .entering m.csrIn m.rspIn).trans (fetchStatus_portOnly cfg _)
  | clean r => simp only [enterStep, nested_snd]; exact resetStep_portOnly cfg r m
  | judge =>
    simp only [enterStep]
    split
    · exact writeCsr_portOnly cfg _ m
    · exact PortOnly.set cfg m _ .ready _ _
  | confirm =>
    simp only [enterStep]
    split
    · exact (fetchStatus_portOnly cfg m).trans (PortOnly.set cfg _ _ .faulted _ _)
    · exact (fetchStatus_portOnly cfg m).trans (PortOnly.set cfg _ _ .ready _ _)

/-- What enter() leaves when it returns: `Ready` with the reset flag of `x[cs]` clear, or `Faulted`. -/
def EnterEnds (ok : Bool) (m' : Master) : Prop := if ok then m'.mc = .ready ∧ m'.cs.reset = false else m'.mc = .faulted

theorem enterStep_ret {cfg : Config} {f : Bool} {x : EnterSpot} {m : Master} {b : Bool}
    (h : (enterStep cfg f x m).1 = .ret b) : EnterEnds b (enterStep cfg f x m).2 := by
  cases x with
  | start => cases h
  | recover r =>
    simp only [enterStep, nested] at h ⊢
    split at h
    · cases h
    · cases h
    · rename_i hr
      cases h
      simp only
      have := resetStep_ret hr
      exact this
  | read => cases h
  | clean r =>
    simp only [enterStep, nested] at h ⊢
    split at h
    · cases h
    · cases h
    · rename_i hr
      cases h
      simp only
      exact resetStep_ret hr
  | judge =>
    simp only [enterStep] at h ⊢
    split at h
    · cases h
    · rename_i hn
      cases h
      rw [if_neg hn]
      simp_all [EnterEnds]
  | confirm =>
    simp only [enterStep] at h ⊢
    generalize fetchStatus cfg m = m1 at *
    split at h
    · rename_i hr
      cases h
      rw [if_pos hr]; rfl
    · rename_i hr
      cases h
      rw [if_neg hr]
      simp_all [EnterEnds]

/-- `enter(f)` from any of its spots. -/
theorem runEnter_spec (cfg : Config) (f : Bool) (n : Nat) (x : EnterSpot) (m : Master) (h : enterLeft x < n) :
    PortOnly cfg m (runPrim (enterStep cfg f) n x m).2 ∧
      EnterEnds (runPrim (enterStep cfg f) n x m).1 (runPrim (enterStep cfg f) n x m).2 := by
  refine runPrim_induction (P := fun _ z => PortOnly cfg m z) (Q := fun b z => PortOnly cfg m z ∧ EnterEnds b z)
    (enterStep_falls cfg f) ?_ ?_ n x m h (.refl cfg m)
  · intro x z y p _
    exact p.trans (enterStep_portOnly cfg f x z)
  · intro x z b p hr
    exact ⟨p.trans (enterStep_portOnly cfg f x z), enterStep_ret hr⟩

theorem enterOp_spec (cfg : Config) (f : Bool) (m : Master) :
    PortOnly cfg m (enterOp cfg f m).2 ∧ EnterEnds (enterOp cfg f m).1 (enterOp cfg f m).2 :=
  runEnter_spec cfg f 40 .start m (by simp [enterLeft])

/-- The end of enter(): the test of the flags on the value in `x[cs]`, the corrective write and its re-read. -/
def enterJudge (cfg : Config) (f : Bool) (m : Master) : Bool × Master :=
  if m.cs.reset || m.cs.foe != f then
    let m1 := fetchStatus cfg (writeCsr cfg { m.cs with reset := false, foe := f } m)
    if m1.cs.reset then (false, { m1 with mc := .faulted }) else (true, { m1 with mc := .ready })
  else (true, { m with mc := .ready })

/-- enter() from its own first read on. -/
def enterFrom (cfg : Config) (f : Bool) (m : Master) : Bool × Master :=
  let m1 := fetchStatus cfg { m with mc := .entering }
  if dirty m1.cs then
    let r := resetOp cfg m1
    if r.1 then enterJudge cfg f r.2 else (false, r.2)
  else enterJudge cfg f m1

theorem runEnter_judge (cfg : Config) (f : Bool) (n : Nat) (m : Master) :
    runPrim (enterStep cfg f) (n + 2) .judge m = enterJudge cfg f m := by
  simp only [enterJudge]
  by_cases hc : (m.cs.reset || m.cs.foe != f) = true
  · rw [runPrim_at (y := .confirm) (by simp only [enterStep, if_pos hc]), if_pos hc]
    simp only [enterStep, if_pos hc]
    generalize writeCsr cfg { m.cs with reset := false, foe := f } m = m1
    by_cases hr : (fetchStatus cfg m1).cs.reset = true
    · rw [runPrim_ret (b := false) (by simp only [enterStep, if_pos hr])]
      simp only [enterStep, if_pos hr]
    · rw [runPrim_ret (b := true) (by simp only [enterStep, if_neg hr])]
      simp only [enterStep, if_neg hr]
  · rw [runPrim_ret (b := true) (by simp only [enterStep, if_neg hc]), if_neg hc]
    simp only [enterStep, if_neg hc]

/-- A reset() inside enter(). -/
theorem runEnter_nested (cfg : Config) (f : Bool) (inside : ResetSpot → EnterSpot) (after : EnterSpot)
    (hin : ∀ r m, enterStep cfg f (inside r) m = nested inside after (resetStep cfg r m)) (h40 : enterLeft after < 40) :
    ∀ (k n : Nat) (r : ResetSpot) (m : Master), resetLeft r < k → enterLeft after + 1 + k ≤ n →
      runPrim (enterStep cfg f) n (inside r) m =
        if (runPrim (resetStep cfg) k r m).1 then runPrim (enterStep cfg f) 40 after (runPrim (resetStep cfg) k r m).2
        else (false, (runPrim (resetStep cfg) k r m).2) := by
  intro k
  induction k with
  | zero => intro n r m h; omega
  | succ k ih =>
    intro n r m h hn
    obtain ⟨n, rfl⟩ : ∃ x, n = x + 1 := ⟨n - 1, by omega⟩
    have hstep := hin r m
    cases hr : (resetStep cfg r m).1 with
    | at_ y =>
      have h1 : (enterStep cfg f (inside r) m).1 = .at_ (inside y) := by rw [hstep]; simp [nested, hr]
      have h2 : (enterStep cfg f (inside r) m).2 = (resetStep cfg r m).2 := by rw [hstep, nested_snd]
      rw [runPrim_at h1, h2, runPrim_at hr]
      have := resetStep_falls cfg r m y hr
      exact ih n y _ (by omega) (by omega)
    | ret b =>
      rw [runPrim_ret hr]
      cases b with
      | true =>
        have h1 : (enterStep cfg f (inside r) m).1 = .at_ after := by rw [hstep]; simp [nested, hr]
        have h2 : (enterStep cfg f (inside r) m).2 = (resetStep cfg r m).2 := by rw [hstep, nested_snd]
        rw [runPrim_at h1, h2]
        simp only [if_true]
        exact runPrim_enough (enterStep_falls cfg f) _ _ _ _ (by omega) h40
      | false =>
        have h1 : (enterStep cfg f (inside r) m).1 = .ret false := by rw [hstep]; simp [nested, hr]
        have h2 : (enterStep cfg f (inside r) m).2 = (resetStep cfg r m).2 := by rw [hstep, nested_snd]
        rw [runPrim_ret h1, h2]
        simp

theorem runEnter_read (cfg : Config) (f : Bool) (n : Nat) (m : Master) (h : 19 ≤ n) :
    runPrim (enterStep cfg f) n .read m = enterFrom cfg f m := by
  obtain ⟨n, rfl⟩ : ∃ x, n = x + 1 := ⟨n - 1, by omega⟩
  have h1 : (enterStep cfg f .read m).1 =
    .at_ (if dirty (fetchStatus cfg { m with mc := .entering }).cs then .clean .read else .judge) := rfl
  rw [runPrim_at h1]
  simp only [enterFrom]
  show runPrim _ _ _ (fetchStatus cfg { m with mc := .entering }) = _
  generalize fetchStatus cfg { m with mc := .entering } = m1
  split
  · rw [runEnter_nested cfg f .clean .judge (fun _ _ => rfl) (by simp [enterLeft]) 16 n .read m1 (by simp [resetLeft])
      (by simp [enterLeft]; omega), runEnter_judge cfg f 38, resetOp]
  · obtain ⟨n, rfl⟩ : ∃ x, n = x + 2 := ⟨n - 2, by omega⟩
    exact runEnter_judge cfg f n m1

/-- `enter(f)`: from `Faulted` a reset() first, if the switch says so. -/
theorem enterOp_eq (cfg : Config) (f : Bool) (m : Master) :
    enterOp cfg f m =
      if m.mc = .faulted && cfg.faultedForcesReset then
        if (resetOp cfg m).1 then enterFrom cfg f (resetOp cfg m).2 else (false, (resetOp cfg m).2)
      else enterFrom cfg f m := by
  have h1 : (enterStep cfg f .start m).1 =
    .at_ (if m.mc = .faulted && cfg.faultedForcesReset then .recover .read else .read) := rfl
  rw [enterOp, runPrim_at h1]
  show runPrim _ _ _ m = _
  split
  · rw [runEnter_nested cfg f .recover .read (fun _ _ => rfl) (by simp [enterLeft]) 16 39 .read m (by simp [resetLeft])
      (by simp [enterLeft]), runEnter_read cfg f 40 _ (by omega), resetOp]
  · exact runEnter_read cfg f 39 m (by omega)

/-! ### leave -/

/-- Steps of leave() left, at most, less one. -/
def leaveLeft : LeaveSpot → Nat
  | .read => 1026
  | .drain n => n + 2
  | .again => 1
  | .arm _ => 0

theorem leaveStep_falls (cfg : Config) (b : Bool) : Falls (leaveStep cfg b) leaveLeft := by
  intro x m y h
  cases x with
  | read =>
    simp only [leaveStep] at h
    cases h
    split
    · simp [leaveLeft]
    · have := (csrNow cfg m).nrs.isLt
      simp only [leaveLeft]; omega
  | drain n =>
    cases n with
    | zero => cases h; simp [leaveLeft]
    | succ n => cases h; simp [leaveLeft]
  | again =>
    simp only [leaveStep] at h
    split at h
    · cases h; simp [leaveLeft]
    · cases h
  | arm c => cases h

theorem leaveIdle_portOnly (cfg : Config) (m : Master) : PortOnly cfg m (leaveIdle m) := by
  unfold leaveIdle
  split
  · exact .refl cfg m
  · exact PortOnly.set cfg m _ .idle _ _

theorem leaveStep_portOnly (cfg : Config) (b : Bool) (x : LeaveSpot) (m : Master) : PortOnly cfg m (leaveStep cfg b x m).2 := by
  cases x with
  | read => exact readCsr_portOnly cfg m
  | drain n =>
    cases n with
    | zero => exact .refl cfg m
    | succ n => exact readRsp_portOnly cfg m
  | again =>
    simp only [leaveStep]
    split
    · exact readCsr_portOnly cfg m
    · exact (readCsr_portOnly cfg m).trans (leaveIdle_portOnly cfg _)
  | arm c => exact (writeCsr_portOnly cfg _ m).trans (leaveIdle_portOnly cfg _)

theorem leaveStep_at {cfg : Config} {b : Bool} {x y : LeaveSpot} {m : Master} (h : (leaveStep cfg b x m).1 = .at_ y) :
    (leaveStep cfg b x m).2.mc = m.mc := by
  cases x with
  | read => simp [leaveStep]
  | drain n => cases n <;> simp [leaveStep]
  | again =>
    simp only [leaveStep] at h ⊢
    split at h
    · rw [if_pos ‹_›]; simp
    · cases h
  | arm c => cases h

theorem leaveStep_ret {cfg : Config} {b ok : Bool} {x : LeaveSpot} {m : Master} (h : (leaveStep cfg b x m).1 = .ret ok) :
    (leaveStep cfg b x m).2.mc = if m.mc = .faulted then .faulted else .idle := by
  cases x with
  | read => cases h
  | drain n => cases n <;> cases h
  | again =>
    simp only [leaveStep] at h ⊢
    split at h
    · cases h
    · rw [if_neg ‹_›]; simp
  | arm c => simp [leaveStep]

/-- `leave()` from any of its spots: it touches the port only, and ends `Idle` unless it began `Faulted`. -/
theorem runLeave_spec (cfg : Config) (b : Bool) (n : Nat) (x : LeaveSpot) (m : Master) (h : leaveLeft x < n) :
    PortOnly cfg m (runPrim (leaveStep cfg b) n x m).2 ∧
      (runPrim (leaveStep cfg b) n x m).2.mc = if m.mc = .faulted then .faulted else .idle := by
  refine runPrim_induction (P := fun _ z => PortOnly cfg m z ∧ z.mc = m.mc)
    (Q := fun _ z => PortOnly cfg m z ∧ z.mc = if m.mc = .faulted then .faulted else .idle) (leaveStep_falls cfg b) ?_ ?_
    n x m h ⟨.refl cfg m, rfl⟩
  · intro x z y ⟨p, e⟩ hr
    exact ⟨p.trans (leaveStep_portOnly cfg b x z), (leaveStep_at hr).trans e⟩
  · intro x z b' ⟨p, e⟩ hr
    exact ⟨p.trans (leaveStep_portOnly cfg b x z), by rw [leaveStep_ret hr, e]⟩

theorem leaveOp_spec (cfg : Config) (b : Bool) (m : Master) :
    PortOnly cfg m (leaveOp cfg b m) ∧ (leaveOp cfg b m).mc = if m.mc = .faulted then .faulted else .idle :=
  runLeave_spec cfg b 1030 .read m (by simp [leaveLeft])

/-- Read and discard `n` responses. -/
def drain (cfg : Config) : Nat → Master → Master
  | 0, m => m
  | n + 1, m => drain cfg n (readRsp cfg m)

/-- The end of leave(): the second read and what it leads to. -/
def leaveEnd (cfg : Config) (m : Master) : Master :=
  if dirty (csrNow cfg m) then leaveIdle (writeCsr cfg { csrNow cfg m with reset := true } (readCsr cfg m))
  else leaveIdle (readCsr cfg m)

theorem runLeave_again (cfg : Config) (b : Bool) (n : Nat) (m : Master) :
    (runPrim (leaveStep cfg b) (n + 2) .again m).2 = leaveEnd cfg m := by
  simp only [leaveEnd]
  by_cases hc : dirty (csrNow cfg m) = true
  · rw [runPrim_at (y := .arm (csrNow cfg m)) (by simp only [leaveStep, if_pos hc]), if_pos hc]
    simp only [leaveStep, if_pos hc]
    rfl
  · rw [runPrim_ret (b := true) (by simp only [leaveStep, if_neg hc]), if_neg hc]
    simp only [leaveStep, if_neg hc]

theorem runLeave_drain (cfg : Config) (b : Bool) (k : Nat) : ∀ (n : Nat) (m : Master), k + 2 < n →
    (runPrim (leaveStep cfg b) n (.drain k) m).2 = leaveEnd cfg (drain cfg k m) := by
  induction k with
  | zero =>
    intro n m h
    obtain ⟨n, rfl⟩ : ∃ x, n = x + 3 := ⟨n - 3, by omega⟩
    rw [runPrim_at (y := .again) rfl]
    exact runLeave_again cfg b n m
  | succ k ih =>
    intro n m h
    obtain ⟨n, rfl⟩ : ∃ x, n = x + 1 := ⟨n - 1, by omega⟩
    rw [runPrim_at (y := .drain k) rfl]
    exact ih n _ (by omega)

/-- `leave(had_error)`: a read, the drain without an error, and its end. -/
theorem leaveOp_eq (cfg : Config) (b : Bool) (m : Master) :
    leaveOp cfg b m =
      leaveEnd cfg (if b then readCsr cfg m else drain cfg (csrNow cfg m).nrs.toNat (readCsr cfg m)) := by
  have h1 : (leaveStep cfg b .read m).1 = .at_ (if b then .again else .drain (csrNow cfg m).nrs.toNat) := rfl
  rw [leaveOp, runPrim_at h1]
  show (runPrim _ _ _ (readCsr cfg m)).2 = _
  split
  · exact runLeave_again cfg _ 1027 _
  · have := (csrNow cfg m).nrs.isLt
    exact runLeave_drain cfg _ _ 1029 _ (by omega)

/-! ### The wait -/

theorem beginWait_portOnly (cfg : Config) (m : Master) :
    PortOnly cfg { m with tLast := (readClock cfg m).time, prev := none } (beginWait cfg m) := by
  have h := readClock_portOnly cfg m
  refine ⟨h.ext, ?_⟩
  simpa [beginWait, portRest] using
    congrArg (fun x : Master => { x with tLast := (readClock cfg m).time, prev := none }) h.rest

/-- A step of the wait touches the port, `x[t_last]` and `x[prev]` only. -/
theorem waitStep_portOnly (cfg : Config) (w : WaitSpot) (m : Master) :
    PortOnly cfg { m with tLast := (waitStep cfg w m).2.tLast, prev := (waitStep cfg w m).2.prev } (waitStep cfg w m).2 := by
  cases w with
  | start => simpa [waitStep] using beginWait_portOnly cfg m
  | read => simpa [waitStep] using fetchStatus_portOnly cfg m
  | test =>
    have h := readClock_portOnly cfg m
    have h0 : ∀ t p, PortOnly cfg { m with tLast := t, prev := p } { readClock cfg m with tLast := t, prev := p } := fun t p =>
      ⟨h.ext, by simpa [portRest] using congrArg (fun x : Master => { x with tLast := t, prev := p }) h.rest⟩
    simp only [waitStep, waitTest]
    split
    · simpa using h0 _ m.prev
    · simpa using h0 _ m.prev
    · simpa using h0 _ m.prev
    · simpa using (h0 _ _).trans (fallAsleep_portOnly cfg _ _)
  | clear => simpa [waitStep] using writeCsr_portOnly cfg m.cs m
  | wake d => simpa [waitStep] using advanceTime_portOnly cfg d m

end Sys2Proof.Machine
end

