-- ==== Sys2Proof/Laws/Run.lean ====
section
/-! SUPPORT. What a step of the block of one Master can do, whichever it is, and so what a whole run of a command can do. -/

namespace Sys2Proof.Machine

/-! ### What a step keeps -/

/-- What no step of a command changes but by accesses and the passing of time. -/
def keptPart (m : Master) : (Nat × Nat × Nat × Nat × Nat) × List Event × Nat × List Bus × List Blocked :=
  ((m.id, m.life, m.base, m.busCount, m.rid), m.hist, m.time, m.buses, m.waiting)

/-- `h'` is `h` after some of a command's work: the configuration, the Master's identity, buses, stores, waiting commands
and request identifier are the same, the history is longer at its end, no failure is recorded before LEAVE if none was, host
memory is still canonical. -/
structure Keeps (h h' : Hand) : Prop where
  cfg : h'.cfg = h.cfg
  ext : HistoryExtends h.cfg h.m h'.m
  life : h'.m.life = h.m.life
  busCount : h'.m.busCount = h.m.busCount
  rid : h'.m.rid = h.m.rid
  buses : h'.m.buses = h.m.buses
  waiting : h'.m.waiting = h.m.waiting
  calm : NoErrorBeforeLeave h.m → NoErrorBeforeLeave h'.m
  wf : Memory.wf h.mem → Memory.wf h'.mem

theorem Keeps.refl (h : Hand) : Keeps h h := ⟨rfl, .refl _ _, rfl, rfl, rfl, rfl, rfl, id, id⟩

theorem Keeps.trans {a b c : Hand} (h : Keeps a b) (g : Keeps b c) : Keeps a c :=
  ⟨g.cfg.trans h.cfg, h.ext.trans (h.cfg ▸ g.ext), g.life.trans h.life, g.busCount.trans h.busCount, g.rid.trans h.rid,
    g.buses.trans h.buses, g.waiting.trans h.waiting, g.calm ∘ h.calm, g.wf ∘ h.wf⟩

/-- Accesses and sleeps. -/
theorem PortOnly.keeps {h : Hand} {m' : Master} (p : PortOnly h.cfg h.m m') : Keeps h (h.withM m') :=
  ⟨rfl, p.ext, p.life, p.busCount, p.rid, p.buses, p.waiting, fun n hp => by
    rw [show (h.withM m').m.err = h.m.err from p.err]; exact n (by simpa [p.pc] using hp), fun w => w⟩

/-- Work in the registers alone. -/
theorem Keeps.work {h h' : Hand} (hc : h'.cfg = h.cfg) (e : keptPart h'.m = keptPart h.m)
    (calm : NoErrorBeforeLeave h.m → NoErrorBeforeLeave h'.m) (wf : Memory.wf h.mem → Memory.wf h'.mem) : Keeps h h' := by
  simp only [keptPart, Prod.mk.injEq] at e
  obtain ⟨⟨e1, e2, e3, e4, e5⟩, e6, e7, e8, e9⟩ := e
  exact ⟨hc, .of_eq e1 e3 e6 e7.ge, e2, e4, e5, e8, e9, calm, wf⟩

/-- A phase before LEAVE that moves on to another and records nothing. -/
theorem calm_move {m m' : Master} (hp : m.pc ∈ beforeLeave) (he : m'.err = m.err) :
    NoErrorBeforeLeave m → NoErrorBeforeLeave m' := fun n _ => he.trans (n hp)

/-- A move to a phase that is not before LEAVE. -/
theorem calm_end (p : Phase) {m m' : Master} (e : m'.pc = p) (hp : p ∉ beforeLeave) :
    NoErrorBeforeLeave m → NoErrorBeforeLeave m' := fun _ h => absurd (e ▸ h) hp

/-- Taking the exception. -/
theorem raiseFailure_keeps (h : Hand) (f : Failure) : Keeps h (h.withM (raiseFailure f h.m)) :=
  .work rfl rfl (calm_end .leave rfl (by decide)) id

/-- What every outcome of a step keeps. A command that ends frees the lock with `pc` in IDLE, or (a primitive called by
itself) leaves the lock as it was. -/
def AdvKeeps (h : Hand) : Adv → Prop
  | .go h' => Keeps h h' ∧ h'.m.lock = h.m.lock
  | .pause h' => Keeps h h' ∧ h'.m.lock = h.m.lock
  | .done h' _ _ => Keeps h h' ∧ (h'.m.lock = h.m.lock ∨ h'.m.lock = .free ∧ h'.m.pc = .idle ∧ h'.m.bare = none)
  | .gone h' _ => Keeps h h'
  | .refuse _ => True

/-- Going on from a hand that was kept. -/
theorem AdvKeeps.after {h h1 : Hand} {a : Adv} (k : Keeps h h1) (l : h1.m.lock = h.m.lock) (g : AdvKeeps h1 a) :
    AdvKeeps h a := by
  cases a with
  | go h' => exact ⟨k.trans g.1, g.2.trans l⟩
  | pause h' => exact ⟨k.trans g.1, g.2.trans l⟩
  | done h' c a => exact ⟨k.trans g.1, g.2.imp (·.trans l) id⟩
  | gone h' c => exact k.trans g
  | refuse r => trivial

/-! ### One response -/

theorem blockLength_keeps (n : Byte) (h : Hand) (hp : h.m.pc ∈ beforeLeave) : AdvKeeps h (blockLength n h) := by
  simp only [blockLength]
  split
  · exact ⟨.work rfl rfl (calm_end .leave rfl (by decide)) id, rfl⟩
  · split
    · exact ⟨.work rfl rfl id id, rfl⟩
    · split
      · trivial
      · exact ⟨.work rfl rfl (calm_move hp rfl) id, rfl⟩

theorem dataResponse_keeps (r : Rsp) (msg : Message) (j : Nat) (h : Hand) (hp : h.m.pc ∈ beforeLeave) :
    AdvKeeps h (dataResponse r msg j h) := by
  simp only [dataResponse]
  split
  · exact ⟨.work rfl rfl id id, rfl⟩
  · split
    · trivial
    · have k : Keeps h { h with mem := bufWrite h.mem msg j r.d, m := { h.m with j := j + 1 } } :=
        .work rfl rfl id fun w => bufWrite_wf w _ _ _
      split
      · exact .after k rfl (blockLength_keeps _ _ hp)
      · exact ⟨k, rfl⟩

theorem placeResponse_keeps (r : Rsp) (p : Option (Nat × Nat × Bool)) (h : Hand) (hp : h.m.pc ∈ beforeLeave) :
    AdvKeeps h (placeResponse r p h) := by
  simp only [placeResponse]
  split
  · exact ⟨.refl h, rfl⟩
  · split
    · exact ⟨.refl h, rfl⟩
    · rename_i i j ad _ msg _
      have k : Keeps h (h.withM { h.m with i := i, j := j, ad := true }) := .work rfl rfl id id
      split
      · exact ⟨k, rfl⟩
      · exact .after k rfl (dataResponse_keeps _ _ _ _ hp)

theorem takeResponse_keeps (w : Word) (h : Hand) (hp : h.m.pc ∈ beforeLeave) : AdvKeeps h (takeResponse w h) := by
  simp only [takeResponse]
  split
  · exact ⟨.work rfl rfl (calm_end .leave rfl (by decide)) id, rfl⟩
  · have k : Keeps h (h.withM (countResponse h.cfg (unpackRsp h.cfg.layout.rsp w) h.m).2) := .work rfl rfl id id
    exact .after k rfl (placeResponse_keeps _ _ _ hp)

/-! ### The phases -/

/-- A step of the wait. -/
theorem waitStep_keeps (w : WaitSpot) (h : Hand) :
    Keeps h (h.withM (waitStep h.cfg w h.m).2) ∧ (waitStep h.cfg w h.m).2.lock = h.m.lock := by
  have p := waitStep_portOnly h.cfg w h.m
  have k : Keeps h (h.withM { h.m with tLast := (waitStep h.cfg w h.m).2.tLast, prev := (waitStep h.cfg w h.m).2.prev }) :=
    .work rfl rfl id id
  exact ⟨k.trans (PortOnly.keeps (h := h.withM _) p), p.lock⟩

theorem phaseWait_keeps (h : Hand) (hp : h.m.pc ∈ beforeLeave) : AdvKeeps h (phaseWait h) := by
  have k := waitStep_keeps (waitSpot h.m) h
  have hp' : (waitStep h.cfg (waitSpot h.m) h.m).2.pc ∈ beforeLeave := by
    rw [(waitStep_portOnly h.cfg (waitSpot h.m) h.m).pc]; exact hp
  simp only [phaseWait]
  generalize waitStep h.cfg (waitSpot h.m) h.m = r at *
  split
  · exact ⟨k.1.trans (.work rfl rfl id id), k.2⟩
  · exact ⟨k.1.trans (.work rfl rfl id id), k.2⟩
  · refine ⟨k.1.trans ?_, ?_⟩
    · unfold endWait
      split
      · exact .work rfl rfl (calm_move hp' rfl) id
      · exact .work rfl rfl (calm_move hp' rfl) id
    · unfold endWait
      split <;> exact k.2
  · exact ⟨k.1.trans (raiseFailure_keeps _ _), k.2⟩
  · exact ⟨k.1.trans (raiseFailure_keeps _ _), k.2⟩

theorem bareStep_keeps (w : WaitSpot) (h : Hand) : AdvKeeps h (bareStep w h) := by
  have k := waitStep_keeps w h
  simp only [bareStep]
  generalize waitStep h.cfg w h.m = r at *
  split
  · exact ⟨k.1.trans (.work rfl rfl id id), k.2⟩
  · exact ⟨k.1.trans (.work rfl rfl id id), k.2⟩
  · exact ⟨k.1.trans (.work rfl rfl id id), .inl k.2⟩

theorem phaseEnter_keeps (h : Hand) (hp : h.m.pc ∈ beforeLeave) : AdvKeeps h (phaseEnter h) := by
  have p := enterStep_portOnly h.cfg true (enterSpot h.m) h.m
  have hp' : (enterStep h.cfg true (enterSpot h.m) h.m).2.pc ∈ beforeLeave := by rw [p.pc]; exact hp
  have k := p.keeps
  have hl := p.lock
  simp only [phaseEnter]
  generalize enterStep h.cfg true (enterSpot h.m) h.m = r at *
  split
  · exact ⟨k.trans (.work rfl rfl id id), hl⟩
  · exact ⟨k.trans (.work rfl rfl (calm_move hp' rfl) id), hl⟩
  · exact ⟨k.trans (raiseFailure_keeps _ _), hl⟩

/-- A request word: the walk, the count and one write. -/
theorem emitItem_keeps (first : Bool) (it : ReqItem) (h : Hand) : AdvKeeps h (emitItem first it h) := by
  unfold emitItem
  split
  · trivial
  · rename_i w _
    have k : Keeps h (h.withM { walkOn h.m with k := (walkOn h.m).k + 1 }) :=
      .work rfl (by simp [keptPart]) (fun n => by simpa [NoErrorBeforeLeave] using n) id
    have p := emitWord_portOnly h.cfg w (walkOn h.m)
    exact ⟨k.trans (PortOnly.keeps (h := h.withM _) p), by simp⟩

theorem phaseEncode_keeps (h : Hand) (hp : h.m.pc ∈ beforeLeave) : AdvKeeps h (phaseEncode h) := by
  have toWait : AdvKeeps h (.go (h.withM { h.m with pc := .wait, spot := .outside })) :=
    ⟨.work rfl rfl (calm_move hp rfl) id, rfl⟩
  simp only [phaseEncode]
  split
  · split
    · exact toWait
    · split
      · exact toWait
      · exact emitItem_keeps _ _ h
  · trivial

theorem phaseDecode_keeps (h : Hand) (hp : h.m.pc ∈ beforeLeave) : AdvKeeps h (phaseDecode h) := by
  simp only [phaseDecode]
  split
  · exact ⟨.work rfl rfl (calm_move hp rfl) id, rfl⟩
  · have p := readRsp_portOnly h.cfg h.m
    exact .after p.keeps p.lock (takeResponse_keeps _ _ (by simpa [p.pc] using hp))

theorem phaseContEncode_keeps (h : Hand) (hp : h.m.pc ∈ beforeLeave) : AdvKeeps h (phaseContEncode h) := by
  simp only [phaseContEncode]
  split
  · exact ⟨.work rfl rfl (calm_move hp rfl) id, rfl⟩
  · split
    · exact ⟨.work rfl rfl (calm_move hp rfl) id, rfl⟩
    · exact emitItem_keeps _ _ h

theorem phaseLeave_keeps (h : Hand) : AdvKeeps h (phaseLeave h) := by
  have p := leaveStep_portOnly h.cfg (hadError h.m) (leaveSpot h.m) h.m
  have k := p.keeps
  have hl := p.lock
  simp only [phaseLeave]
  generalize leaveStep h.cfg (hadError h.m) (leaveSpot h.m) h.m = r at *
  split
  · exact ⟨k.trans (.work rfl rfl id id), hl⟩
  · exact ⟨k.trans (.work rfl rfl (calm_end .unlock rfl (by decide)) id), hl⟩

theorem phaseTearReset_keeps (h : Hand) : AdvKeeps h (phaseTearReset h) := by
  have p := resetStep_portOnly h.cfg (resetSpot h.m) h.m
  have k := p.keeps
  have hl := p.lock
  simp only [phaseTearReset]
  generalize resetStep h.cfg (resetSpot h.m) h.m = r at *
  split
  · exact ⟨k.trans (.work rfl rfl id id), hl⟩
  · exact ⟨k.trans (.work rfl rfl (calm_end .tearDestroy rfl (by decide)) id), hl⟩

/-- Every phase. -/
theorem phaseStep_keeps (h : Hand) (hb : h.m.bare = none) : AdvKeeps h (phaseStep h) := by
  unfold phaseStep
  have mem : ∀ {p : Phase}, h.m.pc = p → p ∈ beforeLeave → h.m.pc ∈ beforeLeave := fun e hp => e ▸ hp
  split
  · exact ⟨.refl h, rfl⟩
  · exact ⟨.refl h, rfl⟩
  · exact ⟨.refl h, rfl⟩
  · exact ⟨.work rfl rfl (calm_move (mem ‹_› (by decide)) rfl) id, rfl⟩
  · exact phaseEnter_keeps h (mem ‹_› (by decide))
  · simp only [phaseCapchk]
    split
    · exact ⟨raiseFailure_keeps _ _, rfl⟩
    · exact ⟨.work rfl rfl (calm_move (mem ‹_› (by decide)) rfl) id, rfl⟩
  · exact phaseEncode_keeps h (mem ‹_› (by decide))
  · exact phaseWait_keeps h (mem ‹_› (by decide))
  · exact phaseDecode_keeps h (mem ‹_› (by decide))
  · exact phaseContEncode_keeps h (mem ‹_› (by decide))
  · exact phaseWait_keeps h (mem ‹_› (by decide))
  · exact phaseLeave_keeps h
  · exact ⟨.work rfl rfl (calm_end .idle rfl (by decide)) id, .inr ⟨rfl, rfl, hb⟩⟩
  · exact phaseTearReset_keeps h
  · exact .work rfl rfl (calm_end .idle rfl (by decide)) id

/-- Every step of the block of one Master. -/
theorem advance_keeps (h : Hand) : AdvKeeps h (advance h) := by
  unfold advance
  split
  · exact bareStep_keeps _ h
  · exact phaseStep_keeps h ‹_›

/-! ### A whole run -/

/-- The induction over a run, once: what every hand before a step satisfies, given that a step that goes on keeps it, holds
of the hand from which the last step leaves the run. -/
theorem runWhile_induction {goOn : Master → Bool} {P : Hand → Prop} {Q : Adv → Prop} (hstop : ∀ h, P h → Q (.go h))
    (hgo : ∀ h h', P h → advance h = .go h' → P h') (hend : ∀ h, P h → (∀ h', advance h ≠ .go h') → Q (advance h)) :
    ∀ (n : Nat) (h : Hand), P h → Q (runWhile goOn n h) := by
  intro n
  induction n with
  | zero => intro h hp; exact hstop h hp
  | succ n ih =>
    intro h hp
    simp only [runWhile]
    split
    · cases ha : advance h with
      | go h' => exact ih h' (hgo h h' hp ha)
      | pause h' => simpa only [ha] using hend h hp (by simp [ha])
      | done h' c a => simpa only [ha] using hend h hp (by simp [ha])
      | gone h' c => simpa only [ha] using hend h hp (by simp [ha])
      | refuse r => simpa only [ha] using hend h hp (by simp [ha])
    · exact hstop h hp

theorem runWhile_keeps (goOn : Master → Bool) (n : Nat) (h : Hand) : AdvKeeps h (runWhile goOn n h) := by
  refine runWhile_induction (P := fun x => Keeps h x ∧ x.m.lock = h.m.lock) (Q := AdvKeeps h) (fun x hx => hx) ?_ ?_ n h
    ⟨.refl h, rfl⟩
  · intro x x' hx ha
    have := AdvKeeps.after hx.1 hx.2 (advance_keeps x)
    rwa [ha] at this
  · intro x hx _
    exact .after hx.1 hx.2 (advance_keeps x)

theorem continueCommand_keeps (cut : Option Nat) (h : Hand) : AdvKeeps h (continueCommand cut h) := runWhile_keeps _ _ h

/-- One step more of a run. -/
theorem runWhile_go {goOn : Master → Bool} {n : Nat} {h h' : Hand} (hg : goOn h.m = true) (e : advance h = .go h') :
    runWhile goOn (n + 1) h = runWhile goOn n h' := by simp only [runWhile, hg, e, if_true]

/-- The last step of a run. -/
theorem runWhile_end {goOn : Master → Bool} {n : Nat} {h : Hand} {a : Adv} (hg : goOn h.m = true) (e : advance h = a)
    (ha : ∀ h', a ≠ .go h') : runWhile goOn (n + 1) h = a := by
  simp only [runWhile, hg, e, if_true]
  cases a with
  | go h' => exact absurd rfl (ha h')
  | pause h' => rfl
  | done h' c r => rfl
  | gone h' c => rfl
  | refuse r => rfl

/-- A run that has come to where it does not go on. -/
theorem runWhile_stop {goOn : Master → Bool} {n : Nat} {h : Hand} (hg : goOn h.m = false) : runWhile goOn n h = .go h := by
  cases n with
  | zero => rfl
  | succ n => simp [runWhile, hg]

end Sys2Proof.Machine
end

