-- ==== Sys2Proof/Laws/Scripts.lean ====
section
/-! SUPPORT. Runs whose answers are known: which accesses the port operations make and what time they take, and what reset(),
enter() and leave() do on a script of control/status values. -/

namespace Sys2Proof.Machine

/-! ### PortRun -/

/-- What `PortRun` says, with the fields that may differ as variables. -/
theorem PortRun.elim {cfg : Config} {a b : Master} {new : List Access} {took : Nat} (h : PortRun cfg a b new took) :
    ∃ (H : List Event) (T : Nat) (D : List Nat) (N : Nat), b = { a with hist := H, time := T, draws := D, nDraw := N } ∧
      H.map accessOf = accesses a ++ new ∧ a.time + took ≤ T ∧ (cfg.sleepExact = true → T = a.time + took) :=
  ⟨b.hist, b.time, b.draws, b.nDraw, h⟩

/-- A run between two Masters that differ from those of another run in other fields alone. -/
theorem PortRun.set {cfg : Config} {a b a' b' : Master} {new : List Access} {took : Nat} (h : PortRun cfg a b new took)
    (e : b' = { a' with hist := b.hist, time := b.time, draws := b.draws, nDraw := b.nDraw }) (h1 : a'.hist = a.hist)
    (h2 : a'.time = a.time) : PortRun cfg a' b' new took := by
  subst e
  exact ⟨rfl, by simpa [accesses, h1] using h.2.1, by simpa [h2] using h.2.2.1, by simpa [h2] using h.2.2.2⟩

theorem PortRun.refl (cfg : Config) (m : Master) : PortRun cfg m m [] 0 := ⟨rfl, by simp, by simp, by simp⟩

theorem PortRun.trans {cfg : Config} {a b c : Master} {new new' : List Access} {t t' : Nat} (h : PortRun cfg a b new t)
    (g : PortRun cfg b c new' t') : PortRun cfg a c (new ++ new') (t + t') := by
  obtain ⟨h1, h2, h3, h4⟩ := h
  obtain ⟨g1, g2, g3, g4⟩ := g
  refine ⟨?_, by rw [g2, h2, List.append_assoc], by omega, fun e => by rw [g4 e, h4 e]; omega⟩
  rw [g1, h1]

/-- Some more accesses that take no time of their own. -/
theorem PortRun.snoc {cfg : Config} {a b c : Master} {new new' : List Access} {t : Nat} (h : PortRun cfg a b new t)
    (g : PortRun cfg b c new' 0) : PortRun cfg a c (new ++ new') t := h.trans g

/-- The same run, its accesses written otherwise. -/
theorem PortRun.as {cfg : Config} {a b : Master} {new new' : List Access} {t : Nat} (h : PortRun cfg a b new t)
    (e : new = new') : PortRun cfg a b new' t := e ▸ h

/-- A field that neither the history nor the clock is. -/
theorem PortRun.field {cfg : Config} {a b : Master} {new : List Access} {t : Nat} {α : Type} (h : PortRun cfg a b new t)
    (f : Master → α) (hf : ∀ (x : Master) (H : List Event) (T : Nat) (D : List Nat) (N : Nat),
      f { x with hist := H, time := T, draws := D, nDraw := N } = f x) : f b = f a := by
  rw [h.1, hf]

/-- The address of a register does not change. -/
theorem PortRun.base {cfg : Config} {a b : Master} {new : List Access} {t : Nat} (h : PortRun cfg a b new t) :
    b.base = a.base := h.field Master.base fun _ _ _ _ _ => rfl

theorem advanceTime_run (cfg : Config) (d : Nat) (m : Master) : PortRun cfg m (advanceTime cfg d m) [] d := by
  refine ⟨?_, by simp [accesses], advanceTime_time_le cfg d m, fun e => advanceTime_time_exact e d m⟩
  have h := (advanceTime_portOnly cfg d m).eq
  rw [h]
  simp

theorem readClock_run (cfg : Config) (m : Master) : PortRun cfg m (readClock cfg m) [] 0 := advanceTime_run cfg 0 m

/-- An access or the beginning of a sleep. -/
theorem record_run {cfg : Config} {ev : Nat → Event} {a : Access} (h : ∀ t, accessOf (ev t) = a) (m : Master) :
    PortRun cfg m (record cfg ev m) [a] 0 := by
  have k : PortRun cfg (readClock cfg m) (record cfg ev m) [a] 0 := ⟨rfl, by simp [accesses, h], by simp, by simp⟩
  exact (readClock_run cfg m).trans k

theorem csrReadIs_run (cfg : Config) (w : Word) (m : Master) :
    PortRun cfg m (csrReadIs cfg w m) [.read (m.base + cfg.csrOff) w] 0 := record_run (fun _ => rfl) m

theorem rspReadIs_run (cfg : Config) (w : Word) (m : Master) :
    PortRun cfg m (rspReadIs cfg w m) [.read (m.base + cfg.rspOff) w] 0 := record_run (fun _ => rfl) m

theorem readCsr_run (cfg : Config) (m : Master) :
    PortRun cfg { m with csrIn := m.csrIn.tail } (readCsr cfg m) [.read (m.base + cfg.csrOff) (csrAnswer m)] 0 :=
  csrReadIs_run cfg _ _

theorem fetchStatus_run (cfg : Config) (m : Master) :
    PortRun cfg { m with csrIn := m.csrIn.tail, cs := csrNow cfg m } (fetchStatus cfg m)
      [.read (m.base + cfg.csrOff) (csrAnswer m)] 0 := by
  refine (readCsr_run cfg m).set ?_ rfl rfl
  rw [fetchStatus, (readCsr_run cfg m).1]

theorem readRsp_run (cfg : Config) (m : Master) :
    PortRun cfg { m with rspIn := m.rspIn.tail } (readRsp cfg m) [.read (m.base + cfg.rspOff) (rspAnswer m)] 0 :=
  rspReadIs_run cfg _ _

theorem writeCsr_run (cfg : Config) (c : Csr) (m : Master) :
    PortRun cfg m (writeCsr cfg c m) [.write (m.base + cfg.csrOff) (packCsr cfg.layout.csr c)] 0 := record_run (fun _ => rfl) m

theorem writeReq_run (cfg : Config) (w : Word) (m : Master) :
    PortRun cfg m (writeReq cfg w m) [.write (m.base + cfg.reqOff) w] 0 := record_run (fun _ => rfl) m

theorem fallAsleep_run (cfg : Config) (d : Nat) (m : Master) : PortRun cfg m (fallAsleep cfg d m) [.sleep d] 0 :=
  record_run (fun _ => rfl) m

/-- A whole sleep. -/
theorem sleep_run (cfg : Config) (d : Nat) (m : Master) :
    PortRun cfg m (advanceTime cfg d (fallAsleep cfg d m)) [.sleep d] d := by
  simpa using (fallAsleep_run cfg d m).trans (advanceTime_run cfg d _)

theorem emitWord_run (cfg : Config) (w : Word) (m : Master) :
    PortRun cfg { m with k := m.k + 1 } (emitWord cfg w m) [.write (m.base + cfg.reqOff) w] 0 := by
  refine (writeReq_run cfg w m).set ?_ rfl rfl
  rw [emitWord, (writeReq_run cfg w m).1]

/-! ### Answers from a script -/

theorem csrAnswer_cons {m : Master} {w : Word} {ws : List Word} (h : m.csrIn = w :: ws) : csrAnswer m = w := by
  simp [csrAnswer, h]

theorem csrNow_cons {cfg : Config} {m : Master} {w : Word} {ws : List Word} (h : m.csrIn = w :: ws) :
    csrNow cfg m = unpackCsr cfg.layout.csr w := by rw [csrNow, csrAnswer_cons h]

theorem rspAnswer_cons {m : Master} {w : Word} {ws : List Word} (h : m.rspIn = w :: ws) : rspAnswer m = w := by
  simp [rspAnswer, h]

/-- A read of CSR answered by the script. -/
theorem readCsr_script (cfg : Config) {m : Master} {w : Word} {ws : List Word} (h : m.csrIn = w :: ws) :
    PortRun cfg { m with csrIn := ws } (readCsr cfg m) [.read (m.base + cfg.csrOff) w] 0 := by
  have := readCsr_run cfg m
  rwa [csrAnswer_cons h, h] at this

theorem fetchStatus_script (cfg : Config) {m : Master} {w : Word} {ws : List Word} (h : m.csrIn = w :: ws) :
    PortRun cfg { m with csrIn := ws, cs := unpackCsr cfg.layout.csr w } (fetchStatus cfg m)
      [.read (m.base + cfg.csrOff) w] 0 := by
  have := fetchStatus_run cfg m
  rwa [csrNow_cons h, csrAnswer_cons h, h] at this

theorem readRsp_script (cfg : Config) {m : Master} {w : Word} {ws : List Word} (h : m.rspIn = w :: ws) :
    PortRun cfg { m with rspIn := ws } (readRsp cfg m) [.read (m.base + cfg.rspOff) w] 0 := by
  have := readRsp_run cfg m
  rwa [rspAnswer_cons h, h] at this

/-! ### reset -/

theorem clean_bool (cfg : Config) (w : Word) :
    (!(unpackCsr cfg.layout.csr w).reset && !dirty (unpackCsr cfg.layout.csr w)) = decide (CleanWord cfg w) := by
  rw [Bool.eq_iff_iff]; simp

/-- The backoff loop over the values of a script: it stops at the first clean one, or at the last slot. -/
theorem resetLoop_script (cfg : Config) (w : Word) (post : List Word) (pre : List Word) : ∀ (ds : List Nat) (m : Master),
    m.csrIn = pre ++ w :: post → (∀ x ∈ pre, ¬CleanWord cfg x) → pre.length + 1 ≤ ds.length →
    (CleanWord cfg w ∨ ds.length = pre.length + 1) →
    ∃ m', resetLoop cfg ds m = (decide (CleanWord cfg w), m') ∧
      PortRun cfg
        { m with csrIn := post, cs := unpackCsr cfg.layout.csr w,
                 mc := if CleanWord cfg w then (if m.mc = .faulted then .idle else m.mc) else .faulted } m'
        (backoffAccesses (m.base + cfg.csrOff) ds (pre ++ [w])) ((ds.take (pre.length + 1)).sum) := by
  induction pre with
  | nil =>
    intro ds m hc _ hlen hw
    cases ds with
    | nil => simp at hlen
    | cons d ds =>
      have r1 := sleep_run cfg d m
      obtain ⟨H, T, D, N, e1, -⟩ := r1.elim
      simp only [resetLoop]
      generalize advanceTime cfg d (fallAsleep cfg d m) = m1 at *
      have hc1 : m1.csrIn = w :: post := by rw [e1]; exact hc
      have r2 := (fetchStatus_script cfg hc1).as (by rw [r1.base])
      have r3 : PortRun cfg { m with csrIn := post, cs := unpackCsr cfg.layout.csr w } (fetchStatus cfg m1)
          [.sleep d, .read (m.base + cfg.csrOff) w] d := by
        refine PortRun.snoc (new := [.sleep d]) (r1.set (b' := { m1 with csrIn := post, cs := unpackCsr cfg.layout.csr w })
          ?_ rfl rfl) r2
        rw [e1]
      generalize fetchStatus cfg m1 = m2 at *
      have hcs : m2.cs = unpackCsr cfg.layout.csr w := by rw [r3.1]
      have hmc : m2.mc = m.mc := by rw [r3.1]
      rw [hcs, clean_bool]
      by_cases hcl : CleanWord cfg w
      · rw [if_pos (decide_eq_true hcl)]
        refine ⟨_, by rw [decide_eq_true hcl], ?_⟩
        simp only [if_pos hcl, List.nil_append, List.length_nil, Nat.zero_add, List.take_succ_cons, List.take_zero,
          List.sum_cons, List.sum_nil, Nat.add_zero, backoffAccesses, List.zip_cons_cons, List.zip_nil_right,
          List.flatMap_cons, List.flatMap_nil, List.append_nil, hmc]
        refine r3.set ?_ rfl rfl
        split
        · rw [r3.1]
        · rw [r3.1]
      · rcases hw with hw | hw
        · exact absurd hw hcl
        · obtain rfl : ds = [] := by simpa using hw
          rw [decide_eq_false hcl]
          refine ⟨_, rfl, ?_⟩
          simp only [if_neg hcl, List.nil_append, List.length_nil, Nat.zero_add, List.take_succ_cons, List.take_zero,
            List.sum_cons, List.sum_nil, Nat.add_zero, backoffAccesses, List.zip_cons_cons, List.zip_nil_right,
            List.flatMap_cons, List.flatMap_nil, List.append_nil]
          refine r3.set ?_ rfl rfl
          rw [r3.1]
  | cons x pre ih =>
    intro ds m hc hx hlen hw
    cases ds with
    | nil => simp at hlen
    | cons d ds =>
      have r1 := sleep_run cfg d m
      obtain ⟨H, T, D, N, e1, -⟩ := r1.elim
      simp only [resetLoop]
      generalize advanceTime cfg d (fallAsleep cfg d m) = m1 at *
      have hc1 : m1.csrIn = x :: (pre ++ w :: post) := by rw [e1]; exact hc
      have r2 := (fetchStatus_script cfg hc1).as (by rw [r1.base])
      have r3 : PortRun cfg { m with csrIn := pre ++ w :: post, cs := unpackCsr cfg.layout.csr x } (fetchStatus cfg m1)
          [.sleep d, .read (m.base + cfg.csrOff) x] d := by
        refine PortRun.snoc (new := [.sleep d])
          (r1.set (b' := { m1 with csrIn := pre ++ w :: post, cs := unpackCsr cfg.layout.csr x }) ?_ rfl rfl) r2
        rw [e1]
      generalize fetchStatus cfg m1 = m2 at *
      have hcs : m2.cs = unpackCsr cfg.layout.csr x := by rw [r3.1]
      have hmc : m2.mc = m.mc := by rw [r3.1]
      have hb : m2.base = m.base := r3.base
      rw [hcs, clean_bool, decide_eq_false (hx x (by simp))]
      simp only [Bool.false_eq_true, if_false]
      obtain ⟨m', e2, r4⟩ := ih ds m2 (by rw [r3.1]) (fun y hy => hx y (by simp [hy])) (by simpa using hlen) (by simpa using hw)
      refine ⟨m', e2, ?_⟩
      rw [hmc, hb] at r4
      have := PortRun.trans (r3.set (a' := { m with csrIn := post, cs := unpackCsr cfg.layout.csr w, mc := if CleanWord cfg w then (if m.mc = .faulted then .idle else m.mc) else .faulted })
        (by rw [r3.1]) rfl rfl) r4
      simpa [backoffAccesses] using this

theorem resetOp_script (cfg : Config) {m : Master} {w0 w : Word} {pre post : List Word}
    (h : m.csrIn = w0 :: (pre ++ w :: post)) (hb : BackoffEnds cfg pre w) :
    ∃ m', resetOp cfg m = (decide (CleanWord cfg w), m') ∧
      PortRun cfg
        { m with csrIn := post, cs := unpackCsr cfg.layout.csr w,
                 mc := if CleanWord cfg w then (if m.mc = .faulted then .idle else m.mc) else .faulted } m'
        (resetAccesses cfg m w0 pre w) (resetSleeps pre) := by
  obtain ⟨hb1, hb2, hb3⟩ := hb
  have r1 := readCsr_script cfg h
  have r2 := writeCsr_run cfg { csrNow cfg m with reset := true, foe := true } (readCsr cfg m)
  rw [r1.base, csrNow_cons h] at r2
  have r3 := r1.trans r2
  rw [resetOp_eq, csrNow_cons h]
  generalize writeCsr cfg { unpackCsr cfg.layout.csr w0 with reset := true, foe := true } (readCsr cfg m) = m1 at *
  obtain ⟨m', e, r4⟩ := resetLoop_script cfg w post pre backoff m1 (by rw [r3.1]) hb1 (by simp [backoff]; omega)
    (by simp [backoff]; omega)
  refine ⟨m', e, ?_⟩
  have hmc : m1.mc = m.mc := by rw [r3.1]
  have hbase : m1.base = m.base := r3.base
  rw [hmc, hbase] at r4
  have := PortRun.trans (r3.set (a' := { m with csrIn := post, cs := unpackCsr cfg.layout.csr w, mc := if CleanWord cfg w then (if m.mc = .faulted then .idle else m.mc) else .faulted })
    (by rw [r3.1]) rfl rfl) r4
  simpa [resetAccesses, resetSleeps, resetWord, backoff] using this

/-! ### enter -/

theorem enterJudge_script (cfg : Config) {m : Master} {f ok : Bool} {v last : Word} {acc : List Access} {rest : List Word}
    (hcs : m.cs = unpackCsr cfg.layout.csr v) (h : Judged cfg m f v m.csrIn acc ok last rest) :
    ∃ m', enterJudge cfg f m = (ok, m') ∧
      PortRun cfg { m with csrIn := rest, cs := unpackCsr cfg.layout.csr last, mc := if ok then .ready else .faulted } m'
        acc 0 := by
  simp only [Judged] at h
  simp only [enterJudge, hcs]
  split at h
  · rename_i hc
    obtain ⟨rfl, rfl, rfl, rfl⟩ := h
    rw [if_neg (by simp [hc.1, hc.2])]
    refine ⟨_, rfl, ⟨?_, by simp [accesses], by simp, by simp⟩⟩
    simp [← hcs]
  · rename_i hc
    obtain ⟨h1, rfl, rfl⟩ := h
    rw [if_pos (by simp only [Bool.or_eq_true, bne_iff_ne]; by_contra hn; simp only [not_or] at hn; simp_all)]
    have r1 := writeCsr_run cfg { unpackCsr cfg.layout.csr v with reset := false, foe := f } m
    generalize writeCsr cfg { unpackCsr cfg.layout.csr v with reset := false, foe := f } m = m1 at *
    have hi : m1.csrIn = last :: rest := by rw [r1.1]; exact h1
    have r2 := (fetchStatus_script cfg hi).as (by rw [r1.base])
    have r3 := PortRun.trans (r1.set (b' := { m1 with csrIn := rest, cs := unpackCsr cfg.layout.csr last })
      (a' := { m with csrIn := rest, cs := unpackCsr cfg.layout.csr last }) (by rw [r1.1]) rfl rfl) r2
    generalize fetchStatus cfg m1 = m2 at *
    have hcs2 : m2.cs = unpackCsr cfg.layout.csr last := by rw [r3.1]
    rw [hcs2]
    cases hr : (unpackCsr cfg.layout.csr last).reset
    · exact ⟨_, rfl, r3.set (by rw [r3.1]; simp) rfl rfl⟩
    · exact ⟨_, rfl, r3.set (by rw [r3.1]; simp) rfl rfl⟩

/-- enter() from its own first read on, of a value that is not dirty. -/
theorem enterFrom_clean (cfg : Config) {m : Master} {f ok : Bool} {w last : Word} {acc : List Access} {post rest : List Word}
    (hc : m.csrIn = w :: post) (hd : dirty (unpackCsr cfg.layout.csr w) = false) (h : Judged cfg m f w post acc ok last rest) :
    ∃ m', enterFrom cfg f m = (ok, m') ∧
      PortRun cfg { m with csrIn := rest, cs := unpackCsr cfg.layout.csr last, mc := if ok then .ready else .faulted } m'
        (.read (m.base + cfg.csrOff) w :: acc) 0 := by
  have r1 := fetchStatus_script cfg (m := { m with mc := .entering }) hc
  simp only [enterFrom]
  generalize fetchStatus cfg { m with mc := .entering } = m1 at *
  have hcs : m1.cs = unpackCsr cfg.layout.csr w := by rw [r1.1]
  rw [hcs, hd]
  have hi : m1.csrIn = post := by rw [r1.1]
  have hj : Judged cfg m1 f w m1.csrIn acc ok last rest := by
    simp only [Judged, hi, r1.base] at h ⊢; exact h
  obtain ⟨m', e, r2⟩ := enterJudge_script cfg hcs hj
  refine ⟨m', e, ?_⟩
  exact PortRun.trans (r1.set (a' := { m with csrIn := rest, cs := unpackCsr cfg.layout.csr last, mc := if ok then .ready else .faulted }) (by rw [r1.1]) rfl rfl) r2

/-- enter() from its own first read on, of a dirty value: the reset, and the judgement of the clean value it ends on. -/
theorem enterFrom_dirty (cfg : Config) {m : Master} {f : Bool} {w w0 v : Word} {pre post : List Word}
    (hc : m.csrIn = w :: w0 :: (pre ++ v :: post)) (hd : dirty (unpackCsr cfg.layout.csr w) = true)
    (hb : BackoffEnds cfg pre v) :
    (¬CleanWord cfg v → ∃ m', enterFrom cfg f m = (false, m') ∧
      PortRun cfg { m with csrIn := post, cs := unpackCsr cfg.layout.csr v, mc := .faulted } m'
        (.read (m.base + cfg.csrOff) w :: resetAccesses cfg m w0 pre v) (resetSleeps pre)) ∧
    (CleanWord cfg v → ∀ acc ok last rest, Judged cfg m f v post acc ok last rest → ∃ m', enterFrom cfg f m = (ok, m') ∧
      PortRun cfg { m with csrIn := rest, cs := unpackCsr cfg.layout.csr last, mc := if ok then .ready else .faulted } m'
        (.read (m.base + cfg.csrOff) w :: (resetAccesses cfg m w0 pre v ++ acc)) (resetSleeps pre)) := by
  have r1 := fetchStatus_script cfg (m := { m with mc := .entering }) hc
  simp only [enterFrom]
  generalize fetchStatus cfg { m with mc := .entering } = m1 at *
  have hcs : m1.cs = unpackCsr cfg.layout.csr w := by rw [r1.1]
  rw [hcs, hd]
  have hi : m1.csrIn = w0 :: (pre ++ v :: post) := by rw [r1.1]
  obtain ⟨m2, e, r2⟩ := resetOp_script cfg hi hb
  have hra : resetAccesses cfg m1 w0 pre v = resetAccesses cfg m w0 pre v := by simp only [resetAccesses, r1.base]
  have r2 := r2.as hra
  simp only [e, if_true]
  refine ⟨fun hv => ?_, fun hv acc ok last rest h => ?_⟩
  · rw [decide_eq_false hv]
    refine ⟨m2, rfl, ?_⟩
    simp only [if_neg hv] at r2
    have := PortRun.trans (r1.set (a' := { m with csrIn := post, cs := unpackCsr cfg.layout.csr v, mc := .faulted })
      (by rw [r1.1]) rfl rfl) r2
    simpa using this
  · rw [decide_eq_true hv]
    simp only [if_true]
    have hcs2 : m2.cs = unpackCsr cfg.layout.csr v := by rw [r2.1]
    have hi2 : m2.csrIn = post := by rw [r2.1]
    have hb2 : m2.base = m.base := r2.base.trans r1.base
    obtain ⟨m', e3, r3⟩ := enterJudge_script cfg (f := f) (acc := acc) (ok := ok) (last := last) (rest := rest) hcs2 (by
      simp only [Judged, hi2, hb2] at h ⊢; exact h)
    refine ⟨m', e3, ?_⟩
    have r2' := r2.set (b' := { m2 with csrIn := rest, cs := unpackCsr cfg.layout.csr last, mc := if ok then .ready else .faulted })
      (a' := { m1 with csrIn := rest, cs := unpackCsr cfg.layout.csr last, mc := if ok then .ready else .faulted })
      (by rw [r2.1]) rfl rfl
    have r1' := r1.set (b' := { m1 with csrIn := rest, cs := unpackCsr cfg.layout.csr last, mc := if ok then .ready else .faulted })
      (a' := { m with csrIn := rest, cs := unpackCsr cfg.layout.csr last, mc := if ok then .ready else .faulted })
      (by rw [r1.1]) rfl rfl
    have r12 := PortRun.trans r1' r2'
    simpa using r12.snoc r3

/-! ### leave -/

theorem drain_script (cfg : Config) (rest : List Word) : ∀ (ws : List Word) (m : Master), m.rspIn = ws ++ rest →
    PortRun cfg { m with rspIn := rest } (drain cfg ws.length m) (ws.map (fun w => .read (m.base + cfg.rspOff) w)) 0 := by
  intro ws
  induction ws with
  | nil =>
    intro m h
    have : m = { m with rspIn := rest } := by rw [← (show m.rspIn = rest from h)]
    exact this ▸ PortRun.refl cfg m
  | cons w ws ih =>
    intro m h
    have r1 := readRsp_script cfg h
    have r2 := (ih (readRsp cfg m) (congrArg Master.rspIn r1.1)).as (new' := ws.map (fun w => .read (m.base + cfg.rspOff) w))
      (by rw [show (readRsp cfg m).base = m.base from r1.base])
    exact PortRun.trans (r1.set (b' := { readRsp cfg m with rspIn := rest }) (a' := { m with rspIn := rest })
      (by rw [r1.1]) rfl rfl) r2

theorem leaveEnd_script (cfg : Config) {m : Master} {w : Word} {rest : List Word} (h : m.csrIn = w :: rest) :
    PortRun cfg { m with csrIn := rest, mc := if m.mc = .faulted then .faulted else .idle } (leaveEnd cfg m)
      ([.read (m.base + cfg.csrOff) w] ++
        (if dirty (unpackCsr cfg.layout.csr w) then [.write (m.base + cfg.csrOff) (armedWord cfg w)] else [])) 0 := by
  have r1 := readCsr_script cfg h
  have key : ∀ (m2 : Master) (new : List Access), PortRun cfg { m with csrIn := rest } m2 new 0 →
      PortRun cfg { m with csrIn := rest, mc := if m.mc = .faulted then .faulted else .idle } (leaveIdle m2) new 0 := by
    intro m2 new r
    have hmc : m2.mc = m.mc := by rw [r.1]
    refine r.set ?_ rfl rfl
    simp only [leaveIdle, hmc]
    split
    · rename_i hf
      rw [r.1]; simp [hf]
    · rw [r.1]
  simp only [leaveEnd, csrNow_cons h]
  by_cases hd : dirty (unpackCsr cfg.layout.csr w) = true
  · rw [if_pos hd, if_pos hd]
    have r2 := writeCsr_run cfg { unpackCsr cfg.layout.csr w with reset := true } (readCsr cfg m)
    rw [show (readCsr cfg m).base = m.base from r1.base] at r2
    exact key _ _ (r1.trans r2)
  · rw [if_neg hd, if_neg hd]
    exact key _ _ r1

theorem leaveOp_script (cfg : Config) {m : Master} {hadErr : Bool} {w0 w1 : Word} {rest drained rspRest : List Word}
    (h : m.csrIn = w0 :: w1 :: rest) (hr : m.rspIn = drained ++ rspRest)
    (hl : drained.length = if hadErr then 0 else (unpackCsr cfg.layout.csr w0).nrs.toNat) :
    PortRun cfg { m with csrIn := rest, rspIn := rspRest, mc := if m.mc = .faulted then .faulted else .idle }
      (leaveOp cfg hadErr m)
      ([.read (m.base + cfg.csrOff) w0] ++ drained.map (fun w => .read (m.base + cfg.rspOff) w) ++
        [.read (m.base + cfg.csrOff) w1] ++
        (if dirty (unpackCsr cfg.layout.csr w1) then [.write (m.base + cfg.csrOff) (armedWord cfg w1)] else [])) 0 := by
  have r1 := readCsr_script cfg h
  rw [leaveOp_eq, csrNow_cons h]
  have r2 : PortRun cfg { m with csrIn := w1 :: rest, rspIn := rspRest }
      (if hadErr then readCsr cfg m else drain cfg (unpackCsr cfg.layout.csr w0).nrs.toNat (readCsr cfg m))
      ([.read (m.base + cfg.csrOff) w0] ++ drained.map (fun w => .read (m.base + cfg.rspOff) w)) 0 := by
    cases hadErr with
    | true =>
      obtain rfl : drained = [] := by simpa using hl
      have : m.rspIn = rspRest := hr
      have e : ({ m with csrIn := w1 :: rest } : Master) = { m with csrIn := w1 :: rest, rspIn := rspRest } := by
        rw [← this]
      simpa [e] using r1
    | false =>
      simp only [Bool.false_eq_true, if_false] at hl ⊢
      rw [← hl]
      have r3 := (drain_script cfg rspRest drained (readCsr cfg m) (by rw [r1.1]; exact hr)).as
        (new' := drained.map (fun w => .read (m.base + cfg.rspOff) w)) (by simp only [r1.base])
      exact PortRun.trans (r1.set (b' := { readCsr cfg m with rspIn := rspRest })
        (a' := { m with csrIn := w1 :: rest, rspIn := rspRest }) (by rw [r1.1]) rfl rfl) r3
  generalize (if hadErr then readCsr cfg m else drain cfg (unpackCsr cfg.layout.csr w0).nrs.toNat (readCsr cfg m)) = m2 at *
  have r4 := leaveEnd_script cfg (m := m2) (w := w1) (rest := rest) (by rw [r2.1])
  have hmc : m2.mc = m.mc := by rw [r2.1]
  rw [hmc] at r4
  have r4 := r4.as (new' := [.read (m.base + cfg.csrOff) w1] ++
    (if dirty (unpackCsr cfg.layout.csr w1) then [.write (m.base + cfg.csrOff) (armedWord cfg w1)] else []))
    (by rw [r2.base])
  rw [List.append_assoc _ [Access.read (m.base + cfg.csrOff) w1]]
  exact PortRun.trans (r2.set (b' := { m2 with csrIn := rest, mc := if m.mc = .faulted then .faulted else .idle })
    (a' := { m with csrIn := rest, rspIn := rspRest, mc := if m.mc = .faulted then .faulted else .idle })
    (by rw [r2.1]) rfl rfl) r4

end Sys2Proof.Machine
end

