-- ==== Sys2Proof/Laws/Walk.lean ====
section
/-! SUPPORT. Runs of several steps: how steps follow one another, and what the phases ENTER, LEAVE and the reset of a TEARDOWN
come to as a whole. -/

namespace Sys2Proof.Machine

/-! ### Steps that follow one another -/

/-- `n` steps lead from `h` to `h'`, `goOn` true before each. -/
def Goes (goOn : Master → Bool) : Nat → Hand → Hand → Prop
  | 0, h, h' => h' = h
  | n + 1, h, h' => goOn h.m = true ∧ ∃ h1, advance h = .go h1 ∧ Goes goOn n h1 h'

theorem Goes.step {g : Master → Bool} {h h' : Hand} (hg : g h.m = true) (e : advance h = .go h') : Goes g 1 h h' :=
  ⟨hg, h', e, rfl⟩

theorem Goes.trans {g : Master → Bool} {b c : Hand} {k : Nat} : ∀ {n : Nat} {a : Hand}, Goes g n a b → Goes g k b c →
    Goes g (n + k) a c := by
  intro n
  induction n with
  | zero => intro a h h'; obtain rfl := h; simpa using h'
  | succ n ih =>
    intro a h h'
    obtain ⟨hg, h1, e, h⟩ := h
    rw [Nat.add_right_comm]
    exact ⟨hg, h1, e, ih h h'⟩

theorem Goes.mono {g g' : Master → Bool} (hi : ∀ m, g m = true → g' m = true) : ∀ {n : Nat} {a b : Hand}, Goes g n a b →
    Goes g' n a b := by
  intro n
  induction n with
  | zero => intro a b h; exact h
  | succ n ih => intro a b ⟨hg, h1, e, h⟩; exact ⟨hi _ hg, h1, e, ih h⟩

theorem Goes.any {g : Master → Bool} {n : Nat} {a b : Hand} (h : Goes g n a b) : Goes (fun _ => true) n a b :=
  h.mono fun _ _ => rfl

/-- A run makes the steps there are. -/
theorem Goes.run {g : Master → Bool} {b : Hand} {k : Nat} : ∀ {n : Nat} {a : Hand}, Goes g n a b →
    runWhile g (n + k) a = runWhile g k b := by
  intro n
  induction n with
  | zero => intro a h; obtain rfl := h; simp
  | succ n ih =>
    intro a ⟨hg, h1, e, h⟩
    rw [Nat.add_right_comm, runWhile_go hg e, ih h]

/-- A run that has come to its last step within its budget. -/
theorem Goes.run_end {g : Master → Bool} {a b : Hand} {n k : Nat} {r : Adv} (h : Goes g n a b) (hk : n < k)
    (hg : g b.m = true) (e : advance b = r) (hr : ∀ x, r ≠ .go x) : runWhile g k a = r := by
  obtain ⟨k, rfl⟩ : ∃ x, k = n + (x + 1) := ⟨k - n - 1, by omega⟩
  rw [h.run, runWhile_end hg e hr]

/-- A run that ends at all ends where its steps lead. -/
theorem Goes.ends {a b : Hand} {n k : Nat} {r : Adv} (h : Goes (fun _ => true) n a b) (e : advance b = r)
    (hr : ∀ x, r ≠ .go x) (hk : ∀ x, runWhile (fun _ => true) k a ≠ .go x) : runWhile (fun _ => true) k a = r := by
  by_cases hn : n < k
  · exact h.run_end hn rfl e hr
  · exfalso
    have : ∀ (k n : Nat) (a : Hand), Goes (fun _ => true) n a b → k ≤ n → ∃ x, runWhile (fun _ => true) k a = .go x := by
      intro k
      induction k with
      | zero => intro n a _ _; exact ⟨a, rfl⟩
      | succ k ih =>
        intro n a h hn
        obtain ⟨n, rfl⟩ : ∃ x, n = x + 1 := ⟨n - 1, by omega⟩
        obtain ⟨hg, h1, e1, h⟩ := h
        rw [runWhile_go hg e1]
        exact ih n h1 h (by omega)
    obtain ⟨x, hx⟩ := this k n a h (by omega)
    exact hk x hx

/-! ### The spot is the sequencer's -/

theorem advanceTime_setSpot (cfg : Config) (d : Nat) (m : Master) (x : Spot) :
    advanceTime cfg d { m with spot := x } = { advanceTime cfg d m with spot := x } := by
  simp only [advanceTime, afterDraw, drawn]
  cases hd : m.draws <;> simp only [hd] <;> split <;> rfl

theorem record_setSpot (cfg : Config) (ev : Nat → Event) (m : Master) (x : Spot) :
    record cfg ev { m with spot := x } = { record cfg ev m with spot := x } := by
  simp only [record, readClock, advanceTime_setSpot]

theorem readCsr_setSpot (cfg : Config) (m : Master) (x : Spot) :
    readCsr cfg { m with spot := x } = { readCsr cfg m with spot := x } := record_setSpot cfg _ { m with csrIn := m.csrIn.tail } x

theorem fetchStatus_setSpot (cfg : Config) (m : Master) (x : Spot) :
    fetchStatus cfg { m with spot := x } = { fetchStatus cfg m with spot := x } := by
  simp only [fetchStatus, readCsr_setSpot]
  rfl

theorem readRsp_setSpot (cfg : Config) (m : Master) (x : Spot) :
    readRsp cfg { m with spot := x } = { readRsp cfg m with spot := x } := record_setSpot cfg _ { m with rspIn := m.rspIn.tail } x

theorem writeCsr_setSpot (cfg : Config) (c : Csr) (m : Master) (x : Spot) :
    writeCsr cfg c { m with spot := x } = { writeCsr cfg c m with spot := x } := record_setSpot cfg _ m x

theorem fallAsleep_setSpot (cfg : Config) (d : Nat) (m : Master) (x : Spot) :
    fallAsleep cfg d { m with spot := x } = { fallAsleep cfg d m with spot := x } := record_setSpot cfg _ m x

/-- A primitive that does not look at the sequencer's spot. -/
def Blind {σ : Type} (next : σ → Master → Prim σ × Master) : Prop :=
  ∀ y m x, next y { m with spot := x } = ((next y m).1, { (next y m).2 with spot := x })

theorem resetStep_blind (cfg : Config) : Blind (resetStep cfg) := by
  intro y m x
  cases y with
  | read => simp only [resetStep, readCsr_setSpot]; rfl
  | write c => simp only [resetStep, writeCsr_setSpot]
  | sleep ds =>
    cases ds with
    | nil => rfl
    | cons d ds => simp only [resetStep, fallAsleep_setSpot]
  | wake d ds => simp only [resetStep, advanceTime_setSpot]
  | poll ds =>
    simp only [resetStep, fetchStatus_setSpot]
    split
    · split <;> rfl
    · rfl

theorem enterStep_blind (cfg : Config) (f : Bool) : Blind (enterStep cfg f) := by
  intro y m x
  have nest : ∀ (i : ResetSpot → EnterSpot) (a : EnterSpot) (r : ResetSpot),
      nested i a (resetStep cfg r { m with spot := x }) =
        ((nested i a (resetStep cfg r m)).1, { (nested i a (resetStep cfg r m)).2 with spot := x }) := by
    intro i a r
    rw [resetStep_blind cfg r m x]
    cases hr : (resetStep cfg r m).1 with
    | at_ z => simp only [nested, hr]
    | ret b => cases b <;> simp only [nested, hr]
  cases y with
  | start => rfl
  | recover r => exact nest _ _ r
  | read =>
    have := fetchStatus_setSpot cfg { m with mc := .entering } x
    simp only [enterStep]
    rw [show ({ ({ m with spot := x } : Master) with mc := .entering } : Master) = { ({ m with mc := .entering } : Master) with spot := x } from rfl, this]
  | clean r => exact nest _ _ r
  | judge =>
    simp only [enterStep]
    split
    · rw [writeCsr_setSpot]
    · rfl
  | confirm =>
    simp only [enterStep, fetchStatus_setSpot]
    split <;> rfl

theorem leaveStep_blind (cfg : Config) (b : Bool) : Blind (leaveStep cfg b) := by
  intro y m x
  have li : ∀ z : Master, leaveIdle { z with spot := x } = { leaveIdle z with spot := x } := by
    intro z; unfold leaveIdle; split <;> rfl
  cases y with
  | read => simp only [leaveStep, readCsr_setSpot]; rfl
  | drain n =>
    cases n with
    | zero => rfl
    | succ n => simp only [leaveStep, readRsp_setSpot]
  | again =>
    simp only [leaveStep, readCsr_setSpot, li]
    split
    · rename_i h; rw [if_pos (show dirty (csrNow cfg m) = true from h)]; rfl
    · rename_i h; rw [if_neg (show ¬dirty (csrNow cfg m) = true from h)]
  | arm c => simp only [leaveStep, writeCsr_setSpot, li]

theorem Blind.runPrim {σ : Type} {next : σ → Master → Prim σ × Master} (hb : Blind next) (x : Spot) : ∀ (n : Nat) (y : σ)
    (m : Master), Machine.runPrim next n y { m with spot := x } =
      ((Machine.runPrim next n y m).1, { (Machine.runPrim next n y m).2 with spot := x }) := by
  intro n
  induction n with
  | zero => intro y m; rfl
  | succ n ih =>
    intro y m
    simp only [Machine.runPrim, hb y m x]
    cases (next y m).1 with
    | at_ z => exact ih z _
    | ret b => rfl

/-- A phase whose step is a primitive's, up to the step that returns. -/
theorem phase_goes {σ : Type} {next : σ → Master → Prim σ × Master} {left : σ → Nat} (hf : Falls next left) (hb : Blind next)
    (spotAt : σ → Spot) {stands : σ → Hand → Prop} {done : Bool → Master → Adv} (h0 : Hand)
    (hat : ∀ y h, stands y h → ∀ z, (next y h.m).1 = .at_ z → advance h = .go (h.withM { (next y h.m).2 with spot := spotAt z }) ∧
      stands z (h.withM { (next y h.m).2 with spot := spotAt z }))
    (hret : ∀ y h, stands y h → ∀ ok, (next y h.m).1 = .ret ok → h.cfg = h0.cfg → h.mem = h0.mem →
      advance h = done ok (next y h.m).2)
    (hdone : ∀ ok m x, done ok { m with spot := x } = done ok m) :
    ∀ (k : Nat) (y : σ) (h : Hand), stands y h → h.cfg = h0.cfg → h.mem = h0.mem → left y < k →
      ∃ j h', j < k ∧ Goes (fun _ => true) j h h' ∧
        advance h' = done (runPrim next k y h.m).1 (runPrim next k y h.m).2 := by
  intro k
  induction k with
  | zero => intro y h _ _ _ hk; omega
  | succ k ih =>
    intro y h hs hc hm hk
    cases hr : (next y h.m).1 with
    | ret ok =>
      refine ⟨0, h, by omega, rfl, ?_⟩
      rw [hret y h hs ok hr hc hm, runPrim_ret hr]
    | at_ z =>
      obtain ⟨e, hs'⟩ := hat y h hs z hr
      obtain ⟨j, h', hj, hg, ha⟩ := ih z _ hs' hc hm (by have := hf y h.m z hr; omega)
      refine ⟨j + 1, h', by omega, ⟨rfl, _, e, hg⟩, ?_⟩
      rw [ha, runPrim_at hr]
      show done (runPrim next k z { (next y h.m).2 with spot := spotAt z }).1 (runPrim next k z { (next y h.m).2 with spot := spotAt z }).2 = _
      rw [hb.runPrim]
      exact hdone _ _ _

/-- What ENTER comes to when enter() returns. -/
def entered (h : Hand) (ok : Bool) (m : Master) : Adv :=
  if ok then .go (h.withM { m with ver := m.cs.ver, fsz := m.cs.fsz, pc := .capchk, spot := .outside })
  else .go (h.withM (raiseFailure (.enterFailed m.cs) m))

/-- The phase ENTER as a whole: enter(1), and its return (41_transfer_encode.md R165). -/
theorem enter_goes (h : Hand) (hp : h.m.pc = .enter) (hb : h.m.bare = none) (hs : h.m.spot = .outside) :
    ∃ j h', j < 40 ∧ Goes (fun _ => true) j h h' ∧ advance h' = entered h (enterOp h.cfg true h.m).1 (enterOp h.cfg true h.m).2 := by
  have hpc : ∀ (y : EnterSpot) (x : Hand) (s : Spot), (({ (enterStep x.cfg true y x.m).2 with spot := s } : Master)).pc = x.m.pc :=
    fun y x s => (enterStep_portOnly x.cfg true y x.m).pc
  have hbare : ∀ (y : EnterSpot) (x : Hand) (s : Spot), (({ (enterStep x.cfg true y x.m).2 with spot := s } : Master)).bare = x.m.bare :=
    fun y x s => (enterStep_portOnly x.cfg true y x.m).bare
  refine phase_goes (enterStep_falls h.cfg true) (enterStep_blind h.cfg true) Spot.enter
    (stands := fun y x => x.cfg = h.cfg ∧ x.m.pc = .enter ∧ x.m.bare = none ∧ enterSpot x.m = y) (done := entered h) h ?_ ?_ ?_
    40 .start h ⟨rfl, hp, hb, by simp [enterSpot, hs]⟩ rfl rfl (by simp [enterLeft])
  · rintro y x ⟨hc, hp, hb, rfl⟩ z hz
    rw [← hc] at hz ⊢
    refine ⟨?_, rfl, by rw [← hp]; exact hpc _ x _, by rw [← hb]; exact hbare _ x _, rfl⟩
    simp only [advance, hb, phaseStep, hp, phaseEnter, hz]
  · rintro y x ⟨hc, hp, hb, rfl⟩ ok hz hc' hm
    have hx : ∀ m, h.withM m = x.withM m := fun m => by simp [Hand.withM, hc', hm]
    rw [← hc] at hz ⊢
    simp only [advance, hb, phaseStep, hp, phaseEnter, hz, entered, hx]
    cases ok <;> rfl
  · intro ok m x
    cases ok <;> rfl

/-- The phase LEAVE as a whole: leave(had_error) (40_master_control.md R136). -/
theorem leave_goes (h : Hand) (hp : h.m.pc = .leave) (hb : h.m.bare = none) (hs : h.m.spot = .outside) :
    ∃ j, j < 1031 ∧ Goes (fun _ => true) j h
      (h.withM { leaveOp h.cfg (hadError h.m) h.m with pc := .unlock, spot := .outside }) := by
  have key : ∃ j h', j < 1030 ∧ Goes (fun _ => true) j h h' ∧
      advance h' = .go (h.withM { leaveOp h.cfg (hadError h.m) h.m with pc := .unlock, spot := .outside }) := by
    refine phase_goes (leaveStep_falls h.cfg (hadError h.m)) (leaveStep_blind h.cfg (hadError h.m)) Spot.leave
      (stands := fun y x => x.cfg = h.cfg ∧ hadError x.m = hadError h.m ∧ x.m.pc = .leave ∧ x.m.bare = none ∧ leaveSpot x.m = y)
      (done := fun _ m => .go (h.withM { m with pc := .unlock, spot := .outside })) h ?_ ?_ ?_
      1030 .read h ⟨rfl, rfl, hp, hb, by simp [leaveSpot, hs]⟩ rfl rfl (by simp [leaveLeft])
    · rintro y x ⟨hc, he, hp, hb, rfl⟩ z hz
      have p := leaveStep_portOnly x.cfg (hadError x.m) (leaveSpot x.m) x.m
      rw [← hc, ← he] at hz ⊢
      refine ⟨?_, rfl, ?_, by rw [← hp]; exact p.pc, by rw [← hb]; exact p.bare, rfl⟩
      · simp only [advance, hb, phaseStep, hp, phaseLeave, hz]
      · show (leaveStep x.cfg (hadError x.m) (leaveSpot x.m) x.m).2.err.isSome = _
        rw [p.err]; rfl
    · rintro y x ⟨hc, he, hp, hb, rfl⟩ ok hz hc' hm
      have hx : ∀ m, h.withM m = x.withM m := fun m => by simp [Hand.withM, hc', hm]
      rw [← hc, ← he] at hz ⊢
      simp only [advance, hb, phaseStep, hp, phaseLeave, hz, hx]
    · intro ok m x; rfl
  obtain ⟨j, h', hj, hg, ha⟩ := key
  exact ⟨j + 1, by omega, hg.trans (.step rfl ha)⟩

/-- The reset of a TEARDOWN as a whole (43_params_and_commands.md R226). -/
theorem tearReset_goes (h : Hand) (hp : h.m.pc = .tearReset) (hb : h.m.bare = none) (hs : h.m.spot = .outside) :
    ∃ j h', j < 16 ∧ Goes (fun _ => true) j h h' ∧
      advance h' = .pause (h.withM { (resetOp h.cfg h.m).2 with pc := .tearDestroy, spot := .outside }) := by
  refine phase_goes (resetStep_falls h.cfg) (resetStep_blind h.cfg) Spot.reset
    (stands := fun y x => x.cfg = h.cfg ∧ x.m.pc = .tearReset ∧ x.m.bare = none ∧ resetSpot x.m = y)
    (done := fun _ m => .pause (h.withM { m with pc := .tearDestroy, spot := .outside })) h ?_ ?_ ?_
    16 .read h ⟨rfl, hp, hb, by simp [resetSpot, hs]⟩ rfl rfl (by simp [resetLeft])
  · rintro y x ⟨hc, hp, hb, rfl⟩ z hz
    have p := resetStep_portOnly x.cfg (resetSpot x.m) x.m
    rw [← hc] at hz ⊢
    refine ⟨?_, rfl, by rw [← hp]; exact p.pc, by rw [← hb]; exact p.bare, rfl⟩
    simp only [advance, hb, phaseStep, hp, phaseTearReset, hz]
  · rintro y x ⟨hc, hp, hb, rfl⟩ ok hz hc' hm
    have hx : ∀ m, h.withM m = x.withM m := fun m => by simp [Hand.withM, hc', hm]
    rw [← hc] at hz ⊢
    simp only [advance, hb, phaseStep, hp, phaseTearReset, hz, hx]
  · intro ok m x; rfl

end Sys2Proof.Machine
end

