-- ==== Sys2Proof/Laws/Emission.lean ====
section
/-! SUPPORT. The items of a session: how many there are, which of them a layout can encode, the walk over the messages and
their bytes that comes to them, and what their emission comes to. -/

namespace Sys2Proof.Machine

/-! ### The items -/

theorem msgProtos_length (cfg : Config) (mem : Memory) (msg : Message) (p : Params) :
    (msgProtos cfg mem msg p).length = msgItemCount msg := by
  simp only [msgProtos, msgItemCount, List.length_append, List.length_map, List.length_range]
  split <;> simp

theorem sessionItems_length (h : Hand) : (sessionItems h).length = sessionSize h.m.msgs := by
  simp only [sessionItems, List.length_mapIdx, List.length_flatMap, sessionSize]
  congr 1
  exact List.map_congr_left fun x _ => msgProtos_length _ _ _ _

theorem items_length (cfg : Config) (m : Master) (busId : Nat) (msgs : List Message) (mem : Memory) :
    (itemsOf cfg m busId msgs mem).length = sessionSize msgs := sessionItems_length _

theorem contItems_length (h : Hand) (msg : Message) : (contItems h msg).length = h.m.nAnn.toNat := by
  simp [contItems]

/-- Item `k` of a session. -/
theorem sessionItems_get {h : Hand} {k : Nat} {it : ReqItem} (e : (sessionItems h)[k]? = some it) :
    ∃ p, (h.m.msgs.flatMap (fun msg => msgProtos h.cfg h.mem msg (msgParams h.m msg)))[k]? = some p ∧
      it = placeItem (k == 0) (BitVec.ofNat 4 h.m.bus) h.m.ss k p := by
  simp only [sessionItems, List.getElem?_mapIdx, Option.map_eq_some_iff] at e
  obtain ⟨p, hp, rfl⟩ := e
  exact ⟨p, hp, rfl⟩

/-- Item `q` of a continuation. -/
theorem contItems_get {h : Hand} {msg : Message} {q : Nat} {it : ReqItem} (e : (contItems h msg)[q]? = some it) :
    q < h.m.nAnn.toNat ∧
      it = contItem h.cfg (BitVec.ofNat 4 h.m.bus) (msgParams h.m msg) h.m.nAnn.toNat q := by
  simp only [contItems, List.getElem?_map, Option.map_eq_some_iff] at e
  obtain ⟨x, hx, rfl⟩ := e
  obtain ⟨h1, h2⟩ := List.getElem?_eq_some_iff.mp hx
  simp at h1 h2
  exact ⟨h1, by rw [← h2]⟩

/-- An item in its place is one a layout can encode, if the size is. -/
theorem placeItem_reqOk {l : ReqPlaces} {start : Bool} {bs : BitVec 4} {ss k : Nat} {p : Proto} (h0 : ss ≠ 0) (h1 : ss < 1024)
    (h2 : ss < 2 ^ l.ssWidth) : reqOk l (placeItem start bs ss k p) (k == 0) = true := by
  cases k with
  | zero =>
    simp only [reqOk, placeItem, beq_self_eq_true, if_true, Bool.and_eq_true, beq_iff_eq, bne_iff_ne, decide_eq_true_eq]
    refine ⟨⟨rfl, ?_⟩, ?_⟩
    · intro h
      have := congrArg BitVec.toNat h
      simp [Nat.mod_eq_of_lt h1] at this
      exact h0 this
    · simpa [Nat.mod_eq_of_lt h1] using h2
  | succ k => simp [reqOk, placeItem]

theorem contItems_reqOk {h : Hand} {msg : Message} {l : ReqPlaces} (h2 : h.m.nAnn.toNat < 2 ^ l.ssWidth)
    (k : Nat) (it : ReqItem) (e : (contItems h msg)[k]? = some it) : reqOk l it (k == 0) = true := by
  obtain ⟨hq, rfl⟩ := contItems_get e
  have := h.m.nAnn.isLt
  exact placeItem_reqOk (by omega) (by omega) h2

/-! ### The walk -/

/-- What does not change over messages that have nothing more to walk, `seek` finds unchanged: at the end of the list, or at a
position where there is something, which is a message of the list. -/
theorem seek_cases {α : Type} (f : List Message → Nat → Bool → α)
    (skip : ∀ msg rest j ad, atAddress msg ad = false → msg.length ≤ j → f (msg :: rest) j ad = f rest 0 false) :
    ∀ (l : List Message) (i j : Nat) (ad : Bool),
      (seek l i j ad = none → ∃ j' ad', f l j ad = f [] j' ad') ∧
      ∀ i' j' ad', seek l i j ad = some (i', j', ad') → ∃ msg rest, i ≤ i' ∧ l.drop (i' - i) = msg :: rest ∧
        (atAddress msg ad' = true ∨ j' < msg.length) ∧ f l j ad = f (msg :: rest) j' ad' := by
  intro l
  induction l with
  | nil => intro i j ad; exact ⟨fun _ => ⟨j, ad, rfl⟩, by simp [seek]⟩
  | cons msg rest ih =>
    intro i j ad
    simp only [seek]
    split
    · rename_i h
      refine ⟨by simp, ?_⟩
      rintro i' j' ad' he
      simp at he
      obtain ⟨rfl, rfl, rfl⟩ := he
      exact ⟨msg, rest, le_refl _, by simp, by simpa [atAddress] using h, rfl⟩
    · rename_i h
      have e := skip msg rest j ad (by simp [atAddress] at h ⊢; exact h.1) (by simp at h; omega)
      obtain ⟨i1, i2⟩ := ih (i + 1) 0 false
      refine ⟨fun hs => by rw [e]; exact i1 hs, ?_⟩
      intro i' j' ad' he
      obtain ⟨m', r', a, b, c, d⟩ := i2 i' j' ad' he
      refine ⟨m', r', by omega, ?_, c, by rw [e, d]⟩
      rw [show i' - i = (i' - (i + 1)) + 1 by omega]
      simpa using b

theorem seek_drop {l : List Message} {i j i' j' : Nat} {ad ad' : Bool} (h : seek l i j ad = some (i', j', ad')) :
    ∃ msg rest, i ≤ i' ∧ l.drop (i' - i) = msg :: rest := by
  obtain ⟨msg, rest, a, b, -⟩ := (seek_cases (fun _ _ _ => ()) (fun _ _ _ _ _ _ => rfl) l i j ad).2 i' j' ad' h
  exact ⟨msg, rest, a, b⟩

/-- The same of the position of a Master. -/
theorem nextPosition_cases {α : Type} (f : List Message → Nat → Bool → α)
    (skip : ∀ msg rest j ad, atAddress msg ad = false → msg.length ≤ j → f (msg :: rest) j ad = f rest 0 false) (m : Master) :
    (nextPosition m = none → ∃ j ad, f (m.msgs.drop m.i) m.j m.ad = f [] j ad) ∧
    ∀ i j ad, nextPosition m = some (i, j, ad) → ∃ msg rest, m.msgs.drop i = msg :: rest ∧ m.msgs[i]? = some msg ∧
      (atAddress msg ad = true ∨ j < msg.length) ∧ f (m.msgs.drop m.i) m.j m.ad = f (msg :: rest) j ad := by
  obtain ⟨h1, h2⟩ := seek_cases f skip (m.msgs.drop m.i) m.i m.j m.ad
  refine ⟨h1, fun i j ad h => ?_⟩
  obtain ⟨msg, rest, a, b, c, d⟩ := h2 i j ad h
  have hdrop : m.msgs.drop i = msg :: rest := by
    rw [List.drop_drop] at b; rw [← b]; congr 1; omega
  exact ⟨msg, rest, hdrop, by have := congrArg (fun l => l[0]?) hdrop; simpa using this, c, d⟩

theorem nextPosition_congr {a b : Master} (h1 : b.msgs = a.msgs) (h2 : b.i = a.i) (h3 : b.j = a.j) (h4 : b.ad = a.ad) :
    nextPosition b = nextPosition a := by simp only [nextPosition, h1, h2, h3, h4]

/-- The fields of the item at a position of the walk, but those of its place. -/
def protoAt (cfg : Config) (mem : Memory) (prm : Message → Params) (msg : Message) (j : Nat) (ad : Bool) : Proto :=
  if atAddress msg ad then addrProto msg (prm msg) else dataProto cfg mem msg (prm msg) j

/-- Those of the items from a position on, over the messages left. -/
def protosFrom (cfg : Config) (mem : Memory) (prm : Message → Params) : List Message → Nat → Bool → List Proto
  | [], _, _ => []
  | msg :: rest, j, ad =>
    (if atAddress msg ad then [addrProto msg (prm msg)] else []) ++
      (List.range' j (msg.length - j)).map (dataProto cfg mem msg (prm msg)) ++
      rest.flatMap (fun x => msgProtos cfg mem x (prm x))

theorem protosFrom_zero (cfg : Config) (mem : Memory) (prm : Message → Params) (l : List Message) :
    protosFrom cfg mem prm l 0 false = l.flatMap (fun x => msgProtos cfg mem x (prm x)) := by
  cases l with
  | nil => rfl
  | cons m r => cases h : m.noStart <;> simp [protosFrom, msgProtos, atAddress, h, List.range_eq_range']

/-- The first of them is that of the position, and the rest are those after it. -/
theorem protosFrom_cons {cfg : Config} {mem : Memory} {prm : Message → Params} {msg : Message} {rest : List Message} {j : Nat}
    {ad : Bool} (h : atAddress msg ad = true ∨ j < msg.length) :
    protosFrom cfg mem prm (msg :: rest) j ad =
      protoAt cfg mem prm msg j ad :: protosFrom cfg mem prm (msg :: rest) (if atAddress msg ad then j else j + 1) true := by
  have ht : atAddress msg true = false := rfl
  by_cases ha : atAddress msg ad = true
  · simp [protosFrom, protoAt, ha, ht]
  · obtain ⟨n, hn⟩ : ∃ n, msg.length - j = n + 1 := ⟨msg.length - j - 1, by have := h.resolve_left ha; omega⟩
    have hn1 : msg.length - (j + 1) = n := by omega
    simp [protosFrom, protoAt, ha, ht, hn, hn1, List.range'_succ]

theorem protosFrom_skip (cfg : Config) (mem : Memory) (prm : Message → Params) (msg : Message) (rest : List Message) (j : Nat)
    (ad : Bool) (ha : atAddress msg ad = false) (hj : msg.length ≤ j) :
    protosFrom cfg mem prm (msg :: rest) j ad = protosFrom cfg mem prm rest 0 false := by
  rw [protosFrom_zero]
  simp [protosFrom, ha, show msg.length - j = 0 by omega]

/-- What the walk has before it: at its end nothing, else the item at its position and what is left after it. -/
theorem nextPosition_protos (cfg : Config) (mem : Memory) (prm : Message → Params) (m : Master) :
    (nextPosition m = none → protosFrom cfg mem prm (m.msgs.drop m.i) m.j m.ad = []) ∧
    ∀ i j ad, nextPosition m = some (i, j, ad) → ∃ msg, m.msgs[i]? = some msg ∧
      protosFrom cfg mem prm (m.msgs.drop m.i) m.j m.ad =
        protoAt cfg mem prm msg j ad :: protosFrom cfg mem prm (m.msgs.drop i) (if atAddress msg ad then j else j + 1) true := by
  obtain ⟨h1, h2⟩ := nextPosition_cases (protosFrom cfg mem prm) (protosFrom_skip cfg mem prm) m
  refine ⟨fun h => by obtain ⟨_, _, e⟩ := h1 h; exact e, fun i j ad h => ?_⟩
  obtain ⟨msg, rest, a, b, c, d⟩ := h2 i j ad h
  exact ⟨msg, b, by rw [d, a, protosFrom_cons c]⟩

/-- The walk past the item at its position. -/
theorem walkOn_encode {m : Master} {i j : Nat} {ad : Bool} {msg : Message} (hp : m.pc = .encode)
    (hn : nextPosition m = some (i, j, ad)) (hm : m.msgs[i]? = some msg) : walkOn m = passItem msg i j ad m := by
  simp only [walkOn, hp, if_true, hn, hm]

/-- Outside ENCODE, and past the last item, the walk stands. -/
theorem walkOn_stays {m : Master} (h : m.pc ≠ .encode ∨ nextPosition m = none) : walkOn m = m := by
  unfold walkOn
  split
  · rw [h.resolve_left (by simp [*])]
  · rfl

/-! ### One item, and all of them -/

/-- An item that the layout can encode. -/
theorem emitItem_ok {h : Hand} {it : ReqItem} {first : Bool} (ok : reqOk h.cfg.layout.req it first = true) :
    emitItem first it h = .go (h.withM (emitWord h.cfg (reqWord h.cfg.layout.req it first) (walkOn h.m))) := by
  simp [emitItem, packReq, ok]

/-- One it cannot. -/
theorem emitItem_not {h : Hand} {it : ReqItem} {first : Bool} (ok : reqOk h.cfg.layout.req it first = false) :
    emitItem first it h = .refuse .notEncodable := by
  simp [emitItem, packReq, ok]

/-- A step of ENCODE with an item before it. -/
theorem advance_encode {h : Hand} {i j : Nat} {ad : Bool} {msg : Message} (hp : h.m.pc = .encode) (hb : h.m.bare = none)
    (hf : payloadsFit h.m.msgs = true) (hn : nextPosition h.m = some (i, j, ad)) (hm : h.m.msgs[i]? = some msg) :
    advance h = emitItem (h.m.k == 0) (placeItem (h.m.k == 0) (BitVec.ofNat 4 h.m.bus) h.m.ss h.m.k
      (protoAt h.cfg h.mem (msgParams h.m) msg j ad)) h := by
  simp only [advance, hb, phaseStep, hp, phaseEncode, hf, if_true, hn, hm, walkItem, protoAt]

/-- A step of ENCODE past the last item. -/
theorem advance_encode_end {h : Hand} (hp : h.m.pc = .encode) (hb : h.m.bare = none) (hf : payloadsFit h.m.msgs = true)
    (hn : nextPosition h.m = none) : advance h = .go (h.withM { h.m with pc := .wait, spot := .outside }) := by
  simp only [advance, hb, phaseStep, hp, phaseEncode, hf, if_true, hn]

/-- A step of CONT_ENCODE with an item before it. -/
theorem advance_contEncode {h : Hand} {msg : Message} {it : ReqItem} (hp : h.m.pc = .contEncode) (hb : h.m.bare = none)
    (hm : h.m.msgs[h.m.i]? = some msg) (hi : (contItems h msg)[h.m.k]? = some it) : advance h = emitItem (h.m.k == 0) it h := by
  simp only [advance, hb, phaseStep, hp, phaseContEncode, hm, hi]

/-- A step of CONT_ENCODE past the last item. -/
theorem advance_contEncode_end {h : Hand} {msg : Message} (hp : h.m.pc = .contEncode) (hb : h.m.bare = none)
    (hm : h.m.msgs[h.m.i]? = some msg) (hi : (contItems h msg)[h.m.k]? = none) :
    advance h = .go (h.withM { h.m with pc := .contWait, spot := .outside }) := by
  simp only [advance, hb, phaseStep, hp, phaseContEncode, hm, hi]

/-- `h` with only the port, the clock, `x[k]` and the walk moved on. -/
abbrev Hand.emitted (h : Hand) (m : Master) : Prop :=
  m = { h.m with k := m.k, i := m.i, j := m.j, ad := m.ad, hist := m.hist, time := m.time, draws := m.draws, nDraw := m.nDraw }

/-- The write of an item at place `k` of a session. -/
abbrev itemWrite (h : Hand) (k : Nat) (it : ReqItem) : Access :=
  .write (h.m.base + h.cfg.reqOff) (reqWord h.cfg.layout.req it (k == 0))

/-- The emission of the items the walk has before it, in ENCODE. -/
theorem walk_goes (h0 : Hand) (hp : h0.m.pc = .encode) (hb : h0.m.bare = none) (hf : payloadsFit h0.m.msgs = true)
    (s0 : h0.m.ss ≠ 0) (s1 : h0.m.ss < 1024) (s2 : h0.m.ss < 2 ^ h0.cfg.layout.req.ssWidth) :
    ∀ (ps : List Proto) (m : Master), h0.emitted m →
      protosFrom h0.cfg h0.mem (msgParams h0.m) (m.msgs.drop m.i) m.j m.ad = ps →
      ∃ m', Goes (fun m => m.pc = .encode) (ps.length + 1) (h0.withM m) (h0.withM m') ∧ nextPosition m' = none ∧
        PortRun h0.cfg { m with k := m.k + ps.length, i := m'.i, j := m'.j, ad := m'.ad, pc := .wait, spot := .outside } m'
          (ps.mapIdx (fun q p => itemWrite h0 (m.k + q)
            (placeItem (m.k + q == 0) (BitVec.ofNat 4 h0.m.bus) h0.m.ss (m.k + q) p))) 0 := by
  intro ps
  induction ps with
  | nil =>
    intro m hm hps
    have e1 : m.pc = .encode := (congrArg Master.pc hm).trans hp
    have e2 : m.bare = none := (congrArg Master.bare hm).trans hb
    have e3 : m.msgs = h0.m.msgs := by rw [hm]
    have hn : nextPosition m = none := by
      rcases hn : nextPosition m with _ | ⟨i, j, ad⟩
      · rfl
      · obtain ⟨msg, -, c⟩ := (nextPosition_protos h0.cfg h0.mem (msgParams h0.m) m).2 i j ad hn
        rw [hps] at c; cases c
    exact ⟨{ m with pc := .wait, spot := .outside },
      .step (decide_eq_true e1) (advance_encode_end (h := h0.withM m) e1 e2 (by rw [Hand.withM_m, e3]; exact hf) hn), hn,
      .refl _ _⟩
  | cons p ps ih =>
    intro m hm hps
    have e1 : m.pc = .encode := (congrArg Master.pc hm).trans hp
    have e2 : m.bare = none := (congrArg Master.bare hm).trans hb
    have e3 : m.msgs = h0.m.msgs := by rw [hm]
    have e4 : m.bus = h0.m.bus := by rw [hm]
    have e5 : m.ss = h0.m.ss := by rw [hm]
    have e6 : msgParams m = msgParams h0.m := by rw [hm]; rfl
    have e7 : m.base = h0.m.base := by rw [hm]
    rcases hn : nextPosition m with _ | ⟨i, j, ad⟩
    · rw [(nextPosition_protos h0.cfg h0.mem (msgParams h0.m) m).1 hn] at hps; cases hps
    · obtain ⟨msg, hget, c⟩ := (nextPosition_protos h0.cfg h0.mem (msgParams h0.m) m).2 i j ad hn
      rw [hps] at c
      obtain ⟨rfl, hrest⟩ := List.cons.inj c
      have hstep := advance_encode (h := h0.withM m) e1 e2 (by rw [Hand.withM_m, e3]; exact hf) hn hget
      rw [Hand.withM_m, Hand.withM_cfg, Hand.withM_mem, e4, e5, e6, emitItem_ok (h := h0.withM m) (placeItem_reqOk s0 s1 s2), Hand.withM_m, Hand.withM_cfg,
        walkOn_encode e1 hn hget] at hstep
      have r := emitWord_run h0.cfg (reqWord h0.cfg.layout.req (placeItem (m.k == 0) (BitVec.ofNat 4 h0.m.bus) h0.m.ss m.k
        (protoAt h0.cfg h0.mem (msgParams h0.m) msg j ad)) (m.k == 0)) (passItem msg i j ad m)
      generalize emitWord h0.cfg _ (passItem msg i j ad m) = m1 at *
      have k1 : m1.k = m.k + 1 := congrArg Master.k r.1
      have hm1 : h0.emitted m1 := by
        simp only [Hand.emitted]
        rw [r.1, passItem, hm]
      obtain ⟨m', g, n, r'⟩ := ih m1 hm1 (by
        rw [r.field Master.msgs fun _ _ _ _ _ => rfl, r.field Master.i fun _ _ _ _ _ => rfl,
          r.field Master.j fun _ _ _ _ _ => rfl, r.field Master.ad fun _ _ _ _ _ => rfl]
        exact hrest.symm)
      refine ⟨m', ?_, n, ?_⟩
      · rw [List.length_cons, Nat.add_comm (ps.length + 1) 1]
        exact Goes.trans (Goes.step (decide_eq_true e1) hstep) g
      · have r1 := r.set
          (b' := { m1 with k := m.k + (ps.length + 1), i := m'.i, j := m'.j, ad := m'.ad, pc := .wait, spot := .outside })
          (a' := { m with k := m.k + (ps.length + 1), i := m'.i, j := m'.j, ad := m'.ad, pc := .wait, spot := .outside })
          (by rw [r.1]; rfl) rfl rfl
        have hq : ∀ q, m.k + 1 + q = m.k + (q + 1) := fun q => by omega
        rw [k1, hq] at r'
        refine (PortRun.trans r1 r').as ?_
        simp only [List.mapIdx_cons, Nat.add_zero, List.singleton_append, itemWrite, passItem, e7, hq]

/-- The emission of the items of a continuation from `x[k]` on. -/
theorem cont_goes (h0 : Hand) (msg : Message) (hp : h0.m.pc = .contEncode) (hb : h0.m.bare = none)
    (hm0 : h0.m.msgs[h0.m.i]? = some msg) (h2 : h0.m.nAnn.toNat < 2 ^ h0.cfg.layout.req.ssWidth) :
    ∀ (n : Nat) (m : Master), m = { h0.m with k := m.k, hist := m.hist, time := m.time, draws := m.draws, nDraw := m.nDraw } →
      m.k + n = (contItems h0 msg).length →
      ∃ m', Goes (fun m => m.pc = .contEncode) (n + 1) (h0.withM m) (h0.withM m') ∧
        PortRun h0.cfg { m with k := (contItems h0 msg).length, pc := .contWait, spot := .outside } m'
          (((contItems h0 msg).drop m.k).mapIdx (fun q it => itemWrite h0 (m.k + q) it)) 0 := by
  intro n
  induction n with
  | zero =>
    intro m hm hk
    have e0 : contItems (h0.withM m) msg = contItems h0 msg := by rw [hm]; rfl
    have hk : m.k = (contItems h0 msg).length := by omega
    have e1 : m.pc = .contEncode := (congrArg Master.pc hm).trans hp
    refine ⟨{ m with pc := .contWait, spot := .outside }, .step (decide_eq_true e1)
      (advance_contEncode_end (h := h0.withM m) e1 ((congrArg Master.bare hm).trans hb)
        (by simp only [Hand.withM_m]; rw [hm]; exact hm0) (by rw [e0]; exact List.getElem?_eq_none (by simp [hk]))), ?_⟩
    rw [hk, List.drop_length, ← hk]
    exact .refl _ _
  | succ n ih =>
    intro m hm hk
    have e0 : contItems (h0.withM m) msg = contItems h0 msg := by rw [hm]; rfl
    have e1 : m.pc = .contEncode := (congrArg Master.pc hm).trans hp
    have e7 : m.base = h0.m.base := by rw [hm]
    have hlt : m.k < (contItems h0 msg).length := by omega
    have hget : (contItems h0 msg)[m.k]? = some (contItems h0 msg)[m.k] := List.getElem?_eq_getElem hlt
    have hstep := advance_contEncode (h := h0.withM m) e1 ((congrArg Master.bare hm).trans hb)
      (by simp only [Hand.withM_m]; rw [hm]; exact hm0) (by rw [e0]; exact hget)
    rw [Hand.withM_m, emitItem_ok (h := h0.withM m) (contItems_reqOk h2 _ _ hget), Hand.withM_m, Hand.withM_cfg,
      walkOn_stays (.inl (by rw [e1]; decide))] at hstep
    have r := emitWord_run h0.cfg (reqWord h0.cfg.layout.req (contItems h0 msg)[m.k] (m.k == 0)) m
    generalize emitWord h0.cfg _ m = m1 at *
    have k1 : m1.k = m.k + 1 := congrArg Master.k r.1
    obtain ⟨m', g', r'⟩ := ih m1 (by rw [r.1, hm]) (by omega)
    refine ⟨m', ?_, ?_⟩
    · rw [Nat.add_comm (n + 1) 1]
      exact Goes.trans (Goes.step (decide_eq_true e1) hstep) g'
    · have r1 := r.set (b' := { m1 with k := (contItems h0 msg).length, pc := .contWait, spot := .outside })
        (a' := { m with k := (contItems h0 msg).length, pc := .contWait, spot := .outside }) (by rw [r.1]) rfl rfl
      have hq : ∀ q, m.k + 1 + q = m.k + (q + 1) := fun q => by omega
      refine (PortRun.trans r1 r').as ?_
      simp only [List.drop_eq_getElem_cons hlt, List.mapIdx_cons, Nat.add_zero, List.singleton_append, itemWrite, e7, k1, hq]

/-! ### The two phases as a whole -/

/-- The phase ENCODE from its beginning (41_transfer_encode.md R173). -/
theorem encode_goes {h : Hand} (hp : h.m.pc = .encode) (hb : h.m.bare = none) (hk : h.m.k = 0) (hi : h.m.i = 0) (hj : h.m.j = 0)
    (ha : h.m.ad = false) (hf : payloadsFit h.m.msgs = true)
    (h0 : h.m.ss ≠ 0) (h1 : h.m.ss < 1024) (h2 : h.m.ss < 2 ^ h.cfg.layout.req.ssWidth) :
    ∃ m', Goes (fun m => m.pc = .encode) ((sessionItems h).length + 1) h (h.withM m') ∧ nextPosition m' = none ∧
      PortRun h.cfg { h.m with k := (sessionItems h).length, i := m'.i, j := m'.j, ad := m'.ad, pc := .wait, spot := .outside } m'
        ((sessionItems h).mapIdx (itemWrite h)) 0 := by
  obtain ⟨m', g, n, r⟩ := walk_goes h hp hb hf h0 h1 h2 _ h.m rfl rfl
  simp only [hi, hj, ha, List.drop_zero, protosFrom_zero, hk, Nat.zero_add] at g r
  have hl : (sessionItems h).length =
      (h.m.msgs.flatMap (fun msg => msgProtos h.cfg h.mem msg (msgParams h.m msg))).length := by
    simp only [sessionItems, List.length_mapIdx]
  refine ⟨m', by rw [hl]; exact g, n, ?_⟩
  rw [hl]
  refine r.as ?_
  simp only [sessionItems, List.mapIdx_mapIdx]
  rfl

/-- The phase CONT_ENCODE from its beginning (42_transfer_decode.md R203). -/
theorem contEncode_goes {h : Hand} {msg : Message} (hp : h.m.pc = .contEncode) (hb : h.m.bare = none) (hk : h.m.k = 0)
    (hm : h.m.msgs[h.m.i]? = some msg) (h2 : h.m.nAnn.toNat < 2 ^ h.cfg.layout.req.ssWidth) :
    ∃ m', Goes (fun m => m.pc = .contEncode) ((contItems h msg).length + 1) h (h.withM m') ∧
      PortRun h.cfg { h.m with k := (contItems h msg).length, pc := .contWait, spot := .outside } m'
        ((contItems h msg).mapIdx (itemWrite h)) 0 := by
  obtain ⟨m', g, r⟩ := cont_goes h msg hp hb hm h2 (contItems h msg).length h.m rfl (by rw [hk]; omega)
  exact ⟨m', g, r.as (by rw [hk]; simp only [List.drop_zero, Nat.zero_add])⟩

/-! ### The prechecks -/

/-- What a list that is not refused holds. -/
theorem listRefusal_facts {busId : Nat} {msgs : List Message} (h : listRefusal busId msgs = none) :
    (∃ x xs, msgs = x :: xs ∧ x.noStart = false) ∧ busId < 16 ∧ ∀ x ∈ msgs, msgRefusal x = none := by
  cases msgs with
  | nil => simp [listRefusal] at h
  | cons x xs =>
    simp only [listRefusal] at h
    split at h
    · cases h
    · split at h
      · cases h
      · rename_i hns _
        exact ⟨⟨x, xs, rfl, by simpa using hns⟩, by omega, by simpa [List.findSome?_eq_none_iff] using h⟩

/-- What a message that is not refused holds. -/
theorem msgRefusal_facts {x : Message} (h : msgRefusal x = none) :
    x.addr ≤ 0x7F ∧ x.length ≤ x.cap ∧ (x.vlr = true → x.read = true ∧ 1 ≤ x.length ∧ x.length + 32 ≤ x.cap) := by
  simp only [msgRefusal] at h
  split at h
  · cases h
  split at h
  · cases h
  split at h
  · cases h
  split at h
  · cases h
  rename_i h1 h2 h3 h4
  simp only [neededCap] at h4
  refine ⟨by omega, by split at h4 <;> omega, fun hv => ?_⟩
  simp only [hv, Bool.true_and, Bool.not_eq_true', Bool.not_eq_false, beq_iff_eq, if_true] at h2 h3 h4
  exact ⟨by simpa using h2, by omega, by omega⟩

/-- The size of a list that is not refused. -/
theorem sessionSize_pos {busId : Nat} {msgs : List Message} (h : listRefusal busId msgs = none) : 1 ≤ sessionSize msgs := by
  obtain ⟨⟨x, xs, rfl, hx⟩, -, -⟩ := listRefusal_facts h
  simp [sessionSize, msgItemCount, hx]
  omega

theorem payloadsFit_of_listRefusal {busId : Nat} {msgs : List Message} (h : listRefusal busId msgs = none) :
    payloadsFit msgs = true := by
  obtain ⟨-, -, hr⟩ := listRefusal_facts h
  simp only [payloadsFit, List.all_eq_true]
  intro x hx
  have := (msgRefusal_facts (hr x hx)).2.1
  simp [this]

end Sys2Proof.Machine
end

