-- ==== Sys2Proof/Laws/Responses.lean ====
section
/-! SUPPORT. The walk of the responses over the messages: how many are left, what they leave in host memory, and what the phase
DECODE comes to over a run of good responses. -/

namespace Sys2Proof.Machine

/-! ### Responses left and bytes to store -/

/-- Is data item `j` of this message the block-length item, still to come? -/
def atLength (msg : Message) (j : Nat) : Bool := msg.vlr && j == 0 && msg.length != 0

/-- The responses still expected from a position on, over the messages left. -/
def remCount : List Message → Nat → Bool → Nat
  | [], _, _ => 0
  | msg :: rest, j, ad => (if atAddress msg ad then 1 else 0) + (msg.length - j) + sessionSize rest

/-- Those of them before the next block-length response. -/
def untilBlock : List Message → Nat → Bool → Nat
  | [], _, _ => 0
  | msg :: rest, j, ad =>
    (if atAddress msg ad then 1 else 0) + if atLength msg j then 0 else msg.length - j + untilBlock rest 0 false

/-- What the responses from a position on leave in host memory. -/
def storeFrom : List Message → Nat → Bool → List Rsp → Memory → Memory
  | [], _, _, _, mem => mem
  | msg :: rest, j, ad, rs, mem =>
    let data := if atAddress msg ad then rs.drop 1 else rs
    let mem' := if msg.read then storeBytes msg j (data.take (msg.length - j)) mem else mem
    storeResponses rest (data.drop (msg.length - j)) mem'

theorem storeFrom_zero (l : List Message) (rs : List Rsp) (mem : Memory) : storeFrom l 0 false rs mem = storeResponses l rs mem := by
  cases l with
  | nil => rfl
  | cons m r => cases h : m.noStart <;> simp [storeFrom, storeResponses, atAddress, h]

theorem remCount_zero (l : List Message) : remCount l 0 false = sessionSize l := by
  cases l with
  | nil => rfl
  | cons m r => cases h : m.noStart <;> simp [remCount, sessionSize, msgItemCount, atAddress, h]

/-- One less past the item at a position. -/
theorem remCount_pass {msg : Message} {rest : List Message} {j : Nat} {ad : Bool} (h : atAddress msg ad = true ∨ j < msg.length) :
    remCount (msg :: rest) (if atAddress msg ad then j else j + 1) true + 1 = remCount (msg :: rest) j ad := by
  have ht : atAddress msg true = false := rfl
  by_cases hA : atAddress msg ad = true
  · simp only [remCount, hA, ht, if_true, Bool.false_eq_true, if_false]; omega
  · have hj := h.resolve_left hA
    simp only [remCount, hA, ht, Bool.false_eq_true, if_false]; omega

theorem untilBlock_le (l : List Message) : ∀ j ad, untilBlock l j ad ≤ remCount l j ad := by
  induction l with
  | nil => intro j ad; simp [untilBlock]
  | cons m r ih =>
    intro j ad
    have := ih 0 false
    rw [remCount_zero] at this
    simp only [untilBlock, remCount]
    cases atLength m j <;> simp <;> omega

/-- With no block read to come, all of them. -/
theorem untilBlock_eq (l : List Message) : ∀ j ad, (∀ x ∈ l.drop 1, x.vlr = false) → (∀ x, l.head? = some x → atLength x j = false) →
    untilBlock l j ad = remCount l j ad := by
  induction l with
  | nil => intro j ad _ _; rfl
  | cons m r ih =>
    intro j ad h1 h2
    have h1 : ∀ x ∈ r, x.vlr = false := h1
    have := ih 0 false (fun x hx => h1 x (List.mem_of_mem_drop hx))
      (fun x hx => by simp [atLength, h1 x (List.mem_of_mem_head? hx)])
    rw [remCount_zero] at this
    simp [untilBlock, remCount, h2 m rfl, this]; omega

/-- What a position leaves: responses, those before a block length, and what they store. -/
def leftFrom (l : List Message) (j : Nat) (ad : Bool) : Nat × Nat × (List Rsp → Memory → Memory) :=
  (remCount l j ad, untilBlock l j ad, storeFrom l j ad)

theorem leftFrom_skip (msg : Message) (rest : List Message) (j : Nat) (ad : Bool) (ha : atAddress msg ad = false)
    (hj : msg.length ≤ j) : leftFrom (msg :: rest) j ad = leftFrom rest 0 false := by
  have e0 : msg.length - j = 0 := by omega
  have hl : atLength msg j = false := by
    by_cases hj : j = 0
    · subst hj; simp [atLength, show msg.length = 0 by omega]
    · simp [atLength, hj]
  simp only [leftFrom, Prod.mk.injEq]
  refine ⟨?_, ?_, ?_⟩
  · rw [remCount_zero]; simp [remCount, ha, e0]
  · simp [untilBlock, ha, e0, hl]
  · funext rs mem
    rw [storeFrom_zero]
    simp [storeFrom, e0, ha, storeBytes]

/-- The next position of a Master, by what is left. -/
theorem nextPosition_spec (m : Master) :
    (nextPosition m = none → remCount (m.msgs.drop m.i) m.j m.ad = 0) ∧
    ∀ i j ad, nextPosition m = some (i, j, ad) → ∃ msg rest, m.msgs.drop i = msg :: rest ∧ m.msgs[i]? = some msg ∧
      remCount (m.msgs.drop m.i) m.j m.ad = remCount (msg :: rest) j ad ∧
      untilBlock (m.msgs.drop m.i) m.j m.ad = untilBlock (msg :: rest) j ad ∧
      (atAddress msg ad = true ∨ j < msg.length) ∧
      ∀ rs mem, storeFrom (m.msgs.drop m.i) m.j m.ad rs mem = storeFrom (msg :: rest) j ad rs mem := by
  obtain ⟨h1, h2⟩ := nextPosition_cases leftFrom leftFrom_skip m
  refine ⟨fun h => by obtain ⟨_, _, e⟩ := h1 h; exact congrArg Prod.fst e, fun i j ad h => ?_⟩
  obtain ⟨msg, rest, a, b, c, d⟩ := h2 i j ad h
  simp only [leftFrom, Prod.mk.injEq] at d
  exact ⟨msg, rest, a, b, d.1, d.2.1, c, fun rs mem => by rw [d.2.2]⟩

/-- The end of the walk. -/
theorem nextPosition_none {m : Master} (h : remCount (m.msgs.drop m.i) m.j m.ad = 0) : nextPosition m = none := by
  rcases hn : nextPosition m with _ | ⟨i, j, ad⟩
  · rfl
  · obtain ⟨msg, rest, -, -, c, -, e, -⟩ := (nextPosition_spec m).2 i j ad hn
    rw [h] at c
    simp only [remCount] at c
    rcases e with e | e
    · rw [if_pos e] at c; omega
    · omega

/-- The block-length item is next. -/
theorem nextPosition_length {m : Master} (h : remCount (m.msgs.drop m.i) m.j m.ad ≠ 0)
    (h0 : untilBlock (m.msgs.drop m.i) m.j m.ad = 0) :
    ∃ i ad msg rest, nextPosition m = some (i, 0, ad) ∧ m.msgs.drop i = msg :: rest ∧ m.msgs[i]? = some msg ∧
      atAddress msg ad = false ∧ msg.vlr = true ∧ 1 ≤ msg.length ∧
      remCount (m.msgs.drop m.i) m.j m.ad = msg.length + sessionSize rest ∧
      ∀ rs mem, storeFrom (m.msgs.drop m.i) m.j m.ad rs mem = storeFrom (msg :: rest) 0 ad rs mem := by
  rcases hn : nextPosition m with _ | ⟨i, j, ad⟩
  · exact absurd ((nextPosition_spec m).1 hn) h
  · obtain ⟨msg, rest, a, b, c, d, e, f⟩ := (nextPosition_spec m).2 i j ad hn
    rw [h0] at d
    simp only [untilBlock] at d
    have ha : atAddress msg ad = false := by
      cases hh : atAddress msg ad
      · rfl
      · rw [hh] at d; simp at d; omega
    have hl : atLength msg j = true := by
      cases hh : atLength msg j
      · rcases e with e | e
        · rw [ha] at e; cases e
        · rw [hh] at d; simp at d; omega
      · rfl
    simp only [atLength, Bool.and_eq_true, beq_iff_eq, bne_iff_ne] at hl
    obtain ⟨⟨hv, rfl⟩, hlen⟩ := hl
    refine ⟨i, ad, msg, rest, rfl, a, b, ha, hv, by omega, ?_, f⟩
    rw [c]; simp [remCount, ha]

/-! ### Good responses -/

/-- A response read in DECODE that validates: what `takeResponse` is then. -/
theorem takeResponse_good {w : Word} {h : Hand}
    (hv : validateRsp h.cfg (unpackRsp h.cfg.layout.rsp w) h.m.e (h.m.rem - 1 == 0) = none) :
    takeResponse w h = placeResponse (unpackRsp h.cfg.layout.rsp w) (nextPosition h.m)
      (h.withM { h.m with rem := h.m.rem - 1, e := h.m.e + 1 }) := by
  simp only [takeResponse, countResponse, isLast, hv]

/-- A step of DECODE while responses are expected. -/
theorem advance_decode {h : Hand} (hp : h.m.pc = .decode) (hb : h.m.bare = none) (hn : nextPosition h.m ≠ none) :
    advance h = takeResponse (rspAnswer h.m) (h.withM (readRsp h.cfg h.m)) := by
  simp only [advance, hb, phaseStep, hp, phaseDecode]
  cases hx : nextPosition h.m with
  | none => exact absurd hx hn
  | some p => rfl

/-- What a good response that is no block length does at its position. -/
theorem placeResponse_good {r : Rsp} {h : Hand} {i j : Nat} {ad : Bool} {msg : Message} (hm : h.m.msgs[i]? = some msg)
    (hl : (msg.vlr && j == 0) = true → atAddress msg ad = true) (hc : atAddress msg ad = true ∨ j < msg.cap) :
    placeResponse r (some (i, j, ad)) h =
      .go ⟨h.cfg, { h.m with i := i, j := if atAddress msg ad then j else j + 1, ad := true },
        if atAddress msg ad then h.mem else if msg.read then bufWrite h.mem msg j r.d else h.mem⟩ := by
  simp only [placeResponse, hm]
  by_cases ha : atAddress msg ad = true
  · simp [ha, Hand.withM]
  · simp only [ha, Bool.false_eq_true, if_false]
    have hj : ¬msg.cap ≤ j := by have := hc.resolve_left ha; omega
    have hl' : (msg.vlr && j == 0) = false := by
      cases hx : (msg.vlr && j == 0)
      · rfl
      · exact absurd (hl hx) ha
    cases hr : msg.read
    · simp [dataResponse, hr, Hand.withM]
    · simp [dataResponse, hr, Hand.withM, hj, hl']

/-- The phase DECODE over a run of good responses, none of them a block length. -/
theorem decode_goes (cfg : Config) (rest : List Word) : ∀ (ws : List Word) (m : Master) (mem : Memory),
    m.pc = .decode → m.bare = none → m.rspIn = ws ++ rest →
    ws.length ≤ untilBlock (m.msgs.drop m.i) m.j m.ad → (∀ x ∈ m.msgs, x.length ≤ x.cap) →
    (∀ n w, ws[n]? = some w →
      validateRsp cfg (unpackRsp cfg.layout.rsp w) (m.e + BitVec.ofNat 4 n) (m.rem - n - 1 == 0) = none) →
    ∃ m' mem', Goes (fun m => m.pc = .decode) ws.length ⟨cfg, m, mem⟩ ⟨cfg, m', mem'⟩ ∧
      PortRun cfg { m with rspIn := rest, i := m'.i, j := m'.j, ad := m'.ad, e := m.e + BitVec.ofNat 4 ws.length, rem := m.rem - ws.length }
        m' (ws.map (fun w => .read (m.base + cfg.rspOff) w)) 0 ∧
      remCount (m'.msgs.drop m'.i) m'.j m'.ad + ws.length = remCount (m.msgs.drop m.i) m.j m.ad ∧
      untilBlock (m'.msgs.drop m'.i) m'.j m'.ad + ws.length = untilBlock (m.msgs.drop m.i) m.j m.ad ∧
      ∀ more, storeFrom (m.msgs.drop m.i) m.j m.ad (ws.map (unpackRsp cfg.layout.rsp) ++ more) mem =
        storeFrom (m'.msgs.drop m'.i) m'.j m'.ad more mem' := by
  intro ws
  induction ws with
  | nil =>
    intro m mem hp hb hr _ _ _
    refine ⟨m, mem, rfl, ?_, rfl, rfl, fun more => rfl⟩
    have e : ({ m with rspIn := rest, i := m.i, j := m.j, ad := m.ad, e := m.e + BitVec.ofNat 4 ([] : List Word).length, rem := m.rem - ([] : List Word).length } : Master) = m := by
      have : rest = m.rspIn := hr.symm
      simp [this]
    rw [e]
    exact .refl cfg m
  | cons w ws ih =>
    intro m mem hp hb hr hc hv hval
    have hne : nextPosition m ≠ none := by
      intro hn
      have h1 := (nextPosition_spec m).1 hn
      have h2 := untilBlock_le (m.msgs.drop m.i) m.j m.ad
      simp at hc
      omega
    rcases hn : nextPosition m with _ | ⟨i', j', ad'⟩
    · exact absurd hn hne
    · obtain ⟨msg, r', hdrop, hget, c, d, e, f⟩ := (nextPosition_spec m).2 i' j' ad' hn
      have r1 := readRsp_script cfg hr
      have hans : rspAnswer m = w := rspAnswer_cons hr
      have hadv := advance_decode (h := ⟨cfg, m, mem⟩) hp hb hne
      simp only [Hand.withM, hans] at hadv
      generalize readRsp cfg m = m1 at *
      have hm1 : m1.e = m.e ∧ m1.rem = m.rem ∧ m1.msgs = m.msgs ∧ m1.i = m.i ∧ m1.j = m.j ∧ m1.ad = m.ad ∧ m1.pc = m.pc ∧ m1.bare = m.bare ∧ m1.rspIn = ws ++ rest ∧ m1.base = m.base := by
        exact ⟨r1.field Master.e fun _ _ _ _ _ => rfl, r1.field Master.rem fun _ _ _ _ _ => rfl,
          r1.field Master.msgs fun _ _ _ _ _ => rfl, r1.field Master.i fun _ _ _ _ _ => rfl,
          r1.field Master.j fun _ _ _ _ _ => rfl, r1.field Master.ad fun _ _ _ _ _ => rfl,
          r1.field Master.pc fun _ _ _ _ _ => rfl, r1.field Master.bare fun _ _ _ _ _ => rfl,
          r1.field Master.rspIn fun _ _ _ _ _ => rfl, r1.base⟩
      obtain ⟨e1, e2, e3, e4, e5, e6, e7, e8, e9, e10⟩ := hm1
      have hval0 : validateRsp cfg (unpackRsp cfg.layout.rsp w) m1.e (m1.rem - 1 == 0) = none := by
        have := hval 0 w rfl
        rw [e1, e2]; simpa using this
      have hnl : (msg.vlr && j' == 0) = true → atAddress msg ad' = true := by
        intro hx
        by_contra hA
        have hj := e.resolve_left hA
        have hl : atLength msg j' = true := by
          simp only [atLength, hx, Bool.true_and, bne_iff_ne]; omega
        rw [d] at hc
        simp only [untilBlock, hA, hl, List.length_cons] at hc
        simp at hc
      have hcap : atAddress msg ad' = true ∨ j' < msg.cap := by
        rcases e with e | e
        · exact .inl e
        · exact .inr (lt_of_lt_of_le e (hv msg (List.mem_of_getElem? hget)))
      have hstep : advance ⟨cfg, m, mem⟩ = .go ⟨cfg,
          { m1 with rem := m1.rem - 1, e := m1.e + 1, i := i', j := if atAddress msg ad' then j' else j' + 1, ad := true },
          if atAddress msg ad' then mem else if msg.read then bufWrite mem msg j' (unpackRsp cfg.layout.rsp w).d else mem⟩ := by
        rw [hadv, takeResponse_good (h := ⟨cfg, m1, mem⟩) hval0]
        have hn1 : nextPosition m1 = some (i', j', ad') := (nextPosition_congr e3 e4 e5 e6).trans hn
        show placeResponse _ (nextPosition m1) _ = _
        rw [hn1, placeResponse_good (msg := msg) (by show m1.msgs[i']? = _; rw [e3]; exact hget) hnl hcap]
        rfl
      generalize hm2 : ({ m1 with rem := m1.rem - 1, e := m1.e + 1, i := i', j := if atAddress msg ad' then j' else j' + 1, ad := true } : Master) = m2 at hstep
      generalize hmem2 : (if atAddress msg ad' then mem else if msg.read then bufWrite mem msg j' (unpackRsp cfg.layout.rsp w).d else mem) = mem2 at hstep
      have g : m2.pc = .decode ∧ m2.bare = none ∧ m2.rspIn = ws ++ rest ∧ m2.msgs = m.msgs ∧ m2.i = i' ∧ m2.j = (if atAddress msg ad' then j' else j' + 1) ∧ m2.ad = true ∧ m2.e = m.e + 1 ∧ m2.rem = m.rem - 1 ∧ m2.base = m.base := by
        subst hm2
        exact ⟨e7.trans hp, e8.trans hb, e9, e3, rfl, rfl, rfl, by rw [← e1], by rw [← e2], e10⟩
      obtain ⟨g1, g2, g3, g4, g5, g6, g7, g8, g9, g10⟩ := g
      have hrem2 : remCount (m2.msgs.drop m2.i) m2.j m2.ad + 1 = remCount (m.msgs.drop m.i) m.j m.ad := by
        rw [g4, g5, g6, g7, hdrop, c]
        exact remCount_pass e
      have hunt2 : untilBlock (m2.msgs.drop m2.i) m2.j m2.ad + 1 = untilBlock (m.msgs.drop m.i) m.j m.ad := by
        rw [g4, g5, g6, g7, hdrop, d]
        simp only [untilBlock]
        have ht : atAddress msg true = false := by simp [atAddress]
        rw [ht]
        by_cases hA : atAddress msg ad' = true
        · simp only [hA, if_true, Bool.false_eq_true, if_false]; omega
        · have hj := e.resolve_left hA
          have hl1 : atLength msg j' = false := by
            cases hx : (msg.vlr && j' == 0)
            · simp [atLength, hx]
            · exact absurd (hnl hx) hA
          have hl2 : atLength msg (j' + 1) = false := by simp [atLength]
          simp only [hA, hl1, hl2, Bool.false_eq_true, if_false]; omega
      have hst2 : ∀ more, storeFrom (m.msgs.drop m.i) m.j m.ad (unpackRsp cfg.layout.rsp w :: more) mem =
          storeFrom (m2.msgs.drop m2.i) m2.j m2.ad more mem2 := by
        intro more
        rw [f, g4, g5, g6, g7, hdrop, ← hmem2]
        have ht : atAddress msg true = false := by simp [atAddress]
        simp only [storeFrom, ht]
        by_cases hA : atAddress msg ad' = true
        · simp [hA]
        · have hj := e.resolve_left hA
          have hlen : msg.length - j' = (msg.length - (j' + 1)) + 1 := by omega
          simp only [hA, Bool.false_eq_true, if_false]
          rw [hlen]
          cases msg.read <;> simp [storeBytes]
      obtain ⟨m', mem', i1, i2, i3, i4, i5⟩ := ih m2 mem2 g1 g2 g3 (by simp at hc; omega) (by rw [g4]; exact hv) (by
        intro n w' hw'
        have := hval (n + 1) w' (by simpa using hw')
        have ee : m.e + 1 + BitVec.ofNat 4 n = m.e + BitVec.ofNat 4 (n + 1) := by
          rw [BitVec.add_assoc]; congr 1; apply BitVec.eq_of_toNat_eq; simp; omega
        rw [g8, g9, ee, show m.rem - 1 - n - 1 = m.rem - (n + 1) - 1 by omega]
        exact this)
      refine ⟨m', mem', ?_, ?_, by simp; omega, by simp; omega, fun more => ?_⟩
      · rw [List.length_cons, Nat.add_comm]
        exact Goes.trans (Goes.step (by simp [hp]) hstep) i1
      · have ee : m.e + 1 + BitVec.ofNat 4 ws.length = m.e + BitVec.ofNat 4 (ws.length + 1) := by
          rw [BitVec.add_assoc]; congr 1; apply BitVec.eq_of_toNat_eq; simp; omega
        rw [g8, g9, g10, ee] at i2
        have r1' := r1.set (b' := { m2 with base := m.base, rspIn := rest, i := m'.i, j := m'.j, ad := m'.ad, e := m.e + BitVec.ofNat 4 (ws.length + 1), rem := m.rem - 1 - ws.length })
          (a' := { m with rspIn := rest, i := m'.i, j := m'.j, ad := m'.ad, e := m.e + BitVec.ofNat 4 (w :: ws).length, rem := m.rem - (w :: ws).length })
          (by
            rw [← hm2, r1.1]
            have : m.rem - 1 - ws.length = m.rem - (w :: ws).length := by simp; omega
            rw [this]; rfl) (by rfl) rfl
        exact PortRun.trans r1' i2
      · rw [List.map_cons, List.cons_append, hst2, i5]

end Sys2Proof.Machine
end

