-- ==== Sys2Proof/Laws/Budget.lean ====
section
/-! SUPPORT. A TRANSFER that has been accepted ends or sleeps within its budget of steps, whatever the engine answers. -/

namespace Sys2Proof.Machine

/-! ### How far a TRANSFER is from its end -/

/-- The block reads not yet extended, from a position on. -/
def pending (l : List Message) (j : Nat) : Nat :=
  match l with
  | [] => 0
  | m :: r => (if m.vlr && j == 0 then 1 else 0) + r.countP (·.vlr)

/-- Steps of a wait left before it sleeps or returns. -/
def waitLeft : WaitSpot → Nat
  | .start => 4
  | .wake _ => 4
  | .read => 3
  | .test => 2
  | .clear => 1

/-- The responses left, with an allowance for a block read not yet extended. -/
def walkLeft (m : Master) : Nat := remCount (m.msgs.drop m.i) m.j m.ad + 80 * pending (m.msgs.drop m.i) m.j

/-- A bound on the steps a TRANSFER has left before it ends or sleeps. -/
def stepsLeft (m : Master) : Nat :=
  match m.pc with
  | .size => 2 * sessionSize m.msgs + 1154
  | .enter => 2 * sessionSize m.msgs + 1119 + enterLeft (enterSpot m)
  | .capchk => 2 * sessionSize m.msgs + 1118
  | .encode => sessionSize m.msgs + 1117 + remCount (m.msgs.drop m.i) m.j m.ad
  | .wait => sessionSize m.msgs + 1111 + waitLeft (waitSpot m)
  | .decode => walkLeft m + 1030
  | .contEncode => walkLeft m + 1037 + (m.nAnn.toNat - m.k)
  | .contWait => walkLeft m + 1031 + waitLeft (waitSpot m)
  | .leave => 2 + leaveLeft (leaveSpot m)
  | .unlock => 1
  | _ => 0

/-- Every buffer has room for what is still to come (41_transfer_encode.md R162). -/
def bufferRoom (l : List Message) (j : Nat) : Prop :=
  match l with
  | [] => True
  | m :: r => (m.length ≤ m.cap ∧ (m.vlr = true → m.read = true ∧ (j = 0 → m.length + 32 ≤ m.cap))) ∧
      ∀ x ∈ r, x.length ≤ x.cap ∧ (x.vlr = true → x.read = true ∧ x.length + 32 ≤ x.cap)

/-- What holds of the messages and the sizes, by phase. -/
def PhaseOk (m : Master) : Prop :=
  match m.pc with
  | .size => bufferRoom m.msgs 0 ∧ 1 ≤ sessionSize m.msgs ∧ m.spot = .outside
  | .enter => bufferRoom m.msgs 0 ∧ 1 ≤ sessionSize m.msgs ∧ m.ss = sessionSize m.msgs
  | .capchk => bufferRoom m.msgs 0 ∧ 1 ≤ sessionSize m.msgs ∧ m.ss = sessionSize m.msgs
  | .encode => bufferRoom m.msgs 0 ∧ 1 ≤ sessionSize m.msgs ∧ m.ss = sessionSize m.msgs ∧ m.ss < 1024
  | .wait => bufferRoom m.msgs 0
  | .decode => bufferRoom (m.msgs.drop m.i) m.j
  | .contEncode => bufferRoom (m.msgs.drop m.i) m.j ∧ m.nAnn.toNat ≤ 32
  | .contWait => bufferRoom (m.msgs.drop m.i) m.j
  | .leave => True
  | .unlock => True
  | _ => False

/-- A TRANSFER on its way: `cmd` holds the lock of Master `id`, `vs` are the block-read flags of its messages, at most one. -/
structure Running (cmd id rid : Nat) (vs : List Bool) (m : Master) : Prop where
  id : m.id = id
  rid : m.rid = rid
  lock : m.lock = .held cmd
  bare : m.bare = none
  vsEq : m.msgs.map (·.vlr) = vs
  one : vs.countP (· == true) ≤ 1
  ph : PhaseOk m

/-- How a run of it ends. -/
def RunEnds (cfg : Config) (cmd id rid : Nat) (vs : List Bool) : Adv → Prop
  | .go _ => False
  | .pause h => h.m.id = id ∧ h.m.rid = rid ∧ h.m.lock = .held cmd ∧ (h.m.pc = .wait ∨ h.m.pc = .contWait) ∧
      ∃ d, h.m.spot = .wait (.wake d)
  | .done h c a => h.m.id = id ∧ h.m.rid = rid ∧ h.m.lock = .free ∧ h.m.pc = .idle ∧ c = cmd ∧
      ((∃ ms, a = .success ms) ∨ ∃ k, a = .failure k)
  | .gone _ _ => False
  | .refuse r => (r = .blockReadNotLast ∧ true ∈ vs) ∨ (r = .notEncodable ∧ cfg.layout.req.ssWidth < 10)

/-- What one step of it does. -/
def StepRuns (cmd id rid : Nat) (vs : List Bool) (h : Hand) : Adv → Prop
  | .go h' => h'.cfg = h.cfg ∧ Running cmd id rid vs h'.m ∧ stepsLeft h'.m < stepsLeft h.m
  | a => RunEnds h.cfg cmd id rid vs a

theorem phaseOk_decode {m : Master} (h : m.pc = .decode) : PhaseOk m ↔ bufferRoom (m.msgs.drop m.i) m.j := by
  simp only [PhaseOk, h]

theorem phaseOk_contEncode {m : Master} (h : m.pc = .contEncode) :
    PhaseOk m ↔ bufferRoom (m.msgs.drop m.i) m.j ∧ m.nAnn.toNat ≤ 32 := by simp only [PhaseOk, h]

theorem phaseOk_wait {m : Master} (h : m.pc = .wait) : PhaseOk m ↔ bufferRoom m.msgs 0 := by simp only [PhaseOk, h]

theorem phaseOk_contWait {m : Master} (h : m.pc = .contWait) : PhaseOk m ↔ bufferRoom (m.msgs.drop m.i) m.j := by
  simp only [PhaseOk, h]

theorem phaseOk_encode {m : Master} (h : m.pc = .encode) :
    PhaseOk m ↔ bufferRoom m.msgs 0 ∧ 1 ≤ sessionSize m.msgs ∧ m.ss = sessionSize m.msgs ∧ m.ss < 1024 := by
  simp only [PhaseOk, h]

theorem phaseOk_enter {m : Master} (h : m.pc = .enter) :
    PhaseOk m ↔ bufferRoom m.msgs 0 ∧ 1 ≤ sessionSize m.msgs ∧ m.ss = sessionSize m.msgs := by simp only [PhaseOk, h]

theorem phaseOk_leave {m : Master} (h : m.pc = .leave) : PhaseOk m := by simp only [PhaseOk, h]

theorem stepsLeft_decode {m : Master} (h : m.pc = .decode) : stepsLeft m = walkLeft m + 1030 := by simp only [stepsLeft, h]

theorem stepsLeft_contEncode {m : Master} (h : m.pc = .contEncode) : stepsLeft m = walkLeft m + 1037 + (m.nAnn.toNat - m.k) := by
  simp only [stepsLeft, h]

theorem stepsLeft_wait {m : Master} (h : m.pc = .wait) : stepsLeft m = sessionSize m.msgs + 1111 + waitLeft (waitSpot m) := by
  simp only [stepsLeft, h]

theorem stepsLeft_contWait {m : Master} (h : m.pc = .contWait) : stepsLeft m = walkLeft m + 1031 + waitLeft (waitSpot m) := by
  simp only [stepsLeft, h]

theorem stepsLeft_encode {m : Master} (h : m.pc = .encode) :
    stepsLeft m = sessionSize m.msgs + 1117 + remCount (m.msgs.drop m.i) m.j m.ad := by simp only [stepsLeft, h]

theorem stepsLeft_enter {m : Master} (h : m.pc = .enter) :
    stepsLeft m = 2 * sessionSize m.msgs + 1119 + enterLeft (enterSpot m) := by simp only [stepsLeft, h]

theorem stepsLeft_leave {m : Master} (h : m.pc = .leave) : stepsLeft m = 2 + leaveLeft (leaveSpot m) := by
  simp only [stepsLeft, h]

/-- A step that goes on with the same messages. -/
theorem Running.next {cmd id rid : Nat} {vs : List Bool} {h h' : Hand} (hg : Running cmd id rid vs h.m) (hc : h'.cfg = h.cfg)
    (h1 : h'.m.id = h.m.id) (h2 : h'.m.rid = h.m.rid) (h3 : h'.m.lock = h.m.lock) (h4 : h'.m.bare = h.m.bare)
    (h5 : h'.m.msgs.map (·.vlr) = h.m.msgs.map (·.vlr)) (hp : PhaseOk h'.m) (hs : stepsLeft h'.m < stepsLeft h.m) :
    StepRuns cmd id rid vs h (.go h') :=
  ⟨hc, ⟨h1.trans hg.id, h2.trans hg.rid, h3.trans hg.lock, h4.trans hg.bare, h5.trans hg.vsEq, hg.one, hp⟩, hs⟩

/-- The same after accesses. -/
theorem Running.port {cmd id rid : Nat} {vs : List Bool} {h h' : Hand} {m1 : Master} (hg : Running cmd id rid vs h.m)
    (p : PortOnly h.cfg h.m m1) (hc : h'.cfg = h.cfg) (h1 : h'.m.id = m1.id) (h2 : h'.m.rid = m1.rid)
    (h3 : h'.m.lock = m1.lock) (h4 : h'.m.bare = m1.bare) (h5 : h'.m.msgs = m1.msgs) (hp : PhaseOk h'.m)
    (hs : stepsLeft h'.m < stepsLeft h.m) : StepRuns cmd id rid vs h (.go h') :=
  hg.next hc (h1.trans p.id) (h2.trans p.rid) (h3.trans p.lock) (h4.trans p.bare) (by rw [h5, p.msgs]) hp hs

/-- A command that has come to LEAVE. -/
theorem stepsLeft_raise (f : Failure) (m : Master) : stepsLeft (raiseFailure f m) = 1028 := by
  simp [stepsLeft, raiseFailure, leaveSpot, leaveLeft]

/-- Taking the exception. -/
theorem Running.raise {cmd id rid : Nat} {vs : List Bool} {h : Hand} {m1 : Master} (hg : Running cmd id rid vs h.m)
    (p : PortOnly h.cfg h.m m1) (f : Failure) (hs : 1028 < stepsLeft h.m) :
    StepRuns cmd id rid vs h (.go (h.withM (raiseFailure f m1))) :=
  hg.port p rfl rfl rfl rfl rfl rfl trivial (by rw [Hand.withM_m, stepsLeft_raise]; exact hs)

theorem pending_le (l : List Message) (j : Nat) : pending l j ≤ l.countP (·.vlr) := by
  cases l with
  | nil => simp [pending]
  | cons m r => simp only [pending, List.countP_cons]; cases m.vlr <;> simp; split <;> omega

theorem bufferRoom_drop (l : List Message) : ∀ j k, bufferRoom l j → bufferRoom (l.drop (k+1)) 0 := by
  intro j k h
  cases l with
  | nil => simp [bufferRoom]
  | cons m r =>
    have h2 := h.2
    simp only [List.drop_succ_cons]
    cases hd : r.drop k with
    | nil => trivial
    | cons x xs =>
      have hm : ∀ y ∈ x :: xs, y ∈ r := fun y hy => List.mem_of_mem_drop (hd ▸ hy)
      have hx := h2 x (hm x (by simp))
      exact ⟨⟨hx.1, fun hv => ⟨(hx.2 hv).1, fun _ => (hx.2 hv).2⟩⟩, fun y hy => h2 y (hm y (by simp [hy]))⟩

theorem pending_drop (l : List Message) (j k : Nat) : pending (l.drop (k+1)) 0 ≤ pending l j := by
  cases l with
  | nil => simp [pending]
  | cons m r =>
    have := pending_le (r.drop k) 0
    have h2 : (r.drop k).countP (·.vlr) ≤ r.countP (·.vlr) := (List.drop_sublist k r).countP_le
    simp only [List.drop_succ_cons]; simp only [pending] at *; omega

theorem bufferRoom_fits {l : List Message} (h : bufferRoom l 0) : ∀ x ∈ l, x.length ≤ x.cap := by
  cases l with
  | nil => simp
  | cons m r =>
    intro x hx
    rcases List.mem_cons.mp hx with rfl | hx
    · exact h.1.1
    · exact (h.2 x hx).1

/-- The next position leaves room and no more block reads than there were. -/
theorem seek_bufferRoom (l : List Message) : ∀ i j ad i' j' ad', bufferRoom l j → seek l i j ad = some (i', j', ad') →
    ∃ msg rest, l.drop (i' - i) = msg :: rest ∧ bufferRoom (msg :: rest) j' ∧ pending (msg :: rest) j' ≤ pending l j := by
  induction l with
  | nil => intro i j ad i' j' ad' _ h; simp [seek] at h
  | cons m r ih =>
    intro i j ad i' j' ad' hok h
    obtain ⟨msg, rest, -, b⟩ := seek_drop h
    refine ⟨msg, rest, b, ?_⟩
    simp only [seek] at h
    split at h
    · simp at h; obtain ⟨rfl, rfl, rfl⟩ := h
      simp at b; obtain ⟨rfl, rfl⟩ := b
      exact ⟨hok, le_refl _⟩
    · have hd0 := bufferRoom_drop (m :: r) j 0 hok
      have hp0 := pending_drop (m :: r) j 0
      simp only [List.drop_succ_cons, List.drop_zero] at hd0 hp0
      obtain ⟨_, _, a, -⟩ := seek_drop h
      obtain ⟨msg', rest', b', e', f'⟩ := ih (i+1) 0 false i' j' ad' hd0 h
      rw [show i' - i = (i' - (i + 1)) + 1 by omega, List.drop_succ_cons, b'] at b
      obtain ⟨rfl, rfl⟩ := List.cons.inj b
      exact ⟨e', f'.trans hp0⟩

theorem drop_set_self (l : List Message) (i : Nat) (x m : Message) (r : List Message)
    (h : l.drop i = m :: r) : (l.set i x).drop i = x :: r := by
  induction l generalizing i with
  | nil => simp at h
  | cons y ys ih =>
    cases i with
    | zero => simp at h; simp [h.2]
    | succ i => simp at h; simpa using ih i h

theorem growMessage_eq {l : List Message} {i n : Nat} {m : Message} (h : l[i]? = some m) :
    growMessage l i n = l.set i { m with length := m.length + n } := by
  apply List.ext_getElem?
  intro k
  rw [growMessage, List.getElem?_modify, List.getElem?_set]
  by_cases hk : i = k
  · subst hk; simp [h]; exact (List.getElem?_eq_some_iff.mp h).1
  · simp [hk]

/-- The flags of the messages do not change when one of them grows. -/
theorem growMessage_vlr (l : List Message) (i n : Nat) : (growMessage l i n).map (·.vlr) = l.map (·.vlr) := by
  apply List.ext_getElem?
  intro k
  simp only [growMessage, List.getElem?_map, List.getElem?_modify]
  cases l[k]? with
  | none => rfl
  | some x => by_cases hk : i = k <;> simp [hk]

/-! ### One response -/

/-- A block-length response. -/
theorem blockLength_running {cmd id rid : Nat} {vs : List Bool} {h0 h : Hand} (hg : Running cmd id rid vs h0.m)
    (hp0 : h0.m.pc = .decode) (hc : h.cfg = h0.cfg) (h1 : h.m.id = h0.m.id) (h2 : h.m.rid = h0.m.rid)
    (h3 : h.m.lock = h0.m.lock) (h4 : h.m.bare = h0.m.bare) (h5 : h.m.msgs = h0.m.msgs) (h6 : h.m.pc = h0.m.pc)
    {msg : Message} {rest : List Message} (hd : h.m.msgs.drop h.m.i = msg :: rest) (hj : h.m.j = 1) (hv : msg.vlr = true)
    (hcap : msg.read = true ∧ msg.length + 32 ≤ msg.cap) (hroom : ∀ x ∈ rest, x.length ≤ x.cap ∧ (x.vlr = true → x.read = true ∧ x.length + 32 ≤ x.cap))
    (hleft : remCount (msg :: rest) 1 h.m.ad + 80 * pending (msg :: rest) 0 + 1030 ≤ stepsLeft h0.m) (n : Byte) :
    StepRuns cmd id rid vs h0 (blockLength n h) := by
  have hget : h.m.msgs[h.m.i]? = some msg := by have := congrArg (fun l => l[0]?) hd; simpa using this
  have hvt : true ∈ vs := by
    rw [← hg.vsEq, ← h5]; exact List.mem_map.mpr ⟨msg, List.mem_of_getElem? hget, hv⟩
  have hpz : pending (msg :: rest) 1 + 1 = pending (msg :: rest) 0 := by simp [pending, hv, Nat.add_comm]
  have hst : 1028 < stepsLeft h0.m := by omega
  simp only [blockLength]
  split
  · exact hg.next hc h1 h2 h3 h4 (by rw [← h5]; rfl) trivial (by rw [Hand.withM_m, stepsLeft_raise]; exact hst)
  · rename_i hlen
    have hN : 1 ≤ n.toNat ∧ n.toNat ≤ 32 := by simp [lengthInRange] at hlen; omega
    have hdrop' : (growMessage h.m.msgs h.m.i n.toNat).drop h.m.i = { msg with length := msg.length + n.toNat } :: rest := by
      rw [growMessage_eq hget]; exact drop_set_self _ _ _ _ _ hd
    have hok' : bufferRoom ({ msg with length := msg.length + n.toNat } :: rest) 1 :=
      ⟨⟨by show msg.length + _ ≤ msg.cap; omega, fun _ => ⟨hcap.1, by simp⟩⟩, hroom⟩
    have hrem' : remCount ({ msg with length := msg.length + n.toNat } :: rest) 1 h.m.ad ≤ remCount (msg :: rest) 1 h.m.ad + 32 := by
      have e : atAddress { msg with length := msg.length + n.toNat } h.m.ad = atAddress msg h.m.ad := rfl
      simp only [remCount, e]; omega
    have hpend' : pending ({ msg with length := msg.length + n.toNat } :: rest) 1 = pending (msg :: rest) 1 := by simp [pending]
    have hvs : (growMessage h.m.msgs h.m.i n.toNat).map (·.vlr) = h0.m.msgs.map (·.vlr) := by rw [growMessage_vlr, h5]
    split
    · have hpc : h.m.pc = .decode := h6.trans hp0
      refine hg.next hc h1 h2 h3 h4 hvs ((phaseOk_decode (by exact hpc)).mpr ?_) (lt_of_lt_of_le ?_ hleft)
      · simp only [Hand.withM_m, hdrop', hj]; exact hok'
      · rw [stepsLeft_decode (by exact hpc)]
        simp only [Hand.withM_m, walkLeft, hdrop', hj]
        omega
    · split
      · exact .inl ⟨rfl, hvt⟩
      · refine hg.next hc h1 h2 h3 h4 hvs ((phaseOk_contEncode rfl).mpr ⟨?_, hN.2⟩) (lt_of_lt_of_le ?_ hleft)
        · simp only [Hand.withM_m, hdrop', hj]; exact hok'
        · rw [stepsLeft_contEncode rfl]
          simp only [Hand.withM_m, walkLeft, hdrop', hj]
          omega

theorem takeResponse_running {cmd id rid : Nat} {vs : List Bool} (h : Hand) (hg : Running cmd id rid vs h.m)
    (hp : h.m.pc = .decode) {i' j' : Nat} {ad' : Bool} (hn : nextPosition h.m = some (i', j', ad')) (w : Word) (m2 : Master)
    (p : PortOnly h.cfg h.m m2) : StepRuns cmd id rid vs h (takeResponse w (h.withM m2)) := by
  have hok : bufferRoom (h.m.msgs.drop h.m.i) h.m.j := by have := hg.ph; simpa only [PhaseOk, hp] using this
  obtain ⟨msg, rest, hdrop, hget, c, -, d, -⟩ := (nextPosition_spec h.m).2 i' j' ad' hn
  obtain ⟨msg', rest', b', e, f⟩ := seek_bufferRoom _ _ _ _ _ _ _ hok hn
  obtain ⟨rfl, rfl⟩ : msg' = msg ∧ rest' = rest := by
    obtain ⟨_, _, a, -⟩ := seek_drop hn
    rw [List.drop_drop, show h.m.i + (i' - h.m.i) = i' by omega, hdrop] at b'
    exact ⟨(List.cons.inj b').1.symm, (List.cons.inj b').2.symm⟩
  have hmeas : stepsLeft h.m = remCount (msg' :: rest') j' ad' + 80 * pending (h.m.msgs.drop h.m.i) h.m.j + 1030 := by
    simp only [stepsLeft, hp, walkLeft, c]
  have hn2 : nextPosition m2 = some (i', j', ad') := (nextPosition_congr p.msgs p.i p.j p.ad).trans hn
  have hpc2 : m2.pc = .decode := p.pc.trans hp
  simp only [takeResponse, Hand.withM, hn2]
  split
  · refine hg.port p rfl rfl rfl rfl rfl rfl trivial ?_
    rw [hmeas]
    show 1028 < _
    omega
  · have fin : ∀ (m3 : Master) (mem : Memory), m3.id = m2.id → m3.rid = m2.rid → m3.lock = m2.lock → m3.bare = m2.bare →
        m3.msgs = m2.msgs → m3.pc = m2.pc → m3.i = i' → bufferRoom (msg' :: rest') m3.j →
        remCount (msg' :: rest') m3.j m3.ad < remCount (msg' :: rest') j' ad' →
        pending (msg' :: rest') m3.j ≤ pending (msg' :: rest') j' → StepRuns cmd id rid vs h (.go ⟨h.cfg, m3, mem⟩) := by
      intro m3 mem h1 h2 h3 h4 h5 h6 h7 h8 h9 h10
      have hd : m3.msgs.drop m3.i = msg' :: rest' := by rw [h5, h7, p.msgs, hdrop]
      refine hg.port p rfl h1 h2 h3 h4 h5 ?_ ?_
      · simp only [PhaseOk, h6, hpc2, hd]; exact h8
      · rw [hmeas]
        simp only [stepsLeft, h6, hpc2, walkLeft, hd]
        omega
    simp only [placeResponse, countResponse, Hand.withM]
    rw [show m2.msgs[i']? = some msg' by rw [p.msgs]; exact hget]
    simp only
    by_cases hA : atAddress msg' ad' = true
    · rw [if_pos hA]
      refine fin { m2 with rem := m2.rem - 1, e := m2.e + 1, i := i', j := j', ad := true } h.mem rfl rfl rfl rfl rfl rfl rfl e ?_ (le_refl _)
      simp only [remCount, hA, if_true]
      simp [atAddress]
    · rw [if_neg hA]
      have hj : j' < msg'.length := d.resolve_left hA
      have hrem : remCount (msg' :: rest') (j'+1) true < remCount (msg' :: rest') j' ad' := by
        simp only [remCount, hA]
        simp [atAddress]; omega
      have hok1 : bufferRoom (msg' :: rest') (j'+1) := ⟨⟨e.1.1, fun hv => ⟨(e.1.2 hv).1, by simp⟩⟩, e.2⟩
      have hpend1 : pending (msg' :: rest') (j'+1) ≤ pending (msg' :: rest') j' := by simp [pending]
      simp only [dataResponse]
      split
      · exact fin { m2 with rem := m2.rem - 1, e := m2.e + 1, i := i', j := j' + 1, ad := true } h.mem rfl rfl rfl rfl rfl rfl rfl hok1 hrem hpend1
      · split
        · have := e.1.1; omega
        · split
          · rename_i hvj
            simp only [Bool.and_eq_true, beq_iff_eq] at hvj
            obtain ⟨hv, rfl⟩ := hvj
            have hcap := e.1.2 hv
            refine blockLength_running (h0 := h) (msg := msg') (rest := rest') hg hp (by rfl) p.id p.rid p.lock p.bare p.msgs p.pc ?_ rfl hv
              ⟨hcap.1, hcap.2 rfl⟩ e.2 ?_ _
            · show m2.msgs.drop i' = _
              rw [p.msgs, hdrop]
            · rw [hmeas]
              show remCount (msg' :: rest') 1 true + _ + _ ≤ _
              have : remCount (msg' :: rest') 1 true < remCount (msg' :: rest') 0 ad' := hrem
              omega
          · exact fin { m2 with rem := m2.rem - 1, e := m2.e + 1, i := i', j := j' + 1, ad := true } _ rfl rfl rfl rfl rfl rfl rfl hok1 hrem hpend1

/-! ### The wait and the other phases -/

theorem pending_start {vs : List Bool} {msgs : List Message} (h : msgs.map (·.vlr) = vs)
    (h1 : vs.countP (· == true) ≤ 1) : pending msgs 0 ≤ 1 := by
  have := pending_le msgs 0
  have e : msgs.countP (·.vlr) = vs.countP (· == true) := by
    rw [← h, List.countP_map]; apply List.countP_congr; intro x _; simp
  omega

/-- A step of the wait comes nearer to its end. -/
theorem waitStep_left {cfg : Config} {w y : WaitSpot} {m : Master} (h : (waitStep cfg w m).1 = .at_ y) : waitLeft y < waitLeft w := by
  cases w with
  | start => cases h; simp [waitLeft]
  | read => cases h; simp [waitLeft]
  | test =>
    simp only [waitStep, waitTest] at h
    split at h <;> cases h
    simp [waitLeft]
  | clear => cases h
  | wake d => cases h; simp [waitLeft]

theorem waitStep_asleep {cfg : Config} {w y : WaitSpot} {m : Master} (h : (waitStep cfg w m).1 = .asleep y) : ∃ d, y = .wake d := by
  cases w with
  | start => cases h
  | read => cases h
  | test =>
    simp only [waitStep, waitTest] at h
    split at h <;> cases h
    exact ⟨_, rfl⟩
  | clear => cases h
  | wake d => cases h

theorem waitLeft_pos (w : WaitSpot) : 1 ≤ waitLeft w := by cases w <;> simp [waitLeft]

theorem phaseWait_running {cmd id rid : Nat} {vs : List Bool} (h : Hand) (hg : Running cmd id rid vs h.m)
    (hp : h.m.pc = .wait ∨ h.m.pc = .contWait) : StepRuns cmd id rid vs h (phaseWait h) := by
  have p := waitStep_portOnly h.cfg (waitSpot h.m) h.m
  have hl := fun y => @waitStep_left h.cfg (waitSpot h.m) y h.m
  have ha := fun y => @waitStep_asleep h.cfg (waitSpot h.m) y h.m
  have hw1 := waitLeft_pos (waitSpot h.m)
  have hst : 1028 < stepsLeft h.m := by rcases hp with hp | hp <;> simp only [stepsLeft, hp] <;> omega
  have hph := hg.ph
  simp only [phaseWait]
  generalize waitStep h.cfg (waitSpot h.m) h.m = r at *
  have p0 : r.2.id = h.m.id := p.id
  have p1 : r.2.rid = h.m.rid := p.rid
  have p2 : r.2.lock = h.m.lock := p.lock
  have p3 : r.2.bare = h.m.bare := p.bare
  have p4 : r.2.msgs = h.m.msgs := p.msgs
  have p5 : r.2.pc = h.m.pc := p.pc
  have p6 : r.2.i = h.m.i := p.i
  have p7 : r.2.j = h.m.j := p.j
  have p8 : r.2.ad = h.m.ad := p.ad
  have p9 : r.2.nAnn = h.m.nAnn := p.nAnn
  have hv : r.2.msgs.map (·.vlr) = h.m.msgs.map (·.vlr) := by rw [p4]
  have raise : ∀ f, StepRuns cmd id rid vs h (.go (h.withM (raiseFailure f r.2))) := fun f =>
    hg.next rfl p0 p1 p2 p3 hv trivial (by rw [Hand.withM_m, stepsLeft_raise]; exact hst)
  split
  · rename_i w hw
    have := hl w hw
    rcases hp with hp | hp
    · refine hg.next rfl p0 p1 p2 p3 hv ((phaseOk_wait (by exact p5.trans hp)).mpr ?_) ?_
      · rw [Hand.withM_m, p4]; exact (phaseOk_wait hp).mp hph
      · rw [stepsLeft_wait hp, stepsLeft_wait (by exact p5.trans hp)]
        simp only [Hand.withM_m, p4]
        simp only [waitSpot] at this ⊢
        omega
    · refine hg.next rfl p0 p1 p2 p3 hv ((phaseOk_contWait (by exact p5.trans hp)).mpr ?_) ?_
      · simp only [Hand.withM_m, p4, p6, p7]; exact (phaseOk_contWait hp).mp hph
      · rw [stepsLeft_contWait hp, stepsLeft_contWait (by exact p5.trans hp)]
        simp only [Hand.withM_m, walkLeft, p4, p6, p7, p8]
        simp only [waitSpot] at this ⊢
        omega
  · rename_i w hw
    obtain ⟨d, rfl⟩ := ha w hw
    exact ⟨p0.trans hg.id, p1.trans hg.rid, p2.trans hg.lock, by rw [← p5] at hp; exact hp, d, rfl⟩
  · rcases hp with hp | hp
    · have hne : r.2.pc ≠ .contWait := by rw [p5, hp]; decide
      simp only [endWait, if_neg hne]
      refine hg.next rfl p0 p1 p2 p3 hv ((phaseOk_decode rfl).mpr ?_) ?_
      · simp only [Hand.withM_m, List.drop_zero, p4]; exact (phaseOk_wait hp).mp hph
      · have := pending_start hg.vsEq hg.one
        rw [stepsLeft_decode rfl, stepsLeft_wait hp]
        simp only [Hand.withM_m, walkLeft, List.drop_zero, p4, remCount_zero]
        omega
    · have he : r.2.pc = .contWait := by rw [p5, hp]
      simp only [endWait, if_pos he]
      refine hg.next rfl p0 p1 p2 p3 hv ((phaseOk_decode rfl).mpr ?_) ?_
      · simp only [Hand.withM_m, p4, p6, p7]; exact (phaseOk_contWait hp).mp hph
      · rw [stepsLeft_decode rfl, stepsLeft_contWait hp]
        simp only [Hand.withM_m, walkLeft, p4, p6, p7, p8]
        omega
  · exact raise _
  · exact raise _

/-- A step of the emission. -/
theorem emitItem_running {cmd id rid : Nat} {vs : List Bool} {h : Hand} (hg : Running cmd id rid vs h.m) (it : ReqItem)
    (hn : reqOk h.cfg.layout.req it (h.m.k == 0) = false → h.cfg.layout.req.ssWidth < 10)
    (hgo : ∀ m', PortOnly h.cfg { walkOn h.m with k := h.m.k + 1 } m' → PhaseOk m' ∧ stepsLeft m' < stepsLeft h.m) :
    StepRuns cmd id rid vs h (emitItem (h.m.k == 0) it h) := by
  cases hr : reqOk h.cfg.layout.req it (h.m.k == 0)
  · rw [emitItem_not hr]
    exact .inr ⟨rfl, hn hr⟩
  · rw [emitItem_ok hr]
    have p := emitWord_portOnly h.cfg (reqWord h.cfg.layout.req it (h.m.k == 0)) (walkOn h.m)
    rw [walkOn_k] at p
    obtain ⟨a, b⟩ := hgo _ p
    exact hg.next rfl (p.id.trans (walkOn_id _)) (p.rid.trans (walkOn_rid _)) (p.lock.trans (walkOn_lock _))
      (p.bare.trans (walkOn_bare _)) (by rw [Hand.withM_m, p.msgs]; exact congrArg _ (walkOn_msgs _)) a b

theorem reqOk_width {l : ReqPlaces} {start : Bool} {bs : BitVec 4} {ss k : Nat} {p : Proto} (h0 : ss ≠ 0) (h1 : ss < 1024)
    (h : reqOk l (placeItem start bs ss k p) (k == 0) = false) : l.ssWidth < 10 := by
  by_contra hw
  have h3 : 2 ^ 10 ≤ 2 ^ l.ssWidth := Nat.pow_le_pow_right (by omega) (by omega)
  have h2 : ss < 2 ^ l.ssWidth := lt_of_lt_of_le (show ss < 2 ^ 10 from h1) h3
  rw [placeItem_reqOk h0 h1 h2] at h
  cases h

/-- Every step of a TRANSFER on its way comes nearer to its end. -/
theorem advance_running {cmd id rid : Nat} {vs : List Bool} (h : Hand) (hg : Running cmd id rid vs h.m) :
    StepRuns cmd id rid vs h (advance h) := by
  have hph := hg.ph
  simp only [advance, hg.bare, phaseStep]
  cases hp : h.m.pc <;> simp only [PhaseOk, hp] at hph <;> simp only
  case size =>
    refine hg.port (.refl _ h.m) rfl rfl rfl rfl rfl rfl ((phaseOk_enter rfl).mpr ⟨hph.1, hph.2.1, rfl⟩) ?_
    have hs : stepsLeft h.m = 2 * sessionSize h.m.msgs + 1154 := by simp only [stepsLeft, hp]
    rw [stepsLeft_enter rfl, hs]
    simp only [Hand.withM_m, enterSpot, hph.2.2, enterLeft]
    omega
  case enter =>
    have p := enterStep_portOnly h.cfg true (enterSpot h.m) h.m
    have hf := fun y => enterStep_falls h.cfg true (enterSpot h.m) h.m y
    have hst : 1028 < stepsLeft h.m := by rw [stepsLeft_enter hp]; omega
    have ok : ∀ m', PortOnly h.cfg h.m m' → bufferRoom m'.msgs 0 ∧ 1 ≤ sessionSize m'.msgs ∧ m'.ss = sessionSize m'.msgs :=
      fun m' p => by rw [p.msgs, p.ss]; exact hph
    simp only [phaseEnter]
    generalize enterStep h.cfg true (enterSpot h.m) h.m = r at *
    split
    · rename_i e he
      have hpc : r.2.pc = .enter := p.pc.trans hp
      refine hg.port p rfl rfl rfl rfl rfl rfl ((phaseOk_enter (by exact hpc)).mpr (have o := ok _ p; o)) ?_
      rw [stepsLeft_enter hp, stepsLeft_enter (by exact hpc)]
      have := hf e he
      simp only [Hand.withM_m, p.msgs, enterSpot] at this ⊢
      omega
    · refine hg.port p rfl rfl rfl rfl rfl rfl (have o := ok _ p; o) ?_
      rw [stepsLeft_enter hp]
      show 2 * sessionSize r.2.msgs + 1118 < _
      rw [p.msgs]; omega
    · exact hg.raise p _ hst
  case capchk =>
    have hcap : capacity h.m.fsz ≤ 1023 := by
      have := h.m.fsz.isLt
      have : 2 ^ (7 + h.m.fsz.toNat) ≤ 2 ^ 10 := Nat.pow_le_pow_right (by omega) (by omega)
      simp only [capacity]; omega
    have hs0 : stepsLeft h.m = 2 * sessionSize h.m.msgs + 1118 := by simp only [stepsLeft, hp]
    simp only [phaseCapchk]
    split
    · exact hg.raise (.refl _ _) _ (by omega)
    · have e : beginSession { h.m with pc := .encode } = { h.m with pc := .encode, k := 0, i := 0, j := 0, ad := false } := rfl
      rw [e]
      refine hg.port (.refl _ h.m) rfl rfl rfl rfl rfl rfl ((phaseOk_encode rfl).mpr ⟨hph.1, hph.2.1, hph.2.2, ?_⟩) ?_
      · show h.m.ss < 1024; omega
      · rw [stepsLeft_encode rfl, hs0]
        simp only [Hand.withM_m, List.drop_zero, remCount_zero]; omega
  case encode =>
    obtain ⟨hr, h1, hs, hlt⟩ := hph
    have hf : payloadsFit h.m.msgs = true := by
      simp only [payloadsFit, List.all_eq_true]
      intro x hx
      simp [bufferRoom_fits hr x hx]
    simp only [phaseEncode, if_pos hf]
    rcases hn : nextPosition h.m with _ | ⟨i, j, ad⟩
    · simp only
      refine hg.port (.refl _ h.m) rfl rfl rfl rfl rfl rfl ((phaseOk_wait rfl).mpr hr) ?_
      rw [stepsLeft_wait rfl, stepsLeft_encode hp]
      simp only [Hand.withM_m, waitSpot, waitLeft]; omega
    · obtain ⟨msg, rest, hd, hget, hrem, -, hat, -⟩ := (nextPosition_spec h.m).2 i j ad hn
      simp only [hget]
      refine emitItem_running hg _ (reqOk_width (by omega) hlt) fun m' p => ?_
      rw [walkOn_encode hp hn hget] at p
      have e1 : m'.pc = .encode := p.pc.trans hp
      have e2 : m'.msgs = h.m.msgs := p.msgs
      have e3 : m'.ss = h.m.ss := p.ss
      have e4 : m'.i = i := p.i
      have e5 : m'.j = if atAddress msg ad then j else j + 1 := p.j
      have e6 : m'.ad = true := p.ad
      refine ⟨(phaseOk_encode e1).mpr (by rw [e2, e3]; exact ⟨hr, h1, hs, hlt⟩), ?_⟩
      rw [stepsLeft_encode e1, stepsLeft_encode hp, e2, e4, e5, e6, hd, hrem]
      have := remCount_pass (rest := rest) hat
      omega
  case wait => exact phaseWait_running h hg (.inl hp)
  case contWait => exact phaseWait_running h hg (.inr hp)
  case decode =>
    simp only [phaseDecode]
    split
    · refine hg.port (.refl _ h.m) rfl rfl rfl rfl rfl rfl (phaseOk_leave rfl) ?_
      rw [stepsLeft_leave rfl, stepsLeft_decode hp]
      simp only [Hand.withM_m, leaveSpot, leaveLeft]; omega
    · rename_i pos hn
      obtain ⟨i', j', ad'⟩ := pos
      exact takeResponse_running h hg hp hn _ _ (readRsp_portOnly _ _)
  case contEncode =>
    simp only [phaseContEncode]
    split
    · refine hg.port (.refl _ h.m) rfl rfl rfl rfl rfl rfl (phaseOk_leave rfl) ?_
      rw [stepsLeft_leave rfl, stepsLeft_contEncode hp]
      simp only [Hand.withM_m, leaveSpot, leaveLeft]; omega
    · rename_i msg _
      split
      · refine hg.port (.refl _ h.m) rfl rfl rfl rfl rfl rfl ((phaseOk_contWait rfl).mpr hph.1) ?_
        rw [stepsLeft_contWait rfl, stepsLeft_contEncode hp]
        simp only [Hand.withM_m, walkLeft, waitSpot, waitLeft]; omega
      · rename_i it hit
        obtain ⟨hq, rfl⟩ := contItems_get hit
        refine emitItem_running hg _ (reqOk_width (by omega) (by omega)) fun m' p => ?_
        rw [walkOn_stays (.inl (by rw [hp]; decide))] at p
        have e1 : m'.pc = .contEncode := p.pc.trans hp
        have e2 : m'.msgs = h.m.msgs := p.msgs
        have e3 : m'.nAnn = h.m.nAnn := p.nAnn
        have e4 : m'.k = h.m.k + 1 := p.k
        have e5 : m'.i = h.m.i := p.i
        have e6 : m'.j = h.m.j := p.j
        have e7 : m'.ad = h.m.ad := p.ad
        refine ⟨(phaseOk_contEncode e1).mpr (by rw [e2, e3, e5, e6]; exact hph), ?_⟩
        rw [stepsLeft_contEncode e1, stepsLeft_contEncode hp]
        simp only [walkLeft, e2, e3, e4, e5, e6, e7]; omega
  case leave =>
    have p := leaveStep_portOnly h.cfg (hadError h.m) (leaveSpot h.m) h.m
    have hf := fun y => leaveStep_falls h.cfg (hadError h.m) (leaveSpot h.m) h.m y
    simp only [phaseLeave]
    generalize leaveStep h.cfg (hadError h.m) (leaveSpot h.m) h.m = r at *
    split
    · rename_i l hl
      have hpc : r.2.pc = .leave := p.pc.trans hp
      refine hg.port p rfl rfl rfl rfl rfl rfl (phaseOk_leave (by exact hpc)) ?_
      rw [stepsLeft_leave hp, stepsLeft_leave (by exact hpc)]
      have := hf l hl
      simp only [Hand.withM_m, leaveSpot] at this ⊢
      omega
    · refine hg.port p rfl rfl rfl rfl rfl rfl trivial ?_
      rw [stepsLeft_leave hp]
      show 1 < _
      omega
  case unlock =>
    refine ⟨hg.id, hg.rid, rfl, rfl, by rw [hg.lock]; rfl, ?_⟩
    unfold transferAnswer; split
    · exact .inl ⟨_, rfl⟩
    · exact .inr ⟨_, rfl⟩

/-- A run of it: with steps enough it ends or sleeps, and cut short it is still on its way. -/
theorem runWhile_running {cmd id rid : Nat} {vs : List Bool} : ∀ (n : Nat) (h : Hand), Running cmd id rid vs h.m →
    (∃ h', runWhile (fun _ => true) n h = .go h' ∧ h'.cfg = h.cfg ∧ Running cmd id rid vs h'.m ∧ n ≤ stepsLeft h.m) ∨
      RunEnds h.cfg cmd id rid vs (runWhile (fun _ => true) n h) := by
  intro n
  induction n with
  | zero => intro h hg; exact .inl ⟨h, rfl, rfl, hg, Nat.zero_le _⟩
  | succ n ih =>
    intro h hg
    have := advance_running h hg
    simp only [runWhile, if_true]
    cases ha : advance h with
    | go h' =>
      rw [ha] at this
      obtain ⟨hc, hg', hlt⟩ := this
      rcases ih h' hg' with ⟨h2, e, c, g, l⟩ | e
      · exact .inl ⟨h2, e, c.trans hc, g, by omega⟩
      · exact .inr (hc ▸ e)
    | pause h' => rw [ha] at this; exact .inr this
    | done h' c a => rw [ha] at this; exact .inr this
    | gone h' c => rw [ha] at this; exact .inr this
    | refuse r => rw [ha] at this; exact .inr this

/-- A TRANSFER that no rule refuses, as it begins. -/
theorem beginTransfer_running {cmd bus : Nat} {msgs : List Message} {m : Master} (hb : m.bare = none)
    (hu : unsupported msgs = none) (hl : listRefusal bus msgs = none) :
    Running cmd m.id (m.rid + 1) (msgs.map (·.vlr)) (beginTransfer cmd bus msgs m) := by
  obtain ⟨-, -, hr⟩ := listRefusal_facts hl
  have hone : msgs.countP (·.vlr) < 2 := by
    simp only [unsupported] at hu
    split at hu
    · cases hu
    · split at hu
      · cases hu
      · omega
  refine ⟨rfl, rfl, rfl, hb, rfl, ?_, ?_, sessionSize_pos hl, rfl⟩
  · have : (msgs.map (·.vlr)).countP (· == true) = msgs.countP (·.vlr) := by
      rw [List.countP_map]; apply List.countP_congr; intro x _; simp
    omega
  · have all : ∀ x ∈ msgs, x.length ≤ x.cap ∧ (x.vlr = true → x.read = true ∧ x.length + 32 ≤ x.cap) := fun x hx =>
      ⟨(msgRefusal_facts (hr x hx)).2.1, fun hv => ⟨((msgRefusal_facts (hr x hx)).2.2 hv).1, ((msgRefusal_facts (hr x hx)).2.2 hv).2.2⟩⟩
    cases msgs with
    | nil => trivial
    | cons x xs =>
      exact ⟨⟨(all x (by simp)).1, fun hv => ⟨((all x (by simp)).2 hv).1, fun _ => ((all x (by simp)).2 hv).2⟩⟩,
        fun y hy => all y (by simp [hy])⟩

/-- Its first run: it does not come to the end of its budget. -/
theorem continueCommand_running {cfg : Config} {cmd bus : Nat} {msgs : List Message} {m : Master} {mem : Memory} {cut : Option Nat}
    (hb : m.bare = none) (hu : unsupported msgs = none) (hl : listRefusal bus msgs = none) :
    (cut ≠ none ∧ ∃ h', continueCommand cut ⟨cfg, beginTransfer cmd bus msgs m, mem⟩ = .go h' ∧
        Running cmd m.id (m.rid + 1) (msgs.map (·.vlr)) h'.m) ∨
      RunEnds cfg cmd m.id (m.rid + 1) (msgs.map (·.vlr)) (continueCommand cut ⟨cfg, beginTransfer cmd bus msgs m, mem⟩) := by
  rcases runWhile_running (cut.getD (budget (beginTransfer cmd bus msgs m))) ⟨cfg, beginTransfer cmd bus msgs m, mem⟩
    (beginTransfer_running hb hu hl) with ⟨h', e, -, g, l⟩ | e
  · refine .inl ⟨?_, h', e, g⟩
    rintro rfl
    have : stepsLeft (beginTransfer cmd bus msgs m) = 2 * sessionSize msgs + 1154 := rfl
    simp only [this, Option.getD_none, budget] at l
    have : (beginTransfer cmd bus msgs m).msgs = msgs := rfl
    rw [this] at l
    omega
  · exact .inr e

end Sys2Proof.Machine
end

