-- ==== Sys2Proof/Laws/Masters.lean ====
section
/-! SUPPORT. The map of Masters: finding one, storing one back, and what the outcome of a phase does to the whole machine. -/

namespace Sys2Proof.Machine

/-! ### Finding and storing -/

theorem State.master?_some {s : State} {id : Nat} {m : Master} (h : s.master? id = some m) : m ∈ s.masters ∧ m.id = id :=
  ⟨List.mem_of_find?_eq_some h, by simpa using List.find?_some h⟩

theorem State.hand_some {s : State} {m : Master} (h : s.hand = some m) : m ∈ s.masters ∧ m.id = s.inHand :=
  State.master?_some h

/-- With the ids rising, two Masters of one id are one. -/
theorem IdsRising.eq_of_id {s : State} (hs : IdsRising s) {a b : Master} (ha : a ∈ s.masters) (hb : b ∈ s.masters)
    (h : a.id = b.id) : a = b := by
  have key : ∀ l : List Master, l.Pairwise (fun a b => a.id < b.id) → a ∈ l → b ∈ l → a = b := by
    intro l
    induction l with
    | nil => intro _ ha; simp at ha
    | cons x xs ih =>
      intro hp ha hb
      obtain ⟨h1, h2⟩ := List.pairwise_cons.mp hp
      rcases List.mem_cons.mp ha with ea | ha' <;> rcases List.mem_cons.mp hb with eb | hb'
      · exact ea.trans eb.symm
      · have := h1 b hb'; subst ea; omega
      · have := h1 a ha'; subst eb; omega
      · exact ih h2 ha' hb'
  exact key _ hs ha hb

theorem State.master?_of_mem {s : State} (hs : IdsRising s) {m : Master} (h : m ∈ s.masters) : s.master? m.id = some m := by
  cases hf : s.master? m.id with
  | none => have := List.find?_eq_none.mp hf m h; simp at this
  | some x =>
    obtain ⟨h1, h2⟩ := State.master?_some hf
    rw [hs.eq_of_id h1 h h2]

@[simp] theorem putIn_ids (m : Master) (ms : List Master) : (putIn m ms).map (·.id) = ms.map (·.id) := by
  simp only [putIn, List.map_map]
  apply List.map_congr_left
  intro x _
  simp only [Function.comp_apply]
  split <;> simp_all

/-- The Masters after one is stored back: that one, and the others as they were. -/
theorem mem_putIn {m x : Master} {ms : List Master} (h : x ∈ putIn m ms) : x = m ∨ x ∈ ms ∧ x.id ≠ m.id := by
  obtain ⟨y, hy, rfl⟩ := List.mem_map.mp h
  by_cases hid : y.id = m.id
  · simp [hid]
  · simp [hid, hy]

theorem mem_putIn_other {m x : Master} {ms : List Master} (h : x ∈ ms) (hid : x.id ≠ m.id) : x ∈ putIn m ms :=
  List.mem_map.mpr ⟨x, h, by simp [hid]⟩

theorem mem_putIn_self {m y : Master} {ms : List Master} (h : y ∈ ms) (hid : y.id = m.id) : m ∈ putIn m ms :=
  List.mem_map.mpr ⟨y, h, by simp [hid]⟩

/-- Rising ids depend on the ids alone. -/
theorem idsRising_iff (s : State) : IdsRising s ↔ (s.masters.map (·.id)).Pairwise (· < ·) := by
  simp [IdsRising, List.pairwise_map]

theorem IdsRising.of_ids {s t : State} (h : IdsRising s) (e : t.masters.map (·.id) = s.masters.map (·.id)) : IdsRising t := by
  rw [idsRising_iff] at *; rwa [e]

theorem IdsRising.putMaster {s : State} (h : IdsRising s) (m : Master) : IdsRising (s.putMaster m) := h.of_ids (by simp)

/-- Finding in a list of Masters after one is stored back. -/
theorem find_putIn (m : Master) (id : Nat) (ms : List Master) :
    (putIn m ms).find? (fun x => x.id == id) =
      (ms.find? (fun x => x.id == id)).map (fun x => if x.id = m.id then m else x) := by
  induction ms with
  | nil => rfl
  | cons x xs ih =>
    have hc : putIn m (x :: xs) = (if x.id = m.id then m else x) :: putIn m xs := rfl
    have hid : ((if x.id = m.id then m else x).id == id) = (x.id == id) := by split <;> simp_all
    rw [hc, List.find?_cons, List.find?_cons, hid]
    split
    · rfl
    · exact ih

theorem State.master?_putMaster {s : State} {m y : Master} (h : s.master? m.id = some y) :
    (s.putMaster m).master? m.id = some m := by
  have := find_putIn m m.id s.masters
  rw [State.master?] at *
  simpa [h, (State.master?_some h).2] using this

theorem State.master?_putMaster_other {s : State} {m : Master} {id : Nat} (h : id ≠ m.id) :
    (s.putMaster m).master? id = s.master? id := by
  have := find_putIn m id s.masters
  rw [State.master?, State.putMaster_masters, this, State.master?]
  cases hf : s.masters.find? (fun x => x.id == id) with
  | none => rfl
  | some x =>
    have hx : x.id = id := by simpa using List.find?_some hf
    simp [hx, h]

theorem IdsRising.dropMaster {s : State} (h : IdsRising s) (id : Nat) : IdsRising (s.dropMaster id) :=
  List.Pairwise.sublist List.filter_sublist h

theorem mem_insertById {m x : Master} {ms : List Master} : x ∈ insertById m ms ↔ x = m ∨ x ∈ ms := by
  induction ms with
  | nil => simp [insertById]
  | cons y ys ih =>
    simp only [insertById]
    split
    · simp
    · simp only [List.mem_cons, ih]; tauto

theorem insertById_rising {m : Master} {ms : List Master} (h : ms.Pairwise (fun a b => a.id < b.id))
    (hne : ∀ x ∈ ms, x.id ≠ m.id) : (insertById m ms).Pairwise (fun a b => a.id < b.id) := by
  induction ms with
  | nil => simp [insertById]
  | cons y ys ih =>
    obtain ⟨h1, h2⟩ := List.pairwise_cons.mp h
    simp only [insertById]
    split
    · rename_i hlt
      refine List.pairwise_cons.mpr ⟨fun x hx => ?_, h⟩
      rcases List.mem_cons.mp hx with rfl | hx
      · exact hlt
      · exact Nat.lt_trans hlt (h1 x hx)
    · rename_i hge
      have hy := hne y (by simp)
      refine List.pairwise_cons.mpr ⟨fun x hx => ?_, ih h2 fun x hx => hne x (by simp [hx])⟩
      rcases mem_insertById.mp hx with rfl | hx
      · omega
      · exact h1 x hx

/-! ### Outcomes -/

/-- What a meaning that works on the Master in hand answers: the lock must be held. -/
theorem withHand_next {s t : State} {f : Hand → Adv} (h : withHand s f = .next t) :
    ∃ m, s.hand = some m ∧ m.lock ≠ .free ∧ settle s (f ⟨s.cfg, m, s.mem⟩) = .next t := by
  unfold withHand at h
  split at h
  · cases h
  · rename_i m hm
    split at h
    · cases h
    · exact ⟨m, hm, ‹_›, h⟩

theorem withHand_held {s : State} {m : Master} (hm : s.hand = some m) (hl : m.lock ≠ .free) (f : Hand → Adv) :
    withHand s f = settle s (f ⟨s.cfg, m, s.mem⟩) := by simp [withHand, hm, hl]

theorem withHand_free {s : State} {m : Master} (hm : s.hand = some m) (hl : m.lock = .free) (f : Hand → Adv) :
    withHand s f = .refused .lockNotHeld := by simp [withHand, hm, hl]

/-- Where a settled phase leaves the machine: the Master stored back and the memory, and perhaps an answer; or the Master
gone. -/
theorem settle_next {s t : State} {a : Adv} (h : settle s a = .next t) :
    (∃ h' : Hand, (a = .go h' ∨ a = .pause h') ∧ t = s.commit h') ∨
    (∃ (h' : Hand) (c : Nat) (r : Answer), a = .done h' c r ∧ t = (s.commit h').post c r) ∨
    ∃ (h' : Hand) (c : Nat), a = .gone h' c ∧ t = destroy s h' c := by
  cases a with
  | go h' => exact .inl ⟨h', .inl rfl, by cases h; rfl⟩
  | pause h' => exact .inl ⟨h', .inr rfl, by cases h; rfl⟩
  | done h' c r => exact .inr (.inl ⟨h', c, r, rfl, by cases h; rfl⟩)
  | gone h' c => exact .inr (.inr ⟨h', c, rfl, by cases h; rfl⟩)
  | refuse r => cases h

end Sys2Proof.Machine
end

