-- ==== Sys2Proof/Laws/Evolution.lean ====
section
/-! SUPPORT. What one step of the machine can do to the whole of it: which parts of a Master an instruction or a turn can
change, and which Masters there are after it. Invariants of the machine are read off `step_result`. -/

namespace Sys2Proof.Machine

/-- What names a bus: its identity, its handle and its external number. -/
def busKey (b : Bus) : Nat × Nat × Nat := (b.busId, b.handle, b.adap)

/-- Master `m'` is `m` after some of its life: the same registers and bus names, a longer history, `x[rid]` grown by at most
`n`. -/
structure MasterEvolves (cfg : Config) (n : Nat) (m m' : Master) : Prop where
  ext : HistoryExtends cfg m m'
  life : m'.life = m.life
  bc : m'.busCount = m.busCount
  r1 : m.rid ≤ m'.rid
  r2 : m'.rid ≤ m.rid + n
  keys : m'.buses.map busKey = m.buses.map busKey
  dist : (∀ b ∈ m.buses, StoreDistinct b) → ∀ b ∈ m'.buses, StoreDistinct b
  idle : IdleWhenFree m → IdleWhenFree m'
  calm : NoErrorBeforeLeave m → NoErrorBeforeLeave m'

theorem MasterEvolves.refl (cfg : Config) (m : Master) : MasterEvolves cfg 0 m m :=
  ⟨.refl _ _, rfl, rfl, le_refl _, le_refl _, rfl, fun h => h, fun h => h, fun h => h⟩

theorem MasterEvolves.mono {cfg : Config} {n k : Nat} {m m' : Master} (h : MasterEvolves cfg n m m') (hk : n ≤ k) :
    MasterEvolves cfg k m m' :=
  ⟨h.ext, h.life, h.bc, h.r1, h.r2.trans (by omega), h.keys, h.dist, h.idle, h.calm⟩

theorem MasterEvolves.trans {cfg : Config} {n k : Nat} {a b c : Master} (h : MasterEvolves cfg n a b)
    (g : MasterEvolves cfg k b c) : MasterEvolves cfg (n + k) a c :=
  ⟨h.ext.trans g.ext, g.life.trans h.life, g.bc.trans h.bc, h.r1.trans g.r1, by have := h.r2; have := g.r2; omega,
    g.keys.trans h.keys, g.dist ∘ h.dist, g.idle ∘ h.idle, g.calm ∘ h.calm⟩

/-- Work in the registers alone. -/
theorem MasterEvolves.work {cfg : Config} {m m' : Master} (e : keptPart m' = keptPart m)
    (idle : IdleWhenFree m → IdleWhenFree m') (calm : NoErrorBeforeLeave m → NoErrorBeforeLeave m') :
    MasterEvolves cfg 0 m m' := by
  simp only [keptPart, Prod.mk.injEq] at e
  obtain ⟨⟨e1, e2, e3, e4, e5⟩, e6, e7, e8, e9⟩ := e
  exact ⟨.of_eq e1 e3 e6 e7.ge, e2, e4, e5.ge, e5.le, by rw [e8], by rw [e8]; exact fun h => h, idle, calm⟩

/-- State `t` is `s` after some of its life in which no Master was created or destroyed. -/
structure Evolves (n : Nat) (s t : State) : Prop where
  cfg : t.cfg = s.cfg
  wf : Memory.wf s.mem → Memory.wf t.mem
  ids : t.masters.map (·.id) = s.masters.map (·.id)
  ms : IdsRising s → ∀ m' ∈ t.masters, ∃ m ∈ s.masters, MasterEvolves s.cfg n m m'
  nh : t.nextHandle = s.nextHandle
  nc : s.nextCmd ≤ t.nextCmd

theorem Evolves.rising {n : Nat} {s t : State} (h : Evolves n s t) (g : IdsRising s) : IdsRising t := g.of_ids h.ids

theorem Evolves.refl (s : State) : Evolves 0 s s :=
  ⟨rfl, id, rfl, fun _ m hm => ⟨m, hm, .refl _ _⟩, rfl, le_refl _⟩

theorem Evolves.mono {n k : Nat} {s t : State} (h : Evolves n s t) (hk : n ≤ k) : Evolves k s t :=
  ⟨h.cfg, h.wf, h.ids, fun hr m' hm => let ⟨m, a, b⟩ := h.ms hr m' hm; ⟨m, a, b.mono hk⟩, h.nh, h.nc⟩

theorem Evolves.trans {n k : Nat} {s t u : State} (h : Evolves n s t) (g : Evolves k t u) : Evolves (n + k) s u :=
  ⟨g.cfg.trans h.cfg, g.wf ∘ h.wf, g.ids.trans h.ids, fun hr m' hm => by
    obtain ⟨m1, a1, b1⟩ := g.ms (h.rising hr) m' hm
    obtain ⟨m, a, b⟩ := h.ms hr m1 a1
    exact ⟨m, a, b.trans (h.cfg ▸ b1)⟩, g.nh.trans h.nh, h.nc.trans g.nc⟩

/-- Nothing but fields outside the Masters, the memory and the configuration has changed. -/
theorem Evolves.of_same {s t : State} (h1 : t.cfg = s.cfg) (h2 : t.mem = s.mem) (h3 : t.masters = s.masters)
    (h4 : t.nextHandle = s.nextHandle) (h5 : s.nextCmd ≤ t.nextCmd) : Evolves 0 s t :=
  ⟨h1, by rw [h2]; exact id, by rw [h3], fun _ m hm => ⟨m, h3 ▸ hm, .refl _ _⟩, h4, h5⟩

/-- The identity of a command given out. -/
theorem Evolves.next (s : State) : Evolves 0 s { s with nextCmd := s.nextCmd + 1 } := .of_same rfl rfl rfl rfl (by simp)

/-- The Master in hand. -/
theorem Evolves.hand (s : State) (id : Nat) : Evolves 0 s { s with inHand := id } := .of_same rfl rfl rfl rfl (le_refl _)

theorem Evolves.post {n : Nat} {s t : State} (h : Evolves n s t) (c : Nat) (a : Answer) : Evolves n s (t.post c a) :=
  ⟨h.cfg, h.wf, h.ids, h.ms, h.nh, h.nc⟩

theorem Evolves.put {s : State} {n : Nat} {m m' : Master} (hm : m ∈ s.masters) (h : MasterEvolves s.cfg n m m') :
    Evolves n s (s.putMaster m') := by
  refine ⟨rfl, id, by simp, fun hr x hx => ?_, rfl, le_refl _⟩
  rcases mem_putIn hx with rfl | ⟨hx, _⟩
  · exact ⟨m, hm, h⟩
  · exact ⟨x, hx, (MasterEvolves.refl _ _).mono (by omega)⟩

theorem Evolves.commit {s : State} {n : Nat} {m : Master} {h' : Hand} (hm : m ∈ s.masters)
    (h : MasterEvolves s.cfg n m h'.m) (hw : Memory.wf s.mem → Memory.wf h'.mem) : Evolves n s (s.commit h') := by
  have := Evolves.put hm h
  exact ⟨this.cfg, hw, this.ids, this.ms, rfl, le_refl _⟩

/-- A phase of a command, as the life of its Master. -/
theorem Keeps.masterEvolves {h h' : Hand} (k : Keeps h h')
    (hl : h'.m.lock = h.m.lock ∨ h'.m.lock = .free ∧ h'.m.pc = .idle ∧ h'.m.bare = none) (hlk : h.m.lock ≠ .free) :
    MasterEvolves h.cfg 0 h.m h'.m :=
  ⟨k.ext, k.life, k.busCount, by rw [k.rid], by rw [k.rid]; simp, by rw [k.buses], by rw [k.buses]; exact fun h => h,
    fun _ hf => hl.elim (fun hl => absurd (hl.symm.trans hf) hlk) (·.2), k.calm⟩

/-! ### DUMP and the commands that wait -/

theorem waiting_evolves (cfg : Config) (w : List Blocked) (m : Master) : MasterEvolves cfg 0 m { m with waiting := w } :=
  ⟨.of_eq rfl rfl rfl (le_refl _), rfl, rfl, le_refl _, le_refl _, rfl, fun h => h, fun h => h, fun h => h⟩

theorem dumpRun_evolves (cmd : Nat) : ∀ (ms : List Master) (cut : Option Nat) (ls : List (List Char)) (s : State),
    (∀ m ∈ ms, m ∈ s.masters) → Evolves 0 s (dumpRun cut cmd ms ls s) := by
  intro ms
  induction ms with
  | nil => intro cut ls s _; exact (Evolves.refl s).post _ _
  | cons m ms ih =>
    intro cut ls s h
    simp only [dumpRun]
    split
    · exact ih _ _ _ (fun x hx => h x (by simp [hx]))
    · exact .put (h m (by simp)) (waiting_evolves _ _ _)

theorem release_evolves (id : Nat) (s : State) (b : Blocked) : Evolves 0 s (release id s b) := by
  cases b with
  | transfer cmd bus msgs => exact .refl s
  | tune cmd bus r => exact (Evolves.refl s).post _ _
  | dump cmd ls => exact dumpRun_evolves _ _ _ _ _ fun m hm => (List.mem_filter.mp hm).1
  | lookup cmd bus a => exact .refl s
  | teardown cmd => exact .refl s

theorem releaseAll_evolves (id : Nat) : ∀ (bs : List Blocked) (s : State), Evolves 0 s (bs.foldl (release id) s)
  | [], s => .refl s
  | b :: bs, s => (release_evolves id s b).trans (releaseAll_evolves id bs _)

/-! ### Turns -/

/-- The result of a turn: the Masters live on, or one of them is destroyed, and the commands that waited for it are seen to. -/
inductive TurnResult (n : Nat) (s : State) : State → Prop
  | evo {t} (h : Evolves n s t) : TurnResult n s t
  | drop {u v t} (id : Nat) (h : Evolves n s u) (e1 : v.cfg = u.cfg) (e2 : v.mem = u.mem)
      (e3 : v.masters = u.masters.filter (fun m => m.id != id)) (e4 : v.nextHandle = u.nextHandle)
      (e5 : v.nextCmd = u.nextCmd) (g : Evolves 0 v t) : TurnResult n s t

theorem TurnResult.pre {n k : Nat} {s t u : State} (h : Evolves n s t) (g : TurnResult k t u) : TurnResult (n + k) s u := by
  cases g with
  | evo g => exact .evo (h.trans g)
  | drop id g e1 e2 e3 e4 e5 r => exact .drop id (h.trans g) e1 e2 e3 e4 e5 r

theorem TurnResult.mono {n k : Nat} {s t : State} (h : TurnResult n s t) (hk : n ≤ k) : TurnResult k s t := by
  cases h with
  | evo h => exact .evo (h.mono hk)
  | drop id g e1 e2 e3 e4 e5 r => exact .drop id (g.mono hk) e1 e2 e3 e4 e5 r

/-- Storing back one of two Masters of one id and then dropping the id is dropping the id. -/
theorem filter_putIn (m : Master) (ms : List Master) :
    (putIn m ms).filter (fun x => x.id != m.id) = ms.filter (fun x => x.id != m.id) := by
  induction ms with
  | nil => rfl
  | cons x xs ih =>
    have hc : putIn m (x :: xs) = (if x.id = m.id then m else x) :: putIn m xs := rfl
    rw [hc]
    by_cases hx : x.id = m.id
    · simp only [hx, if_true, List.filter_cons, bne_self_eq_false, Bool.false_eq_true, if_false]; exact ih
    · simp only [hx, if_false, List.filter_cons, ih]

/-- A settled phase. -/
theorem settle_result {s t : State} {m : Master} {a : Adv} (hm : m ∈ s.masters) (hl : m.lock ≠ .free)
    (hk : AdvKeeps ⟨s.cfg, m, s.mem⟩ a) (hs : settle s a = .next t) : TurnResult 0 s t := by
  rcases settle_next hs with ⟨h', hh, rfl⟩ | ⟨h', c, r, rfl, rfl⟩ | ⟨h', c, rfl, rfl⟩
  · rcases hh with rfl | rfl
    · exact .evo (.commit hm (Keeps.masterEvolves hk.1 (.inl hk.2) hl) hk.1.wf)
    · exact .evo (.commit hm (Keeps.masterEvolves hk.1 (.inl hk.2) hl) hk.1.wf)
  · exact .evo ((Evolves.commit hm (Keeps.masterEvolves hk.1 hk.2 hl) hk.1.wf).post _ _)
  · have hk' : Keeps ⟨s.cfg, m, s.mem⟩ h' := hk
    refine .drop (u := { s with mem := h'.mem }) (v := ((s.commit h').dropMaster h'.m.id).post c (.tornDown h'.m.id)) h'.m.id
      ⟨rfl, hk'.wf, rfl, fun _ m hm => ⟨m, hm, .refl _ _⟩, rfl, le_refl _⟩ rfl rfl (filter_putIn _ _) rfl rfl
      (releaseAll_evolves _ _ _)

theorem withHand_result {s t : State} {f : Hand → Adv} (hf : ∀ h, AdvKeeps h (f h)) (h : withHand s f = .next t) :
    TurnResult 0 s t := by
  obtain ⟨m, hm, hl, hs⟩ := withHand_next h
  exact settle_result (State.hand_some hm).1 hl (hf _) hs

theorem findBus_mem {ms : List Master} {p : Bus → Bool} {m : Master} {b : Bus}
    (h : ms.findSome? (fun m => (m.buses.find? p).map (fun b => (m, b))) = some (m, b)) :
    m ∈ ms ∧ b ∈ m.buses ∧ p b = true := by
  obtain ⟨x, hx, hf⟩ := List.exists_of_findSome?_eq_some h
  simp only [Option.map_eq_some_iff, Prod.mk.injEq] at hf
  obtain ⟨b', hb', rfl, rfl⟩ := hf
  exact ⟨hx, List.mem_of_find?_eq_some hb', List.find?_some hb'⟩

/-- What a handle names. -/
theorem State.busOf_mem {s : State} {handle : Nat} {m : Master} {b : Bus} (h : s.busOf handle = some (m, b)) :
    m ∈ s.masters ∧ b ∈ m.buses ∧ b.handle = handle ∧ b.registered = true := by
  obtain ⟨h1, h2, h3⟩ := findBus_mem h
  exact ⟨h1, h2, by simpa using h3⟩

/-- What the bus of a tuning line names. -/
theorem State.tuneBus_mem {s : State} {n : Nat} {m : Master} {b : Bus} (h : s.tuneBus n = some (m, b)) :
    m ∈ s.masters ∧ b ∈ m.buses ∧ b.registered = true := by
  unfold State.tuneBus at h
  split at h
  · obtain ⟨h1, h2, h3⟩ := findBus_mem h
    simp only [Bool.and_eq_true] at h3
    exact ⟨h1, h2, h3.2⟩
  · split at h
    · cases h
    · simp only [Option.map_eq_some_iff, Prod.mk.injEq] at h
      obtain ⟨b', hb', rfl, rfl⟩ := h
      have h3 := List.find?_some hb'
      simp only [Bool.and_eq_true] at h3
      exact ⟨(State.master?_some ‹_›).1, List.mem_of_find?_eq_some hb', h3.2⟩

/-- Storing back twice is storing back the last. -/
theorem putIn_putIn {x m : Master} (h : x.id = m.id) (ms : List Master) : putIn x (putIn m ms) = putIn x ms := by
  simp only [putIn, List.map_map]
  apply List.map_congr_left
  intro y _
  simp only [Function.comp_apply, h]
  by_cases hy : y.id = m.id <;> simp [hy]

/-- A phase settled on a Master stored back before is the phase settled. -/
theorem settle_putMaster (s : State) (m : Master) {a : Adv} (hk : AdvKeeps ⟨s.cfg, m, s.mem⟩ a) :
    settle (s.putMaster m) a = settle s a := by
  have pp : ∀ h' : Hand, Keeps ⟨s.cfg, m, s.mem⟩ h' → (s.putMaster m).commit h' = s.commit h' := fun h' k => by
    simp only [State.commit, State.putMaster]
    rw [putIn_putIn k.ext.1]
  cases a with
  | refuse r => rfl
  | go h' => simp only [settle, pp h' hk.1]
  | pause h' => simp only [settle, pp h' hk.1]
  | done h' c a => simp only [settle, pp h' hk.1]
  | gone h' c => simp only [settle, destroy, pp h' hk]

/-- The run of a TRANSFER from the lock on. -/
theorem beginTransfer_result {s t : State} {m : Master} (hm : m ∈ s.masters) (m0 : Master)
    (hm0 : MasterEvolves s.cfg 0 m m0) (cut : Option Nat) (cmd bus : Nat) (msgs : List Message)
    (hs : settle s (continueCommand cut ⟨s.cfg, beginTransfer cmd bus msgs m0, s.mem⟩) = .next t) : TurnResult 1 s t := by
  have hl : MasterEvolves s.cfg 1 m (beginTransfer cmd bus msgs m0) :=
    ⟨hm0.ext.trans (.of_eq rfl rfl rfl (le_refl _)), hm0.life, hm0.bc, by have := hm0.r1; show _ ≤ m0.rid + 1; omega,
      by have := hm0.r2; show m0.rid + 1 ≤ _; omega, hm0.keys, hm0.dist, fun _ hf => (by cases hf), fun _ _ => rfl⟩
  have hk := continueCommand_keeps cut ⟨s.cfg, beginTransfer cmd bus msgs m0, s.mem⟩
  rw [← settle_putMaster s _ hk] at hs
  exact TurnResult.pre (.put hm hl) (settle_result (s := s.putMaster _) (mem_putIn_self hm hl.ext.1.symm)
    (by simp [beginTransfer]) hk hs)

/-! ### The commands one by one -/

/-- The addresses of a store after a TUNE. -/
theorem updateStore_addrs (r : ParamRec) (l : List ParamRec) : (updateStore r l).map (·.addr) =
    if r.addr ∈ l.map (·.addr) then l.map (·.addr) else l.map (·.addr) ++ [r.addr] := by
  induction l with
  | nil => simp [updateStore]
  | cons x xs ih =>
    simp only [updateStore]
    by_cases h : x.addr = r.addr
    · simp [h]
    · simp only [if_neg h, List.map_cons, ih, List.mem_cons, Ne.symm h, false_or]
      split <;> simp

theorem updateStore_distinct {r : ParamRec} {l : List ParamRec} (h : (l.map (·.addr)).Nodup) :
    ((updateStore r l).map (·.addr)).Nodup := by
  rw [updateStore_addrs]
  split
  · exact h
  · rw [List.nodup_append]
    exact ⟨h, by simp, by simp; intro x hx hxx; simp_all⟩

theorem tuneStore_evolves (cfg : Config) (bid : Nat) (r : ParamRec) (m : Master) :
    MasterEvolves cfg 0 m (tuneStore bid r m) := by
  refine ⟨.of_eq rfl rfl rfl (le_refl _), rfl, rfl, le_refl _, le_refl _, ?_, ?_, fun h => h, fun h => h⟩
  · simp only [tuneStore, List.map_map]
    apply List.map_congr_left
    intro b _
    simp only [Function.comp_apply]
    split <;> rfl
  · intro hd b hb
    obtain ⟨b0, hb0, rfl⟩ := List.mem_map.mp hb
    split
    · exact updateStore_distinct (hd b0 hb0)
    · exact hd b0 hb0

/-- The buses unregistered. -/
theorem unregisterAll_evolves (cfg : Config) (m : Master) : MasterEvolves cfg 0 m (unregisterAll m) := by
  refine ⟨.of_eq rfl rfl rfl (le_refl _), rfl, rfl, le_refl _, le_refl _, ?_, ?_, fun h => h, fun h => h⟩
  · simp only [unregisterAll, List.map_map]; rfl
  · intro hd b hb
    obtain ⟨b0, hb0, rfl⟩ := List.mem_map.mp hb
    exact hd b0 hb0

/-- The lock taken by a TEARDOWN. -/
theorem tearDown_evolves (cfg : Config) (m : Master) (cmd : Nat) :
    MasterEvolves cfg 0 m { m with lock := .held cmd, pc := .tearReset, spot := .outside } :=
  .work rfl (fun _ hf => by simp at hf) (calm_end .tearReset rfl (by decide))

/-- A number drawn and the waiting commands set. -/
theorem afterDraw_evolves (cfg : Config) (m : Master) (w : List Blocked) :
    MasterEvolves cfg 0 m { afterDraw m with waiting := w } := by
  unfold afterDraw
  split <;> exact ⟨.of_eq rfl rfl rfl (le_refl _), rfl, rfl, le_refl _, le_refl _, rfl, fun h => h, fun h => h, fun h => h⟩

theorem resumeBlocked_result {b : Blocked} {m m0 : Master} {s t : State} (hm : m ∈ s.masters)
    (h0 : MasterEvolves s.cfg 0 m m0) (h : resumeBlocked b m0 s = .next t) : TurnResult 1 s t := by
  have hid : m0.id = m.id := h0.ext.1
  cases b with
  | transfer cmd bus msgs => exact beginTransfer_result hm m0 h0 _ _ _ _ h
  | tune cmd bus r =>
    cases h
    exact .evo (((Evolves.put hm (h0.trans (tuneStore_evolves s.cfg bus r m0))).post _ _).mono (by omega))
  | dump cmd ls =>
    cases h
    refine .evo (((Evolves.put hm h0).trans (dumpRun_evolves cmd _ _ _ _ ?_)).mono (by omega))
    intro x hx
    have := List.mem_filter.mp hx
    exact mem_putIn_other this.1 (by have := this.2; simp at this; omega)
  | lookup cmd bus a =>
    cases h
    exact .evo (((Evolves.put hm h0).post _ _).mono (by omega))
  | teardown cmd =>
    cases h
    exact .evo ((Evolves.put hm (h0.trans (tearDown_evolves _ m0 cmd))).mono (by omega))

theorem execTransfer_result {handle : Nat} {msgs : List Message} {s t : State} (h : execTransfer handle msgs s = .next t) :
    TurnResult 1 s t := by
  simp only [execTransfer] at h
  split at h
  · cases h; exact .evo (((Evolves.next s).post _ _).mono (by omega))
  · split at h
    · cases h
    · rename_i m b hb
      split at h
      · cases h
      · have hm := (State.busOf_mem hb).1
        simp only [startTransfer] at h
        split at h
        · exact TurnResult.pre ((Evolves.next s).trans (Evolves.hand _ m.id))
            (beginTransfer_result (s := { s with nextCmd := s.nextCmd + 1, inHand := m.id }) hm m (MasterEvolves.refl _ _) _ _ _ _ h)
        · cases h
          exact .evo (((Evolves.next s).trans (Evolves.put (s := { s with nextCmd := s.nextCmd + 1 }) hm
            (waiting_evolves _ _ _))).mono (by omega))

theorem execTune_result {line : List Char} {s t : State} (h : execTune line s = .next t) : Evolves 0 s t := by
  simp only [execTune] at h
  split at h
  · cases h; exact (Evolves.next s).post _ _
  · split at h
    · cases h; exact (Evolves.next s).post _ _
    · split at h
      · cases h; exact (Evolves.next s).post _ _
      · rename_i m b hb
        have hm := (State.tuneBus_mem hb).1
        split at h
        · cases h
          exact ((Evolves.next s).trans (Evolves.put (s := { s with nextCmd := s.nextCmd + 1 }) hm
            (tuneStore_evolves _ b.busId (tuneRecord _) _))).post _ _
        · cases h
          exact (Evolves.next s).trans (Evolves.put (s := { s with nextCmd := s.nextCmd + 1 }) hm (waiting_evolves _ _ _))

theorem execTeardown_result {id : Nat} {s t : State} (h : execTeardown id s = .next t) : Evolves 0 s t := by
  simp only [execTeardown] at h
  split at h
  · cases h
  · rename_i m hm
    have hm := (State.master?_some hm).1
    split at h
    · cases h
      exact ((Evolves.next s).trans (Evolves.hand _ id)).trans (Evolves.put (s := { s with nextCmd := s.nextCmd + 1, inHand := id })
        hm ((unregisterAll_evolves _ m).trans (tearDown_evolves _ _ s.nextCmd)))
    · cases h
      exact (Evolves.next s).trans (Evolves.put (s := { s with nextCmd := s.nextCmd + 1 }) hm
        ((unregisterAll_evolves _ m).trans (waiting_evolves _ (m.waiting ++ [.teardown s.nextCmd]) _)))

theorem execLookup_result {handle : Nat} {a : BitVec 7} {s t : State} (h : execLookup handle a s = .next t) :
    Evolves 0 s t := by
  simp only [execLookup] at h
  split at h
  · cases h
  · rename_i m b hb
    have hm := (State.busOf_mem hb).1
    split at h
    · cases h; exact (Evolves.next s).post _ _
    · cases h
      exact (Evolves.next s).trans (Evolves.put (s := { s with nextCmd := s.nextCmd + 1 }) hm (waiting_evolves _ _ _))

/-! ### The words and the primitives -/

/-- A step that touches the port only keeps what a phase keeps. -/
theorem PortOnly.advKeeps {h : Hand} {m' : Master} (p : PortOnly h.cfg h.m m') : AdvKeeps h (.go (h.withM m')) :=
  ⟨p.keeps, p.lock⟩

theorem emitFirst_keeps (it : ReqItem) (h : Hand) : AdvKeeps h (emitFirst it h) := by
  have k : Keeps h (h.withM (beginSession h.m)) :=
    .work rfl (by simp [keptPart]) (fun n => by simpa [NoErrorBeforeLeave] using n) id
  exact .after k (by simp) (emitItem_keeps _ _ _)

/-- A read of CSR by a wait. -/
theorem waitReads_keeps (c : Csr) (w : WaitSpot) (h : Hand) :
    Keeps h (h.withM (waitReads h.cfg c w h.m)) ∧ (waitReads h.cfg c w h.m).lock = h.m.lock := by
  have key : ∀ m0 : Master, Keeps h (h.withM m0) → m0.lock = h.m.lock →
      Keeps h (h.withM { csrReadIs h.cfg (packCsr h.cfg.layout.csr c) m0 with cs := c }) ∧
        (csrReadIs h.cfg (packCsr h.cfg.layout.csr c) m0).lock = h.m.lock := fun m0 k l => by
    have p := csrReadIs_portOnly h.cfg (packCsr h.cfg.layout.csr c) m0
    exact ⟨k.trans ((PortOnly.keeps (h := h.withM m0) p).trans (.work rfl rfl (fun h => h) (fun w => w))), p.lock.trans l⟩
  unfold waitReads
  cases w with
  | start =>
    have k : Keeps h (h.withM { h.m with tLast := (readClock h.cfg h.m).time, prev := none }) :=
      .work rfl rfl (fun h => h) (fun w => w)
    have p := beginWait_portOnly h.cfg h.m
    exact key _ (k.trans (PortOnly.keeps (h := h.withM _) p)) p.lock
  | read => exact key _ (.refl h) rfl
  | test => exact key _ (.refl h) rfl
  | clear => exact key _ (.refl h) rfl
  | wake d =>
    have p := advanceTime_portOnly h.cfg d h.m
    exact key _ p.keeps p.lock

theorem statusRead_keeps (c : Csr) (h : Hand) : AdvKeeps h (statusRead c h) := by
  unfold statusRead
  split
  · rename_i w _
    have k := waitReads_keeps c w h
    refine .after ?_ ?_ (runWhile_keeps _ _ _)
    · exact k.1.trans (.work rfl rfl (fun h => h) (fun w => w))
    · exact k.2
  · split
    · have k := waitReads_keeps c (waitSpot h.m) h
      refine .after ?_ ?_ (runWhile_keeps _ _ _)
      · exact k.1.trans (.work rfl rfl (fun h => h) (fun w => w))
      · exact k.2
    · exact ((csrReadIs_portOnly h.cfg _ h.m).trans (PortOnly.set h.cfg _ c _ _ _)).advKeeps

/-- The result of an instruction: a turn's, or CREATE's new Master. -/
inductive ExecResult (s t : State) : Prop
  | res (h : TurnResult 1 s t)
  | fresh (base id : Nat) (n : Option Nat) (h : execCreate base id n s = .next t)

/-- Every instruction. -/
theorem exec_result {i : Instr} {s t : State} (h : exec i s = .next t) : ExecResult s t := by
  have key : ∀ f : Hand → Adv, (∀ h, AdvKeeps h (f h)) → withHand s f = .next t → ExecResult s t :=
    fun f hf h => .res ((withHand_result hf h).mono (by omega))
  have evo : Evolves 0 s t → ExecResult s t := fun h => .res (.evo (h.mono (by omega)))
  have answer : ∀ c a, Host.Outcome.next (φ := Fault) (ρ := Refusal) ({ s with nextCmd := s.nextCmd + 1 }.post c a) = .next t →
      ExecResult s t := fun c a h => evo (by cases h; exact (Evolves.next s).post _ _)
  cases i with
  | addrF => exact key _ (emitFirst_keeps _) h
  | addrN => exact key _ (emitItem_keeps _ _) h
  | wdataN => exact key _ (emitItem_keeps _ _) h
  | rdataN => exact key _ (emitItem_keeps _ _) h
  | brlenN => exact key _ (emitItem_keeps _ _) h
  | contF => exact key _ (emitFirst_keeps _) h
  | contN => exact key _ (emitItem_keeps _ _) h
  | rsp r =>
    refine key (fun h =>
      let w := packRsp h.cfg.layout.rsp r
      let h1 := h.withM (rspReadIs h.cfg w h.m)
      if h.m.pc = .decode then takeResponse w h1 else .go h1) (fun h => ?_) h
    have p := rspReadIs_portOnly h.cfg (packRsp h.cfg.layout.rsp r) h.m
    dsimp only
    split
    · rename_i hd
      exact .after p.keeps p.lock (takeResponse_keeps _ _ (by
        show (rspReadIs _ _ h.m).pc ∈ beforeLeave
        rw [p.pc, hd]; decide))
    · exact p.advKeeps
  | csr b c =>
    refine key (fun h => if b then .go (h.withM (writeCsr h.cfg c h.m)) else statusRead c h) (fun h => ?_) h
    split
    · exact (writeCsr_portOnly _ _ _).advKeeps
    · exact statusRead_keeps c h
  | transfer handle msgs => exact .res (execTransfer_result h)
  | caps => exact answer _ _ h
  | tune line => exact evo (execTune_result h)
  | dump =>
    cases h
    exact evo ((Evolves.next s).trans (dumpRun_evolves _ _ _ _ _ (fun m hm => hm)))
  | create base id n => exact .fresh base id n h
  | teardown id => exact evo (execTeardown_result h)
  | openBus a =>
    simp only [exec, execOpen] at h
    split at h
    · cases h
    · exact answer _ _ h
  | resetEngine =>
    refine key (fun h =>
      let r := resetOp h.cfg h.m
      .done (h.withM r.2) h.m.lock.owner (primAnswer r.1 .recoveryFailure)) (fun h => ?_) h
    exact ⟨(resetOp_spec h.cfg h.m).1.keeps, .inl (resetOp_spec h.cfg h.m).1.lock⟩
  | enter f =>
    refine key (fun h =>
      let r := enterOp h.cfg f h.m
      .done (h.withM r.2) h.m.lock.owner (primAnswer r.1 .enterFailed)) (fun h => ?_) h
    exact ⟨(enterOp_spec h.cfg f h.m).1.keeps, .inl (enterOp_spec h.cfg f h.m).1.lock⟩
  | leave f => exact key _ (fun h => (leaveOp_spec h.cfg f h.m).1.advKeeps) h
  | waitForCompletion bs a =>
    refine key (fun h => runWhile (·.bare.isSome) 4 (h.withM { h.m with bare := some .start })) (fun h => ?_) h
    refine .after ?_ ?_ (runWhile_keeps _ _ _)
    · exact .work rfl rfl (fun h => h) (fun w => w)
    · rfl
  | validate => exact answer _ _ h
  | lookup handle a => exact evo (execLookup_result h)

/-! ### CREATE -/

/-- The buses CREATE makes. -/
theorem makeBuses_spec : ∀ (n bid : Nat) (used : List Nat) (s : State),
   let r := makeBuses n bid used s
   r.2.cfg = s.cfg ∧ r.2.mem = s.mem ∧ r.2.masters = s.masters ∧ r.2.replies = s.replies ∧ r.2.nextHandle = s.nextHandle + n ∧ r.2.nextCmd = s.nextCmd ∧
   r.1.map (·.busId) = (List.range n).map (· + bid) ∧ (∀ b ∈ r.1, b.registered = true ∧ b.params = [] ∧ b.adap ∉ used ∧ s.nextHandle ≤ b.handle ∧ b.handle < s.nextHandle + n) ∧
   (r.1.map (·.adap)).Nodup ∧ (r.1.map (·.handle)).Nodup := by
  intro n
  induction n with
  | zero => intro bid used s; simp [makeBuses]
  | succ n ih =>
    intro bid used s
    have hfr : ∀ (used : List Nat) (x : Nat), freshAdap used x ∉ used := by
      intro used x
      unfold freshAdap
      split
      · intro hmem
        have : ∀ (l : List Nat) (a y : Nat), (y ∈ l ∨ y ≤ a) → y ≤ l.foldl max a := by
          intro l
          induction l with
          | nil => intro a y h; simpa using h
          | cons z l ih => intro a y h; simp only [List.foldl_cons]; apply ih; rcases h with h | h
                           · rcases List.mem_cons.mp h with rfl | h
                             · right; omega
                             · left; exact h
                           · right; omega
        have := this used 0 _ (Or.inl hmem)
        omega
      · assumption
    have haf : ∀ s : State, (afterAdap s).cfg = s.cfg ∧ (afterAdap s).mem = s.mem ∧ (afterAdap s).masters = s.masters ∧ (afterAdap s).replies = s.replies ∧ (afterAdap s).nextHandle = s.nextHandle ∧ (afterAdap s).nextCmd = s.nextCmd := by
      intro s; unfold afterAdap; split <;> simp
    obtain ⟨a1, a2, a3, a4, a5, a6⟩ := haf s
    have := ih (bid + 1) (freshAdap used (adapDrawn s) :: used) { afterAdap s with nextHandle := (afterAdap s).nextHandle + 1 }
    simp only at this
    obtain ⟨b1, b2, b3, b4, b5, b6, b7, b8, b9, b10⟩ := this
    simp only [makeBuses]
    refine ⟨b1.trans a1, b2.trans a2, b3.trans a3, b4.trans a4, by rw [b5, a5]; omega, b6.trans a6, ?_, ?_, ?_, ?_⟩
    · rw [List.map_cons, b7, List.range_succ_eq_map]
      simp [Bus.fresh]; intro a _; omega
    · intro b hb
      rcases List.mem_cons.mp hb with rfl | hb
      · refine ⟨rfl, rfl, hfr _ _, ?_, ?_⟩ <;> simp only [Bus.fresh, a5] <;> omega
      · obtain ⟨c1, c2, c3, c4, c5⟩ := b8 b hb
        exact ⟨c1, c2, fun h => c3 (by simp [h]), by omega, by omega⟩
    · rw [List.map_cons, List.nodup_cons]
      refine ⟨?_, b9⟩
      intro hmem
      obtain ⟨b, hb, he⟩ := List.mem_map.mp hmem
      exact (b8 b hb).2.2.1 (by rw [he]; simp [Bus.fresh])
    · rw [List.map_cons, List.nodup_cons]
      refine ⟨?_, b10⟩
      intro hmem
      obtain ⟨b, hb, he⟩ := List.mem_map.mp hmem
      have := (b8 b hb).2.2.2.1
      simp only [Bus.fresh] at he; omega

/-- What a CREATE that is not refused leaves. -/
structure Created (s t : State) (base id count : Nat) (m' : Master) : Prop where
  cfg : t.cfg = s.cfg
  mem : t.mem = s.mem
  ms : t.masters = insertById m' s.masters
  fresh : ∃ bs : List Bus, m' = Master.fresh id s.nextCmd base bs ∧ bs.length = count ∧ bs.map (·.busId) = List.range count ∧ (∀ b ∈ bs, b.registered = true ∧ b.params = [] ∧ b.adap ∉ s.adaps ∧ s.nextHandle ≤ b.handle ∧ b.handle < t.nextHandle) ∧ (bs.map (·.adap)).Nodup ∧ (bs.map (·.handle)).Nodup
  nh : t.nextHandle = s.nextHandle + count
  nc : t.nextCmd = s.nextCmd + 1
  reps : t.replies = s.replies ++ [⟨s.nextCmd, .created id⟩]
  new : ∀ m ∈ s.masters, m.id ≠ id
  ports : (∀ x ∈ portAddrs s.cfg base, x % 4 = 0) ∧ (portAddrs s.cfg base).Nodup ∧ (∀ m ∈ s.masters, ∀ x ∈ portAddrs s.cfg m.base, x ∉ portAddrs s.cfg base)

theorem execCreate_next {base id n} {s t : State} (h : execCreate base id n s = .next t) :
    ∃ m', Created s t base id (n.getD s.cfg.defaultBusCount) m' := by
  simp only [execCreate] at h
  split at h
  · cases h
  · rename_i href
    cases h
    have := makeBuses_spec (n.getD s.cfg.defaultBusCount) 0 s.adaps { s with nextCmd := s.nextCmd + 1 }
    simp only at this
    obtain ⟨b1, b2, b3, b4, b5, b6, b7, b8, b9, b10⟩ := this
    simp only [createRefusal] at href
    split at href
    · cases href
    · split at href
      · cases href
      · rename_i hid
        split at href
        · cases href
        · rename_i hal
          split at href
          · cases href
          · rename_i hsh
            refine ⟨_, b1, b2, by simp only [State.post]; rw [b3], ⟨_, rfl, ?_, ?_, ?_, b9, b10⟩, b5, b6, by simp only [State.post]; rw [b4], ?_, ?_, ?_, ?_⟩
            · have := congrArg List.length b7; simpa using this
            · rw [b7]; simp
            · intro b hb
              obtain ⟨c1, c2, c3, c4, c5⟩ := b8 b hb
              refine ⟨c1, c2, c3, c4, ?_⟩
              show _ < (makeBuses _ _ _ _).2.nextHandle
              rw [b5]; exact c5
            · intro m hm he; apply hid; exact List.any_eq_true.mpr ⟨m, hm, by simpa using he⟩
            · intro x hx; by_contra hne; apply hal; exact List.any_eq_true.mpr ⟨x, hx, by simpa using hne⟩
            · simp only [sharesAddress, Bool.or_eq_true, not_or] at hsh
              simpa using hsh.1
            · intro m hm x hx hxx
              simp only [sharesAddress, Bool.or_eq_true, not_or] at hsh
              apply hsh.2
              exact List.any_eq_true.mpr ⟨m, hm, List.any_eq_true.mpr ⟨x, hx, by simpa using hxx⟩⟩

/-- Putting a Master in its place permutes the Masters and the new one. -/
theorem insertById_perm (m : Master) (ms : List Master) : (insertById m ms).Perm (m :: ms) := by
  induction ms with
  | nil => rfl
  | cons x xs ih =>
    simp only [insertById]; split
    · rfl
    · exact (List.Perm.cons x ih).trans (List.Perm.swap m x xs)

/-! ### A step -/

theorem masterTurn_result {id : Nat} {s t : State} (h : masterTurn id s = .next t) : TurnResult 1 s t := by
  simp only [masterTurn] at h
  split at h
  · cases h; exact .evo ((Evolves.refl s).mono (by omega))
  · rename_i m hm
    have hmem := (State.master?_some hm).1
    have h0 : Evolves 0 s { s with inHand := id } := Evolves.hand s id
    split at h
    · simp only [grantLock] at h
      split at h
      · cases h; exact .evo (h0.mono (by omega))
      · exact TurnResult.pre h0 (resumeBlocked_result (s := { s with inHand := id }) hmem (afterDraw_evolves _ _ _) h)
    · split at h
      · exact (TurnResult.pre h0 (settle_result (s := { s with inHand := id }) hmem ‹_› (continueCommand_keeps _ _) h)).mono
          (by omega)
      · cases h; exact .evo ((Evolves.refl s).mono (by omega))

/-- The result of a step. -/
inductive StepResult (s t : State) : Prop
  | res (h : TurnResult 1 s t)
  | fresh (u : State) (h0 : Evolves 0 s u) (e1 : u.masters = s.masters) (e2 : u.mem = s.mem) (base id : Nat) (n : Option Nat)
      (h : execCreate base id n u = .next t)

theorem StepResult.pre {s u t : State} (h : StepResult u t) (h0 : Evolves 0 s u) (e1 : u.masters = s.masters)
    (e2 : u.mem = s.mem) : StepResult s t := by
  cases h with
  | res h => exact .res ((TurnResult.pre h0 h).mono (by omega))
  | fresh v g0 g1 g2 base id n h => exact .fresh v ((h0.trans g0)) (g1.trans e1) (g2.trans e2) base id n h

theorem turn_result {a : Agent} {s t : State} (h : turn a s = .next t) : StepResult s t := by
  cases a with
  | world => cases h; exact .res (.evo ((Evolves.refl s).mono (by omega)))
  | master id => exact .res (masterTurn_result h)
  | host =>
    simp only [turn, hostTurn] at h
    split at h
    · cases h; exact .res (.evo ((Evolves.refl s).mono (by omega)))
    · simp only [hostFill] at h
      split at h
      · cases h
      · cases h
        exact .res (.evo (Evolves.mono (n := 0)
          ⟨rfl, fun hw => writeBytes_wf hw _ _, rfl, fun _ m hm => ⟨m, hm, .refl _ _⟩, rfl, le_refl _⟩ (by omega)))
    · rename_i x rest _ hx
      split at h
      · rename_i i hi
        simp only [runDecoded] at h
        split at h
        · have h0 : Evolves 0 s { s with inbox := rest } := Evolves.of_same rfl rfl rfl rfl (le_refl _)
          cases exec_result h with
          | res h => exact .res ((TurnResult.pre h0 h).mono (by omega))
          | fresh base id n h => exact .fresh _ h0 rfl rfl base id n h
        · cases h
      · cases h

/-- Every step. -/
theorem step_result {s t : State} (h : Machine.step s = .next t) : StepResult s t := by
  simp only [step, nextTurn] at h
  split at h
  · exact (turn_result h).pre (.of_same rfl rfl rfl rfl (le_refl _)) rfl rfl
  · split at h
    · cases h; exact .res (.evo ((Evolves.refl s).mono (by omega)))
    · cases h; exact .res (.evo ((Evolves.refl s).mono (by omega)))
    · split at h
      · exact (turn_result h).pre (.of_same rfl rfl rfl rfl (le_refl _)) rfl rfl
      · cases h; exact .res (.evo ((Evolves.refl s).mono (by omega)))

/-! ### Lists over the Masters -/

/-- What every Master keeps, the list of Masters keeps. -/
theorem Evolves.map_eq {n : Nat} {s t : State} (h : Evolves n s t) (hr : IdsRising s) {α : Type} (f : Master → α)
    (hf : ∀ m m', MasterEvolves s.cfg n m m' → f m' = f m) : t.masters.map f = s.masters.map f := by
  have hlen : t.masters.length = s.masters.length := by simpa using congrArg List.length h.ids
  apply List.ext_getElem (by simpa using hlen)
  intro k h1 h2
  simp only [List.length_map] at h1 h2
  simp only [List.getElem_map]
  obtain ⟨m, hm, e⟩ := h.ms hr _ (List.getElem_mem h1)
  have hid : t.masters[k].id = s.masters[k].id := by
    have := congrArg (fun l => l[k]?) h.ids
    simpa [h1, h2] using this
  have : m = s.masters[k] := hr.eq_of_id hm (List.getElem_mem h2) (e.ext.1.symm.trans hid)
  rw [hf _ _ e, this]

end Sys2Proof.Machine
end

