-- ==== Sys2Proof/Laws/PerInstr.lean ====
section
/-! SUPPORT. Statements for all instructions, one lemma per constructor. The family OneWordOrNone: an instruction that has a
slot is one word, every other has no word (30_encoding.md R90 and R96; the rows of the opcode table without bits). -/

namespace Sys2Proof.Laws.OneWordOrNone

/-- Under every layout an instruction with a slot encodes to one word, one without to none. -/
def Statement (i : Instr) : Prop := ∀ l : Layout, (encode l i).length = if (slotOf i).isSome then 1 else 0

theorem addrF (bs : BitVec 4) (sp : Bool) (t dat : BitVec 2) (ss : BitVec 10) (d : Byte) : Statement (.addrF bs sp t dat ss d) := fun _ => rfl

theorem addrN (bs : BitVec 4) (sp : Bool) (t dat : BitVec 2) (ti : BitVec 4) (d : Byte) : Statement (.addrN bs sp t dat ti d) := fun _ => rfl

theorem wdataN (bs : BitVec 4) (sp : Bool) (t dat : BitVec 2) (ti : BitVec 4) (d : Byte) : Statement (.wdataN bs sp t dat ti d) := fun _ => rfl

theorem rdataN (bs : BitVec 4) (sp da : Bool) (t dat : BitVec 2) (ti : BitVec 4) : Statement (.rdataN bs sp da t dat ti) := fun _ => rfl

theorem brlenN (bs : BitVec 4) (sp ed : Bool) (t dat : BitVec 2) (ti : BitVec 4) : Statement (.brlenN bs sp ed t dat ti) := fun _ => rfl

theorem contF (bs : BitVec 4) (sp da : Bool) (t dat : BitVec 2) (ss : BitVec 10) : Statement (.contF bs sp da t dat ss) := fun _ => rfl

theorem contN (bs : BitVec 4) (sp da : Bool) (t dat : BitVec 2) (ti : BitVec 4) : Statement (.contN bs sp da t dat ti) := fun _ => rfl

theorem rsp (r : Rsp) : Statement (.rsp r) := fun _ => rfl

theorem csr (write : Bool) (c : Csr) : Statement (.csr write c) := fun _ => by cases write <;> rfl

theorem transfer (handle : Nat) (msgs : List Message) : Statement (.transfer handle msgs) := fun _ => rfl

theorem caps (handle : Nat) : Statement (.caps handle) := fun _ => rfl

theorem tune (line : List Char) : Statement (.tune line) := fun _ => rfl

theorem dump : Statement .dump := fun _ => rfl

theorem create (base id : Nat) (busCount : Option Nat) : Statement (.create base id busCount) := fun _ => rfl

theorem teardown (id : Nat) : Statement (.teardown id) := fun _ => rfl

theorem openBus (adap : Nat) : Statement (.openBus adap) := fun _ => rfl

theorem resetEngine : Statement .resetEngine := fun _ => rfl

theorem enter (f : Bool) : Statement (.enter f) := fun _ => rfl

theorem leave (hadErr : Bool) : Statement (.leave hadErr) := fun _ => rfl

theorem waitForCompletion (bs : BitVec 4) (addr : BitVec 7) : Statement (.waitForCompletion bs addr) := fun _ => rfl

theorem validate (r : Rsp) (e : BitVec 4) (last : Bool) : Statement (.validate r e last) := fun _ => rfl

theorem lookup (handle : Nat) (addr : BitVec 7) : Statement (.lookup handle addr) := fun _ => rfl

end Sys2Proof.Laws.OneWordOrNone
end

