-- ==== Sys2Proof/Tests/Slice0.lean ====
section
/-! SUPPORT. The model's own tests. Expected values are those of spec/95_test_vectors.md (the vector is named in each
docstring) or are worked out by hand from the rule named. The witnesses at the end show, for every statement that has
hypotheses, concrete states and operands that meet them, at the edges of their ranges. -/

namespace Sys2Proof.Tests

open Sys2Proof Sys2Proof.Machine

/-! ### Small states -/

/-- The reference parameters with exact sleeps (R263, SLEEP_EXACT). -/
def exact : Config := { Config.reference with sleepExact := true }

/-- Master 1 with four buses (external numbers 10, 11, 12, 14) and the engine's answers scripted. -/
def master (csr rsp : List Word) : Master :=
  { Master.fresh 1 0 0x8000 [Bus.fresh 0 0 10, Bus.fresh 1 1 11, Bus.fresh 2 2 12, Bus.fresh 3 3 14] with
    csrIn := csr, rspIn := rsp }

/-- A machine with this one Master. -/
def alone (m : Master) : State := { State.reset with cfg := exact, masters := [m] }

/-- The same Master with its lock held by command 7. -/
def held (m : Master) : Master := { m with lock := .held 7 }

/-- A machine whose Master in hand has its lock held. -/
def holding (csr rsp : List Word) : State := alone (held (master csr rsp))

/-- Does the outcome go on, to a state with this property? -/
def goesOn (o : Host.Outcome State Fault Refusal) (p : State → Bool) : Bool :=
  match o with
  | .next t => p t
  | .fault _ => false
  | .refused _ => false

/-- Is the outcome this refusal? -/
def refuses (o : Host.Outcome State Fault Refusal) (r : Refusal) : Bool :=
  match o with
  | .next _ => false
  | .fault _ => false
  | .refused x => x == r

/-- A property of the one Master left. -/
def ofMaster (p : Master → Bool) (s : State) : Bool :=
  match s.masters with
  | [m] => p m
  | _ => false

/-- The words written to REQ, in order. -/
def requests (m : Master) : List Word :=
  (accesses m).filterMap fun a => match a with
    | .write x w => if x = m.base + exact.reqOff then some w else none
    | .read _ _ => none
    | .sleep _ => none

/-- The answers so far. -/
def answers (s : State) : List Answer := s.replies.map (·.answer)

/-- A write message and a read message whose buffers are as large as their payload, and a block read with room for 32. -/
def wr (a len buf : Nat) : Message := ⟨a, false, false, false, false, buf, len, len⟩
def rd (a len buf : Nat) : Message := ⟨a, true, false, false, false, buf, len, len⟩
def rv (a buf : Nat) : Message := ⟨a, true, false, true, false, buf, 33, 1⟩

/-- The two words that are read, under the reference layout. -/
def csrOf (w : Word) : Csr := unpackCsr Layout.reference.csr w
def rspOf (w : Word) : Rsp := unpackRsp Layout.reference.rsp w

/-- The clean control/status word of the vectors. -/
def cleanWord : Word := 0x20000014#32

/-! ### Well-formedness -/

/-- R95: a first item of session size 0. -/
theorem test_wf_refuses_addrF_size_zero : (Instr.addrF 0 false 1 3 0 0xA0).wf = false := by decide
theorem test_wf_refuses_contF_size_zero : (Instr.contF 0 false true 1 3 0).wf = false := by decide
theorem test_wf_accepts_addrF_size_one : (Instr.addrF 0 true 1 3 1 0x58).wf = true := by decide

/-- The step refuses what is not well formed. -/
theorem test_step_refuses_ill_formed :
    refuses (step (State.reset.withFetchWord 32 0x09000000)) .illFormed = true := by decide

/-! ### Decoding: the words of V-F1, V-F2 and V-F3 -/

/-- Does a word decode to this? -/
def reads (sl : Slot) (w : Word) (i : Instr) : Bool :=
  match decodeAt .reference sl w with
  | .ok x => x == i
  | .error _ => false

theorem test_decode_addrF : reads .addrFirst 0x392804B0#32 (.addrF 3 false 2 2 4 0xB0) = true := by decide
theorem test_decode_addrN : reads .addrLater 0x011C04A1#32 (.addrN 0 false 1 3 4 0xA1) = true := by decide
theorem test_decode_wdataN : reads .writeData 0x051C0303#32 (.wdataN 0 true 1 3 3 0x03) = true := by decide
theorem test_decode_rdataN : reads .readData 0x061C0700#32 (.rdataN 0 true false 1 3 7) = true := by decide
theorem test_decode_brlenN : reads .blockLength 0x37E40300#32 (.brlenN 3 true true 2 1 3) = true := by decide
theorem test_decode_contF : reads .contFirst 0x031C0500#32 (.contF 0 false true 1 3 5) = true := by decide
theorem test_decode_contN : reads .contLater 0x061C0400#32 (.contN 0 true false 1 3 4) = true := by decide
theorem test_decode_rsp :
    reads .response 0xF03FFF7E#32 (.rsp ⟨15, false, false, false, false, false, false, 0x7E⟩) = true := by decide
theorem test_decode_csr :
    reads .statusRead 0xA8000114#32 (.csr false ⟨true, false, 2, true, 0, 2, 0, true, 1, 0⟩) = true := by decide

/-- A set bit where the row has 0: bit 17 of an ADDR.N word. -/
theorem test_decode_rejects_fixed_bit : decodeAt .reference .addrLater 0x011E04A1#32 = .error .fixedBits := by rfl
/-- Three bytes are no word. -/
theorem test_decode_rejects_short : decode .reference .response [0#8, 0#8, 0#8] = .error .shortInput := by rfl

/-- R109: white space and hexadecimal; R111: a creation line. -/
theorem test_decode_tune_line :
    parseTuneLine "14 0x58\t2 1 2 1".toList = some ⟨14, 0x58, 2, 1, 2, 1⟩ := by decide
theorem test_decode_create_line :
    decodeLine "smbus_master 0x8000 1 4".toList = .ok (.create 0x8000 1 (some 4)) := by rfl
theorem witness_TextLinesReadBack :
    (fields "smbus_master 0x8000 1 4".toList).head? = some "smbus_master".toList ∧
    (fields "smbus_master 0x8000 1 4".toList).tail.map parseNumber = [some 0x8000, some 1, some 4] ∧
    (fields "smbus_master 0x8000 1".toList).tail.map parseNumber = [some 0x8000, some 1] ∧
    decodeLine "smbus_master 0x8000".toList = .error .malformedCreateLine ∧
    decodeLine "smbus_master 0x8000 one".toList = .error .malformedCreateLine ∧
    decodeLine "smbus_master 1 2 3 4".toList = .error .malformedCreateLine ∧
    decodeLine "smbus_masters 1 2".toList = .ok (.tune "smbus_masters 1 2".toList) ∧
    (∀ w ∈ ["0".toList, "0x57".toList], w ≠ [] ∧ ∀ c ∈ w, isBlank c = false) := by
  refine ⟨by rfl, by rfl, by rfl, by rfl, by rfl, by rfl, by rfl, by simp [isBlank]⟩

/-! ### The request items: one write to REQ each (V-F1), `x[k]` counted -/

def wrote (i : Instr) (w : Word) (k : Nat) : Bool :=
  goesOn (exec i (holding [] [])) (ofMaster fun m => accesses m == [.write 0x8000 w] && m.k == k)

theorem test_exec_addrF : wrote (.addrF 0 false 1 3 128 0xA0) 0x091C80A0#32 1 = true := by decide
theorem test_exec_addrN : wrote (.addrN 0 false 1 3 4 0xA1) 0x011C04A1#32 1 = true := by decide
theorem test_exec_wdataN : wrote (.wdataN 0 false 1 3 2 0x22) 0x011C0222#32 1 = true := by decide
theorem test_exec_rdataN : wrote (.rdataN 0 false true 1 3 5) 0x031C0500#32 1 = true := by decide
theorem test_exec_brlenN : wrote (.brlenN 0 true false 1 3 3) 0x079C0300#32 1 = true := by decide
theorem test_exec_contF : wrote (.contF 0 false true 1 3 5) 0x031C0500#32 1 = true := by decide
theorem test_exec_contN : wrote (.contN 0 true false 1 3 4) 0x061C0400#32 1 = true := by decide

/-- R75: no access without the lock. -/
theorem test_exec_item_needs_lock :
    refuses (exec (.addrN 0 false 1 3 4 0xA1) (alone (master [] []))) .lockNotHeld = true := by decide

/-- A layout that keeps two bits for the session size, beside the index (R91, R95). -/
def narrow : Layout := { Layout.reference with req := { Layout.reference.req with ss := 12, ssWidth := 2 } }

/-- F13: it cannot hold a session of 4 items, but one of 3, at bit 12. -/
theorem test_exec_addrF_too_wide :
    refuses (exec (.addrF 0 false 1 3 4 0xA0) { holding [] [] with cfg := { exact with layout := narrow } }) .notEncodable = true := by
  decide
theorem test_exec_addrF_narrow :
    goesOn (exec (.addrF 0 false 1 3 3 0xA0) { holding [] [] with cfg := { exact with layout := narrow } })
      (ofMaster fun m => accesses m == [.write 0x8000 0x091C30A0#32]) = true := by decide

/-! ### The data words -/

/-- A command in DECODE of `R 0x50 3` at data item 2 of message 0, one response left. -/
def decoding : Master :=
  { held (master [] []) with msgs := [rd 0x50 3 0x100], j := 2, ad := true, e := 5, rem := 1, pc := .decode, ss := 4 }

/-- V-D1 row 1 and R197: the byte 0x11 goes to offset 2. -/
theorem test_exec_rsp_stores :
    goesOn (exec (.rsp ⟨5, false, false, false, false, false, false, 0x11⟩) (alone decoding))
      (fun t => t.mem == [(0x102, 0x11#8)] && ofMaster (fun m => m.j == 3 && m.e == 6 && m.rem == 0) t) = true := by decide

/-- V-D1 row 6: an index that does not match raises, and its data is ignored (R193, R256). -/
theorem test_exec_rsp_raises :
    goesOn (exec (.rsp ⟨3, false, false, false, false, false, false, 0x42⟩) (alone decoding))
      (fun t => t.mem == [] && ofMaster (fun m => m.pc == .leave && m.diag == [.failed .indexMismatch]) t) = true := by decide

/-- A command in WAIT. -/
def waiting : Master := { held (master [] []) with msgs := [wr 0x2C 0 0], ss := 1, pc := .wait }

/-- V-W3 b: frame-empty is tested before the overflow; the word is written back. -/
theorem test_exec_csr_frame_empty :
    goesOn (exec (.csr false (csrOf 0x60003F94#32)) (alone waiting))
      (ofMaster fun m => m.pc == .decode && m.rem == 1 &&
        accesses m == [.read 0x8004 0x60003F94#32, .write 0x8004 0x60003F94#32]) = true := by decide

/-- V-W1: nrq 8 at speed class 1 sleeps 315 microseconds. -/
theorem test_exec_csr_sleeps :
    goesOn (exec (.csr false (csrOf 0x20100014#32)) (alone waiting))
      (ofMaster fun m => m.pc == .wait && accesses m == [.read 0x8004 0x20100014#32, .sleep 315] &&
        m.spot == .wait (.wake 315)) = true := by decide

/-! ### TRANSFER -/

/-- P1 with frame-empty at the first wait read: the eight words of V-E3, and the bytes read back. -/
theorem test_exec_transfer_round_trip :
    goesOn (exec (.transfer 0 [wr 0x50 3 0, rd 0x50 3 0x10])
      { alone (master [cleanWord, 0x60000414#32, cleanWord, cleanWord]
          [0x00000000#32, 0x10000000#32, 0x20000000#32, 0x30000000#32, 0x40000000#32, 0x50000011#32, 0x60000022#32,
           0x70000033#32]) with mem := [(0, 0x11#8), (1, 0x22#8), (2, 0x33#8)] })
      (fun t => t.mem == [(0, 0x11#8), (1, 0x22#8), (2, 0x33#8), (0x10, 0x11#8), (0x11, 0x22#8), (0x12, 0x33#8)] &&
        ofMaster (fun m => m.lock == .free && m.rid == 1 && requests m ==
          [0x091C08A0#32, 0x011C0111#32, 0x011C0222#32, 0x011C0333#32, 0x011C04A1#32, 0x031C0500#32, 0x031C0600#32,
           0x061C0700#32]) t) = true := by decide

/-- A session size the layout cannot hold ends a TRANSFER too (F13). -/
theorem test_exec_transfer_too_wide :
    refuses (exec (.transfer 0 [wr 0x50 3 0]) { alone (master [cleanWord] []) with cfg := { exact with layout := narrow } })
      .notEncodable = true := by decide

/-- R77: a turn cut short after one step leaves the command in ENTER, with the lock; the Master's next turn goes on. -/
theorem test_exec_transfer_cut :
    goesOn (exec (.transfer 0 [wr 0x50 0 0])
        { alone (master [cleanWord, 0x60000414#32, cleanWord, cleanWord] [0#32]) with cut := some 1 })
      (fun t => answers t == [] && ofMaster (fun m => m.pc == .enter && m.lock == .held 1 && m.hist == []) t &&
        goesOn (masterTurn 1 { t with cut := none })
          (fun u => answers u == [.success [wr 0x50 0 0]] && ofMaster (fun m => m.lock == .free) u)) = true := by decide

/-- R263: time passes between two accesses, by free amounts. -/
theorem test_time_passes_between_accesses :
    goesOn (exec (.leave true) { holding [cleanWord, cleanWord] [] with
        cfg := Config.reference, masters := [{ held (master [cleanWord, cleanWord] []) with draws := [3, 4] }] })
      (ofMaster fun m => m.hist == [.read 0x8004 cleanWord 3, .read 0x8004 cleanWord 7]) = true := by decide

/-- P3 with frame-empty at the first read of each wait: the continuation session of five items. -/
theorem test_exec_transfer_continuation :
    goesOn (exec (.transfer 0 [wr 0x58 1 0x80, rv 0x58 0])
      { alone (master [0x10000010#32, 0x50000210#32, 0x50000290#32, 0x10000010#32, 0x10000010#32]
          [0x00000000#32, 0x10000000#32, 0x20000000#32, 0x30000005#32, 0x000000A0#32, 0x100000A1#32, 0x200000A2#32,
           0x300000A3#32, 0x480000A4#32]) with mem := [(0x80, 0x06#8)] })
      (fun t => answers t == [.success [wr 0x58 1 0x80, { rv 0x58 0 with length := 6 }]] &&
        t.mem == [(0, 0x05#8), (1, 0xA0#8), (2, 0xA1#8), (3, 0xA2#8), (4, 0xA3#8), (5, 0xA4#8), (0x80, 0x06#8)] &&
        ofMaster (fun m => requests m == [0x091C04B0#32, 0x011C0106#32, 0x011C02B1#32, 0x079C0300#32, 0x031C0500#32,
          0x031C0100#32, 0x031C0200#32, 0x031C0300#32, 0x061C0400#32]) t) = true := by decide

/-- P7: 128 items under class 0: nothing is written, the kind is session-overflow. -/
theorem test_exec_transfer_declared_overflow :
    goesOn (exec (.transfer 0 [wr 0x50 63 0, rd 0x50 63 0x100]) (alone (master [cleanWord, cleanWord, cleanWord] [])))
      (fun t => answers t == [.failure .sessionOverflow] &&
        ofMaster (fun m => accesses m == [.read 0x8004 cleanWord, .read 0x8004 cleanWord, .read 0x8004 cleanWord]) t) = true := by
  decide

/-! ### The other commands -/

theorem test_exec_caps : goesOn (exec (.caps 0) State.reset) (fun t => answers t ==
    [.capabilities [.quickCommand, .byte, .byteData, .wordData, .blockData, .rawI2C, .noStart]]) = true := by decide

/-- V-P1, third step on a store with a bus-wide record: the new record stands last. -/
def tuned : State := alone { master [] [] with buses := [⟨3, 3, 14, true, [⟨0, 2, 2, 2, false⟩, ⟨0x58, 2, 1, 2, true⟩]⟩] }

theorem test_exec_tune_overwrites :
    goesOn (exec (.tune "14 88 3 3 3 0".toList) tuned) (fun t => answers t == [.accepted] &&
      ofMaster (fun m => m.buses.map (·.params) == [[⟨0, 2, 2, 2, false⟩, ⟨0x58, 3, 3, 3, false⟩]]) t) = true := by decide

/-- V-P2: ed out of range. -/
theorem test_exec_tune_rejects :
    goesOn (exec (.tune "14 0x58 2 1 2 2".toList) tuned) (fun t => answers t == [.rejected] && t.masters == tuned.masters) = true := by
  decide

/-- V-P3. -/
theorem test_exec_dump :
    goesOn (exec .dump tuned) (fun t => answers t == [.lines
      ["1/3/00: adap=14 t=2 datr=2 datw=2 ed=0".toList, "1/3/58: adap=14 t=2 datr=1 datw=2 ed=1".toList]]) = true := by decide

/-- R225: identities from 0, external numbers from the framework. -/
theorem test_exec_create :
    goesOn (exec (.create 0x9000 2 (some 2)) { State.reset with adapIn := [5, 9] })
      (fun t => t.masters.map (fun m => (m.id, m.base, m.buses.map (fun b => (b.busId, b.adap)))) ==
        [(1, 0x8000, [(0, 0), (1, 1), (2, 2), (3, 3)]), (2, 0x9000, [(0, 5), (1, 9)])]) = true := by decide

/-- R68: the same registers again. -/
theorem test_exec_create_shared : refuses (exec (.create 0x8004 2 none) State.reset) .sharedAddress = true := by decide

theorem test_exec_teardown :
    goesOn (exec (.teardown 1) State.reset) (ofMaster fun m => m.pc == .tearReset && m.hist == [] &&
      m.buses.all (fun b => !b.registered)) = true := by decide

/-- R226: a second TEARDOWN waits, and a DUMP at a held lock waits with what it has printed. -/
theorem test_exec_teardown_again :
    goesOn (exec (.teardown 1) (holding [] [])) (ofMaster fun m => m.waiting == [.teardown 1] && m.lock == .held 7) = true := by decide
theorem test_exec_dump_waits :
    goesOn (exec .dump (holding [] [])) (fun t => answers t == [] && ofMaster (fun m => m.waiting == [.dump 1 []]) t) = true := by decide

/-- R226: no such Master. -/
theorem test_exec_teardown_none : refuses (exec (.teardown 2) State.reset) .noSuchMaster = true := by decide

theorem test_exec_open :
    goesOn (exec (.openBus 14) (alone (master [] []))) (fun t => answers t == [.handle 3]) = true := by decide

/-! ### The primitives -/

/-- V-M2 b: clean at the fourth re-read. -/
theorem test_exec_reset :
    goesOn (exec .resetEngine (holding [0x28000114#32, 0xA8000114#32, 0xA8000114#32, 0xA0000014#32, 0x20000004#32] []))
      (fun t => answers t == [.prim .ok] && ofMaster (fun m => m.mc == .idle && m.time == 15000 &&
        (accesses m).take 3 == [.read 0x8004 0x28000114#32, .write 0x8004 0xA8000114#32, .sleep 1000]) t) = true := by decide

/-- V-M2 c: reset clear, but a request pending, four times. -/
theorem test_exec_reset_fails :
    goesOn (exec .resetEngine (holding [cleanWord, 0x20020014#32, 0x20020014#32, 0x20020014#32, 0x20020014#32] []))
      (fun t => answers t == [.prim .recoveryFailure] && ofMaster (fun m => m.mc == .faulted) t) = true := by decide

/-- V-M1 b: foe corrected. -/
theorem test_exec_enter_corrects :
    goesOn (exec (.enter true) (holding [0x20000004#32, cleanWord] []))
      (ofMaster fun m => m.mc == .ready &&
        accesses m == [.read 0x8004 0x20000004#32, .write 0x8004 cleanWord, .read 0x8004 cleanWord]) = true := by decide

/-- V-M1 d: the reset flag does not clear. -/
theorem test_exec_enter_fails :
    goesOn (exec (.enter true) (holding [0xA0000014#32, 0xA0000014#32] []))
      (fun t => answers t == [.prim .enterFailed] && ofMaster (fun m => m.mc == .faulted) t) = true := by decide

/-- V-M3 c: one response drained, backlog at the second read, a reset armed. -/
theorem test_exec_leave :
    goesOn (exec (.leave false) (holding [0x20000094#32, 0x28000014#32] [0x00000001#32]))
      (ofMaster fun m => m.mc == .idle && accesses m == [.read 0x8004 0x20000094#32, .read 0x8008 0x00000001#32,
        .read 0x8004 0x28000014#32, .write 0x8004 0xA8000014#32]) = true := by decide

/-- V-M3 d: no drain after an error. -/
theorem test_exec_leave_after_error :
    goesOn (exec (.leave true) (holding [0x20000194#32, 0x20000194#32] []))
      (ofMaster fun m => accesses m == [.read 0x8004 0x20000194#32, .read 0x8004 0x20000194#32,
        .write 0x8004 0xA0000194#32]) = true := by decide

/-- V-W3 a. -/
theorem test_exec_wait_overflow :
    goesOn (exec (.waitForCompletion 0 0) (holding [0x20003F94#32] []))
      (fun t => answers t == [.prim .waitOverflow] && ofMaster (fun m => accesses m == [.read 0x8004 0x20003F94#32]) t) = true := by
  decide

/-- V-D1 rows 11 and 12: the flags come before the index. -/
theorem test_exec_validate_ack :
    goesOn (exec (.validate (rspOf 0x32000000#32) 2 false) State.reset) (fun t => answers t == [.verdict (some .ackError)]) = true := by
  decide
theorem test_exec_validate_early :
    goesOn (exec (.validate (rspOf 0x38000000#32) 2 false) State.reset)
      (fun t => answers t == [.verdict (some .earlyFrameEmpty)]) = true := by decide

/-- V-P1: an address without a record of its own gets the bus-wide one. -/
theorem test_exec_lookup_bus_wide :
    goesOn (exec (.lookup 3 0x51) tuned) (fun t => answers t == [.params ⟨2, 2, 2, false⟩]) = true := by decide
/-- R75: with the lock held a lookup waits. -/
theorem test_exec_lookup_waits :
    goesOn (exec (.lookup 3 0x51) (holding [] [])) (fun t => answers t == [] &&
      ofMaster (fun m => m.waiting == [.lookup 1 3 0x51]) t) = true := by decide
theorem test_exec_lookup_default :
    goesOn (exec (.lookup 0 0x51) State.reset) (fun t => answers t == [.params ⟨1, 3, 3, false⟩]) = true := by decide

/-! ### Placing a word -/

/-- The word placed is the next thing the machine runs, from reset (log 8). -/
theorem test_withFetchWord_runs :
    goesOn (step (State.reset.withFetchWord 32 0x091C08A0)) (ofMaster fun m => accesses m == [.write 0x8000 0x091C08A0#32]) = true := by decide
theorem test_decodeTableWord : decodeTableWord 32 0x091C08A0 = some (.addrF 0 false 1 3 8 0xA0) := by decide

/-! ### Witnesses: concrete states and operands that meet the hypotheses of each statement -/

/-- A machine that is about to run an ADDR.F. -/
def running : State := State.reset.withFetchWord 32 0x091C08A0

theorem witness_EveryStepKeepsTheInvariant : Inv running ∧ goesOn (step running) (fun _ => true) = true := by decide
theorem witness_EveryStepKeepsPortsAndNamesApart : IdsRising running ∧ PortsApart running ∧ NamesDistinct running ∧
    goesOn (step running) (fun _ => true) = true := by decide
theorem witness_HistoriesGrowByLegalAccesses : IdsRising running ∧ running.masters.map (·.id) = [1] ∧
    goesOn (step running) (ofMaster fun m => m.id == 1 && m.hist.length == 1) = true := by decide

/-- The host about to present one input. -/
def presenting (x : Input) (m : Master) : State := { alone m with sched := [(.host, none)], inbox := [x] }

theorem witness_ConfigurationIsFixed :
    IdsRising (presenting (.op (.transfer 0 [wr 0x50 0 0])) (master [cleanWord, 0x60000094#32, cleanWord, cleanWord] [0#32])) ∧
    goesOn (step (presenting (.op (.transfer 0 [wr 0x50 0 0])) (master [cleanWord, 0x60000094#32, cleanWord, cleanWord] [0#32])))
      (ofMaster fun m => m.id == 1 && m.rid == 1) = true := by decide

/-- A Master for whose free lock a TUNE waits. -/
def tuneWaits : Master := { master [] [] with waiting := [.tune 8 3 ⟨0x58, 2, 1, 2, true⟩] }
theorem witness_OnlyTuneChangesStores_exec : IdsRising tuned ∧ (∀ line, Instr.dump ≠ .tune line) ∧
    goesOn (exec .dump tuned) (ofMaster fun m => m.id == 1) = true := ⟨by decide, (fun _ h => by cases h), by decide⟩
theorem witness_OnlyTuneChangesStores_step :
    IdsRising (presenting (.line "14 0x58 2 1 2 1".toList) (master [] [])) ∧
    goesOn (step (presenting (.line "14 0x58 2 1 2 1".toList) (master [] [])))
      (ofMaster fun m => m.buses.map (·.params) != (master [] []).buses.map (·.params)) = true ∧
    goesOn (step { alone tuneWaits with sched := [(.master 1, none)] })
      (ofMaster fun m => m.buses.map (·.params) != tuneWaits.buses.map (·.params)) = true := by decide

/-- Two Masters, the first in hand with its lock held. -/
def two : State :=
  { alone (master [] []) with masters := [held (master [] []), Master.fresh 2 1 0x9000 [Bus.fresh 0 4 20]] }

theorem witness_MastersAreIndependent_item : IdsRising two ∧ goesOn (exec (.addrF 0 false 1 3 8 0xA0) two) (fun _ => true) = true ∧
    (slotOf (.addrF 0 false 1 3 8 0xA0)).isSome = true ∧ two.masters.map (·.id) = [1, 2] ∧ two.inHand = 1 := by decide
theorem witness_MastersAreIndependent_transfer :
    goesOn (exec (.transfer 0 [wr 0x50 0 0]) two) (fun _ => true) = true ∧
    ((two.busOf 0).map fun x => x.1.id) = some 1 := by decide
theorem witness_MastersAreIndependent_turn :
    goesOn (masterTurn 1 two) (fun _ => true) = true ∧ ((two.master? 1).map (·.waiting)) = some [] := by decide

/-- What a step of the block comes to: on, to a rest, or to neither. -/
def stepsOn (m : Master) (p : Master → Bool) : Bool :=
  match advance ⟨exact, m, []⟩ with
  | .go h => p h.m
  | .pause h => p h.m
  | .done _ _ _ => false
  | .gone _ _ => false
  | .refuse _ => false
theorem witness_MastersAreIndependent_access :
    stepsOn { waiting with spot := .wait .read, csrIn := [cleanWord] } (fun m => m.hist.length == 1) = true := by decide

theorem witness_StepRunsTheDecodedInput :
    running.sched = (.host, none) :: [] ∧ running.inbox = .word .addrFirst 0x091C08A0#32 :: [] ∧
    (∃ i, decodeInput .reference (.word .addrFirst 0x091C08A0#32) = .ok i ∧ i.wf = true) ∧
    (∃ i, decodeInput .reference (.word .addrFirst 0x09000000#32) = .ok i ∧ i.wf = false) ∧
    (∃ e, decodeInput .reference (.word .addrFirst 0#32) = .error e) :=
  ⟨by decide, by decide, ⟨_, rfl, rfl⟩, ⟨_, rfl, rfl⟩, ⟨_, rfl⟩⟩

/-- The host stores `bytes` from `addr` on, while a TRANSFER into the two bytes from 16 on waits. -/
def filling (addr : Nat) (bytes : List Byte) : State :=
  presenting (.fill addr bytes) { held (master [] []) with pc := .wait, msgs := [rd 0x58 2 16] }

theorem witness_StepRunsTheDecodedInput_fill :
    (∀ y < 16, inOpenBuffer (filling 14 [1, 2]) y = false) ∧ Memory.wf (filling 14 [1, 2]).mem ∧
    goesOn (step (filling 14 [1, 2])) (fun t => t.mem == [(14, 1#8), (15, 2#8)]) = true ∧
    goesOn (step (filling 18 [1])) (fun _ => true) = true ∧
    inOpenBuffer (filling 15 [1, 2]) 16 = true ∧ refuses (step (filling 15 [1, 2])) .bufferChanged = true ∧
    refuses (step (filling 17 [1])) .bufferChanged = true := by decide

/-- The fields of a request word from bit 0 on, in the order of R96: another layout that R91 admits. -/
def turned : Layout :=
  { narrow with
    req := ⟨0, 4, 5, 6, 7, 8, 9, 10, 12, 14, 14, 10, 24⟩
    rsp := ⟨0, 4, 5, 6, 7, 8, 9, 10⟩
    csr := ⟨0, 1, 2, 4, 5, 15, 25, 27, 28, 30, 31⟩ }
theorem witness_layouts : Layout.reference.ok ∧ narrow.ok ∧ turned.ok := ⟨by decide, by decide, by decide⟩

theorem witness_DecodeInvertsEncode : slotOf (.addrF 15 true 3 3 1023 0xFF) = some .addrFirst ∧
    (1023#10).toNat < 2 ^ Layout.reference.req.ssWidth ∧ (3#10).toNat < 2 ^ narrow.req.ssWidth ∧
    slotOf (.csr true (csrOf 0xFFFFFFFF#32)) = some .statusWrite := by decide
theorem witness_EncodeInvertsDecode : (∃ i, decodeAt turned .response 0xFFFFFFFF#32 = .ok i) ∧
    ∃ i, decodeAt .reference .contFirst 0xF63FFF00#32 = .ok i := ⟨⟨_, rfl⟩, ⟨_, rfl⟩⟩
theorem witness_RequestWordLayout : packReq narrow.req (addrFItem 0 false 1 3 4 0) true = none ∧
    packReq narrow.req (addrFItem 0 false 1 3 3 0) true = some 0x091C3000#32 ∧
    packReq narrow.req (addrNItem 0 false 1 3 15 0) false = some 0x011C0F00#32 := by decide

/-- A list with items of all five kinds of a main session. -/
def allKinds : List Message := [wr 0x58 1 0, rd 0x58 2 0x10, rv 0x58 0x20]
theorem witness_OnlyTheSevenItemKinds : listRefusal 15 allKinds = none ∧
    ((itemsOf exact (master [] []) 15 allKinds []).length = 7) := by decide
theorem witness_OnlyTheSevenItemKinds_continuation :
    (contItems ⟨exact, { held (master [] []) with nAnn := 2 }, []⟩ (rv 0x58 0x20)).length = 2 := by decide
theorem witness_MainSessionFraming : listRefusal 0 [wr 0x50 1022 0] = none ∧ sessionSize [wr 0x50 1022 0] = 1023 ∧
    listRefusal 0 [wr 0x50 0 0] = none ∧ sessionSize [wr 0x50 0 0] = 1 := by decide

/-- The third bus of `master`, and its first. -/
theorem witness_MessageItems : exact.daPolicy = DaPolicy.reference ∧ Bus.fresh 2 2 12 ∈ (master [] []).buses ∧
    ((master [] []).buses.map (·.busId)).Nodup ∧ (rv 0x7F 0).addr ≤ 0x7F ∧ (rv 0x7F 0).noStart = false ∧
    0 < (rv 0x7F 0).length ∧ (wr 0x50 3 0).read = false ∧ (rd 0x50 3 0).read = true ∧ (rd 0x50 3 0).vlr = false := by decide
theorem witness_ContinuationItems : exact.daPolicy = DaPolicy.reference ∧ Bus.fresh 3 3 14 ∈ (master [] []).buses ∧
    ((master [] []).buses.map (·.busId)).Nodup ∧
    ({ held (master [] []) with bus := 3, nAnn := 32 } : Master).bus = (Bus.fresh 3 3 14).busId ∧
    (Bus.fresh 15 0 0).busId < 16 ∧ (32#8).toNat ≤ 32 ∧ (0#8).toNat ≤ 32 := by decide

/-- A command in ENCODE with `x[k]` and the walk after `k` of its four items; one that stands before a second message; and one in
CONT_ENCODE, for two items. -/
def encoding (k : Nat) : Master :=
  { held (master [] []) with msgs := [wr 0x50 3 0], ss := 4, k := k, j := k - 1, ad := k != 0, pc := .encode }
def encodingSecond : Master := { held (master [] []) with msgs := allKinds, ss := 7, k := 2, j := 1, ad := true, pc := .encode }
def continuing (k : Nat) : Master :=
  { held (master [] []) with msgs := [rv 0x58 0], ad := true, j := 1, nAnn := 2, ver := 1, k := k, pc := .contEncode }
theorem witness_EmissionWritesEachItemOnce_encode : (encoding 0).bare = none ∧ (encoding 0).pc = .encode ∧
    payloadsFit (encoding 0).msgs = true ∧ nextPosition (encoding 0) = some (0, 0, false) ∧
    (encoding 0).msgs[0]? = some (wr 0x50 3 0) ∧ atAddress (wr 0x50 3 0) false = true ∧ sessionSize ((encoding 0).msgs.take 0) = 0 ∧
    (∀ it ∈ (sessionItems ⟨exact, encoding 0, []⟩)[0]?, it.ss = 4) ∧ 2 ^ narrow.req.ssWidth = 4 ∧
    nextPosition (encoding 3) = some (0, 2, true) ∧ atAddress (wr 0x50 3 0) true = false ∧ (encoding 3).k = 1 + 2 ∧
    (∀ it ∈ (sessionItems ⟨exact, encoding 3, []⟩)[3]?, it.ss = 0) ∧ nextPosition (encoding 4) = none := by decide
theorem witness_EmissionWritesEachItemOnce_second : nextPosition encodingSecond = some (1, 0, false) ∧
    encodingSecond.msgs[1]? = some (rd 0x58 2 0x10) ∧ sessionSize (encodingSecond.msgs.take 1) = encodingSecond.k ∧
    payloadsFit encodingSecond.msgs = true := by decide
/-- Within ENCODE `i` and `j` walk (R32): to the second message's address item, to a byte, to the end; then the wait. -/
theorem test_encode_walks : stepsOn encodingSecond (fun m => (m.k, m.i, m.j, m.ad) == (3, 1, 0, true)) = true ∧
    stepsOn (encoding 3) (fun m => (m.k, m.i, m.j, m.ad) == (4, 0, 3, true) && m.pc == .encode) = true ∧
    stepsOn (encoding 4) (fun m => m.k == 4 && m.pc == .wait) = true := by decide
theorem witness_EmissionWritesEachItemOnce_continuation : (continuing 0).bare = none ∧ (continuing 0).pc = .contEncode ∧
    (continuing 0).msgs[(continuing 0).i]? = some (rv 0x58 0) ∧ (contItems ⟨exact, continuing 0, []⟩ (rv 0x58 0)).length = 2 ∧
    stepsOn (continuing 1) (fun m => m.k == 2 && m.pc == .contEncode) = true ∧
    stepsOn (continuing 2) (fun m => m.k == 2 && m.pc == .contWait) = true := by decide
theorem witness_SessionsAreWrittenInOrder : (encoding 0).bare = none ∧ (encoding 0).k = 0 ∧ (encoding 0).pc = .encode ∧
    (encoding 0).i = 0 ∧ (encoding 0).j = 0 ∧ (encoding 0).ad = false ∧ (encoding 0).ss ≠ 0 ∧ (encoding 0).ss < 1024 ∧
    (encoding 0).ss < 2 ^ exact.layout.req.ssWidth ∧ payloadsFit (encoding 0).msgs = true ∧ (continuing 0).k = 0 ∧
    (continuing 0).msgs[(continuing 0).i]? = some (rv 0x58 0) ∧ (continuing 0).nAnn.toNat < 2 ^ narrow.req.ssWidth := by decide

theorem witness_ItemsWriteTheirWord : HeldInHand (holding [] []) (held (master [] [])) ∧ (1023#10) ≠ 0 ∧
    (1023#10).toNat < 2 ^ exact.layout.req.ssWidth ∧ ¬(4#10).toNat < 2 ^ narrow.req.ssWidth ∧
    (held (master [] [])).pc ≠ .encode := by decide
/-- The same within ENCODE: before an item, for a first item before the session, and past the last. -/
theorem witness_ItemsWriteTheirWord_encode : HeldInHand (alone (encoding 3)) (encoding 3) ∧ (encoding 3).pc = .encode ∧
    nextPosition (encoding 3) = some (0, 2, true) ∧ nextPosition { encoding 3 with i := 0, j := 0, ad := false } = some (0, 0, false) ∧
    HeldInHand (alone (encoding 4)) (encoding 4) ∧ nextPosition (encoding 4) = none ∧
    goesOn (exec (.wdataN 0 true 1 3 3 0x33) (alone (encoding 3)))
      (ofMaster fun m => (m.k, m.i, m.j, m.ad) == (4, 0, 3, true) && m.pc == .encode) = true := by decide
theorem witness_NoAccessWithoutTheLock : (alone (master [] [])).hand = some (master [] []) ∧ (master [] []).lock = .free ∧
    (slotOf (.csr true Csr.zero)).isSome = true := by decide
theorem witness_StatusWordOutsideAWait : HeldInHand (holding [] []) (held (master [] [])) ∧ (held (master [] [])).bare = none ∧
    (held (master [] [])).pc ≠ .wait ∧ (held (master [] [])).pc ≠ .contWait := by decide

/-! #### The wait -/

/-- The word with frame-empty set, as the wait stands at `w`; and in CONT_WAIT. -/
def sees (w : Word) (at_ : WaitSpot) : Master := { waiting with cs := csrOf w, spot := .wait at_ }
def seesAgain (at_ : WaitSpot) : Master := { sees 0x60003F94#32 at_ with pc := .contWait, nAnn := 5 }
theorem witness_FrameEmptyEndsTheWait_steps : waiting.bare = none ∧ waitSpot (sees 0x60003F94#32 .test) = .test ∧
    (sees 0x60003F94#32 .test).cs.fe = true ∧ waitSpot (sees 0x60003F94#32 .clear) = .clear ∧
    waitSpot (seesAgain .clear) = .clear ∧ (seesAgain .clear).pc = .contWait := by decide
theorem witness_FrameEmptyEndsTheWait_presented : HeldInHand (alone waiting) waiting ∧ waiting.pc = .wait ∧
    waitSpot waiting = .start ∧ HeldInHand (alone (seesAgain (.wake 7))) (seesAgain (.wake 7)) ∧
    waitSpot (seesAgain (.wake 7)) ≠ .start ∧ (csrOf 0x60003F94#32).fe = true := by decide

/-- The command of `waiting` at its tests at time `n`, the last progress at 0. -/
def waitingSince (n : Nat) (w : Word) : Master := { sees w .test with time := n, prev := some (0, 0) }
theorem witness_WaitIteration_steps : exact.progress = .eitherCount ∧ waitSpot waiting = .start ∧
    waitSpot (sees cleanWord .read) = .read ∧ waitSpot (sees cleanWord (.wake 315)) = .wake 315 ∧
    waitSpot (waitingSince 0 cleanWord) = .test ∧ (waitingSince 0 cleanWord).cs.fe = false := by decide
/-- 127 pending responses of 127 (V-W3 a), and 126 (V-W3 d). -/
theorem witness_WaitIteration_full : (csrOf 0x20003F94#32).fe = false ∧
    2 ^ (7 + (csrOf 0x20003F94#32).fsz.toNat) - 1 = (csrOf 0x20003F94#32).nrs.toNat ∧
    2 ^ (7 + (csrOf 0x20003F14#32).fsz.toNat) - 1 = (csrOf 0x20003F14#32).nrs.toNat + 1 ∧
    stepsOn (waitingSince 0 0x20003F94#32) (fun m => m.pc == .leave) = true ∧
    stepsOn (waitingSince 0 0x20003F14#32) (fun m => m.pc == .wait) = true := by decide
/-- 100000 microseconds without progress, and one more. -/
theorem witness_WaitIteration_timeout : stepsOn (waitingSince 100001 cleanWord) (fun m => m.err == some (.timedOut (csrOf cleanWord))) = true ∧
    stepsOn (waitingSince 100000 cleanWord) (fun m => m.spot == .wait (.wake 35)) = true ∧
    (waitingSince 100001 cleanWord).prev = some ((csrOf cleanWord).nrq, (csrOf cleanWord).nrs) := by decide
theorem witness_WaitIteration_presented : HeldInHand (alone (waitingSince 0 cleanWord)) (waitingSince 0 cleanWord) ∧
    (waitingSince 0 cleanWord).bare = none ∧ HeldInHand (alone waiting) waiting := by decide

/-- A wait called by itself, with inexact sleeps and the free numbers given: time before the wait, at the read, at the tests. -/
def late (n : Nat) (w : Word) : State := { holding [] [] with
  cfg := Config.reference, masters := [{ held (master [w] []) with draws := [0, 0, n] }] }
theorem witness_WaitCalledByItself : HeldInHand (late 0 0x60003F94#32) { held (master [0x60003F94#32] []) with draws := [0, 0, 0] } ∧
    (csrOf 0x60003F94#32).fe = true ∧
    goesOn (exec (.waitForCompletion 0 0) (late 100001 0x20003F14#32)) (fun t => answers t == [.prim .waitTimeout]) = true ∧
    goesOn (exec (.waitForCompletion 0 0) (late 100000 0x20003F14#32)) (ofMaster fun m => m.bare == some (.wake 35)) = true := by
  decide
theorem witness_WaitCalledByItself_steps :
    stepsOn { waitingSince 0 0x60003F94#32 with bare := some .test } (fun m => m.bare == some .clear) = true ∧
    stepsOn { waitingSince 100000 cleanWord with bare := some .test } (fun m => m.bare == some (.wake 35)) = true ∧
    stepsOn { waiting with bare := some (.wake 35) } (fun m => m.bare == some .read && m.time == 35) = true := by decide
/-- A value presented to a wait called by itself: 127 pending responses of 127, 126, and frame-empty (V-W3 a, d); in the last
the iteration in hand had not been tested (log 15). -/
def bareAt (n : Nat) (w : WaitSpot) : State := alone { waitingSince n cleanWord with bare := some w }
theorem witness_WaitCalledByItself_presented : HeldInHand (bareAt 0 .test) { waitingSince 0 cleanWord with bare := some .test } ∧
    goesOn (exec (.csr false (csrOf 0x20003F94#32)) (bareAt 0 .test)) (fun t => answers t == [.prim .waitOverflow]) = true ∧
    goesOn (exec (.csr false (csrOf 0x20003F14#32)) (bareAt 0 .read)) (ofMaster fun m => m.bare == some (.wake 35)) = true ∧
    goesOn (exec (.csr false (csrOf 0x60003F94#32)) (bareAt 0 .test)) (fun t => answers t == [.prim .ok]) = true ∧
    goesOn (exec (.csr false (csrOf cleanWord)) (bareAt 100001 (.wake 0)))
      (fun t => answers t == [.prim .waitTimeout]) = true := by decide

/-! #### reset, enter, leave -/

/-- Reset clear but a request pending. -/
def stuck : Word := 0x20020014#32
/-- A backoff loop that re-reads it `n` times and then `v`. -/
theorem witness_BackoffEnds (n : Nat) (v : Word) (hn : n ≤ 3) (hv : CleanWord exact v ∨ n = 3) :
    BackoffEnds exact (List.replicate n stuck) v :=
  ⟨fun x hx => by rw [List.eq_of_mem_replicate hx]; decide, by simpa using hn, by simpa using hv⟩
theorem witness_ResetPollsWithBackoff :
    HeldInHand (holding [cleanWord, cleanWord] []) (held (master [cleanWord, cleanWord] [])) ∧ BackoffEnds exact [] cleanWord ∧
    HeldInHand (holding [cleanWord, stuck, stuck, stuck, stuck] []) (held (master [cleanWord, stuck, stuck, stuck, stuck] [])) ∧
    BackoffEnds exact [stuck, stuck, stuck] stuck ∧ BackoffEnds exact [stuck, stuck, stuck] cleanWord :=
  ⟨by decide, witness_BackoffEnds 0 _ (by decide) (.inl (by decide)), by decide, witness_BackoffEnds 3 _ (by decide) (.inr rfl),
    witness_BackoffEnds 3 _ (by decide) (.inr rfl)⟩
theorem witness_EnterOnACleanEngine :
    HeldInHand (holding [cleanWord] []) (held (master [cleanWord] [])) ∧ (held (master [cleanWord] [])).mc ≠ .faulted ∧
    dirty (csrOf cleanWord) = false ∧ (csrOf cleanWord).reset = false ∧ (csrOf cleanWord).foe = true ∧
    dirty (csrOf 0xA0000004#32) = false ∧ (csrOf 0xA0000004#32).reset = true ∧ (csrOf 0xA0000004#32).foe = false := by decide
/-- What enter(1) comes to on a word as asked for, and on one with the reset flag set that stays set. -/
theorem witness_Judged : Judged exact (master [] []) true cleanWord [] [] true cleanWord [] ∧
    Judged exact (master [] []) true 0xA0000004#32 [0xA0000014#32]
      [.write 0x8004 0x20000014#32, .read 0x8004 0xA0000014#32] false 0xA0000014#32 [] := by
  constructor <;> simp [Judged, cleanWord] <;> decide
theorem witness_EnterRecoversADirtyEngine :
    HeldInHand (holding [0x28000114#32, stuck, stuck, cleanWord] [])
      (held (master [0x28000114#32, stuck, stuck, cleanWord] [])) ∧
    dirty (csrOf 0x28000114#32) = true ∧ BackoffEnds exact [stuck] cleanWord ∧ CleanWord exact cleanWord ∧
    BackoffEnds exact [stuck, stuck, stuck] stuck ∧ ¬CleanWord exact stuck :=
  ⟨by decide, by decide, witness_BackoffEnds 1 _ (by decide) (.inl (by decide)), by decide,
    witness_BackoffEnds 3 _ (by decide) (.inr rfl), by decide⟩
/-- The same with the state `Faulted`: a recovery, a value that is dirty again, a second recovery. -/
def faulted : Master :=
  { held (master [cleanWord, stuck, stuck, stuck, cleanWord, stuck, cleanWord, stuck, cleanWord] []) with mc := .faulted }
theorem witness_EnterFromFaultedResetsFirst : HeldInHand (alone faulted) faulted ∧ faulted.mc = .faulted ∧
    exact.faultedForcesReset = true ∧
    faulted.csrIn = cleanWord :: ([stuck, stuck, stuck] ++ cleanWord :: stuck :: cleanWord :: ([stuck] ++ cleanWord :: [])) ∧
    BackoffEnds exact [stuck, stuck, stuck] cleanWord ∧ CleanWord exact cleanWord ∧ dirty (csrOf stuck) = true ∧
    BackoffEnds exact [stuck] cleanWord :=
  ⟨by decide, by decide, by decide, by decide, witness_BackoffEnds 3 _ (by decide) (.inr rfl), by decide, by decide,
    witness_BackoffEnds 1 _ (by decide) (.inl (by decide))⟩
theorem witness_LeaveDrainsOrArmsAReset :
    HeldInHand (holding [0x20000094#32, 0x28000014#32] [1#32]) (held (master [0x20000094#32, 0x28000014#32] [1#32])) ∧
    [1#32].length = (csrOf 0x20000094#32).nrs.toNat := by decide
theorem witness_PrimitivesAlwaysReturn : HeldInHand (holding [] []) (held (master [] [])) := by decide

/-! #### Responses -/

theorem witness_ValidateTestsInOrder : State.reset.cfg.feOnFinalAccepted = true := by decide

/-- A command whose next response is the address response of message 0. -/
def atFirst : Master := { held (master [] [0x02000000#32]) with msgs := [rd 0x50 1 0], rem := 2, pc := .decode, ss := 2 }
theorem witness_BadResponseRaises_first : HeldInHand (alone atFirst) atFirst ∧ atFirst.bare = none ∧
    rspAnswer atFirst = 0x02000000#32 ∧
    validateRsp exact (rspOf 0x02000000#32) atFirst.e (atFirst.rem - 1 == 0) = some .ackError ∧
    ∃ j msg, nextPosition atFirst = some (0, j, false) ∧ atFirst.msgs[0]? = some msg ∧ msg.noStart = false :=
  ⟨by decide, by decide, by decide, by decide, 0, rd 0x50 1 0, by decide, by decide, by decide⟩
theorem witness_BadResponseRaises_later : HeldInHand (alone decoding) decoding ∧
    validateRsp exact (rspOf 0x30000042#32) decoding.e (decoding.rem - 1 == 0) = some .indexMismatch ∧
    nextPosition decoding = some (0, 2, true) := by decide

/-- A good response of index 5 that ends its session. -/
def good : Rsp := rspOf 0x50000011#32
theorem witness_GoodResponse_past_the_end :
    HeldInHand (alone { decoding with j := 3 }) { decoding with j := 3 } ∧ nextPosition { decoding with j := 3 } = none ∧
    validateRsp exact good decoding.e (decoding.rem - 1 == 0) = none ∧
    stepsOn { decoding with j := 3 } (fun m => m.pc == .leave) = true := by decide
theorem witness_GoodResponse_address : nextPosition { decoding with j := 0, ad := false } = some (0, 0, false) ∧
    decoding.msgs[0]? = some (rd 0x50 3 0x100) ∧ (rd 0x50 3 0x100).noStart = false := by decide
theorem witness_GoodResponse_write : nextPosition { decoding with msgs := [wr 0x50 3 0] } = some (0, 2, true) ∧
    (wr 0x50 3 0).read = false := by decide
theorem witness_GoodResponse_store : nextPosition decoding = some (0, 2, true) ∧ (rd 0x50 3 0x100).read = true ∧
    2 < (rd 0x50 3 0x100).cap ∧ ¬((rd 0x50 3 0x100).vlr = true ∧ 2 = 0) := by decide
theorem witness_GoodResponse_no_room :
    nextPosition { decoding with msgs := [{ rd 0x50 3 0x100 with cap := 2 }] } = some (0, 2, true) := by decide
theorem witness_GoodResponse_outside : HeldInHand (holding [] []) (held (master [] [])) ∧ (held (master [] [])).pc ≠ .decode := by
  decide

/-- A command whose next response announces a length, and that is the last expected. -/
def announcing (ver : BitVec 2) (rem : Nat) : Master :=
  { held (master [] []) with msgs := [rv 0x58 0], ad := true, e := 1, rem := rem, ver := ver, pc := .decode, ss := 2 }
theorem witness_LengthOutOfRange : HeldInHand (alone (announcing 2 1)) (announcing 2 1) ∧
    validateRsp exact (rspOf 0x10000000#32) 1 (1 - 1 == 0) = none ∧
    validateRsp exact (rspOf 0x10000021#32) 1 (1 - 1 == 0) = none ∧ nextPosition (announcing 2 1) = some (0, 0, true) ∧
    (rspOf 0x10000000#32).d.toNat < 1 ∧ 32 < (rspOf 0x10000021#32).d.toNat ∧ 0 < (rv 0x58 0).cap := by decide
theorem witness_LengthInRange : HeldInHand (alone (announcing 2 1)) (announcing 2 1) ∧
    validateRsp exact (rspOf 0x10000020#32) 1 (1 - 1 == 0) = none ∧ (rspOf 0x10000020#32).d.toNat = 32 ∧
    (rspOf 0x10000001#32).d.toNat = 1 ∧ 2 ≤ (announcing 2 1).ver.toNat ∧ (announcing 1 1).ver.toNat < 2 ∧
    (announcing 1 1).rem - 1 = 0 ∧ (announcing 1 2).rem - 1 ≠ 0 ∧ nextPosition (announcing 1 2) = some (0, 0, true) ∧
    validateRsp exact (rspOf 0x10000020#32) 1 (2 - 1 == 0) = none := by decide

/-! #### The sequencer -/

/-- Does this phase go on, and raise this failure (or none)? -/
def raises (m : Master) (f : Option Failure) : Bool := m.err == none && stepsOn m (fun x => x.err == f)

theorem witness_PhasesFollowInOrder : raises { waiting with pc := .size } none = true ∧
    stepsOn { waiting with bare := some .start } (fun m => m.pc == .wait) = true ∧
    raises { waiting with pc := .capchk, ss := 128 } (some (.overflowDeclared 128 127)) = true := by decide
theorem witness_FailuresBelong_enter :
    raises { waiting with pc := .enter, spot := .enter (.clean (.sleep [])), cs := csrOf stuck }
      (some (.enterFailed (csrOf stuck))) = true ∧
    raises { waiting with pc := .enter, spot := .enter .confirm, csrIn := [0xA0000014#32] }
      (some (.enterFailed (csrOf 0xA0000014#32))) = true := by decide
theorem witness_FailuresBelong_wait :
    raises (waitingSince 0 0x20003F94#32) (some (.overflowWait (csrOf 0x20003F94#32))) = true ∧
    raises (waitingSince 100001 cleanWord) (some (.timedOut (csrOf cleanWord))) = true := by decide
theorem witness_FailuresBelong_decode :
    raises atFirst (some (.badResponse .ackError 0x02000000#32 0)) = true ∧
    raises { announcing 2 1 with rspIn := [0x10000000#32] } (some (.framing 0)) = true := by decide

/-- A command in LEAVE. -/
def leaving : Master := { waiting with pc := .leave, err := some (.framing 0) }
theorem witness_LeaveUnlockAndReturn : (alone leaving).master? leaving.id = some leaving ∧ leaving.lock = .held 7 ∧
    leaving.pc = .leave ∧ leaving.spot = .outside ∧ leaving.bare = none ∧ (alone leaving).cut = none := by decide

/-! #### TRANSFER -/

theorem witness_UnsupportedIsRejectedOutright : (∃ x ∈ [{ rd 0x50 1 0 with tenBit := true }], x.tenBit = true) ∧
    2 ≤ ([rv 0x50 0, rv 0x51 0x40].filter (·.vlr)).length := by decide

/-- Every message at the edge of what R162 allows: address 0x7F, a block read of length 1 with room for 33. -/
def atTheEdge : List Message := [wr 0x7F 1 0, { wr 0x7F 1 0 with noStart := true }, rv 0x7F 0x40]
/-- A Master whose bus has this identity. -/
def onBus (id : Nat) (csr rsp : List Word) : Master := { master csr rsp with buses := [Bus.fresh id 0 10] }
theorem witness_TransferPreconditions_accepted : (∀ x ∈ atTheEdge, x.tenBit = false) ∧ (atTheEdge.filter (·.vlr)).length ≤ 1 ∧
    ((alone (onBus 15 [] [])).busOf 0 = some (onBus 15 [] [], Bus.fresh 15 0 10)) ∧ atTheEdge ≠ [] ∧
    (∀ x ∈ atTheEdge, x.addr ≤ 0x7F ∧ x.length ≤ x.cap ∧ (x.vlr = true → x.read = true ∧ 1 ≤ x.length ∧ x.length + 32 ≤ x.cap)) := by
  decide
theorem witness_TransferPreconditions_refused : (alone (onBus 16 [] [])).busOf 0 = some (onBus 16 [] [], Bus.fresh 16 0 10) ∧
    (alone (onBus 16 [] [])).busOf 1 = none ∧ 0x7F < (wr 0x80 0 0).addr ∧ { wr 0x50 1 0 with vlr := true }.read = false ∧
    { rv 0x50 0 with length := 0 }.length = 0 ∧ { wr 0x50 2 0 with cap := 1 }.cap < 2 ∧ { rv 0x50 0 with cap := 32 }.cap < 1 + 32 := by
  decide

/-- A machine whose one Master has one bus. -/
def oneBus (csr rsp : List Word) : Master := { master csr rsp with buses := [Bus.fresh 0 0 10], busCount := 1 }
theorem witness_AcceptedTransferRuns : Inv (alone (oneBus [] [])) ∧
    Accepted (alone (oneBus [] [])) 0 atTheEdge (oneBus [] []) (Bus.fresh 0 0 10) ∧ (alone (oneBus [] [])).cut = none ∧
    (∃ x ∈ atTheEdge, x.vlr = true) ∧ narrow.req.ssWidth < 10 := by decide

/-- The scripts of a read of one byte. -/
def oneByte : Master := oneBus [cleanWord, 0x60000114#32, cleanWord, cleanWord] [0x00000000#32, 0x1000005A#32]
theorem witness_CleanTransferSucceeds : Inv (alone oneByte) ∧ (alone oneByte).cut = none ∧
    Accepted (alone oneByte) 0 [rd 0x50 1 0] oneByte (Bus.fresh 0 0 10) ∧ oneByte.mc ≠ .faulted ∧
    (∀ x ∈ [rd 0x50 1 0], x.vlr = false) ∧ CleanWord exact cleanWord ∧ (csrOf cleanWord).foe = true ∧
    sessionSize [rd 0x50 1 0] < 2 ^ exact.layout.req.ssWidth ∧
    sessionSize [rd 0x50 1 0] ≤ 2 ^ (7 + (csrOf cleanWord).fsz.toNat) - 1 ∧ (csrOf 0x60000114#32).fe = true ∧
    (csrOf cleanWord).nrs = 0 ∧ dirty (csrOf cleanWord) = false ∧
    [0x00000000#32, 0x1000005A#32].length = sessionSize [rd 0x50 1 0] ∧
    validateRsp exact (rspOf 0x00000000#32) 0 (0 + 1 == 2) = none ∧
    validateRsp exact (rspOf 0x1000005A#32) 1 (1 + 1 == 2) = none := by decide

/-- A block read between two writes, its length response the second of five; 1 announced, protocol version 2. -/
def inlineRead : Master :=
  oneBus [cleanWord, 0x60000114#32, cleanWord, cleanWord] [0#32, 0x10000001#32, 0x200000A0#32, 0x30000000#32, 0x40000000#32]
/-- The same with the block read last, version 1, its length response the last of the main session. -/
def continuedRead : Master :=
  oneBus [0x10000010#32, 0x50000210#32, 0x50000290#32, 0x10000010#32, 0x10000010#32] [0#32, 0x18000001#32, 0x080000A0#32]
theorem witness_CleanBlockReadSucceeds_inline : Inv (alone inlineRead) ∧ Layout.reference.ok ∧
    Accepted (alone inlineRead) 0 ([] ++ rv 0x58 0 :: [wr 0x50 1 0x40]) inlineRead (Bus.fresh 0 0 10) ∧ inlineRead.mc ≠ .faulted ∧
    sessionSize [rv 0x58 0, wr 0x50 1 0x40] = 4 ∧ CleanWord exact cleanWord ∧ (csrOf cleanWord).foe = true ∧
    2 ≤ (csrOf cleanWord).ver.toNat ∧ inlineRead.rspIn.length = 4 + 1 ∧ (rspOf 0x10000001#32).d.toNat = 1 ∧
    validateRsp exact (rspOf 0#32) 0 (0 + 1 == 4 + 1) = none ∧ validateRsp exact (rspOf 0x10000001#32) 1 (1 + 1 == 4) = none ∧
    validateRsp exact (rspOf 0x200000A0#32) 2 (2 + 1 == 4 + 1) = none ∧ validateRsp exact (rspOf 0x30000000#32) 3 (3 + 1 == 4 + 1) = none ∧
    validateRsp exact (rspOf 0x40000000#32) 4 (4 + 1 == 4 + 1) = none := by decide
theorem witness_CleanBlockReadSucceeds_continuation : Inv (alone continuedRead) ∧
    Accepted (alone continuedRead) 0 ([] ++ rv 0x58 0 :: []) continuedRead (Bus.fresh 0 0 10) ∧ sessionSize [rv 0x58 0] = 2 ∧
    (rv 0x58 0).length = 1 ∧ CleanWord exact 0x10000010#32 ∧ (csrOf 0x10000010#32).foe = true ∧
    (csrOf 0x10000010#32).ver.toNat < 2 ∧ 1 < 2 ^ exact.layout.req.ssWidth ∧ (csrOf 0x50000290#32).fe = true ∧
    continuedRead.rspIn.length = 2 + 1 ∧ validateRsp exact (rspOf 0#32) 0 (0 + 1 == 2 || 0 + 1 == 2 + 1) = none ∧
    validateRsp exact (rspOf 0x18000001#32) 1 (1 + 1 == 2 || 1 + 1 == 2 + 1) = none ∧
    validateRsp exact (rspOf 0x080000A0#32) 0 (2 + 1 == 2 || 2 + 1 == 2 + 1) = none := by decide

theorem witness_DeclaredOverflowWritesNothing : Inv (alone (oneBus [cleanWord, cleanWord, cleanWord] [])) ∧
    Accepted (alone (oneBus [cleanWord, cleanWord, cleanWord] [])) 0 [wr 0x50 127 0] (oneBus [cleanWord, cleanWord, cleanWord] [])
      (Bus.fresh 0 0 10) ∧
    2 ^ (7 + (csrOf cleanWord).fsz.toNat) - 1 + 1 = sessionSize [wr 0x50 127 0] := by decide
/-- An engine that stays dirty. -/
def failing : Master := oneBus (List.replicate 8 stuck) []
theorem witness_FailedRecoveryEndsTheTransfer : Inv (alone failing) ∧
    Accepted (alone failing) 0 [wr 0x50 0 0] failing (Bus.fresh 0 0 10) ∧
    failing.csrIn.length = 8 ∧ (∀ x ∈ failing.csrIn, ¬CleanWord exact x) ∧ dirty (csrOf stuck) = true := by
  refine ⟨by decide, ⟨rfl, rfl, rfl, rfl⟩, rfl, ?_, by decide⟩
  intro x hx
  rw [List.eq_of_mem_replicate hx]
  decide

theorem witness_HeldLockMakesCommandsWait :
    (holding [] []).busOf 3 = some (held (master [] []), Bus.fresh 3 3 14) ∧ (held (master [] [])).lock ≠ .free ∧
    unsupported [wr 0x50 0 0] = none ∧ listRefusal 3 [wr 0x50 0 0] = none ∧
    (∃ n, parseTuneLine "14 0x58 2 1 2 1".toList = some n ∧ tuneInRange n = true ∧ n.bus = 14) ∧
    (holding [] []).tuneBus 14 = some (held (master [] []), Bus.fresh 3 3 14) ∧
    (holding [] []).master? 1 = some (held (master [] [])) ∧ (holding [] []).masters = [] ++ held (master [] []) :: [] ∧
    (holding [] []).cut = none :=
  ⟨by decide, by decide, by decide, by decide, ⟨⟨14, 0x58, 2, 1, 2, 1⟩, by decide, by decide, by decide⟩, by decide, by decide,
    by decide, by decide⟩

/-- A free Master for whose lock this command waits, and one for whose lock two do. -/
def wanted (b : Blocked) : Master := { master [] [] with waiting := [b] }
def wantedTwice : Master := { master [] [] with waiting := [.teardown 8, .transfer 9 0 [wr 0x50 0 0]] }
theorem witness_FreedLockGoesToAWaitingCommand : (alone wantedTwice).master? wantedTwice.id = some wantedTwice ∧
    wantedTwice.lock = .free ∧ wantedTwice.waiting ≠ [] ∧ (alone (master [] [])).master? 1 = some (master [] []) ∧
    (master [] []).waiting = [] ∧ (alone wantedTwice).cut = none := by decide
/-- Either of the two, as the free number says: the TEARDOWN too, with a TRANSFER waiting (R74). -/
theorem witness_FreedLock_anyOfThem :
    goesOn (masterTurn 1 (alone { wantedTwice with draws := [0] })) (ofMaster fun m => m.pc == .tearReset && m.lock == .held 8) = true ∧
    goesOn (masterTurn 1 { alone { wantedTwice with draws := [1] } with cut := some 1 })
      (ofMaster fun m => m.pc == .enter && m.lock == .held 9) = true := by decide
theorem witness_FreedLock_kinds :
    goesOn (masterTurn 1 (alone (wanted (.tune 8 3 ⟨0x58, 2, 1, 2, true⟩)))) (fun t => answers t == [.accepted]) = true ∧
    goesOn (masterTurn 1 (alone (wanted (.dump 8 [])))) (fun t => answers t == [.lines []]) = true ∧
    (wanted (.lookup 8 3 0x51)).bus? 3 = some (Bus.fresh 3 3 14) ∧
    goesOn (masterTurn 1 (alone (wanted (.lookup 8 3 0x51)))) (fun t => answers t == [.params ⟨1, 3, 3, false⟩]) = true ∧
    goesOn (masterTurn 1 (alone (wanted (.teardown 8)))) (ofMaster fun m => m.pc == .tearReset && m.lock == .held 8) = true := by
  decide

/-! #### The other commands -/

/-- The bus of `tuned`. -/
def tunedBus : Bus := ⟨3, 3, 14, true, [⟨0, 2, 2, 2, false⟩, ⟨0x58, 2, 1, 2, true⟩]⟩
theorem witness_LookupPrecedence : (tuned.busOf 3).map (·.2) = some tunedBus ∧ StoreDistinct tunedBus ∧
    (∀ r ∈ (Bus.fresh 0 0 10).params, r.addr ≠ 0x50 ∧ r.addr ≠ 0) ∧ (∀ r ∈ tunedBus.params, r.addr ≠ 0x50) ∧
    ⟨0x58, 2, 1, 2, true⟩ ∈ tunedBus.params ∧ ((tuned.busOf 3).map (·.1.lock)) = some .free ∧
    ((holding [] []).busOf 3).map (·.1.lock) = some (.held 7) := by decide
theorem witness_TuneWritesOneRecord : parseTuneLine "14 127 3 3 3 1".toList = some ⟨14, 127, 3, 3, 3, 1⟩ ∧
    (alone (master [] [])).tuneBus 14 = some (master [] [], Bus.fresh 3 3 14) ∧ (master [] []).lock = .free ∧
    (tunedBus.params.map (·.addr)).Nodup := by decide
theorem witness_TuneRejectsWithoutChange : parseTuneLine "14 0x58 2 1 2".toList = none ∧
    parseTuneLine "99 0x80 4 4 4 2".toList = some ⟨99, 128, 4, 4, 4, 2⟩ ∧ tuned.tuneBus 99 = none ∧
    tuned.cfg.tuneBusKey = .external ∧
    (({ alone (master [] []) with cfg := { exact with tuneBusKey := .identity 1 } } : State).tuneBus 2).map (·.2) =
      some (Bus.fresh 2 2 12) := by decide
theorem witness_DumpListsEveryRecord : (∀ m ∈ tuned.masters, m.lock = .free) ∧ tuned.cut = none ∧
    (holding [] []).masters = [] ++ held (master [] []) :: [] ∧ (held (master [] [])).lock ≠ .free := by decide
theorem witness_OpenGivesTheHandle : (∃ m ∈ tuned.masters, ∃ b ∈ m.buses, b.adap = 14 ∧ b.registered = true) ∧
    ∀ m ∈ tuned.masters, ∀ b ∈ m.buses, ¬(b.adap = 15 ∧ b.registered = true) := by decide
theorem witness_CreateMakesAMaster : IdsRising State.reset ∧ 1 ≤ State.reset.cfg.maxBusCount ∧ State.reset.cfg.maxBusCount = 16 ∧
    (∀ m ∈ State.reset.masters, m.id ≠ 2) ∧ (∀ x ∈ portAddrs State.reset.cfg 0x800C, x % 4 = 0) ∧
    (portAddrs State.reset.cfg 0x800C).Nodup ∧
    ∀ m ∈ State.reset.masters, ∀ x ∈ portAddrs State.reset.cfg m.base, x ∉ portAddrs State.reset.cfg 0x800C := by decide
theorem witness_CreateMakesAMaster_refused : (some 0).getD State.reset.cfg.defaultBusCount = 0 ∧
    State.reset.cfg.maxBusCount < (some 17).getD State.reset.cfg.defaultBusCount ∧ (∃ m ∈ State.reset.masters, m.id = 1) ∧
    (∃ x ∈ portAddrs State.reset.cfg 0x9002, x % 4 ≠ 0) ∧
    ∃ m ∈ State.reset.masters, ∃ x ∈ portAddrs State.reset.cfg m.base, x ∈ portAddrs State.reset.cfg 0x8008 := by decide
/-- Two registers of its own at one address, where the offsets of CSR and RSP coincide (R61; log 24). -/
def doubledPort : State := { State.reset with cfg := { Config.reference with rspOff := 4 } }
theorem witness_CreateMakesAMaster_own : IdsRising doubledPort ∧ ¬(portAddrs doubledPort.cfg 0x9000).Nodup ∧
    refuses (exec (.create 0x9000 2 none) doubledPort) .sharedAddress = true := by decide
theorem witness_TeardownUnregistersFirst : IdsRising (alone (master [] [])) ∧ (alone (master [] [])).master? 1 = some (master [] []) ∧
    (master [] []).lock = .free ∧ (master [] []).waiting = [] ∧ (∃ b ∈ (master [] []).buses, b.registered = true) ∧
    (alone wantedTwice).master? 1 = some wantedTwice ∧ wantedTwice.lock = .free ∧ (alone (master [] [])).master? 2 = none := by decide
/-- A Master being torn down, for whose lock three commands wait. -/
def tearing (p : Phase) : Master :=
  { held (unregisterAll (master [] [])) with
    pc := p, waiting := [.tune 8 3 ⟨0x58, 2, 1, 2, true⟩, .dump 9 [], .teardown 10] }
theorem witness_TeardownResetsThenDestroys : IdsRising (alone (tearing .tearReset)) ∧
    (alone (tearing .tearReset)).master? 1 = some (tearing .tearReset) ∧ (tearing .tearReset).lock = .held 7 ∧
    (tearing .tearReset).bare = none ∧ (alone (tearing .tearReset)).cut = none ∧ (tearing .tearReset).spot = .outside ∧
    (alone (tearing .tearDestroy)).master? 1 = some (tearing .tearDestroy) ∧ (tearing .tearDestroy).pc = .tearDestroy ∧
    goesOn (masterTurn 1 (alone (tearing .tearDestroy)))
      (fun t => answers t == [.tornDown 1, .rejected, .lines []] && t.masters.isEmpty) = true := by decide
/-- A later Master with its lock held: the DUMP waits there. -/
def tearingBeforeHeld : State := { alone (tearing .tearDestroy) with masters := [tearing .tearDestroy, { held (master [] []) with id := 2 }] }
theorem witness_TeardownResetsThenDestroys_dump : IdsRising tearingBeforeHeld ∧ tearingBeforeHeld.master? 1 = some (tearing .tearDestroy) ∧
    tearingBeforeHeld.masters.filter (fun y => 1 < y.id) = [] ++ { held (master [] []) with id := 2 } :: [] ∧
    Blocked.dump 9 [] ∈ (tearing .tearDestroy).waiting ∧
    goesOn (masterTurn 1 tearingBeforeHeld) (fun t => t.masters.map (fun m => (m.id, m.waiting)) == [(2, [.dump 9 []])]) = true := by
  decide

end Sys2Proof.Tests
end

