-- ==== Sys2Proof/Proofs/Words.lean ====
section
/-! The fields of a word as numbers: a field that is read is a quotient and a remainder of the word, a word that is packed is
the sum of its shifted values, and packing what was read keeps the bits of the fields and clears every other. -/

namespace Sys2Proof

/-- The number a word holds in a field. -/
def fieldOf (f : Span) (w : Word) : Nat := w.toNat / 2 ^ f.1 % 2 ^ f.2

/-- The word with every bit of the fields set and no other. -/
def fieldMask (fs : List Span) : Word := packFields fs (fs.map fun f => 2 ^ f.2 - 1)

/-! ### A field that is read -/

theorem toNat_extractLsb'_eq_fieldOf (w : Word) (lo k : Nat) : (w.extractLsb' lo k).toNat = fieldOf (lo, k) w := by
  rw [BitVec.extractLsb'_toNat, Nat.shiftRight_eq_div_pow, fieldOf]

theorem toNat_getLsbD_eq_fieldOf (w : Word) (lo : Nat) : (w.getLsbD lo).toNat = fieldOf (lo, 1) w :=
  Nat.toNat_testBit w.toNat lo

/-- A field that reaches the top of the word needs no remainder. -/
theorem fieldOf_top (w : Word) (lo k : Nat) (h : lo + k = 32) : fieldOf (lo, k) w = w.toNat / 2 ^ lo := by
  refine Nat.mod_eq_of_lt (Nat.div_lt_of_lt_mul ?_)
  rw [← pow_add, h]
  exact w.isLt

/-- Two flags side by side are the number of two bits. -/
theorem toNat_two_flags (hi lo : Bool) : (BitVec.ofBool hi ++ BitVec.ofBool lo).toNat = hi.toNat <<< 1 ||| lo.toNat := by
  cases hi <;> cases lo <;> rfl

theorem two_flags_of_bits (r : BitVec 2) : (r.getLsbD 1).toNat <<< 1 ||| (r.getLsbD 0).toNat = r.toNat := by
  revert r
  decide

theorem fieldOf_two_bits (w : Word) : fieldOf (1, 1) w <<< 1 ||| fieldOf (0, 1) w = fieldOf (0, 2) w := by
  have hlow : fieldOf (0, 1) w < 2 ^ 1 := Nat.mod_lt _ (by decide)
  rw [← Nat.shiftLeft_add_eq_or_of_lt hlow, Nat.shiftLeft_eq]
  simp only [fieldOf]
  omega

/-! ### A word that is packed -/

/-- A value that fits its field is shifted to its place whole. -/
theorem toNat_place {f : Span} {v : Nat} (hf : f.1 + f.2 ≤ 32) (hv : v < 2 ^ f.2) : (place f v).toNat = v <<< f.1 := by
  have hword : v * 2 ^ f.1 < 2 ^ 32 := calc
    v * 2 ^ f.1 < 2 ^ f.2 * 2 ^ f.1 := Nat.mul_lt_mul_of_pos_right hv (by positivity)
    _ = 2 ^ (f.1 + f.2) := by rw [← pow_add, Nat.add_comm]
    _ ≤ 2 ^ 32 := Nat.pow_le_pow_right (by decide) hf
  have hv32 : v < 2 ^ 32 := lt_of_le_of_lt (Nat.le_mul_of_pos_right v (by positivity)) hword
  rw [place, BitVec.toNat_shiftLeft, BitVec.toNat_ofNat, Nat.mod_eq_of_lt hv, Nat.mod_eq_of_lt hv32, Nat.shiftLeft_eq,
    Nat.mod_eq_of_lt hword]

theorem toNat_place_bits {lo k : Nat} (h : lo + k ≤ 32) (v : BitVec k) : (place (lo, k) v.toNat).toNat = v.toNat <<< lo :=
  toNat_place h v.isLt

theorem toNat_place_flag {lo : Nat} (h : lo < 32) (b : Bool) : (place (lo, 1) b.toNat).toNat = b.toNat <<< lo :=
  toNat_place h (Bool.toNat_lt b)

/-! ### A word that is packed from what was read -/

theorem place_fieldOf (f : Span) (w : Word) : place f (fieldOf f w) = w &&& place f (2 ^ f.2 - 1) := by
  apply BitVec.eq_of_getLsbD_eq
  intro i hi
  simp only [BitVec.getLsbD_and, place_bit, fieldOf, ← Nat.shiftRight_eq_div_pow, Nat.testBit_mod_two_pow,
    Nat.testBit_shiftRight, Nat.testBit_two_pow_sub_one]
  by_cases hlo : f.1 ≤ i
  · rw [Nat.add_sub_cancel' hlo, BitVec.testBit_toNat, ← Bool.and_assoc, Bool.and_comm]
  · simp [hlo]

/-- Packing what the fields of a word hold keeps their bits and clears every other. -/
theorem packFields_fieldOf (fs : List Span) (w : Word) : packFields fs (fs.map (fieldOf · w)) = w &&& fieldMask fs := by
  induction fs with
  | nil => simp [fieldMask, packFields]
  | cons f fs ih =>
    simp only [fieldMask, List.map_cons, packFields] at ih ⊢
    rw [ih, place_fieldOf, BitVec.and_or_distrib_left]

/-- 30_encoding.md R91 (e), under any places of the fields. -/
theorem packRsp_unpackRsp (p : RspPlaces) (w : Word) : packRsp p (unpackRsp p w) = w &&& fieldMask p.spans := by
  rw [← packFields_fieldOf]
  simp only [packRsp, unpackRsp, toNat_extractLsb'_eq_fieldOf, toNat_getLsbD_eq_fieldOf, RspPlaces.spans, List.map_cons,
    List.map_nil]

theorem fieldMask_reference_rsp : fieldMask Layout.reference.rsp.spans = 0xFFC000FF#32 := by decide

end Sys2Proof
end

