-- ==== Sys2Proof/Proofs/WordLayouts.lean ====
section
/-! The status word and the response word under the reference layout, field by field (30_encoding.md R104, R100). -/

namespace Sys2Proof

/-- The two reserved bits are placed as two flags and are one number of two bits. -/
theorem toNat_packCsr_reference (c : Csr) : (packCsr Layout.reference.csr c).toNat =
    c.reset.toNat <<< 31 ||| c.fe.toNat <<< 30 ||| c.ver.toNat <<< 28 ||| c.brb.toNat <<< 27 ||| c.nrq.toNat <<< 17 |||
      c.nrs.toNat <<< 7 ||| c.fsz.toNat <<< 5 ||| c.foe.toNat <<< 4 ||| c.sp.toNat <<< 2 ||| c.rsv.toNat := by
  rw [← two_flags_of_bits c.rsv]
  simp [packCsr, packFields, Layout.reference, CsrPlaces.spans, toNat_place_bits, toNat_place_flag, Nat.or_assoc]

/-- Settles O14: packing field by field, and reading every field as a quotient and a remainder of the word. -/
theorem statusWordLayout : Obligations.StatusWordLayout := by
  unfold Obligations.StatusWordLayout
  refine ⟨toNat_packCsr_reference, fun w => ?_⟩
  simp only [unpackCsr, Layout.reference, toNat_extractLsb'_eq_fieldOf, toNat_getLsbD_eq_fieldOf, toNat_two_flags,
    fieldOf_two_bits, fieldOf_top w 31 1 rfl]
  simp [fieldOf]

/-- Settles O15: the fields as in O14; packing what was read keeps the bits of the fields, whose mask is `0xFFC000FF` under this layout;
reading what was packed is the law of every well-formed layout. -/
theorem responseWordLayout : Obligations.ResponseWordLayout := by
  unfold Obligations.ResponseWordLayout
  obtain ⟨-, -, -, hfit, -⟩ := reference_ok
  refine ⟨fun w => ?_, fun w => ?_, unpackRsp_packRsp hfit⟩
  · simp only [unpackRsp, Layout.reference, toNat_extractLsb'_eq_fieldOf, toNat_getLsbD_eq_fieldOf,
      fieldOf_top w 28 4 rfl]
    simp [fieldOf]
  · rw [packRsp_unpackRsp, fieldMask_reference_rsp]

end Sys2Proof
end

