-- ==== Sys2Proof/Proofs/ContinuationItems.lean ====
section
/-! The items of a continuation session, field by field (42_transfer_decode.md R203), and the store a message's parameters are looked
up in. -/

namespace Sys2Proof.Machine

/-- Where the identities of a Master's buses are distinct, the bus of an identity is the one that has it. -/
theorem Master.bus?_of_mem {m : Master} {b : Bus} (hb : b ∈ m.buses) (hd : (m.buses.map (·.busId)).Nodup) :
    m.bus? b.busId = some b := by
  cases hf : m.bus? b.busId with
  | none => simpa using List.find?_eq_none.mp hf b hb
  | some b' =>
    have hid : b'.busId = b.busId := by simpa using List.find?_some hf
    rw [List.inj_on_of_nodup_map hd (List.mem_of_find?_eq_some hf) hb hid]

theorem Master.storeOf_of_mem {m : Master} {b : Bus} (hb : b ∈ m.buses) (hd : (m.buses.map (·.busId)).Nodup) :
    m.storeOf b.busId = b.params := by
  simp only [Master.storeOf, Master.bus?_of_mem hb hd]

/-- The parameters of a message of the command in hand are looked up in the store of the command's bus (43_params_and_commands.md
R220). -/
theorem msgParams_of_bus {m : Master} {b : Bus} (msg : Message) (hb : b ∈ m.buses) (hd : (m.buses.map (·.busId)).Nodup)
    (hm : m.bus = b.busId) : msgParams m msg = lookupParams b.params (BitVec.ofNat 7 msg.addr) := by
  rw [msgParams, hm, Master.storeOf_of_mem hb hd]

/-- What a continuation item has whatever its position: no `start`, no data byte, neither block-read flag, and the bus, the timing class
and the read timing it is given. -/
theorem contItem_constant (cfg : Config) (bs : BitVec 4) (p : Params) (n q : Nat) :
    let it := contItem cfg bs p n q
    it.st = false ∧ it.dod = true ∧ it.d = 0 ∧ it.br = false ∧ it.ed = false ∧ it.bs = bs ∧ it.t = p.t ∧ it.dat = p.datr :=
  ⟨rfl, rfl, rfl, rfl, rfl, rfl, rfl, rfl⟩

theorem contItem_sp (cfg : Config) (bs : BitVec 4) (p : Params) (n q : Nat) :
    (contItem cfg bs p n q).sp = true ↔ q + 1 = n := by
  simp [contItem, placeItem]

theorem contItem_ti_toNat (cfg : Config) (bs : BitVec 4) (p : Params) (n q : Nat) :
    (contItem cfg bs p n q).ti.toNat = q % 16 := by
  simp [contItem, placeItem]

/-- The size field holds the size of a session that its ten bits can hold. -/
theorem contItem_ss_toNat (cfg : Config) (bs : BitVec 4) (p : Params) {n : Nat} (q : Nat) (hn : n < 1024) :
    (contItem cfg bs p n q).ss.toNat = if q = 0 then n else 0 := by
  by_cases hq : q = 0
  · simp [contItem, placeItem, hq, Nat.mod_eq_of_lt hn]
  · simp [contItem, placeItem, hq]

/-- 41_transfer_encode.md R172. -/
theorem contItem_da_reference {cfg : Config} (hda : cfg.daPolicy = DaPolicy.reference) (bs : BitVec 4) (p : Params) (n q : Nat) :
    (contItem cfg bs p n q).da = false ↔ q + 1 = n := by
  simp [contItem, placeItem, hda, DaPolicy.reference]

/-- Settles O20: an item of the session is `contItem` at its position, whose fields the lemmas above give; its parameters are looked up in
the store of the command's bus. -/
theorem continuationItems : Obligations.ContinuationItems := by
  unfold Obligations.ContinuationItems
  intro h b msg hda hb hbus hd hid hn
  refine ⟨contItems_length h msg, fun q it hit => ?_⟩
  obtain ⟨-, rfl⟩ := contItems_get hit
  rw [← msgParams_of_bus msg hb hd hbus]
  obtain ⟨hst, hdod, hd0, hbr, hed, hbs, ht, hdat⟩ :=
    contItem_constant h.cfg (BitVec.ofNat 4 h.m.bus) (msgParams h.m msg) h.m.nAnn.toNat q
  have hbusNat : (BitVec.ofNat 4 h.m.bus).toNat = b.busId := by
    rw [hbus, BitVec.toNat_ofNat, Nat.mod_eq_of_lt hid]
  exact ⟨hst, contItem_sp .., contItem_ti_toNat .., contItem_ss_toNat _ _ _ _ (by omega), hdod, hd0, hbr, hed,
    contItem_da_reference hda .., by rw [hbs, hbusNat], ht, hdat⟩

end Sys2Proof.Machine
end

