-- ==== Sys2Proof/Proofs/EveryStep.lean ====
section
/-! What every step of the machine keeps: a property that evolving, dropping a Master and creating one keep is kept by every step, and a
Master that stands before and after a step has evolved. -/

namespace Sys2Proof.Machine

/-- A step keeps what an evolution keeps, what the destruction of a Master keeps, and what a creation keeps. -/
theorem StepResult.keeps {P : State → Prop} (evolve : ∀ {n s t}, Evolves n s t → P s → P t)
    (drop : ∀ {u v : State} (id : Nat), v.cfg = u.cfg → v.mem = u.mem → v.masters = u.masters.filter (fun m => m.id != id) →
      v.nextHandle = u.nextHandle → v.nextCmd = u.nextCmd → P u → P v)
    (create : ∀ {s t base id count m'}, Created s t base id count m' → P s → P t)
    {s t : State} (h : StepResult s t) (hs : P s) : P t := by
  cases h with
  | res h =>
    cases h with
    | evo h => exact evolve h hs
    | drop id h e1 e2 e3 e4 e5 g => exact evolve g (drop id e1 e2 e3 e4 e5 (evolve h hs))
  | fresh u h0 _ _ base id n h =>
    obtain ⟨m', hc⟩ := execCreate_next h
    exact create hc (evolve h0 hs)

/-! ### A Master before and after a step -/

/-- A Master after an evolution is the one of its id before it, evolved. -/
theorem Evolves.master {n : Nat} {s t : State} (h : Evolves n s t) (hr : IdsRising s) {m m' : Master} (hm : m ∈ s.masters)
    (hm' : m' ∈ t.masters) (hid : m'.id = m.id) : MasterEvolves s.cfg n m m' := by
  obtain ⟨m0, hm0, e⟩ := h.ms hr m' hm'
  rwa [← hr.eq_of_id hm0 hm (e.ext.1.symm.trans hid)]

theorem TurnResult.master {n : Nat} {s t : State} (h : TurnResult n s t) (hr : IdsRising s) {m m' : Master} (hm : m ∈ s.masters)
    (hm' : m' ∈ t.masters) (hid : m'.id = m.id) : MasterEvolves s.cfg n m m' := by
  cases h with
  | evo h => exact h.master hr hm hm' hid
  | @drop u v t id h e1 _ e3 _ _ g =>
    have hu : IdsRising u := h.rising hr
    have hv : IdsRising v := by rw [IdsRising, e3]; exact hu.filter _
    obtain ⟨m1, hm1, e⟩ := g.ms hv m' hm'
    rw [e1, h.cfg] at e
    rw [e3] at hm1
    exact (h.master hr hm (List.mem_filter.1 hm1).1 (e.ext.1.symm.trans hid)).trans e

/-- A Master of the state after a creation whose id stood before it is the Master that stood there. -/
theorem Created.old {s t : State} {base id count : Nat} {m0 : Master} (h : Created s t base id count m0) (hr : IdsRising s)
    {m m' : Master} (hm : m ∈ s.masters) (hm' : m' ∈ t.masters) (hid : m'.id = m.id) : m' = m := by
  rw [h.ms, mem_insertById] at hm'
  rcases hm' with rfl | hm'
  · obtain ⟨bs, rfl, -⟩ := h.fresh
    exact absurd hid.symm (h.new m hm)
  · exact hr.eq_of_id hm' hm hid

theorem StepResult.master {s t : State} (h : StepResult s t) (hr : IdsRising s) {m m' : Master} (hm : m ∈ s.masters)
    (hm' : m' ∈ t.masters) (hid : m'.id = m.id) : MasterEvolves s.cfg 1 m m' := by
  cases h with
  | res h => exact h.master hr hm hm' hid
  | fresh u h0 e1 _ base id n h =>
    obtain ⟨m0, hc⟩ := execCreate_next h
    rw [hc.old (h0.rising hr) (e1 ▸ hm) hm' hid]
    exact (MasterEvolves.refl _ _).mono (by omega)

theorem StepResult.cfg {s t : State} (h : StepResult s t) : t.cfg = s.cfg :=
  h.keeps (P := fun u => u.cfg = s.cfg) (fun h e => h.cfg.trans e) (fun _ e1 _ _ _ _ e => e1.trans e)
    (fun h e => h.cfg.trans e) rfl

/-- Settles O5: the history of a Master that evolves is only lengthened, and by legal accesses. -/
theorem historiesGrowByLegalAccesses : Obligations.HistoriesGrowByLegalAccesses := by
  unfold Obligations.HistoriesGrowByLegalAccesses
  intro s t hr h m hm m' hm' hid
  exact ((step_result h).master hr hm hm' hid).ext

/-- Settles O6: what a Master that evolves keeps. -/
theorem configurationIsFixed : Obligations.ConfigurationIsFixed := by
  unfold Obligations.ConfigurationIsFixed
  intro s t hr h
  refine ⟨(step_result h).cfg, fun m hm m' hm' hid => ?_⟩
  have e := (step_result h).master hr hm hm' hid
  obtain ⟨-, hbase, -⟩ := e.ext
  have h1 := e.r1
  have h2 := e.r2
  exact ⟨hbase, e.bc, by omega⟩

/-! ### The invariant -/

theorem busIds_of_busKeys {l l' : List Bus} (h : l'.map busKey = l.map busKey) : l'.map (·.busId) = l.map (·.busId) := by
  simpa [busKey, Function.comp_def] using congrArg (List.map Prod.fst) h

theorem MasterEvolves.masterOk {cfg : Config} {n : Nat} {m m' : Master} (e : MasterEvolves cfg n m m') (h : MasterOk m) :
    MasterOk m' := by
  obtain ⟨hbus, hdist, hidle, hcalm⟩ := h
  exact ⟨by rw [BusIdsInOrder, busIds_of_busKeys e.keys, e.bc]; exact hbus, e.dist hdist, e.idle hidle, e.calm hcalm⟩

theorem Evolves.inv {n : Nat} {s t : State} (h : Evolves n s t) (hs : Inv s) : Inv t := by
  obtain ⟨hmem, hr, hok⟩ := hs
  refine ⟨h.wf hmem, h.rising hr, fun m' hm' => ?_⟩
  obtain ⟨m, hm, e⟩ := h.ms hr m' hm'
  exact e.masterOk (hok m hm)

theorem masterOk_fresh {id life base : Nat} {bs : List Bus} (hids : bs.map (·.busId) = List.range bs.length)
    (hp : ∀ b ∈ bs, b.params = []) : MasterOk (Master.fresh id life base bs) :=
  ⟨hids, fun b hb => by simp [StoreDistinct, hp b hb], fun _ => ⟨rfl, rfl⟩, fun _ => rfl⟩

theorem Created.inv {s t : State} {base id count : Nat} {m' : Master} (h : Created s t base id count m') (hs : Inv s) : Inv t := by
  obtain ⟨hmem, hr, hok⟩ := hs
  obtain ⟨bs, rfl, hlen, hids, hbs, -⟩ := h.fresh
  refine ⟨h.mem ▸ hmem, ?_, fun m hm => ?_⟩
  · rw [IdsRising, h.ms]
    exact insertById_rising hr h.new
  · rw [h.ms, mem_insertById] at hm
    rcases hm with rfl | hm
    · exact masterOk_fresh (hlen ▸ hids) fun b hb => (hbs b hb).2.1
    · exact hok m hm

/-- Settles O3: an evolution, the destruction of a Master and a creation each keep the invariant. -/
theorem everyStepKeepsTheInvariant : Obligations.EveryStepKeepsTheInvariant := by
  unfold Obligations.EveryStepKeepsTheInvariant
  intro s t hs h
  refine (step_result h).keeps (P := Inv) Evolves.inv ?_ Created.inv hs
  intro u v id _ e2 e3 _ _ hu
  obtain ⟨hmem, hr, hok⟩ := hu
  exact ⟨e2 ▸ hmem, by rw [IdsRising, e3]; exact hr.filter _, fun m hm => hok m (List.mem_filter.1 (e3 ▸ hm)).1⟩

end Sys2Proof.Machine
end

