-- ==== Sys2Proof/Proofs/NamesApart.lean ====
section
/-! The registers and the names of the Masters: no evolution changes them, the destruction of a Master takes some away, a creation adds
new ones. -/

namespace Sys2Proof.Machine

/-! ### Evolution -/

theorem MasterEvolves.base_eq {cfg : Config} {n : Nat} {m m' : Master} (e : MasterEvolves cfg n m m') : m'.base = m.base :=
  e.ext.2.1

theorem adaps_of_busKeys {l l' : List Bus} (h : l'.map busKey = l.map busKey) : l'.map (·.adap) = l.map (·.adap) := by
  simpa [busKey, Function.comp_def] using congrArg (List.map fun k => k.2.2) h

theorem handles_of_busKeys {l l' : List Bus} (h : l'.map busKey = l.map busKey) : l'.map (·.handle) = l.map (·.handle) := by
  simpa [busKey, Function.comp_def] using congrArg (List.map fun k => k.2.1) h

/-- The registers are unshared, said of the bases of the Masters. -/
theorem portsApart_iff (s : State) : PortsApart s ↔
    (s.masters.map (·.base)).Pairwise (fun a b => ∀ x ∈ portAddrs s.cfg a, x ∉ portAddrs s.cfg b) ∧
      ∀ a ∈ s.masters.map (·.base), (portAddrs s.cfg a).Nodup ∧ ∀ x ∈ portAddrs s.cfg a, x % 4 = 0 := by
  simp [PortsApart, List.pairwise_map]

theorem Evolves.portsApart {n : Nat} {s t : State} (h : Evolves n s t) (hr : IdsRising s) (hp : PortsApart s) : PortsApart t := by
  rw [portsApart_iff] at hp ⊢
  rwa [h.cfg, h.map_eq hr (·.base) fun _ _ e => e.base_eq]

theorem Evolves.adaps {n : Nat} {s t : State} (h : Evolves n s t) (hr : IdsRising s) : t.adaps = s.adaps := by
  simp only [State.adaps, List.flatMap_def, h.map_eq hr (fun m => m.buses.map (·.adap)) fun _ _ e => adaps_of_busKeys e.keys]

theorem Evolves.handles {n : Nat} {s t : State} (h : Evolves n s t) (hr : IdsRising s) : t.handles = s.handles := by
  simp only [State.handles, List.flatMap_def,
    h.map_eq hr (fun m => m.buses.map (·.handle)) fun _ _ e => handles_of_busKeys e.keys]

theorem Evolves.namesDistinct {n : Nat} {s t : State} (h : Evolves n s t) (hr : IdsRising s) (hn : NamesDistinct s) :
    NamesDistinct t := by
  obtain ⟨hadap, hhandle, hbound, hlife, hcmd⟩ := hn
  refine ⟨by rwa [h.adaps hr], by rwa [h.handles hr], fun a ha => ?_, ?_, fun m' hm' => ?_⟩
  · rw [h.nh]
    exact hbound a (h.handles hr ▸ ha)
  · rwa [h.map_eq hr (·.life) fun _ _ e => e.life]
  · obtain ⟨m, hm, e⟩ := h.ms hr m' hm'
    rw [e.life]
    exact (hcmd m hm).trans_le h.nc

/-! ### Destruction -/

theorem portsApart_of_sublist {u v : State} (hc : v.cfg = u.cfg) (hm : v.masters.Sublist u.masters) (h : PortsApart u) :
    PortsApart v := by
  obtain ⟨hpair, hall⟩ := h
  rw [PortsApart, hc]
  exact ⟨hpair.sublist hm, fun m h => hall m (hm.subset h)⟩

theorem namesDistinct_of_sublist {u v : State} (hm : v.masters.Sublist u.masters) (hh : v.nextHandle = u.nextHandle)
    (hc : v.nextCmd = u.nextCmd) (h : NamesDistinct u) : NamesDistinct v := by
  obtain ⟨hadap, hhandle, hbound, hlife, hcmd⟩ := h
  rw [NamesDistinct, hh, hc]
  exact ⟨hadap.sublist (hm.flatMap _), hhandle.sublist (hm.flatMap _), fun a ha => hbound a ((hm.flatMap _).subset ha),
    hlife.sublist (hm.map _), fun m h => hcmd m (hm.subset h)⟩

/-! ### Creation -/

theorem Created.perm {s t : State} {base id count : Nat} {m' : Master} (h : Created s t base id count m') :
    t.masters.Perm (m' :: s.masters) := h.ms ▸ insertById_perm m' s.masters

theorem Created.portsApart {s t : State} {base id count : Nat} {m' : Master} (h : Created s t base id count m')
    (hp : PortsApart s) : PortsApart t := by
  obtain ⟨hpair, hall⟩ := hp
  obtain ⟨bs, rfl, -⟩ := h.fresh
  obtain ⟨haligned, hnodup, hothers⟩ := h.ports
  rw [PortsApart, h.cfg]
  constructor
  · rw [h.perm.pairwise_iff fun hxy x hx hx' => hxy x hx' hx, List.pairwise_cons]
    exact ⟨fun m hm x hx hx' => hothers m hm x hx' hx, hpair⟩
  · intro m hm
    rcases List.mem_cons.1 (h.perm.subset hm) with rfl | hm
    · exact ⟨hnodup, haligned⟩
    · exact hall m hm

theorem Created.namesDistinct {s t : State} {base id count : Nat} {m' : Master} (h : Created s t base id count m')
    (hn : NamesDistinct s) : NamesDistinct t := by
  obtain ⟨hadap, hhandle, hbound, hlife, hcmd⟩ := hn
  obtain ⟨bs, rfl, -, -, hbs, hadapNew, hhandleNew⟩ := h.fresh
  have hhandles : t.handles.Perm (bs.map (·.handle) ++ s.handles) := h.perm.flatMap_right _
  refine ⟨?_, ?_, fun a ha => ?_, ?_, fun m hm => ?_⟩
  · have hperm : t.adaps.Perm (bs.map (·.adap) ++ s.adaps) := h.perm.flatMap_right _
    rw [hperm.nodup_iff, List.nodup_append']
    refine ⟨hadapNew, hadap, fun a ha => ?_⟩
    obtain ⟨b, hb, rfl⟩ := List.mem_map.1 ha
    exact (hbs b hb).2.2.1
  · rw [hhandles.nodup_iff, List.nodup_append']
    refine ⟨hhandleNew, hhandle, fun a ha ha' => ?_⟩
    obtain ⟨b, hb, rfl⟩ := List.mem_map.1 ha
    obtain ⟨-, -, -, hle, -⟩ := hbs b hb
    exact absurd (hbound _ ha') (by omega)
  · rcases List.mem_append.1 (hhandles.subset ha) with ha | ha
    · obtain ⟨b, hb, rfl⟩ := List.mem_map.1 ha
      exact (hbs b hb).2.2.2.2
    · exact (hbound a ha).trans_le (h.nh ▸ Nat.le_add_right ..)
  · rw [(h.perm.map _).nodup_iff, List.map_cons, List.nodup_cons]
    refine ⟨fun hmem => ?_, hlife⟩
    obtain ⟨m, hm, hlf⟩ := List.mem_map.1 hmem
    exact absurd (hcmd m hm) (by rw [hlf]; exact Nat.lt_irrefl _)
  · rw [h.nc]
    rcases List.mem_cons.1 (h.perm.subset hm) with rfl | hm
    · exact Nat.lt_succ_self _
    · exact (hcmd m hm).trans (Nat.lt_succ_self _)

/-! ### Every step -/

/-- Settles O4: with the ids rising an evolution keeps the registers and the names, the destruction of a Master leaves a sublist, and what
a creation adds is new. -/
theorem everyStepKeepsPortsAndNamesApart : Obligations.EveryStepKeepsPortsAndNamesApart := by
  unfold Obligations.EveryStepKeepsPortsAndNamesApart
  intro s t hr hp hn h
  refine ((step_result h).keeps (P := fun u => IdsRising u ∧ PortsApart u ∧ NamesDistinct u) ?_ ?_ ?_ ⟨hr, hp, hn⟩).2
  · rintro n u v e ⟨hr, hp, hn⟩
    exact ⟨e.rising hr, e.portsApart hr hp, e.namesDistinct hr hn⟩
  · rintro u v id e1 _ e3 e4 e5 ⟨hr, hp, hn⟩
    have hsub : v.masters.Sublist u.masters := e3 ▸ List.filter_sublist
    exact ⟨hr.sublist hsub, portsApart_of_sublist e1 hsub hp, namesDistinct_of_sublist hsub e4 e5 hn⟩
  · rintro u v base id count m' hc ⟨hr, hp, hn⟩
    have hnew : (Machine.Master.id m') = id := by obtain ⟨bs, rfl, -⟩ := hc.fresh; rfl
    refine ⟨?_, hc.portsApart hp, hc.namesDistinct hn⟩
    rw [IdsRising, hc.ms]
    exact insertById_rising hr (hnew ▸ hc.new)

end Sys2Proof.Machine
end

