-- ==== Sys2Proof/Proofs/RoundTrips.lean ====
section
/-! Encoding and decoding undo each other under every layout of the model (30_encoding.md R91). -/

namespace Sys2Proof

/-! ### A word and its bytes -/

theorem append_wordBytes (w : Word) :
    (w.extractLsb' 24 8 ++ w.extractLsb' 16 8 ++ w.extractLsb' 8 8 ++ w.extractLsb' 0 8 : BitVec 32) = w := by
  apply BitVec.eq_of_getLsbD_eq
  intro i hi
  simp only [BitVec.getLsbD_append, BitVec.getLsbD_extractLsb']
  by_cases h0 : i < 8
  · simp [h0]
  by_cases h1 : i < 16
  · simp [h0, show i - 8 < 8 by omega, show 8 + (i - 8) = i by omega]
  by_cases h2 : i < 24
  · simp [h0, show ¬i - 8 < 8 by omega, show i - 8 - 8 < 8 by omega, show 16 + (i - 8 - 8) = i by omega]
  · simp [h0, show ¬i - 8 < 8 by omega, show ¬i - 8 - 8 < 8 by omega, show i - 8 - 8 - 8 < 8 by omega,
      show 24 + (i - 8 - 8 - 8) = i by omega]

theorem decode_wordBytes (l : Layout) {sl : Slot} {w : Word} {i : Instr} (h : decodeAt l sl w = .ok i) (rest : List Byte) :
    decode l sl (wordBytes w ++ rest) = .ok (i, rest) := by
  simp [decode, wordBytes, append_wordBytes, h]

/-! ### Request items -/

theorem readAs_reqWord (p : ReqPlaces) (it : ReqItem) (first : Bool) (i : Instr) : readAs p (reqWord p it first) first it i = .ok i :=
  if_pos rfl

/-- What has been read has the word of its item. -/
theorem readAs_ok {p : ReqPlaces} {w : Word} {first : Bool} {it : ReqItem} {i j : Instr} (h : readAs p w first it i = .ok j) :
    i = j ∧ reqWord p it first = w := by
  unfold readAs at h
  split at h
  · exact ⟨Except.ok.inj h, ‹_›⟩
  · cases h

theorem unpackReq_first {l : Layout} (h : l.ok) {it : ReqItem} (hti : it.ti = 0) (hss : it.ss.toNat < 2 ^ l.req.ssWidth) :
    unpackReq l.req (reqWord l.req it true) true = it := by
  obtain ⟨hfirst, -, hwidth, -⟩ := h
  rw [unpackReq_reqWord hfirst hwidth fun _ => hss]
  simp [← hti]

theorem unpackReq_later {l : Layout} (h : l.ok) {it : ReqItem} (hss : it.ss = 0) :
    unpackReq l.req (reqWord l.req it false) false = it := by
  obtain ⟨-, hlater, hwidth, -⟩ := h
  rw [unpackReq_reqWord hlater hwidth fun h => nomatch h]
  simp [← hss]

/-! ### Decoding what was encoded -/

theorem decodeAt_encode {l : Layout} {i : Instr} {sl : Slot} (h : l.ok) (hsl : slotOf i = some sl)
    (hss : ∀ ss, Machine.sizeOf? i = some ss → ss.toNat < 2 ^ l.req.ssWidth) : ∃ w, encode l i = [w] ∧ decodeAt l sl w = .ok i := by
  have hfits := h
  obtain ⟨-, -, -, hrsp, hcsr, -⟩ := hfits
  cases i with
  | addrF bs sp t dat ss d =>
    cases hsl
    refine ⟨_, rfl, ?_⟩
    simp only [decodeAt, unpackReq_first h (it := addrFItem bs sp t dat ss d) rfl (hss ss rfl)]
    exact readAs_reqWord ..
  | addrN bs sp t dat ti d =>
    cases hsl
    refine ⟨_, rfl, ?_⟩
    simp only [decodeAt, unpackReq_later h (it := addrNItem bs sp t dat ti d) rfl]
    exact readAs_reqWord ..
  | wdataN bs sp t dat ti d =>
    cases hsl
    refine ⟨_, rfl, ?_⟩
    simp only [decodeAt, unpackReq_later h (it := wdataNItem bs sp t dat ti d) rfl]
    exact readAs_reqWord ..
  | rdataN bs sp da t dat ti =>
    cases hsl
    refine ⟨_, rfl, ?_⟩
    simp only [decodeAt, unpackReq_later h (it := rdataNItem bs sp da t dat ti) rfl]
    exact readAs_reqWord ..
  | brlenN bs sp ed t dat ti =>
    cases hsl
    refine ⟨_, rfl, ?_⟩
    simp only [decodeAt, unpackReq_later h (it := brlenNItem bs sp ed t dat ti) rfl]
    exact readAs_reqWord ..
  | contF bs sp da t dat ss =>
    cases hsl
    refine ⟨_, rfl, ?_⟩
    simp only [decodeAt, unpackReq_first h (it := contFItem bs sp da t dat ss) rfl (hss ss rfl)]
    exact readAs_reqWord ..
  | contN bs sp da t dat ti =>
    cases hsl
    refine ⟨_, rfl, ?_⟩
    simp only [decodeAt, unpackReq_later h (it := contNItem bs sp da t dat ti) rfl]
    exact readAs_reqWord ..
  | rsp r =>
    cases hsl
    exact ⟨_, rfl, by rw [decodeAt, unpackRsp_packRsp hrsp]⟩
  | csr write c =>
    cases write <;> cases hsl <;> exact ⟨_, rfl, congrArg (Except.ok <| Instr.csr _ ·) (unpackCsr_packCsr hcsr c)⟩
  | _ => cases hsl

/-- Settles O11: the record read from the word of an item is that item, whose word it has; the two data words are read back field by
field. -/
theorem decodeInvertsEncode : Obligations.DecodeInvertsEncode := by
  unfold Obligations.DecodeInvertsEncode
  intro l i sl h hsl hss
  obtain ⟨w, he, hd⟩ := decodeAt_encode h hsl hss
  exact ⟨w, he, hd, decode_wordBytes l hd⟩

/-! ### Encoding what was decoded -/

/-- A word that decodes is the word of what it decodes to, but for the reserved bits of a response word. -/
theorem encode_decodeAt {l : Layout} (h : l.ok) {sl : Slot} {w : Word} {i : Instr} (hd : decodeAt l sl w = .ok i) :
    slotOf i = some sl ∧ encode l i = [if sl = .response then packRsp l.rsp (unpackRsp l.rsp w) else w] := by
  obtain ⟨-, -, -, -, hcsr, hall⟩ := h
  cases sl with
  | addrFirst | addrLater | writeData | readData | blockLength | contFirst | contLater =>
    obtain ⟨rfl, hw⟩ := readAs_ok hd
    exact ⟨rfl, congrArg (fun x => [x]) hw⟩
  | response => cases hd; exact ⟨rfl, rfl⟩
  | statusRead | statusWrite =>
    cases hd
    exact ⟨rfl, congrArg (fun x => [x]) (packCsr_unpackCsr hcsr hall w)⟩

/-- Settles O12: decoding compares the word with the word of what it reads; the control/status word has no bit outside its fields; the
reserved bits of the response word are those outside the mask. -/
theorem encodeInvertsDecode : Obligations.EncodeInvertsDecode := by
  unfold Obligations.EncodeInvertsDecode
  refine ⟨fun l sl w i h hd => ?_, fun l h => ?_, fun w i hd => ?_⟩
  · obtain ⟨hsl, he⟩ := encode_decodeAt h hd
    exact ⟨hsl, fun hne => by rw [he, if_neg hne], fun heq => by rw [he, if_pos heq]⟩
  · obtain ⟨-, -, -, hrsp, hcsr, hall⟩ := h
    exact ⟨unpackRsp_packRsp hrsp, unpackCsr_packCsr hcsr, packCsr_unpackCsr hcsr hall⟩
  · obtain ⟨-, he⟩ := encode_decodeAt reference_ok hd
    rw [he, if_pos rfl, packRsp_unpackRsp, fieldMask_reference_rsp]

/-! ### The request word -/

theorem toNat_reqWord_reference (it : ReqItem) (first : Bool) : (reqWord Layout.reference.req it first).toNat =
    it.bs.toNat <<< 28 ||| it.st.toNat <<< 27 ||| it.sp.toNat <<< 26 ||| it.dod.toNat <<< 25 ||| it.da.toNat <<< 24 |||
      it.br.toNat <<< 23 ||| it.ed.toNat <<< 22 ||| it.t.toNat <<< 20 ||| it.dat.toNat <<< 18 |||
      (if first then it.ss.toNat else it.ti.toNat) <<< 8 ||| it.d.toNat := by
  cases first <;>
    simp [reqWord, packFields, Layout.reference, ReqPlaces.spans, toNat_place_bits, toNat_place_flag, Nat.or_assoc]

theorem reqOk_iff (p : ReqPlaces) (it : ReqItem) (first : Bool) : reqOk p it first = true ↔
    if first then it.ti = 0 ∧ it.ss ≠ 0 ∧ it.ss.toNat < 2 ^ p.ssWidth else it.ss = 0 := by
  cases first <;> simp [reqOk, and_assoc]

theorem packReq_eq_none_iff (p : ReqPlaces) (it : ReqItem) (first : Bool) : packReq p it first = none ↔ ¬reqOk p it first = true := by
  simp [packReq]

/-- Settles O13: under the reference layout field by field; `packReq` tests `reqOk`, and a well-formed item is read back from its word. -/
theorem requestWordLayout : Obligations.RequestWordLayout := by
  unfold Obligations.RequestWordLayout
  refine ⟨toNat_reqWord_reference, fun l it first h => ⟨?_, fun w hw => ?_⟩⟩
  · rw [packReq_eq_none_iff, reqOk_iff]
  · obtain ⟨hok, rfl⟩ : reqOk l.req it first = true ∧ reqWord l.req it first = w := by simpa [packReq] using hw
    rw [reqOk_iff] at hok
    cases first with
    | true => exact ⟨rfl, unpackReq_first h hok.1 hok.2.2⟩
    | false => exact ⟨rfl, unpackReq_later h hok⟩

/-- Settles O10: each word decoded under the reference layout. -/
theorem specWordsDecode : Obligations.SpecWordsDecode := by
  unfold Obligations.SpecWordsDecode
  decide

end Sys2Proof
end

