-- ==== Sys2Proof/Proofs/HostCommands.lean ====
section
/-! The state after reset, the host's turn, and the commands that answer at once or wait: which bus a number names, what is turned away,
what a command that waits leaves (43_params_and_commands.md, 20_memory.md R74). -/

namespace Sys2Proof.Machine

/-! ### Reset -/

/-- Settles O1: the one Master of the reset state is a fresh one. -/
theorem resetIsAJustCreatedMaster : Obligations.ResetIsAJustCreatedMaster := by
  unfold Obligations.ResetIsAJustCreatedMaster
  exact ⟨_, rfl, rfl, rfl, rfl, rfl, rfl, rfl, rfl, rfl, by decide, rfl, rfl, rfl, rfl⟩

/-- Settles O2: a closed fact about the one state. -/
theorem resetMeetsTheInvariants : Obligations.ResetMeetsTheInvariants := by
  unfold Obligations.ResetMeetsTheInvariants
  decide

/-! ### The host's turn -/

theorem step_sched {s : State} {a : Agent} {cut : Option Nat} {turns : List (Agent × Option Nat)} (h : s.sched = (a, cut) :: turns) :
    step s = turn a { s with sched := turns, cut := cut } := by
  simp [step, nextTurn, h]

/-- The turn of a host that presents an instruction, or an input that is none. -/
theorem hostTurn_decoded {s : State} {x : Input} {rest : List Input} (hb : s.inbox = x :: rest) (hx : ∀ a bs, x ≠ .fill a bs) :
    hostTurn s = match decodeInput s.cfg.layout x with
      | .ok i => runDecoded i { s with inbox := rest }
      | .error _ => .refused .undecodable := by
  cases x with
  | fill a bs => exact absurd rfl (hx a bs)
  | word sl w => simp only [hostTurn, hb] <;> rfl
  | line text => simp only [hostTurn, hb] <;> rfl
  | op i => simp only [hostTurn, hb] <;> rfl

theorem hostTurn_fill {s : State} {a : Nat} {bs : List Byte} {rest : List Input} (hb : s.inbox = .fill a bs :: rest) :
    hostTurn s = hostFill a bs { s with inbox := rest } := by
  simp only [hostTurn, hb]

theorem hostFill_open {s : State} {a y : Nat} {bs : List Byte} (h1 : a ≤ y) (h2 : y < a + bs.length) (h : inOpenBuffer s y = true) :
    hostFill a bs s = .refused .bufferChanged := by
  refine if_pos (List.any_eq_true.2 ⟨y - a, List.mem_range.2 (by omega), ?_⟩)
  rwa [show a + (y - a) = y by omega]

theorem hostFill_closed {s : State} {a : Nat} {bs : List Byte} (h : ∀ y, a ≤ y → y < a + bs.length → inOpenBuffer s y = false) :
    hostFill a bs s = .next { s with mem := writeBytes s.mem a bs } := by
  refine if_neg fun hany => ?_
  obtain ⟨k, hk, hopen⟩ := List.any_eq_true.1 hany
  rw [h (a + k) (by omega) (by have := List.mem_range.1 hk; omega)] at hopen
  cases hopen

/-- Settles O9: the scheduled turn is the host's, whose oldest input is an instruction, no instruction, or bytes to store. -/
theorem stepRunsTheDecodedInput : Obligations.StepRunsTheDecodedInput := by
  unfold Obligations.StepRunsTheDecodedInput
  intro s x rest cut turns hs hb
  have hstep : step s = hostTurn { s with sched := turns, cut := cut } := step_sched hs
  have hturn := fun hx => hstep.trans (hostTurn_decoded (s := { s with sched := turns, cut := cut }) hb hx)
  have hinstr : ∀ i, decodeInput s.cfg.layout x = .ok i → ∀ a bs, x ≠ .fill a bs := by
    rintro i hd a bs rfl
    cases hd
  refine ⟨fun i hd hwf => ?_, fun i hd hwf => ?_, fun e hd hx => ?_, ?_, ?_⟩
  · rw [hturn (hinstr i hd)]
    simp [hd, runDecoded, hwf]
  · rw [hturn (hinstr i hd)]
    simp [hd, runDecoded, hwf]
  · rw [hturn hx]
    simp [hd]
  · rintro a bs rfl ⟨y, h1, h2, hopen⟩
    rw [hstep, hostTurn_fill (s := { s with sched := turns, cut := cut }) hb]
    exact hostFill_open h1 h2 hopen
  · rintro a bs rfl hwf hclosed
    refine ⟨writeBytes s.mem a bs, ?_, fun k hk => ?_, fun y hy => ?_⟩
    · rw [hstep, hostTurn_fill (s := { s with sched := turns, cut := cut }) hb]
      exact hostFill_closed hclosed
    · simp [read_writeBytes hwf, hk]
    · rw [read_writeBytes hwf]
      rcases hy with hy | hy
      · simp [show ¬a ≤ y by omega]
      · simp [show bs.length ≤ y - a by omega]

/-! ### Commands that answer at once -/

/-- Settles O56: the answer is written out in the definition. -/
theorem capsIsConstant : Obligations.CapsIsConstant := by
  unfold Obligations.CapsIsConstant
  exact fun _ _ => rfl

/-- Settles O34: under the reference setting a frame-empty flag is early on every response but the last. -/
theorem validateTestsInOrder : Obligations.ValidateTestsInOrder := by
  unfold Obligations.ValidateTestsInOrder
  intro s r e last hfe
  simp [exec, execValidate, State.post, validateRsp, feEarly, hfe]

/-! ### Which bus a number names -/

theorem findBus_none {ms : List Master} {p : Bus → Bool}
    (h : ms.findSome? (fun m => (m.buses.find? p).map (fun b => (m, b))) = none) : ∀ m ∈ ms, ∀ b ∈ m.buses, p b = false := by
  simpa using h

/-- `open` looks for the same bus as the other commands and forgets its Master. -/
theorem openBus?_eq (s : State) (adap : Nat) : s.openBus? adap =
    (s.masters.findSome? fun m => (m.buses.find? (fun b => b.adap == adap && b.registered)).map (fun b => (m, b))).map (·.2) := by
  simp [State.openBus?, List.map_findSome?, Function.comp_def]

/-- Settles O57: the bus found is a registered one of that number; with none found there is none. -/
theorem openGivesTheHandle : Obligations.OpenGivesTheHandle := by
  unfold Obligations.OpenGivesTheHandle
  intro s adap
  cases hf : s.masters.findSome? fun m => (m.buses.find? (fun b => b.adap == adap && b.registered)).map (fun b => (m, b)) with
  | none =>
    have hnone := findBus_none hf
    have hopen : s.openBus? adap = none := by rw [openBus?_eq, hf]; rfl
    refine ⟨?_, fun _ => by simp [exec, execOpen, hopen]⟩
    rintro ⟨m, hm, b, hb, rfl, hreg⟩
    simpa [hreg] using hnone m hm b hb
  | some x =>
    obtain ⟨m, b⟩ := x
    obtain ⟨hm, hb, hp⟩ := findBus_mem hf
    obtain ⟨hadap, hreg⟩ : b.adap = adap ∧ b.registered = true := by simpa using hp
    have hopen : s.openBus? adap = some b := by rw [openBus?_eq, hf]; rfl
    exact ⟨fun _ => ⟨b, ⟨m, hm, hb⟩, hadap, hreg, by simp [exec, execOpen, hopen, State.post]⟩,
      fun hno => absurd ⟨hadap, hreg⟩ (hno m hm b hb)⟩

theorem State.busOf_none {s : State} {handle : Nat} (h : s.busOf handle = none) :
    ∀ m ∈ s.masters, ∀ b ∈ m.buses, ¬(b.handle = handle ∧ b.registered = true) := by
  intro m hm b hb ⟨h1, h2⟩
  simpa [h1, h2] using findBus_none h m hm b hb

/-! ### TRANSFER: what is turned away -/

theorem unsupported_kind {msgs : List Message} (h : (∃ x ∈ msgs, x.tenBit = true) ∨ 2 ≤ (msgs.filter (·.vlr)).length) :
    ∃ f, unsupported msgs = some f ∧ f.kind = .unsupported := by
  unfold unsupported
  split
  · exact ⟨_, rfl, rfl⟩
  · rename_i hten
    rw [← List.countP_eq_length_filter] at h
    exact ⟨_, if_pos (h.resolve_left fun hx => hten (List.any_eq_true.2 hx)), rfl⟩

theorem unsupported_none {msgs : List Message} (h1 : ∀ x ∈ msgs, x.tenBit = false) (h2 : (msgs.filter (·.vlr)).length ≤ 1) :
    unsupported msgs = none := by
  rw [← List.countP_eq_length_filter] at h2
  have hten : msgs.any (·.tenBit) = false := by simpa using h1
  simp [unsupported, hten, show ¬2 ≤ msgs.countP (·.vlr) by omega]

/-- Settles O43: the two tests come before everything else, and each answers the one kind. -/
theorem unsupportedIsRejectedOutright : Obligations.UnsupportedIsRejectedOutright := by
  unfold Obligations.UnsupportedIsRejectedOutright
  intro s handle msgs h
  obtain ⟨f, hf, hk⟩ := unsupported_kind h
  simp [exec, execTransfer, hf, hk, State.post]

/-- The preconditions on one message, together (41_transfer_encode.md R162). -/
abbrev MessageFits (x : Message) : Prop :=
  x.addr ≤ 0x7F ∧ x.length ≤ x.cap ∧ (x.vlr = true → x.read = true ∧ 1 ≤ x.length ∧ x.length + 32 ≤ x.cap)

theorem msgRefusal_eq_none_iff (x : Message) : msgRefusal x = none ↔ MessageFits x := by
  refine ⟨msgRefusal_facts, fun ⟨haddr, hcap, hvlr⟩ => ?_⟩
  cases hv : x.vlr with
  | false => simp [msgRefusal, neededCap, hv, Nat.not_lt.2 haddr, Nat.not_lt.2 hcap]
  | true =>
    obtain ⟨hread, hlen, hroom⟩ := hvlr hv
    simp [msgRefusal, neededCap, hv, hread, Nat.not_lt.2 haddr, show ¬x.length = 0 by omega, Nat.not_lt.2 hroom]

/-- The preconditions on a list and the identity of its bus, together. -/
theorem listRefusal_eq_none_iff (busId : Nat) (msgs : List Message) : listRefusal busId msgs = none ↔
    msgs ≠ [] ∧ (∀ x, msgs.head? = some x → x.noStart = false) ∧ busId < 16 ∧ ∀ x ∈ msgs, MessageFits x := by
  cases msgs with
  | nil => simp [listRefusal]
  | cons x xs =>
    by_cases h1 : x.noStart = true <;> by_cases h2 : 16 ≤ busId <;>
      simp [listRefusal, h1, h2, msgRefusal_eq_none_iff, Nat.not_le.1]

theorem execTransfer_of_bus {s : State} {handle : Nat} {msgs : List Message} {m : Master} {b : Bus} (hu : unsupported msgs = none)
    (hb : s.busOf handle = some (m, b)) : exec (.transfer handle msgs) s = match listRefusal b.busId msgs with
      | some r => .refused r
      | none => startTransfer s.nextCmd m b.busId msgs { s with nextCmd := s.nextCmd + 1 } := by
  have hb' : ({ s with nextCmd := s.nextCmd + 1 } : State).busOf handle = some (m, b) := hb
  simp only [exec, execTransfer, hu, hb'] <;> rfl

/-- Settles O44: a list is refused exactly if one of the preconditions fails. -/
theorem transferPreconditions : Obligations.TransferPreconditions := by
  unfold Obligations.TransferPreconditions
  refine ⟨fun s handle => ⟨fun m b => State.busOf_mem, State.busOf_none⟩, fun s handle msgs hten hvlr => ?_⟩
  have hu := unsupported_none hten hvlr
  refine ⟨fun hno => ?_, fun m b hb => ⟨fun hbad => ?_, fun hne hstart hid hmsgs => ?_⟩⟩
  · have hno' : ({ s with nextCmd := s.nextCmd + 1 } : State).busOf handle = none := hno
    simp [exec, execTransfer, hu, hno']
  · rw [execTransfer_of_bus hu hb]
    cases hl : listRefusal b.busId msgs with
    | some r => exact ⟨r, rfl⟩
    | none =>
      obtain ⟨hne, hstart, hid, hmsgs⟩ := (listRefusal_eq_none_iff _ _).1 hl
      exfalso
      rcases hbad with hnil | ⟨x, hx, hns⟩ | hwide | ⟨x, hx, hbad⟩
      · exact hne hnil
      · simp [hstart x hx] at hns
      · omega
      · obtain ⟨haddr, hcap, hv⟩ := hmsgs x hx
        rcases hbad with h | ⟨h, h'⟩ | ⟨h, h'⟩ | h | ⟨h, h'⟩
        · omega
        · simp [(hv h).1] at h'
        · have := (hv h).2.1; omega
        · omega
        · have := (hv h).2.2; omega
  · rw [execTransfer_of_bus hu hb, (listRefusal_eq_none_iff _ _).2 ⟨hne, hstart, hid, hmsgs⟩]

end Sys2Proof.Machine
end

