-- ==== Sys2Proof/Proofs/Stores.lean ====
section
/-! TUNE, DUMP and lookup (43_params_and_commands.md R220 to R223), the commands that wait for a held lock, and what a freed lock gives
(20_memory.md R74). -/

namespace Sys2Proof.Machine

/-! ### TUNE -/

theorem State.tuneBus_external {s : State} (h : s.cfg.tuneBusKey = .external) (n : Nat) : s.tuneBus n =
    s.masters.findSome? fun m => (m.buses.find? (fun b => b.adap == n && b.registered)).map (fun b => (m, b)) := by
  simp [State.tuneBus, h]

theorem State.tuneBus_identity {s : State} {id : Nat} (h : s.cfg.tuneBusKey = .identity id) (n : Nat) : s.tuneBus n =
    (s.master? id).bind fun m => (m.buses.find? (fun b => b.busId == n && b.registered)).map (fun b => (m, b)) := by
  simp only [State.tuneBus, h]
  cases s.master? id <;> rfl

theorem tuneInRange_eq_false_iff (n : TuneNumbers) :
    tuneInRange n = false ↔ 0x7F < n.addr ∨ 3 < n.t ∨ 3 < n.datr ∨ 3 < n.datw ∨ 1 < n.ed := by
  simp only [tuneInRange, Bool.and_eq_false_iff, decide_eq_false_iff_not, Nat.not_le, or_assoc]

/-- Settles O54: the bus is looked for among the registered ones, and every ground of rejection comes before the store. -/
theorem tuneRejectsWithoutChange : Obligations.TuneRejectsWithoutChange := by
  unfold Obligations.TuneRejectsWithoutChange
  refine ⟨fun s n hkey => ?_, fun s n id hkey => ?_, fun s line hbad => ?_⟩
  · rw [State.tuneBus_external hkey]
    refine ⟨fun m b h => ?_, fun h m hm b hb ⟨h1, h2⟩ => ?_⟩
    · obtain ⟨hm, hb, hp⟩ := findBus_mem h
      exact ⟨hm, hb, by simpa using hp⟩
    · simpa [h1, h2] using findBus_none h m hm b hb
  · rw [State.tuneBus_identity hkey]
    cases hm0 : s.master? id with
    | none => simp
    | some m0 =>
      refine ⟨fun m b h => ?_, fun h m hm b hb ⟨h1, h2⟩ => ?_⟩
      · obtain ⟨b', hb', heq⟩ := Option.map_eq_some_iff.1 h
        cases heq
        exact ⟨rfl, List.mem_of_find?_eq_some hb', by simpa using List.find?_some hb'⟩
      · cases hm
        have hnone := List.find?_eq_none.1 (Option.map_eq_none_iff.1 h) b hb
        exact hnone (by simp [h1, h2])
  · rcases hbad with hnone | ⟨n, hn, hbad⟩
    · simp [exec, execTune, hnone, State.post]
    · cases hr : tuneInRange n with
      | false => simp [exec, execTune, hn, hr, State.post]
      | true =>
        have hbus : s.tuneBus n.bus = none := hbad.resolve_right fun h => by
          rw [(tuneInRange_eq_false_iff n).2 h] at hr
          cases hr
        have hbus' : ({ s with nextCmd := s.nextCmd + 1 } : State).tuneBus n.bus = none := hbus
        simp [exec, execTune, hn, hr, hbus', State.post]

theorem execTune_of_bus {s : State} {line : List Char} {n : TuneNumbers} {m : Master} {b : Bus} (hn : parseTuneLine line = some n)
    (hr : tuneInRange n = true) (hb : s.tuneBus n.bus = some (m, b)) : exec (.tune line) s =
      if m.lock = .free then .next (({ s with nextCmd := s.nextCmd + 1 }.putMaster (tuneStore b.busId (tuneRecord n) m)).post s.nextCmd
        .accepted)
      else .next ({ s with nextCmd := s.nextCmd + 1 }.putMaster
        { m with waiting := m.waiting ++ [Blocked.tune s.nextCmd b.busId (tuneRecord n)] }) := by
  have hb' : ({ s with nextCmd := s.nextCmd + 1 } : State).tuneBus n.bus = some (m, b) := hb
  simp only [exec, execTune, hn, hr, hb']
  rfl

/-- The records after an update: the one written, and those of the other addresses. -/
theorem mem_updateStore {r x : ParamRec} {l : List ParamRec} (h : (l.map (·.addr)).Nodup) :
    x ∈ updateStore r l ↔ x = r ∨ x ∈ l ∧ x.addr ≠ r.addr := by
  induction l with
  | nil => simp [updateStore]
  | cons y ys ih =>
    rw [List.map_cons, List.nodup_cons] at h
    obtain ⟨hy, hys⟩ := h
    unfold updateStore
    split
    · rename_i heq
      have hother : ∀ z ∈ ys, z.addr ≠ r.addr := fun z hz e => hy (List.mem_map.2 ⟨z, hz, e.trans heq.symm⟩)
      rw [List.mem_cons, List.mem_cons]
      constructor
      · rintro (rfl | hx)
        · exact .inl rfl
        · exact .inr ⟨.inr hx, hother x hx⟩
      · rintro (rfl | ⟨rfl | hx, hne⟩)
        · exact .inl rfl
        · exact absurd heq hne
        · exact .inr hx
    · rename_i hne
      rw [List.mem_cons, List.mem_cons, ih hys]
      constructor
      · rintro (rfl | rfl | ⟨hx, hx'⟩)
        · exact .inr ⟨.inl rfl, hne⟩
        · exact .inl rfl
        · exact .inr ⟨.inr hx, hx'⟩
      · rintro (rfl | ⟨rfl | hx, hx'⟩)
        · exact .inr (.inl rfl)
        · exact .inl rfl
        · exact .inr (.inr ⟨hx, hx'⟩)

/-- A line in range writes the numbers it holds. -/
theorem tuneRecord_toNat {n : TuneNumbers} (h : tuneInRange n = true) : (tuneRecord n).addr.toNat = n.addr ∧
    (tuneRecord n).t.toNat = n.t ∧ (tuneRecord n).datr.toNat = n.datr ∧ (tuneRecord n).datw.toNat = n.datw ∧
    (tuneRecord n).ed.toNat = n.ed := by
  obtain ⟨⟨⟨⟨haddr, ht⟩, hr⟩, hw⟩, hed⟩ : (((n.addr ≤ 0x7F ∧ n.t ≤ 3) ∧ n.datr ≤ 3) ∧ n.datw ≤ 3) ∧ n.ed ≤ 1 := by
    simpa [tuneInRange] using h
  have hed' : n.ed = 0 ∨ n.ed = 1 := by omega
  refine ⟨?_, ?_, ?_, ?_, ?_⟩
  · exact Nat.mod_eq_of_lt (by omega)
  · exact Nat.mod_eq_of_lt (by omega)
  · exact Nat.mod_eq_of_lt (by omega)
  · exact Nat.mod_eq_of_lt (by omega)
  · rcases hed' with hed' | hed' <;> simp [tuneRecord, hed']

/-- Settles O53: the store is updated by the line's record, whose address is the line's. -/
theorem tuneWritesOneRecord : Obligations.TuneWritesOneRecord := by
  unfold Obligations.TuneWritesOneRecord
  intro s line n m b hn haddr ht hr hw hed hb hl
  have hrange : tuneInRange n = true := by simp [tuneInRange, haddr, ht, hr, hw, hed]
  obtain ⟨ha, hrest⟩ := tuneRecord_toNat hrange
  refine ⟨updateStore (tuneRecord n), ?_, fun l hd => ⟨⟨_, (mem_updateStore hd).2 (.inl rfl), ha, hrest⟩, fun r hne => ?_, ?_⟩⟩
  · rw [execTune_of_bus hn hrange hb, if_pos hl]
    rfl
  · have hne' : r.addr ≠ (tuneRecord n).addr := fun e => hne (e ▸ ha)
    rw [mem_updateStore hd]
    exact ⟨fun h => (h.resolve_left fun e => hne' (e ▸ rfl)).1, fun h => .inr ⟨h, hne'⟩⟩
  · exact updateStore_addrs _ _

/-! ### lookup -/

theorem execLookup_of_bus {s : State} {handle : Nat} {a : BitVec 7} {m : Master} {b : Bus} (hb : s.busOf handle = some (m, b)) :
    exec (.lookup handle a) s =
      if m.lock = .free then .next ({ s with nextCmd := s.nextCmd + 1 }.post s.nextCmd (.params (lookupParams b.params a)))
      else .next ({ s with nextCmd := s.nextCmd + 1 }.putMaster { m with waiting := m.waiting ++ [Blocked.lookup s.nextCmd b.busId a] }) := by
  simp only [exec, execLookup, hb]

/-- The record of an address is the one found. -/
theorem find_addr {l : List ParamRec} (hd : (l.map (·.addr)).Nodup) {r : ParamRec} (hr : r ∈ l) :
    l.find? (fun x => x.addr == r.addr) = some r := by
  cases hf : l.find? (fun x => x.addr == r.addr) with
  | none => simpa using List.find?_eq_none.1 hf r hr
  | some x =>
    have hx : x.addr = r.addr := by simpa using List.find?_some hf
    rw [List.inj_on_of_nodup_map hd (List.mem_of_find?_eq_some hf) hr hx]

theorem find_addr_none {l : List ParamRec} {a : BitVec 7} (h : ∀ r ∈ l, r.addr ≠ a) : l.find? (fun x => x.addr == a) = none := by
  simpa using h

/-- Settles O52: the store's records have one address each, so the one found is the one there is. -/
theorem lookupPrecedence : Obligations.LookupPrecedence := by
  unfold Obligations.LookupPrecedence
  intro s handle a m b hb hd
  have answers : ∀ p, lookupParams b.params a = p →
      (m.lock = .free → exec (.lookup handle a) s =
        .next { s with nextCmd := s.nextCmd + 1, replies := s.replies ++ [⟨s.nextCmd, .params p⟩] }) ∧
      (m.lock ≠ .free → exec (.lookup handle a) s = .next ({ s with nextCmd := s.nextCmd + 1 }.putMaster
        { m with waiting := m.waiting ++ [Blocked.lookup s.nextCmd b.busId a] })) ∧ lookupParams b.params a = p := by
    rintro p rfl
    refine ⟨fun hl => ?_, fun hl => ?_, rfl⟩
    · rw [execLookup_of_bus hb, if_pos hl]
      rfl
    · rw [execLookup_of_bus hb, if_neg hl]
  refine ⟨fun r hr ha => answers _ ?_, fun hno r hr ha => answers _ ?_, fun hno => answers _ ?_⟩
  · rw [lookupParams, ← ha, find_addr hd hr]
    rfl
  · rw [lookupParams, find_addr_none hno, ← ha, find_addr hd hr]
    rfl
  · rw [lookupParams, find_addr_none fun r hr => (hno r hr).1, find_addr_none fun r hr => (hno r hr).2]
    rfl

/-! ### DUMP -/

theorem dumpRun_free (cmd : Nat) (s : State) : ∀ (ms : List Master) (ls : List (List Char)), (∀ m ∈ ms, m.lock = .free) →
    dumpRun none cmd ms ls s = s.post cmd (.lines (ls ++ ms.flatMap dumpLines))
  | [], ls, _ => by simp [dumpRun]
  | m :: ms, ls, h => by
    obtain ⟨hm, hms⟩ := List.forall_mem_cons.1 h
    rw [dumpRun, if_pos ⟨hm, by simp⟩, Option.map_none, dumpRun_free cmd s ms _ hms]
    simp

theorem dumpRun_held (cmd : Nat) (s : State) {m : Master} (hl : m.lock ≠ .free) (post : List Master) :
    ∀ (pre : List Master) (ls : List (List Char)), (∀ x ∈ pre, x.lock = .free) →
      dumpRun none cmd (pre ++ m :: post) ls s =
        s.putMaster { m with waiting := m.waiting ++ [.dump cmd (ls ++ pre.flatMap dumpLines)] }
  | [], ls, _ => by simp [dumpRun, hl]
  | x :: pre, ls, h => by
    obtain ⟨hx, hpre⟩ := List.forall_mem_cons.1 h
    rw [List.cons_append, dumpRun, if_pos ⟨hx, by simp⟩, Option.map_none, dumpRun_held cmd s hl post pre _ hpre]
    simp

theorem hex2_toDigits {n : Nat} (h : n < 256) : hex2 n = Nat.toDigits 16 (n / 16) ++ Nat.toDigits 16 (n % 16) := by
  rw [Nat.toDigits_of_lt_base (by omega : n / 16 < 16), Nat.toDigits_of_lt_base (by omega : n % 16 < 16), hex2,
    Nat.mod_eq_of_lt (by omega : n / 16 < 16)]
  rfl

/-- Settles O55: DUMP over the Masters up to the first held lock, or to the end. -/
theorem dumpListsEveryRecord : Obligations.DumpListsEveryRecord := by
  unfold Obligations.DumpListsEveryRecord
  refine ⟨fun n => hex2_toDigits, fun s hcut => ⟨fun hfree => ?_, fun pre m post hs hpre hl => ?_⟩⟩
  · simp only [exec, execDump, hcut, dumpRun_free _ _ _ _ hfree]
    rfl
  · simp only [exec, execDump, hcut, hs, dumpRun_held _ _ hl post pre _ hpre]
    rfl

/-! ### A held lock -/

theorem startTransfer_held {m : Master} (hl : m.lock ≠ .free) (cmd bus : Nat) (msgs : List Message) (s : State) :
    startTransfer cmd m bus msgs s = .next (s.putMaster { m with waiting := m.waiting ++ [.transfer cmd bus msgs] }) :=
  if_neg hl

/-- Settles O50: each command finds the lock held and stands among those that wait. -/
theorem heldLockMakesCommandsWait : Obligations.HeldLockMakesCommandsWait := by
  unfold Obligations.HeldLockMakesCommandsWait
  intro waits s m hl
  refine ⟨fun handle msgs b hb hu hr => ?_, fun line n b hn hr hb => ?_, fun handle a b hb => ?_, fun hm => ?_,
    fun pre post hs hpre hcut => ?_⟩
  · show exec _ s = _
    rw [execTransfer_of_bus hu hb, hr]
    exact startTransfer_held hl ..
  · show exec _ s = _
    rw [execTune_of_bus hn hr hb, if_neg hl]
  · show exec _ s = _
    rw [execLookup_of_bus hb, if_neg hl]
  · show exec _ s = _
    simp only [exec, execTeardown, hm, hl]
    rfl
  · show exec _ s = _
    simp only [exec, execDump, hcut, hs, dumpRun_held _ _ hl post pre _ hpre]
    rfl

/-! ### A freed lock -/

/-- One of those that wait is picked, the one the number names where it names one. -/
theorem pick_of_ne_nil (n : Nat) {l : List Blocked} (h : l ≠ []) :
    ∃ b ∈ l, pick n l = some b ∧ ∀ x, l[n]? = some x → b = x := by
  match l with
  | [] => exact absurd rfl h
  | [b] =>
    refine ⟨b, by simp, rfl, fun x hx => ?_⟩
    exact (List.mem_singleton.1 (List.mem_of_getElem? hx)).symm
  | b :: c :: l =>
    have hlt : n % (b :: c :: l).length < (b :: c :: l).length := Nat.mod_lt _ (by simp)
    refine ⟨(b :: c :: l)[n % (b :: c :: l).length], List.getElem_mem hlt, List.getElem?_eq_getElem hlt, fun x hx => ?_⟩
    obtain ⟨hn, rfl⟩ := List.getElem?_eq_some_iff.1 hx
    simp only [Nat.mod_eq_of_lt hn]

theorem drawn_of_head {m : Master} {n : Nat} (h : m.draws.head? = some n) : drawn m = n := by
  cases hd : m.draws with
  | nil => simp [hd] at h
  | cons x xs => simpa [drawn, hd] using h

theorem masterTurn_free {s : State} {m : Master} (hm : s.master? m.id = some m) (hl : m.lock = .free) :
    masterTurn m.id s = grantLock m { s with inHand := m.id } := by
  simp only [masterTurn, hm, hl, if_true]

/-- The Master whose lock is given to the waiting command `b`. -/
def granted (b : Blocked) (m : Master) : Master := { afterDraw m with waiting := m.waiting.erase b }

theorem granted_eq (b : Blocked) (m : Master) : granted b m =
    { m with waiting := m.waiting.erase b, draws := (granted b m).draws, nDraw := (granted b m).nDraw } := by
  unfold granted afterDraw
  split <;> rfl

@[simp] theorem granted_id (b : Blocked) (m : Master) : (granted b m).id = m.id := afterDraw_id m
@[simp] theorem granted_lock (b : Blocked) (m : Master) : (granted b m).lock = m.lock := afterDraw_lock m
@[simp] theorem granted_buses (b : Blocked) (m : Master) : (granted b m).buses = m.buses := afterDraw_buses m

theorem dumpLines_granted (b : Blocked) (m : Master) : dumpLines (granted b m) = dumpLines m := by simp [dumpLines]

theorem storeOf_granted (b : Blocked) (m : Master) (bus : Nat) : (granted b m).storeOf bus = m.storeOf bus := by
  simp [Master.storeOf, Master.bus?]

/-- Settles O51: the turn grants the lock to the command picked, which is then carried out. -/
theorem freedLockGoesToAWaitingCommand : Obligations.FreedLockGoesToAWaitingCommand := by
  unfold Obligations.FreedLockGoesToAWaitingCommand
  intro s m hm hl hcut
  rw [masterTurn_free hm hl]
  refine ⟨fun hw => by simp [grantLock, hw, pick], fun hw => ?_⟩
  obtain ⟨b, hb, hpick, hnamed⟩ := pick_of_ne_nil (drawn m) hw
  refine ⟨b, granted b m, hb, fun n x hn hx => hnamed x (by rwa [drawn_of_head hn]), granted_eq b m, ?_⟩
  have hgrant : grantLock m { s with inHand := m.id } = resumeBlocked b (granted b m) { s with inHand := m.id } := by
    simp only [grantLock, hpick]
    rfl
  rw [hgrant]
  cases b with
  | transfer cmd bus msgs => simp [resumeBlocked, startTransfer, hl]
  | tune cmd bus r => rfl
  | dump cmd ls =>
    refine ⟨fun hfree => ?_, fun pre x post hlater hpre hx => ?_⟩
    · simp only [resumeBlocked, hcut, granted_id, dumpRun_free _ _ _ _ hfree, dumpLines_granted]
    · simp only [resumeBlocked, hcut, granted_id, hlater, dumpRun_held _ _ hx post pre _ hpre, dumpLines_granted]
  | lookup cmd bus a =>
    intro _ _ x hx
    have hstore : m.storeOf bus = x.params := by simp [Master.storeOf, hx]
    simp only [resumeBlocked, storeOf_granted, hstore]
    rfl
  | teardown cmd => rfl

end Sys2Proof.Machine
end

