-- ==== Sys2Proof/Proofs/MastersComeAndGo.lean ====
section
/-! CREATE and TEARDOWN (43_params_and_commands.md R225, R226; 70_reset_and_hazards.md R283). -/

namespace Sys2Proof.Machine

/-! ### CREATE -/

theorem sharesAddress_eq_false_iff (s : State) (base : Nat) : sharesAddress s base = false ↔
    (portAddrs s.cfg base).Nodup ∧ ∀ m ∈ s.masters, ∀ x ∈ portAddrs s.cfg m.base, x ∉ portAddrs s.cfg base := by
  simp only [sharesAddress, Bool.or_eq_false_iff, Bool.not_eq_false', decide_eq_true_iff, List.any_eq_false, List.any_eq_true,
    List.contains_iff_mem, not_exists, not_and]

/-- CREATE refuses exactly if one of the conditions of R225 fails. -/
theorem createRefusal_eq_none_iff (s : State) (base id count : Nat) : createRefusal s base id count = none ↔
    (1 ≤ count ∧ count ≤ s.cfg.maxBusCount) ∧ (∀ m ∈ s.masters, m.id ≠ id) ∧ (∀ x ∈ portAddrs s.cfg base, x % 4 = 0) ∧
      (portAddrs s.cfg base).Nodup ∧ ∀ m ∈ s.masters, ∀ x ∈ portAddrs s.cfg m.base, x ∉ portAddrs s.cfg base := by
  rw [← sharesAddress_eq_false_iff]
  have hcount : (count = 0 || s.cfg.maxBusCount < count : Bool) = false ↔ 1 ≤ count ∧ count ≤ s.cfg.maxBusCount := by
    simp only [Bool.or_eq_false_iff, decide_eq_false_iff_not]
    omega
  have hid : s.masters.any (fun m => m.id == id) = false ↔ ∀ m ∈ s.masters, m.id ≠ id := by simp
  have haligned : (portAddrs s.cfg base).any (fun a => a % 4 != 0) = false ↔ ∀ x ∈ portAddrs s.cfg base, x % 4 = 0 := by
    simp only [List.any_eq_false, bne_iff_ne, Decidable.not_not, ne_eq]
  rw [← hcount, ← hid, ← haligned]
  unfold createRefusal
  split
  · exact iff_of_false nofun fun h => Bool.eq_false_iff.1 h.1 ‹_›
  split
  · exact iff_of_false nofun fun h => Bool.eq_false_iff.1 h.2.1 ‹_›
  split
  · exact iff_of_false nofun fun h => Bool.eq_false_iff.1 h.2.2.1 ‹_›
  split
  · exact iff_of_false nofun fun h => Bool.eq_false_iff.1 h.2.2.2 ‹_›
  · exact iff_of_true rfl ⟨Bool.eq_false_iff.2 ‹_›, Bool.eq_false_iff.2 ‹_›, Bool.eq_false_iff.2 ‹_›, Bool.eq_false_iff.2 ‹_›⟩

theorem exec_create_next {s : State} {base id : Nat} {busCount : Option Nat}
    (h : createRefusal s base id (busCount.getD s.cfg.defaultBusCount) = none) : ∃ t, exec (.create base id busCount) s = .next t := by
  simp only [exec, execCreate, h]
  exact ⟨_, rfl⟩

theorem exec_create_refused {s : State} {base id : Nat} {busCount : Option Nat}
    (h : createRefusal s base id (busCount.getD s.cfg.defaultBusCount) ≠ none) :
    ∃ r, exec (.create base id busCount) s = .refused r := by
  obtain ⟨r, hr⟩ := Option.ne_none_iff_exists'.1 h
  exact ⟨r, by simp only [exec, execCreate, hr]⟩

/-- Settles O58: a creation that is not refused adds one fresh Master. -/
theorem createMakesAMaster : Obligations.CreateMakesAMaster := by
  unfold Obligations.CreateMakesAMaster
  intro s base id busCount hr
  refine ⟨fun hmin hmax hnew haligned hown hshared => ?_, fun hbad => exec_create_refused fun hnone => ?_⟩
  · obtain ⟨t, ht⟩ := exec_create_next ((createRefusal_eq_none_iff ..).2 ⟨⟨hmin, hmax⟩, hnew, haligned, hown, hshared⟩)
    obtain ⟨m', hc⟩ := execCreate_next ht
    obtain ⟨bs, rfl, hlen, hids, hbs, hadaps, -⟩ := hc.fresh
    have hrt : IdsRising t := by
      rw [IdsRising, hc.ms]
      exact insertById_rising hr hnew
    have hmem : ∀ x, x ∈ t.masters ↔ x = Master.fresh id s.nextCmd base bs ∨ x ∈ s.masters := fun x => by
      rw [hc.ms, mem_insertById]
    exact ⟨t, Master.fresh id s.nextCmd base bs, ht, State.master?_of_mem hrt ((hmem _).2 (.inl rfl)), rfl, hlen, rfl, rfl, rfl, rfl, rfl,
      rfl, hids.trans (by rw [← hlen]; rfl), fun b hb => ⟨(hbs b hb).1, (hbs b hb).2.1, (hbs b hb).2.2.1⟩, hadaps, hmem, hrt, hc.mem,
      hc.cfg, hc.reps⟩
  · obtain ⟨⟨hmin, hmax⟩, hnew, haligned, hown, hshared⟩ := (createRefusal_eq_none_iff ..).1 hnone
    rcases hbad with h | h | ⟨m, hm, h⟩ | ⟨x, hx, h⟩ | h | ⟨m, hm, x, hx, h⟩
    · omega
    · omega
    · exact hnew m hm h
    · exact h (haligned x hx)
    · exact h hown
    · exact hshared m hm x hx h

/-! ### TEARDOWN: the first step -/

/-- What the first step of a TEARDOWN makes of its Master. -/
def tornFirst (cmd : Nat) (m : Master) : Master :=
  if m.lock = .free then { unregisterAll m with lock := .held cmd, pc := .tearReset, spot := .outside }
  else { unregisterAll m with waiting := m.waiting ++ [.teardown cmd] }

@[simp] theorem tornFirst_id (cmd : Nat) (m : Master) : (tornFirst cmd m).id = m.id := by
  unfold tornFirst
  split <;> rfl

theorem tornFirst_buses (cmd : Nat) (m : Master) : (tornFirst cmd m).buses = m.buses.map fun b => { b with registered := false } := by
  unfold tornFirst
  split <;> rfl

theorem exec_teardown {s : State} {m : Master} (hm : s.master? m.id = some m) : ∃ t, exec (.teardown m.id) s = .next t ∧
    t.masters = putIn (tornFirst s.nextCmd m) s.masters ∧ t.mem = s.mem ∧ t.replies = s.replies := by
  simp only [exec, execTeardown, hm, tornFirst]
  split <;> exact ⟨_, rfl, rfl, rfl, rfl⟩

/-- No handle names a bus of a Master whose buses are unregistered. -/
theorem State.busOf_registered {s : State} {id handle : Nat} {x : Master} {b : Bus}
    (h : ∀ y ∈ s.masters, y.id = id → ∀ b ∈ y.buses, b.registered = false) (hb : s.busOf handle = some (x, b)) : x.id ≠ id := by
  obtain ⟨hx, hbx, -, hreg⟩ := State.busOf_mem hb
  intro hid
  rw [h x hx hid b hbx] at hreg
  cases hreg

/-- Settles O59: the Master is stored back unregistered; a Master that is not there is refused. -/
theorem teardownUnregistersFirst : Obligations.TeardownUnregistersFirst := by
  unfold Obligations.TeardownUnregistersFirst
  refine ⟨fun s m hr hm => ?_, fun s id hm => by simp only [exec, execTeardown, hm]⟩
  obtain ⟨t, ht, hms, hmem, hreps⟩ := exec_teardown hm
  obtain ⟨hmem_m, -⟩ := State.master?_some hm
  have hrt : IdsRising t := hr.of_ids (by rw [hms, putIn_ids])
  have hin : tornFirst s.nextCmd m ∈ t.masters := by
    rw [hms]
    exact mem_putIn_self hmem_m (tornFirst_id ..).symm
  refine ⟨t, tornFirst s.nextCmd m, ht, by simpa using State.master?_of_mem hrt hin, hmem, hreps, fun x hx hid => ?_,
    fun handle x b hb => State.busOf_registered (fun y hy hid => ?_) hb, ?_⟩
  · rw [hms]
    exact mem_putIn_other hx (by simpa using hid)
  · rw [hrt.eq_of_id hy hin (by simpa using hid), tornFirst_buses]
    simp
  · unfold tornFirst
    split <;> rfl

/-! ### TEARDOWN: the reset -/

theorem masterTurn_held {s : State} {m : Master} (hm : s.master? m.id = some m) (hl : m.lock ≠ .free) (hp : inProgress m = true) :
    masterTurn m.id s = settle { s with inHand := m.id } (continueCommand s.cut ⟨s.cfg, m, s.mem⟩) := by
  simp only [masterTurn, hm, hl, hp, if_true, if_false]

theorem inProgress_of_pc {m : Master} (h : m.pc ≠ .idle) : inProgress m = true := by
  simp [inProgress, h]

theorem lt_budget {n : Nat} (h : n < 1200) (m : Master) : n < budget m := by
  unfold budget
  omega

theorem teardown_resets {s : State} {m : Master} {cmd : Nat} (hm : s.master? m.id = some m) (hl : m.lock = .held cmd)
    (hb : m.bare = none) (hcut : s.cut = none) (hp : m.pc = .tearReset) (hs : m.spot = .outside) :
    masterTurn m.id s = .next ({ s with inHand := m.id }.putMaster { (resetOp s.cfg m).2 with pc := .tearDestroy }) := by
  obtain ⟨j, h', hj, hgoes, hend⟩ := tearReset_goes ⟨s.cfg, m, s.mem⟩ hp hb hs
  obtain ⟨hport, -⟩ := resetOp_spec s.cfg m
  have hspot : (resetOp s.cfg m).2.spot = .outside := hport.spot.trans hs
  have hrun := hgoes.run_end (lt_budget (by omega) m) rfl hend (by simp)
  rw [masterTurn_held hm (by simp [hl]) (inProgress_of_pc (by simp [hp])), hcut, continueCommand, Option.getD_none]
  simp only [hrun, settle, Hand.withM, State.commit]
  rw [← hspot]
  rfl

/-! ### TEARDOWN: the destruction, and the commands that still wait -/

/-- A Master for which more commands wait. -/
def addWaiting (ds : Nat → List Blocked) (m : Master) : Master := { m with waiting := m.waiting ++ ds m.id }

@[simp] theorem addWaiting_id (ds : Nat → List Blocked) (m : Master) : (addWaiting ds m).id = m.id := rfl
@[simp] theorem addWaiting_lock (ds : Nat → List Blocked) (m : Master) : (addWaiting ds m).lock = m.lock := rfl
@[simp] theorem dumpLines_addWaiting (ds : Nat → List Blocked) (m : Master) : dumpLines (addWaiting ds m) = dumpLines m := rfl

theorem addWaiting_none (m : Master) : addWaiting (fun _ => []) m = m := by
  simp [addWaiting]

theorem addWaiting_addWaiting (ds ds' : Nat → List Blocked) (m : Master) :
    addWaiting ds' (addWaiting ds m) = addWaiting (fun i => ds i ++ ds' i) m := by
  simp [addWaiting]

/-- One more command waits for one Master. -/
def onlyAt (id : Nat) (d : Blocked) (i : Nat) : List Blocked := if i = id then [d] else []

theorem eq_of_mem_onlyAt {id i : Nat} {d d' : Blocked} (h : d' ∈ onlyAt id d i) : d' = d := by
  unfold onlyAt at h
  split at h
  · exact List.mem_singleton.1 h
  · cases h

theorem putMaster_addWaiting {s : State} (hr : IdsRising s) {x : Master} (hx : x ∈ s.masters) (d : Blocked) :
    s.putMaster { x with waiting := x.waiting ++ [d] } = { s with masters := s.masters.map (addWaiting (onlyAt x.id d)) } := by
  have hput : putIn { x with waiting := x.waiting ++ [d] } s.masters = s.masters.map (addWaiting (onlyAt x.id d)) := by
    refine List.map_congr_left fun y hy => ?_
    by_cases hid : y.id = x.id
    · rw [hr.eq_of_id hy hx hid]
      simp [addWaiting, onlyAt]
    · simp [addWaiting, onlyAt, hid]
  rw [State.putMaster, hput]

/-- What becomes of the commands `bs` that wait for the destroyed Master `id`, the other Masters being `ms`: `ds` wait for another Master
then, and `new` are the answers. -/
structure Released (id : Nat) (ms : List Master) (bs : List Blocked) (ds : Nat → List Blocked) (new : List Reply) : Prop where
  waits : ∀ i, ∀ d ∈ ds i, ∃ c ls ls', d = .dump c (ls ++ ls') ∧ Blocked.dump c ls ∈ bs
  answers : ∀ a ∈ new, (∃ c bus r, Blocked.tune c bus r ∈ bs ∧ a = ⟨c, .rejected⟩) ∨
    ∃ c ls ls', Blocked.dump c ls ∈ bs ∧ a = ⟨c, .lines (ls ++ ls')⟩
  tunes : ∀ c bus r, Blocked.tune c bus r ∈ bs → ⟨c, .rejected⟩ ∈ new
  dumps : ∀ c ls, Blocked.dump c ls ∈ bs → (∀ x ∈ ms.filter (fun x => id < x.id), x.lock = .free) →
    ⟨c, .lines (ls ++ (ms.filter (fun x => id < x.id)).flatMap dumpLines)⟩ ∈ new
  stops : ∀ c ls pre x post, Blocked.dump c ls ∈ bs → ms.filter (fun x => id < x.id) = pre ++ x :: post →
    (∀ y ∈ pre, y.lock = .free) → x.lock ≠ .free → Blocked.dump c (ls ++ pre.flatMap dumpLines) ∈ ds x.id

/-- The Masters up to the first held lock are determined by the list. -/
theorem eq_of_first_held {l pre post : List Master} {x : Master} (h : l = pre ++ x :: post) (hpre : ∀ y ∈ pre, y.lock = .free)
    (hx : x.lock ≠ .free) :
    pre = l.takeWhile (·.lock = .free) ∧ x :: post = l.dropWhile (·.lock = .free) := by
  subst h
  have hpre' : ∀ y ∈ pre, decide (y.lock = .free) = true := by simpa using hpre
  rw [List.takeWhile_append_of_pos hpre', List.dropWhile_append_of_pos hpre']
  simp [hx]

theorem release_spec (id : Nat) {s : State} (hr : IdsRising s) (b : Blocked) : ∃ ds new,
    release id s b = { s with masters := s.masters.map (addWaiting ds), replies := s.replies ++ new } ∧
      Released id s.masters [b] ds new := by
  have hnone : ∀ new, { s with masters := s.masters.map (addWaiting fun _ => []), replies := s.replies ++ new } =
      { s with replies := s.replies ++ new } := fun new => by
    simp [show addWaiting (fun _ => []) = (fun x => x) from funext addWaiting_none]
  cases b with
  | transfer cmd bus msgs | lookup cmd bus a | teardown cmd =>
    refine ⟨fun _ => [], [], by rw [hnone, List.append_nil]; rfl, ?_⟩
    constructor <;> simp
  | tune cmd bus r =>
    refine ⟨fun _ => [], [⟨cmd, .rejected⟩], by rw [hnone]; rfl, by simp, by simp, fun c bus r hc => ?_, by simp, by simp⟩
    cases List.mem_singleton.1 hc
    exact List.mem_singleton_self _
  | dump cmd ls =>
    cases hheld : (s.masters.filter (fun x => id < x.id)).dropWhile (·.lock = .free) with
    | nil =>
      have hfree : ∀ x ∈ s.masters.filter (fun x => id < x.id), x.lock = .free := by
        simpa using List.dropWhile_eq_nil_iff.1 hheld
      refine ⟨fun _ => [], [⟨cmd, .lines (ls ++ (s.masters.filter fun x => id < x.id).flatMap dumpLines)⟩], ?_, ?_⟩
      · rw [hnone, release, dumpRun_free _ _ _ _ hfree]
        rfl
      · refine ⟨by simp, by simp, by simp, by simp, fun c ls pre x post _ hsplit _ hx => ?_⟩
        exact absurd (hfree x (by simp [hsplit])) hx
    | cons x post =>
      have hsplit := (List.takeWhile_append_dropWhile (p := fun x : Master => decide (x.lock = .free))
        (l := s.masters.filter fun x => id < x.id)).symm
      rw [hheld] at hsplit
      have hx : x.lock ≠ .free := by
        simpa [hheld] using List.head_dropWhile_not (fun x : Master => decide (x.lock = .free)) (l := s.masters.filter fun x => id < x.id)
          (by simp [hheld])
      have hxs : x ∈ s.masters.filter fun x => id < x.id := by rw [hsplit]; simp
      refine ⟨onlyAt x.id (.dump cmd (ls ++ ((s.masters.filter fun x => id < x.id).takeWhile (·.lock = .free)).flatMap dumpLines)), [],
        ?_, ?_⟩
      · rw [release, hsplit, dumpRun_held _ _ hx _ _ _ fun y hy => by simpa using List.mem_takeWhile_imp hy,
          putMaster_addWaiting hr (List.mem_filter.1 hxs).1, ← hsplit, List.append_nil]
      · refine ⟨fun i d hd => ?_, by simp, by simp, fun c ls _ hfree => absurd (hfree x hxs) hx, fun c ls' pre y post' hc hs' hpre hy => ?_⟩
        · exact ⟨cmd, ls, _, eq_of_mem_onlyAt hd, List.mem_singleton_self _⟩
        · obtain ⟨hpre, hpost⟩ := eq_of_first_held hs' hpre hy
          rw [hheld] at hpost
          cases hpost
          cases List.mem_singleton.1 hc
          simp [onlyAt, ← hpre]

theorem filter_map_addWaiting (id : Nat) (ds : Nat → List Blocked) (ms : List Master) :
    (ms.map (addWaiting ds)).filter (fun x => id < x.id) = (ms.filter fun x => id < x.id).map (addWaiting ds) := by
  rw [List.filter_map]
  rfl

theorem flatMap_dumpLines_addWaiting (ds : Nat → List Blocked) (ms : List Master) :
    (ms.map (addWaiting ds)).flatMap dumpLines = ms.flatMap dumpLines := by
  rw [List.flatMap_map]
  rfl

/-- Commands are seen to one after the other; those that wait elsewhere meanwhile change neither locks nor stores. -/
theorem Released.cons {id : Nat} {ms : List Master} {b : Blocked} {bs : List Blocked} {ds ds' : Nat → List Blocked}
    {new new' : List Reply} (h : Released id ms [b] ds new) (h' : Released id (ms.map (addWaiting ds)) bs ds' new') :
    Released id ms (b :: bs) (fun i => ds i ++ ds' i) (new ++ new') where
  waits i d hd := by
    rcases List.mem_append.1 hd with hd | hd
    · obtain ⟨c, ls, ls', rfl, hb⟩ := h.waits i d hd
      exact ⟨c, ls, ls', rfl, List.mem_cons.2 (.inl (List.mem_singleton.1 hb))⟩
    · obtain ⟨c, ls, ls', rfl, hb⟩ := h'.waits i d hd
      exact ⟨c, ls, ls', rfl, List.mem_cons_of_mem _ hb⟩
  answers a ha := by
    have hsub : [b] ⊆ b :: bs := by simp
    rcases List.mem_append.1 ha with ha | ha
    · exact (h.answers a ha).imp (fun ⟨c, bus, r, hb, e⟩ => ⟨c, bus, r, hsub hb, e⟩)
        fun ⟨c, ls, ls', hb, e⟩ => ⟨c, ls, ls', hsub hb, e⟩
    · exact (h'.answers a ha).imp (fun ⟨c, bus, r, hb, e⟩ => ⟨c, bus, r, List.mem_cons_of_mem _ hb, e⟩)
        fun ⟨c, ls, ls', hb, e⟩ => ⟨c, ls, ls', List.mem_cons_of_mem _ hb, e⟩
  tunes c bus r hb := by
    rcases List.mem_cons.1 hb with hb | hb
    · exact List.mem_append_left _ (h.tunes c bus r (List.mem_singleton.2 hb))
    · exact List.mem_append_right _ (h'.tunes c bus r hb)
  dumps c ls hb hfree := by
    rcases List.mem_cons.1 hb with hb | hb
    · exact List.mem_append_left _ (h.dumps c ls (List.mem_singleton.2 hb) hfree)
    · have := h'.dumps c ls hb (by rw [filter_map_addWaiting]; exact List.forall_mem_map.2 hfree)
      rw [filter_map_addWaiting, flatMap_dumpLines_addWaiting] at this
      exact List.mem_append_right _ this
  stops c ls pre x post hb hsplit hpre hx := by
    rcases List.mem_cons.1 hb with hb | hb
    · exact List.mem_append_left _ (h.stops c ls pre x post (List.mem_singleton.2 hb) hsplit hpre hx)
    · have := h'.stops c ls (pre.map (addWaiting ds)) (addWaiting ds x) (post.map (addWaiting ds)) hb
        (by rw [filter_map_addWaiting, hsplit, List.map_append, List.map_cons]) (by simpa using hpre) hx
      rw [flatMap_dumpLines_addWaiting] at this
      exact List.mem_append_right _ this

theorem releaseAll_spec (id : Nat) : ∀ (bs : List Blocked) {s : State}, IdsRising s → ∃ ds new,
    bs.foldl (release id) s = { s with masters := s.masters.map (addWaiting ds), replies := s.replies ++ new } ∧
      Released id s.masters bs ds new ∧ (bs = [] → ds = (fun _ => []) ∧ new = [])
  | [], s, _ => by
    refine ⟨fun _ => [], [], ?_, by constructor <;> simp, fun _ => ⟨rfl, rfl⟩⟩
    simp [show addWaiting (fun _ => []) = (fun x => x) from funext addWaiting_none]
  | b :: bs, s, hr => by
    obtain ⟨ds, new, hb, h⟩ := release_spec id hr b
    have hr' : IdsRising { s with masters := s.masters.map (addWaiting ds), replies := s.replies ++ new } :=
      hr.of_ids (by simp [Function.comp_def])
    obtain ⟨ds', new', hbs, h', -⟩ := releaseAll_spec id bs hr'
    refine ⟨fun i => ds i ++ ds' i, new ++ new', ?_, h.cons h', nofun⟩
    rw [List.foldl_cons, hb, hbs]
    simp [Function.comp_def, addWaiting_addWaiting]

/-- The turn that ends a TEARDOWN destroys its Master. -/
theorem masterTurn_tearDestroy {s : State} {m : Master} {cmd : Nat} (hm : s.master? m.id = some m) (hl : m.lock = .held cmd)
    (hb : m.bare = none) (hcut : s.cut = none) (hp : m.pc = .tearDestroy) :
    masterTurn m.id s = .next (destroy { s with inHand := m.id } ⟨s.cfg, unlockIdle m, s.mem⟩ cmd) := by
  have hadv : advance ⟨s.cfg, m, s.mem⟩ = .gone ⟨s.cfg, unlockIdle m, s.mem⟩ cmd := by
    simp [advance, hb, phaseStep, hp, phaseTearDestroy, hl, Lock.owner, Hand.withM]
  have hrun := Goes.run_end (g := fun _ => true) (n := 0) (a := ⟨s.cfg, m, s.mem⟩) rfl (lt_budget (by omega) m) rfl hadv (by simp)
  rw [masterTurn_held hm (by simp [hl]) (inProgress_of_pc (by simp [hp])), hcut, continueCommand, Option.getD_none, hrun]
  rfl

/-- Settles O60: the reset runs to its end; the destruction takes the Master away, answers the command, and sees to those that wait. -/
theorem teardownResetsThenDestroys : Obligations.TeardownResetsThenDestroys := by
  unfold Obligations.TeardownResetsThenDestroys
  intro s m cmd hr hm hl hb hcut
  refine ⟨teardown_resets hm hl hb hcut, fun hp => ?_⟩
  let v : State := { s with
    inHand := m.id, masters := s.masters.filter (fun x => x.id != m.id), replies := s.replies ++ [⟨cmd, .tornDown m.id⟩] }
  have hrv : IdsRising v := hr.filter _
  have hlater : v.masters.filter (fun x => m.id < x.id) = s.masters.filter fun x => m.id < x.id := by
    rw [List.filter_filter]
    refine List.filter_congr fun x _ => ?_
    by_cases hx : m.id < x.id <;> simp [hx]
    omega
  obtain ⟨ds, new, hfold, hrel, hnil⟩ := releaseAll_spec m.id m.waiting hrv
  have hturn : masterTurn m.id s =
      .next { v with masters := v.masters.map (addWaiting ds), replies := v.replies ++ new } := by
    rw [masterTurn_tearDestroy hm hl hb hcut hp, ← hfold]
    have hms : (putIn (unlockIdle m) s.masters).filter (fun x => x.id != m.id) = v.masters := filter_putIn (unlockIdle m) s.masters
    simp only [destroy, unlockIdle_waiting, unlockIdle_id, State.commit, State.putMaster, State.dropMaster, State.post, hms]
    rfl
  have hgone : ∀ x ∈ v.masters.map (addWaiting ds), x.id ≠ m.id := by
    intro x hx
    obtain ⟨y, hy, rfl⟩ := List.mem_map.1 hx
    simpa using (List.mem_filter.1 hy).2
  refine ⟨_, new, hturn, ?_, ?_, fun x hx => ?_, rfl, rfl, fun handle x b hbus => hgone x (State.busOf_mem hbus).1, ?_, fun hw => ?_,
    hrel.tunes, fun c ls hc hfree => ?_, fun c ls pre x post hc hsplit hpre hx => ?_, hrel.answers⟩
  · exact List.find?_eq_none.2 fun x hx => by simpa using hgone x hx
  · show (v.masters.map (addWaiting ds)).map (·.id) = _
    rw [List.map_map, List.filter_map]
    exact congrArg _ (List.filter_congr fun x _ => by by_cases h : x.id = m.id <;> simp [h])
  · obtain ⟨y, hy, rfl⟩ := List.mem_map.1 hx
    obtain ⟨hy, hne⟩ := List.mem_filter.1 hy
    exact ⟨y, hy, by simpa using hne, ds y.id, rfl, hrel.waits y.id⟩
  · simp [v]
  · obtain ⟨rfl, rfl⟩ := hnil hw
    simp [addWaiting_none, v]
  · have := hrel.dumps c ls hc (by rw [hlater]; simpa using hfree)
    rwa [hlater] at this
  · have hxm : x ∈ v.masters := (List.mem_filter.1 (hlater ▸ hsplit ▸ List.mem_append_right _ (List.mem_cons_self ..))).1
    exact ⟨addWaiting ds x, List.mem_map_of_mem hxm, rfl,
      List.mem_append_right _ (hrel.stops c ls pre x post hc (by rw [hlater, hsplit]) hpre hx)⟩

end Sys2Proof.Machine
end

