-- ==== Sys2Proof/Proofs/SessionItems.lean ====
section
/-! The items of a session: their kinds, their framing, their fields at their places (30_encoding.md R96, R97; 41_transfer_encode.md R164 to
R176), and their emission (R173, 42_transfer_decode.md R203). -/

namespace Sys2Proof.Machine

/-! ### The kinds of items -/

/-- A prototype of a message is its address item's or a data item's (41_transfer_encode.md R173). -/
theorem mem_msgProtos {cfg : Config} {mem : Memory} {msg : Message} {p : Params} {x : Proto} (h : x ∈ msgProtos cfg mem msg p) :
    x = addrProto msg p ∨ ∃ j, x = dataProto cfg mem msg p j := by
  unfold msgProtos at h
  rcases List.mem_append.1 h with h | h
  · split at h
    · cases h
    · exact .inl (List.mem_singleton.1 h)
  · obtain ⟨j, -, rfl⟩ := List.mem_map.1 h
    exact .inr ⟨j, rfl⟩

/-- A data item is of one of three kinds. -/
theorem dataProto_cases (cfg : Config) (mem : Memory) (msg : Message) (p : Params) (j : Nat) :
    (∃ b, dataProto cfg mem msg p j = wdataProto msg p b) ∨ dataProto cfg mem msg p j = brlenProto msg p ∨
      dataProto cfg mem msg p j = rdataProto cfg msg p j := by
  unfold dataProto
  split
  · exact .inl ⟨_, rfl⟩
  split
  · exact .inr (.inl rfl)
  · exact .inr (.inr rfl)

/-- At any place but the first an item has its index, no `start` and no size. -/
theorem placeItem_later {k : Nat} (hk : k ≠ 0) (bs : BitVec 4) (ss : Nat) (p : Proto) : placeItem (k == 0) bs ss k p =
    { ti := BitVec.ofNat 4 (k % 16), bs, st := false, sp := k + 1 == ss, dod := p.dod, da := p.da, br := p.br, ed := p.ed, t := p.t
      dat := p.dat, d := p.d, ss := 0 } := by
  simp [placeItem, hk]

/-- At any place but the first a continuation item is a `CONT.N`. -/
theorem contItem_later {q : Nat} (hq : q ≠ 0) (cfg : Config) (bs : BitVec 4) (p : Params) (n : Nat) : contItem cfg bs p n q =
    contNItem bs (q + 1 == n) (if q + 1 = n then cfg.daPolicy.lastContinuation else cfg.daPolicy.continuation) p.t p.datr
      (BitVec.ofNat 4 (q % 16)) := by
  simp [contItem, placeItem, contNItem, hq]

/-- The main session of the messages begins with the first one's address item. -/
theorem msgProtos_head {cfg : Config} {mem : Memory} {prm : Message → Params} {x : Message} {xs : List Message}
    (h : x.noStart = false) : ((x :: xs).flatMap (fun msg => msgProtos cfg mem msg (prm msg)))[0]? = some (addrProto x (prm x)) := by
  simp [msgProtos, h]

/-- Settles O17: the first item is the first message's address item, and every other is made of a prototype of one of four kinds. -/
theorem onlyTheSevenItemKinds : Obligations.OnlyTheSevenItemKinds := by
  unfold Obligations.OnlyTheSevenItemKinds
  refine ⟨fun cfg m busId msgs mem k it hl hit => ?_, fun h msg q it hit => ?_⟩
  · obtain ⟨p, hp, rfl⟩ := sessionItems_get hit
    split
    · rename_i hk
      subst hk
      obtain ⟨⟨x, xs, hx, hns⟩, -⟩ := listRefusal_facts hl
      subst hx
      rw [msgProtos_head hns] at hp
      cases hp
      exact ⟨_, _, _, _, _, _, rfl⟩
    · rename_i hk
      obtain ⟨msg, -, hmem⟩ := List.mem_flatMap.1 (List.mem_of_getElem? hp)
      rw [placeItem_later hk]
      rcases mem_msgProtos hmem with rfl | ⟨j, rfl⟩
      · exact .inl ⟨_, _, _, _, _, _, rfl⟩
      · rcases dataProto_cases cfg mem msg _ j with ⟨b, hd⟩ | hd | hd <;> rw [hd]
        · exact .inr (.inl ⟨_, _, _, _, _, _, rfl⟩)
        · exact .inr (.inr (.inr ⟨_, _, _, _, _, _, rfl⟩))
        · exact .inr (.inr (.inl ⟨_, _, _, _, _, _, rfl⟩))
  · obtain ⟨-, rfl⟩ := contItems_get hit
    split
    · rename_i hq
      subst hq
      exact ⟨_, _, _, _, _, _, rfl⟩
    · rename_i hq
      exact ⟨_, _, _, _, _, _, contItem_later hq ..⟩

/-! ### Framing -/

/-- What the place gives an item: `start` on the first alone, `stop` on the last alone, the index, the size on the first. -/
theorem placeItem_framing (bs : BitVec 4) {ss : Nat} (k : Nat) (p : Proto) (h : ss ≤ 1023) :
    let it := placeItem (k == 0) bs ss k p
    (it.st = true ↔ k = 0) ∧ (it.sp = true ↔ k + 1 = ss) ∧ it.ti.toNat = k % 16 ∧ it.bs = bs ∧
      it.ss.toNat = if k = 0 then ss else 0 := by
  refine ⟨by simp [placeItem], by simp [placeItem], by simp [placeItem], rfl, ?_⟩
  by_cases hk : k = 0
  · simp [placeItem, hk, Nat.mod_eq_of_lt (show ss < 1024 by omega)]
  · simp [placeItem, hk]

/-- Settles O18: every item stands at its place, and the bus identity is below 16. -/
theorem mainSessionFraming : Obligations.MainSessionFraming := by
  unfold Obligations.MainSessionFraming
  intro cfg m busId msgs mem hl hsize
  obtain ⟨-, hbus, -⟩ := listRefusal_facts hl
  refine ⟨items_length .., sessionSize_pos hl, fun k it hit => ?_⟩
  obtain ⟨p, -, rfl⟩ := sessionItems_get hit
  obtain ⟨hst, hsp, hti, hbs, hss⟩ := placeItem_framing (BitVec.ofNat 4 busId) k p hsize
  refine ⟨hst, hsp, hti, ?_, hss⟩
  rw [hbs, BitVec.toNat_ofNat, Nat.mod_eq_of_lt hbus]

/-! ### The item of a message at its place -/

theorem flatMap_msgProtos_length (cfg : Config) (mem : Memory) (prm : Message → Params) (msgs : List Message) :
    (msgs.flatMap fun msg => msgProtos cfg mem msg (prm msg)).length = sessionSize msgs := by
  simp [List.length_flatMap, sessionSize, msgProtos_length]

/-- The prototypes of a message stand after those of the messages before it. -/
theorem flatMap_msgProtos_get {cfg : Config} {mem : Memory} {prm : Message → Params} {pre post : List Message} {msg : Message}
    {o : Nat} {p : Proto} (h : (msgProtos cfg mem msg (prm msg))[o]? = some p) :
    ((pre ++ msg :: post).flatMap fun x => msgProtos cfg mem x (prm x))[sessionSize pre + o]? = some p := by
  have ho : o < (msgProtos cfg mem msg (prm msg)).length := (List.getElem?_eq_some_iff.1 h).1
  rw [List.flatMap_append, List.flatMap_cons, List.getElem?_append_right (by rw [flatMap_msgProtos_length]; exact Nat.le_add_right ..),
    flatMap_msgProtos_length, Nat.add_sub_cancel_left, List.getElem?_append_left ho, h]

theorem msgProtos_address {cfg : Config} {mem : Memory} {msg : Message} {p : Params} (h : msg.noStart = false) :
    (msgProtos cfg mem msg p)[0]? = some (addrProto msg p) := by
  simp [msgProtos, h]

theorem msgProtos_data {cfg : Config} {mem : Memory} {msg : Message} {p : Params} {j : Nat} (h : j < msg.length) :
    (msgProtos cfg mem msg p)[(if msg.noStart then 0 else 1) + j]? = some (dataProto cfg mem msg p j) := by
  cases hns : msg.noStart <;> simp [msgProtos, hns, h, Nat.add_comm 1 j]

/-- The item at a place, from the prototype there. -/
theorem sessionItems_of_proto {h : Hand} {k : Nat} {p : Proto}
    (hp : (h.m.msgs.flatMap fun msg => msgProtos h.cfg h.mem msg (msgParams h.m msg))[k]? = some p) :
    (sessionItems h)[k]? = some (placeItem (k == 0) (BitVec.ofNat 4 h.m.bus) h.m.ss k p) := by
  simp [sessionItems, hp]

theorem addressByte_toNat {a : Nat} (h : a ≤ 0x7F) (read : Bool) :
    (addressByte a read).toNat = 2 * a + if read then 1 else 0 := by
  have ha : a < 256 := by omega
  have hshift : (BitVec.ofNat 8 a <<< 1).toNat = a <<< 1 := by
    simp only [BitVec.toNat_shiftLeft, BitVec.toNat_ofNat, Nat.mod_eq_of_lt ha, Nat.shiftLeft_eq]
    omega
  have hread : (BitVec.ofNat 8 read.toNat).toNat = read.toNat := Nat.mod_eq_of_lt (by cases read <;> decide)
  rw [addressByte, BitVec.toNat_or, hshift, hread, ← Nat.shiftLeft_add_eq_or_of_lt (by cases read <;> decide), Nat.shiftLeft_eq]
  cases read <;> simp [Nat.mul_comm]

/-- Settles O19: the items of a message are its prototypes at the places after those of the messages before it, with the parameters
looked up in the store of the command's bus. -/
theorem messageItems : Obligations.MessageItems := by
  unfold Obligations.MessageItems
  intro cfg m b pre msg post mem hda hb hd haddr items p first data
  let h : Hand := ⟨cfg, { m with bus := b.busId, msgs := pre ++ msg :: post, ss := sessionSize (pre ++ msg :: post) }, mem⟩
  have hp : msgParams h.m msg = p := msgParams_of_bus msg hb hd rfl
  have hget : ∀ {o x}, (msgProtos cfg mem msg p)[o]? = some x → items[sessionSize pre + o]? =
      some (placeItem (sessionSize pre + o == 0) (BitVec.ofNat 4 b.busId) (sessionSize (pre ++ msg :: post)) (sessionSize pre + o) x) :=
    fun hx => sessionItems_of_proto (h := h) (flatMap_msgProtos_get (hp ▸ hx))
  refine ⟨fun hns => ⟨_, hget (msgProtos_address hns), rfl, rfl, rfl, rfl, rfl, rfl, addressByte_toNat haddr msg.read⟩,
    fun j hj => ?_⟩
  have hplace : data + j = sessionSize pre + ((if msg.noStart then 0 else 1) + j) := by
    simp only [data, first]
    split <;> omega
  refine ⟨_, (congrArg (items[·]?) hplace).trans (hget (msgProtos_data hj)), ?_⟩
  cases hread : msg.read with
  | false =>
    have hproto : dataProto cfg mem msg p j = wdataProto msg p (bufRead mem msg j) := by simp [dataProto, hread]
    rw [hproto]
    exact ⟨rfl, rfl, rfl, rfl, rfl, by simp [placeItem, wdataProto, datOf, hread], rfl⟩
  | true =>
    by_cases hv : msg.vlr = true ∧ j = 0
    · have hproto : dataProto cfg mem msg p j = brlenProto msg p := by simp [dataProto, hread, hv]
      rw [hproto]
      simp [placeItem, brlenProto, datOf, hread, hv]
    · have hproto : dataProto cfg mem msg p j = rdataProto cfg msg p j := by
        simpa [dataProto, hread] using fun h1 h2 => absurd ⟨h1, h2⟩ hv
      rw [hproto]
      by_cases hlast : j + 1 = msg.length <;> simp [placeItem, rdataProto, datOf, hread, hv, hda, DaPolicy.reference, hlast]

/-! ### Emission, item by item -/

/-- An item that a layout can encode at its place, whatever session it is of: with a size that fits, if it is the first. -/
theorem reqOk_placeItem (l : ReqPlaces) (start : Bool) (bs : BitVec 4) (ss k : Nat) (p : Proto) :
    reqOk l (placeItem start bs ss k p) (k == 0) = true ↔
      (k = 0 → (placeItem start bs ss k p).ss ≠ 0 ∧ (placeItem start bs ss k p).ss.toNat < 2 ^ l.ssWidth) := by
  by_cases hk : k = 0 <;> simp [reqOk_iff, placeItem, hk]

/-- A step that emits the item at its place: one write, and the Master that has counted it; or the refusal of a size too wide. -/
theorem emitItem_placeItem {h : Hand} {it : ReqItem} {start : Bool} {bs : BitVec 4} {ss : Nat} {p : Proto}
    (hit : it = placeItem start bs ss h.m.k p) {m1 : Master} (hwalk : { walkOn h.m with k := (walkOn h.m).k + 1 } = m1)
    (hbase : (walkOn h.m).base = h.m.base) :
    (it.ss.toNat < 2 ^ h.cfg.layout.req.ssWidth → (h.m.k = 0 → it.ss ≠ 0) → ∃ m', emitItem (h.m.k == 0) it h = .go (h.withM m') ∧
      PortRun h.cfg m1 m' [.write (h.m.base + h.cfg.reqOff) (reqWord h.cfg.layout.req it (h.m.k == 0))] 0) ∧
    (h.m.k = 0 → 2 ^ h.cfg.layout.req.ssWidth ≤ it.ss.toNat → emitItem (h.m.k == 0) it h = .refuse .notEncodable) := by
  subst hit hwalk
  refine ⟨fun hfit hne => ?_, fun hk hwide => ?_⟩
  · refine ⟨_, emitItem_ok ((reqOk_placeItem ..).2 fun hk => ⟨hne hk, hfit⟩), ?_⟩
    rw [← hbase]
    exact emitWord_run ..
  · refine emitItem_not (Bool.eq_false_iff.2 fun hok => ?_)
    exact absurd ((reqOk_placeItem ..).1 hok hk).2 (Nat.not_lt.2 hwide)

theorem take_drop_split {α : Type} {l : List α} {i : Nat} {x : α} (h : l[i]? = some x) : l = l.take i ++ x :: l.drop (i + 1) := by
  obtain ⟨hi, rfl⟩ := List.getElem?_eq_some_iff.1 h
  rw [← List.drop_eq_getElem_cons hi, List.take_append_drop]

/-- The item at a position of the walk is the item of the session that `x[k]` counts. -/
theorem sessionItems_at_walk {h : Hand} {i j : Nat} {ad : Bool} {msg : Message} (hn : nextPosition h.m = some (i, j, ad))
    (hm : h.m.msgs[i]? = some msg)
    (hk : h.m.k = sessionSize (h.m.msgs.take i) + (if atAddress msg ad then 0 else (if msg.noStart then 0 else 1) + j)) :
    (sessionItems h)[h.m.k]? = some (placeItem (h.m.k == 0) (BitVec.ofNat 4 h.m.bus) h.m.ss h.m.k
      (protoAt h.cfg h.mem (msgParams h.m) msg j ad)) := by
  obtain ⟨msg', -, -, hm', -, -, hat, -⟩ := (nextPosition_spec h.m).2 i j ad hn
  cases hm.symm.trans hm'
  refine sessionItems_of_proto ?_
  rw [take_drop_split hm, hk]
  refine flatMap_msgProtos_get ?_
  cases ha : atAddress msg ad with
  | true =>
    have hns : msg.noStart = false := by
      simp only [atAddress, Bool.and_eq_true, Bool.not_eq_true'] at ha
      exact ha.2
    simp only [protoAt, ha, if_true]
    exact msgProtos_address hns
  | false =>
    simp only [protoAt, ha, Bool.false_eq_true, if_false]
    exact msgProtos_data (hat.resolve_left (by simp [ha]))

/-- Settles O21: a step of ENCODE or of CONT_ENCODE emits the item at its place, or begins the wait. -/
theorem emissionWritesEachItemOnce : Obligations.EmissionWritesEachItemOnce := by
  unfold Obligations.EmissionWritesEachItemOnce
  intro h hb width emits
  refine ⟨fun hp hf => ⟨fun i j ad msg hn hm hk => ?_, advance_encode_end hp hb hf⟩, fun hp msg hm => ⟨fun it hit => ?_, fun hlen => ?_⟩⟩
  · have hwalk := walkOn_encode hp hn hm
    refine ⟨_, sessionItems_at_walk hn hm hk, ?_⟩
    show _ ∧ _
    rw [advance_encode hp hb hf hn hm]
    exact emitItem_placeItem rfl (by rw [hwalk]; rfl) (by rw [hwalk]; rfl)
  · have hwalk : walkOn h.m = h.m := walkOn_stays (.inl (by simp [hp]))
    show _ ∧ _
    rw [advance_contEncode hp hb hm hit]
    exact emitItem_placeItem (contItems_get hit).2 (by rw [hwalk]) (by rw [hwalk])
  · exact advance_contEncode_end hp hb hm (List.getElem?_eq_none hlen)

/-- Settles O39: the steps of each phase one after the other. -/
theorem sessionsAreWrittenInOrder : Obligations.SessionsAreWrittenInOrder := by
  unfold Obligations.SessionsAreWrittenInOrder
  intro h hb hk
  refine ⟨fun hp hi hj ha hf h0 h1 h2 => ?_, fun hp msg hm h2 => ?_⟩
  · obtain ⟨m', hgoes, hend, hrun⟩ := encode_goes hp hb hk hi hj ha hf h0 h1 h2
    exact ⟨m', hgoes.run (k := 0), hend, hrun⟩
  · obtain ⟨m', hgoes, hrun⟩ := contEncode_goes hp hb hk hm h2
    exact ⟨m', hgoes.run (k := 0), hrun⟩

end Sys2Proof.Machine
end

