-- ==== Sys2Proof/Proofs/HandInstructions.lean ====
section
/-! The items, the data words and the primitives as instructions on the Master in hand (logs 14 and 15): what they need, and the ones that
are one access or one primitive run to its return. -/

namespace Sys2Proof.Machine

/-! ### Running on the Master in hand -/

/-- A phase that goes on stores the Master back. -/
theorem withHand_go {s : State} {m m' : Master} (h : HeldInHand s m) {f : Hand → Adv}
    (hf : f ⟨s.cfg, m, s.mem⟩ = .go (Hand.withM ⟨s.cfg, m, s.mem⟩ m')) : withHand s f = .next (s.putMaster m') := by
  rw [withHand_held h.1 h.2, hf]
  rfl

/-- One that pauses too. -/
theorem withHand_pause {s : State} {m m' : Master} (h : HeldInHand s m) {f : Hand → Adv}
    (hf : f ⟨s.cfg, m, s.mem⟩ = .pause (Hand.withM ⟨s.cfg, m, s.mem⟩ m')) : withHand s f = .next (s.putMaster m') := by
  rw [withHand_held h.1 h.2, hf]
  rfl

/-- One that returns answers as well. -/
theorem withHand_done {s : State} {m m' : Master} (h : HeldInHand s m) {f : Hand → Adv} {c : Nat} {a : Answer}
    (hf : f ⟨s.cfg, m, s.mem⟩ = .done (Hand.withM ⟨s.cfg, m, s.mem⟩ m') c a) :
    withHand s f = .next ((s.putMaster m').post c a) := by
  rw [withHand_held h.1 h.2, hf]
  rfl

theorem withHand_refuse {s : State} {m : Master} (h : HeldInHand s m) {f : Hand → Adv} {r : Refusal}
    (hf : f ⟨s.cfg, m, s.mem⟩ = .refuse r) : withHand s f = .refused r := by
  rw [withHand_held h.1 h.2, hf]
  rfl

/-- The items, the data words and the primitives of Master Control. -/
abbrev OnHand (i : Instr) : Prop :=
  (slotOf i).isSome = true ∨ i = .resetEngine ∨ (∃ f, i = .enter f) ∨ (∃ f, i = .leave f) ∨ ∃ bs a, i = .waitForCompletion bs a

theorem exec_onHand {i : Instr} (h : OnHand i) : ∃ f, ∀ s, exec i s = withHand s f := by
  rcases h with h | rfl | ⟨f, rfl⟩ | ⟨f, rfl⟩ | ⟨bs, a, rfl⟩
  · cases i with
    | addrF | addrN | wdataN | rdataN | brlenN | contF | contN => exact ⟨_, fun _ => rfl⟩
    | rsp r => exact ⟨_, fun s => execRsp.eq_1 r s⟩
    | csr write c => exact ⟨_, fun s => execCsr.eq_1 write c s⟩
    | _ => cases h
  · exact ⟨_, fun s => execReset.eq_1 s⟩
  · exact ⟨_, fun s => execEnter.eq_1 f s⟩
  · exact ⟨_, fun s => execLeave.eq_1 f s⟩
  · exact ⟨_, fun s => execWait.eq_1 bs a s⟩

/-- Settles O23: each of them runs on the Master in hand, whose lock must be held. -/
theorem noAccessWithoutTheLock : Obligations.NoAccessWithoutTheLock := by
  unfold Obligations.NoAccessWithoutTheLock
  intro s m i hm hl h
  obtain ⟨f, hf⟩ := exec_onHand h
  rw [hf, withHand_free hm hl]

/-! ### Runs and the other fields -/

/-- A Master with another history, time and free numbers. -/
def withClock (H : List Event) (T : Nat) (D : List Nat) (N : Nat) (m : Master) : Master :=
  { m with hist := H, time := T, draws := D, nDraw := N }

/-- A run between the images of two Masters under an update of other fields. -/
theorem PortRun.map {cfg : Config} {a b : Master} {new : List Access} {t : Nat} (h : PortRun cfg a b new t) (f : Master → Master)
    (hf : ∀ H T D N x, f (withClock H T D N x) = withClock H T D N (f x)) : PortRun cfg (f a) (f b) new t := by
  have hhist : (f a).hist = a.hist := by
    have e := congrArg Master.hist (hf a.hist a.time a.draws a.nDraw a)
    exact e
  have htime : (f a).time = a.time := by
    have e := congrArg Master.time (hf a.hist a.time a.draws a.nDraw a)
    exact e
  obtain ⟨H, T, D, N, rfl, h2, h3, h4⟩ := h.elim
  have hb := hf H T D N a
  rw [withClock] at hb
  rw [hb]
  exact ⟨rfl, by rw [accesses, accesses, hhist]; exact h2, by rw [htime]; exact h3, fun e => by rw [htime]; exact h4 e⟩

/-! ### Request items -/

/-- The positions a walk comes to: past the next one in ENCODE, else where it was (10_state.md R32). -/
abbrev WalksOn (m0 : Master) (i j : Nat) (ad : Bool) : Prop :=
  (m0.pc = .encode → ∀ a b c msg, nextPosition m0 = some (a, b, c) → m0.msgs[a]? = some msg →
    i = a ∧ j = (if atAddress msg c then b else b + 1) ∧ ad = true) ∧
  (m0.pc ≠ .encode ∨ nextPosition m0 = none → i = m0.i ∧ j = m0.j ∧ ad = m0.ad)

theorem walkOn_spec (m0 : Master) : ∃ i j ad, walkOn m0 = { m0 with i := i, j := j, ad := ad } ∧ WalksOn m0 i j ad := by
  by_cases hstay : m0.pc ≠ .encode ∨ nextPosition m0 = none
  · refine ⟨m0.i, m0.j, m0.ad, walkOn_stays hstay, fun hp a b c msg hn _ => ?_, fun _ => ⟨rfl, rfl, rfl⟩⟩
    rcases hstay with h | h
    · exact absurd hp h
    · rw [h] at hn
      cases hn
  · obtain ⟨hp, hne⟩ := not_or.1 hstay
    have hp := Decidable.not_not.1 hp
    obtain ⟨⟨i, j, ad⟩, hn⟩ := Option.ne_none_iff_exists'.1 hne
    obtain ⟨msg, -, -, hm, -⟩ := (nextPosition_spec m0).2 i j ad hn
    refine ⟨i, _, true, walkOn_encode hp hn hm, fun _ a b c msg' hn' hm' => ?_, fun h => absurd h hstay⟩
    cases hn.symm.trans hn'
    cases hm.symm.trans hm'
    exact ⟨rfl, rfl, rfl⟩

/-- An item that is emitted from a position of the walk: one write, the count and the walk moved on, nothing else. -/
theorem emitItem_writes (cfg : Config) (m : Master) (mem : Memory) {it : ReqItem} {first : Bool} {m0 : Master} {k0 i0 j0 : Nat} {ad0 : Bool}
    (hm0 : m0 = { m with k := k0, i := i0, j := j0, ad := ad0 }) (hok : reqOk cfg.layout.req it first = true) :
    ∃ m' i j ad, emitItem first it (Hand.withM ⟨cfg, m, mem⟩ m0) = .go (Hand.withM ⟨cfg, m, mem⟩ m') ∧ WalksOn m0 i j ad ∧
      PortRun cfg { m with k := k0 + 1, i := i, j := j, ad := ad } m'
        [.write (m.base + cfg.reqOff) (reqWord cfg.layout.req it first)] 0 := by
  subst hm0
  obtain ⟨i, j, ad, hwalk, hwalks⟩ := walkOn_spec { m with k := k0, i := i0, j := j0, ad := ad0 }
  refine ⟨_, i, j, ad, emitItem_ok hok, hwalks, ?_⟩
  rw [Hand.withM_m, hwalk]
  exact emitWord_run ..

/-- A session begins at the start of the walk in ENCODE, and in other phases where the walk stands. -/
theorem beginSession_start (m : Master) : beginSession m =
    { (if true = true ∧ m.pc = .encode then { m with i := 0, j := 0, ad := false } else m) with k := 0 } := by
  unfold beginSession
  by_cases hp : m.pc = .encode <;> simp [hp]

theorem packReq_first_iff (p : ReqPlaces) {it : ReqItem} (hti : it.ti = 0) :
    reqOk p it true = true ↔ it.ss ≠ 0 ∧ it.ss.toNat < 2 ^ p.ssWidth := by
  simp [reqOk_iff, hti]

/-- Settles O22: an item emitted by itself. -/
theorem itemsWriteTheirWord : Obligations.ItemsWriteTheirWord := by
  unfold Obligations.ItemsWriteTheirWord
  intro s m hm start walks writes fits
  have hlater : ∀ (instr : Instr) (it : ReqItem), it.ss = 0 → exec instr s = withHand s (emitLater it) →
      writes instr it false (m.k + 1) := by
    intro instr it hss hexec
    obtain ⟨m', i, j, ad, hemit, hwalks, hrun⟩ := emitItem_writes s.cfg m s.mem (m0 := m) rfl
      ((reqOk_iff s.cfg.layout.req it false).2 hss)
    exact ⟨m', i, j, ad, hexec.trans (withHand_go hm hemit), hwalks, hrun⟩
  have hfirst : ∀ (instr : Instr) (it : ReqItem), it.ti = 0 → fits it.ss → exec instr s = withHand s (emitFirst it) →
      writes instr it true 1 := by
    intro instr it hti hfits hexec
    have hbegin := beginSession_start m
    obtain ⟨i0, j0, ad0, hm0⟩ : ∃ i0 j0 ad0, beginSession m = { m with k := 0, i := i0, j := j0, ad := ad0 } := by
      unfold beginSession
      split <;> exact ⟨_, _, _, rfl⟩
    obtain ⟨m', i, j, ad, hemit, hwalks, hrun⟩ := emitItem_writes s.cfg m s.mem hm0 ((packReq_first_iff _ hti).2 hfits)
    refine ⟨m', i, j, ad, hexec.trans (withHand_go hm hemit), ?_, hrun⟩
    have hpc : (start true).pc = m.pc ∧ (start true).msgs = m.msgs := by
      simp only [start]
      split <;> exact ⟨rfl, rfl⟩
    obtain ⟨h1, h2⟩ := hwalks
    rw [hbegin] at h1 h2
    exact ⟨fun hp a b c msg hn hmsg => h1 (hpc.1.trans hp) a b c msg hn ((congrArg (·[a]?) hpc.2).trans hmsg),
      fun h => h2 (h.imp (fun h' e => h' (hpc.1.symm.trans e)) id)⟩
  have hnot : ∀ (instr : Instr) (it : ReqItem), it.ti = 0 → ¬fits it.ss → exec instr s = withHand s (emitFirst it) →
      exec instr s = .refused .notEncodable := by
    intro instr it hti hfits hexec
    exact hexec.trans (withHand_refuse hm (emitItem_not (Bool.eq_false_iff.2 fun h => hfits ((packReq_first_iff _ hti).1 h))))
  exact ⟨fun bs sp t dat ss d hss => hfirst _ _ rfl hss rfl, fun _ _ _ _ _ _ => hlater _ _ rfl rfl,
    fun _ _ _ _ _ _ => hlater _ _ rfl rfl, fun _ _ _ _ _ _ => hlater _ _ rfl rfl, fun _ _ _ _ _ _ => hlater _ _ rfl rfl,
    fun _ _ _ _ _ ss hss => hfirst _ _ rfl hss rfl, fun _ _ _ _ _ _ => hlater _ _ rfl rfl,
    fun _ _ _ _ _ _ _ hss => ⟨hnot _ _ rfl hss rfl, hnot _ _ rfl hss rfl⟩⟩

/-! ### The control/status word -/

/-- Settles O24: outside a wait the word is one access. -/
theorem statusWordOutsideAWait : Obligations.StatusWordOutsideAWait := by
  unfold Obligations.StatusWordOutsideAWait
  intro s m c hm
  refine ⟨⟨_, (execCsr.eq_1 true c s).trans (withHand_go hm rfl), writeCsr_run ..⟩, fun hb hw hc => ?_⟩
  have hread : statusRead c ⟨s.cfg, m, s.mem⟩ =
      .go (Hand.withM ⟨s.cfg, m, s.mem⟩ { csrReadIs s.cfg (packCsr s.cfg.layout.csr c) m with cs := c }) := by
    simp [statusRead, hb, hw, hc]
  exact ⟨_, (execCsr.eq_1 false c s).trans (withHand_go hm hread), (csrReadIs_run s.cfg (packCsr s.cfg.layout.csr c) m).map (fun x => { x with cs := c }) fun _ _ _ _ _ => rfl⟩

/-! ### reset, enter and leave -/

/-- Settles O28: the run of reset() on the answers given. -/
theorem resetPollsWithBackoff : Obligations.ResetPollsWithBackoff := by
  unfold Obligations.ResetPollsWithBackoff
  intro s m w0 pre w post hm hin hends
  obtain ⟨m', hop, hrun⟩ := resetOp_script s.cfg hin hends
  refine ⟨m', (execReset.eq_1 s).trans (withHand_done hm ?_), hrun⟩
  simp only [hop, primAnswer, decide_eq_true_eq]

/-- enter() called by itself answers the holder of the lock. -/
theorem exec_enter {s : State} {m m' : Master} {f ok : Bool} (hm : HeldInHand s m) (h : enterOp s.cfg f m = (ok, m')) :
    exec (.enter f) s = .next ((s.putMaster m').post m.lock.owner (.prim (if ok then .ok else .enterFailed))) := by
  refine (execEnter.eq_1 f s).trans (withHand_done hm ?_)
  simp only [h, primAnswer]

theorem enterOp_of_not_faulted {cfg : Config} {f : Bool} {m : Master} (h : m.mc ≠ .faulted) : enterOp cfg f m = enterFrom cfg f m := by
  simp [enterOp_eq, h]

/-- Settles O29: the run of enter() on an engine that is not dirty. -/
theorem enterOnACleanEngine : Obligations.EnterOnACleanEngine := by
  unfold Obligations.EnterOnACleanEngine
  intro s m f w post acc ok last rest hm hmc hin hd hj
  obtain ⟨m', hop, hrun⟩ := enterFrom_clean s.cfg hin hd hj
  exact ⟨m', exec_enter hm ((enterOp_of_not_faulted hmc).trans hop), hrun⟩

/-- Settles O30: the run of enter() on a dirty engine. -/
theorem enterRecoversADirtyEngine : Obligations.EnterRecoversADirtyEngine := by
  unfold Obligations.EnterRecoversADirtyEngine
  intro s m f w w0 pre v post hm hmc hin hd hends ends
  obtain ⟨hfail, hgood⟩ := enterFrom_dirty s.cfg (f := f) hin hd hends
  refine ⟨fun hv => ?_, fun hv acc ok last rest hj => ?_⟩
  · obtain ⟨m', hop, hrun⟩ := hfail hv
    exact ⟨m', exec_enter hm ((enterOp_of_not_faulted hmc).trans hop), by rw [List.append_nil]; exact hrun⟩
  · obtain ⟨m', hop, hrun⟩ := hgood hv acc ok last rest hj
    exact ⟨m', exec_enter hm ((enterOp_of_not_faulted hmc).trans hop), hrun⟩

theorem enterOp_of_faulted {cfg : Config} {f : Bool} {m : Master} (h : m.mc = .faulted) (hf : cfg.faultedForcesReset = true) :
    enterOp cfg f m = if (resetOp cfg m).1 then enterFrom cfg f (resetOp cfg m).2 else (false, (resetOp cfg m).2) := by
  simp [enterOp_eq, h, hf]

/-- Settles O31: the reset that comes first, then enter() from its own first read on. -/
theorem enterFromFaultedResetsFirst : Obligations.EnterFromFaultedResetsFirst := by
  unfold Obligations.EnterFromFaultedResetsFirst
  intro s m f w0 pre v post hm hmc hforce hin hends ends csr
  obtain ⟨m1, hreset, hrun1⟩ := resetOp_script s.cfg hin hends
  have hop := enterOp_of_faulted (f := f) hmc hforce
  rw [hreset] at hop
  have hin1 : m1.csrIn = post := hrun1.field Master.csrIn fun _ _ _ _ _ => rfl
  have hbase : m1.base = m.base := hrun1.base
  refine ⟨fun hv => ?_, fun hv w post1 hpost => ?_⟩
  · rw [decide_eq_false hv, if_neg (by simp)] at hop
    rw [if_neg hv] at hrun1
    exact ⟨m1, exec_enter hm hop, hrun1.as (by simp)⟩
  · rw [decide_eq_true hv, if_pos rfl] at hop
    -- the run of enter() after the reset, with the one before it
    have hafter : ∀ {ok last rest acc took m'}, enterFrom s.cfg f m1 = (ok, m') →
        PortRun s.cfg { m1 with csrIn := rest, cs := unpackCsr s.cfg.layout.csr last, mc := if ok then .ready else .faulted } m'
          acc took → ends ok last rest acc took := fun {ok last rest acc took m'} he hrun2 =>
      ⟨m', exec_enter hm (hop.trans he), PortRun.trans
        (hrun1.map (fun x => { x with
          csrIn := rest, cs := unpackCsr s.cfg.layout.csr last, mc := if ok then .ready else .faulted }) fun _ _ _ _ _ => rfl) hrun2⟩
    have hjudged : ∀ {u answers acc ok last rest}, Judged s.cfg m f u answers acc ok last rest →
        Judged s.cfg m1 f u answers acc ok last rest := fun hj => by simpa only [Judged, hbase] using hj
    have haccesses : ∀ a p b, resetAccesses s.cfg m1 a p b = resetAccesses s.cfg m a p b := fun a p b => by
      simp only [resetAccesses, hbase]
    rw [hpost] at hin1
    refine ⟨fun hd acc ok last rest hj => ?_, fun hd w1 pre1 v1 post2 hpost1 hends1 => ?_⟩
    · obtain ⟨m', he, hrun2⟩ := enterFrom_clean s.cfg hin1 hd (hjudged hj)
      exact hafter he (hrun2.as (by rw [hbase]))
    · rw [hpost1] at hin1
      obtain ⟨hfail, hgood⟩ := enterFrom_dirty s.cfg (f := f) hin1 hd hends1
      refine ⟨fun hv1 => ?_, fun hv1 acc ok last rest hj => ?_⟩
      · obtain ⟨m', he, hrun2⟩ := hfail hv1
        exact hafter he (hrun2.as (by rw [hbase, haccesses]))
      · obtain ⟨m', he, hrun2⟩ := hgood hv1 acc ok last rest (hjudged hj)
        exact hafter he (hrun2.as (by rw [hbase, haccesses]))

/-- Settles O32: the run of leave() on the answers given. -/
theorem leaveDrainsOrArmsAReset : Obligations.LeaveDrainsOrArmsAReset := by
  unfold Obligations.LeaveDrainsOrArmsAReset
  intro s m hadErr w0 w1 rest drained rspRest hm hin hrsp hlen csr
  exact ⟨_, (execLeave.eq_1 hadErr s).trans (withHand_go hm rfl), leaveOp_script s.cfg hin hrsp hlen⟩

end Sys2Proof.Machine
end

