-- ==== Sys2Proof/Proofs/Waits.lean ====
section
/-! The waits: what the tests of one iteration come to, in the wait of a command and in one called by itself, by the block's own steps and on
a value presented as an instruction. -/

namespace Sys2Proof.Machine

/-! ### The tests of one iteration (40_master_control.md R141 to R145) -/

theorem waitTest_fe {cfg : Config} {m : Master} (h : m.cs.fe = true) : waitTest cfg m = (.at_ .clear, readClock cfg m) := by
  have hd : pollDecision cfg (readClock cfg m).cs (readClock cfg m).prev (readClock cfg m).tLast (readClock cfg m).time =
      (.ok, (readClock cfg m).tLast) := by simp [pollDecision, h]
  simp only [waitTest, hd]

/-- The time of the last progress once the clock has been read. -/
def lastProgress (cfg : Config) (m : Master) : Nat := if progressed cfg m.prev m.cs then m.time else m.tLast

theorem lastProgress_first {cfg : Config} {m : Master} (h : m.prev = none) : lastProgress cfg m = m.tLast := by
  cases hp : cfg.progress <;> simp [lastProgress, progressed, h, hp]

theorem lastProgress_eitherCount {cfg : Config} (h : cfg.progress = .eitherCount) (m : Master) :
    lastProgress cfg m = if m.prev ≠ none ∧ m.prev ≠ some (m.cs.nrq, m.cs.nrs) then m.time else m.tLast := by
  cases hp : m.prev <;> simp [lastProgress, progressed, h, hp]

/-- The Master asleep after the tests at the clock read in `m`. -/
def sleeping (cfg : Config) (m : Master) : Master :=
  fallAsleep cfg (waitSleep m.cs) { m with tLast := lastProgress cfg m, prev := some (m.cs.nrq, m.cs.nrs) }

theorem waitTest_noFe {cfg : Config} {m : Master} (h : m.cs.fe = false) : waitTest cfg m =
    if capacity m.cs.fsz ≤ m.cs.nrs.toNat then (.ret .overflow, readClock cfg m)
    else if waitTimeout < (readClock cfg m).time - lastProgress cfg (readClock cfg m) then
      (.ret .timeout, { readClock cfg m with tLast := lastProgress cfg (readClock cfg m) })
    else (.asleep (.wake (waitSleep m.cs)), sleeping cfg (readClock cfg m)) := by
  have hcs : (readClock cfg m).cs = m.cs := readClock_cs ..
  have hlast : (if progressed cfg (readClock cfg m).prev (readClock cfg m).cs then (readClock cfg m).time else (readClock cfg m).tLast) =
    lastProgress cfg (readClock cfg m) := rfl
  rw [← hcs] at h ⊢
  unfold waitTest sleeping
  generalize readClock cfg m = m1 at *
  by_cases h1 : capacity m1.cs.fsz ≤ m1.cs.nrs.toNat
  · have hd : pollDecision cfg m1.cs m1.prev m1.tLast m1.time = (.overflow, m1.tLast) := by simp [pollDecision, h, h1]
    simp only [hd, h1, if_true]
  · by_cases h2 : waitTimeout < m1.time - lastProgress cfg m1
    · have hd : pollDecision cfg m1.cs m1.prev m1.tLast m1.time = (.timeout, lastProgress cfg m1) := by
        simp [pollDecision, h, h1, hlast, h2]
      simp only [hd, h1, h2, if_true, if_false]
    · have hd : pollDecision cfg m1.cs m1.prev m1.tLast m1.time = (.again, lastProgress cfg m1) := by
        simp [pollDecision, h, h1, hlast, h2]
      simp only [hd, h1, h2, if_false]

theorem waitReads_run (cfg : Config) (c : Csr) (w : WaitSpot) (m : Master) :
    PortRun cfg { m with cs := c, tLast := (waitReads cfg c w m).tLast, prev := if w = .start then none else m.prev } (waitReads cfg c w m)
        [.read (m.base + cfg.csrOff) (packCsr cfg.layout.csr c)] (dueSleep w) ∧
      (w ≠ .start → (waitReads cfg c w m).tLast = m.tLast) ∧
      (w = .start → m.time ≤ (waitReads cfg c w m).tLast ∧ (waitReads cfg c w m).tLast ≤ (waitReads cfg c w m).time) := by
  have hread := fun m0 => (csrReadIs_run cfg (packCsr cfg.layout.csr c) m0).map (fun x => { x with cs := c }) fun _ _ _ _ _ => rfl
  cases w with
  | start =>
    refine ⟨?_, fun h => absurd rfl h, fun _ => ?_⟩
    · have hclock := (readClock_run cfg m).map (fun x => { x with tLast := (readClock cfg m).time, prev := none, cs := c })
        fun _ _ _ _ _ => rfl
      have h := (hclock.trans (hread (beginWait cfg m))).as (new' := [.read (m.base + cfg.csrOff) (packCsr cfg.layout.csr c)])
        (by simp)
      simpa [waitReads, dueSleep] using h
    · have h1 := readClock_time_le cfg m
      have h2 := readClock_time_le cfg (beginWait cfg m)
      simp only [waitReads, csrReadIs_tLast, beginWait_tLast, csrReadIs_time]
      rw [beginWait_time] at h2
      exact ⟨h1, h2⟩
  | wake d =>
    refine ⟨?_, fun _ => by simp [waitReads], fun h => by cases h⟩
    have hclock := (advanceTime_run cfg d m).map (fun x => { x with cs := c }) fun _ _ _ _ _ => rfl
    have h := (hclock.trans (hread (advanceTime cfg d m))).as (new' := [.read (m.base + cfg.csrOff) (packCsr cfg.layout.csr c)])
      (by simp)
    simpa [waitReads, dueSleep] using h
  | read => exact ⟨by simpa [waitReads, dueSleep] using hread m, fun _ => by simp [waitReads], fun h => by cases h⟩
  | test => exact ⟨by simpa [waitReads, dueSleep] using hread m, fun _ => by simp [waitReads], fun h => by cases h⟩
  | clear => exact ⟨by simpa [waitReads, dueSleep] using hread m, fun _ => by simp [waitReads], fun h => by cases h⟩

theorem PortRun.setSpot {cfg : Config} {a b : Master} {new : List Access} {t : Nat} (h : PortRun cfg a b new t) (x : Spot) :
    PortRun cfg { a with spot := x } { b with spot := x } new t := h.map (fun m => { m with spot := x }) fun _ _ _ _ _ => rfl

theorem PortRun.setBare {cfg : Config} {a b : Master} {new : List Access} {t : Nat} (h : PortRun cfg a b new t) (x : Option WaitSpot) :
    PortRun cfg { a with bare := x } { b with bare := x } new t := h.map (fun m => { m with bare := x }) fun _ _ _ _ _ => rfl

/-- A run with a spot put in and the old one put back. -/
theorem PortRun.keepSpot {cfg : Config} {a b : Master} {x : Spot} {new : List Access} {t : Nat} (h : PortRun cfg { a with spot := x } b new t) :
    PortRun cfg a { b with spot := a.spot } new t := h.setSpot a.spot

theorem PortRun.keepBare {cfg : Config} {a b : Master} {x : Option WaitSpot} {new : List Access} {t : Nat}
    (h : PortRun cfg { a with bare := x } b new t) : PortRun cfg a { b with bare := a.bare } new t := h.setBare a.bare

theorem sleeping_run {cfg : Config} {m : Master} {c : Csr} (hc : m.cs = c) :
    PortRun cfg { m with tLast := lastProgress cfg m, prev := some (c.nrq, c.nrs) } (sleeping cfg m) [.sleep (waitSleep c)] 0 := by
  subst hc
  exact fallAsleep_run ..

/-! ### The wait of a command -/

theorem advance_wait {h : Hand} (hb : h.m.bare = none) (hp : h.m.pc = .wait ∨ h.m.pc = .contWait) : advance h = phaseWait h := by
  rcases hp with hp | hp <;> simp [advance, hb, phaseStep, hp]

theorem phaseWait_noFe {h : Hand} (hw : waitSpot h.m = .test) (hfe : h.m.cs.fe = false) : phaseWait h =
    if capacity h.m.cs.fsz ≤ h.m.cs.nrs.toNat then .go (h.withM (raiseFailure (.overflowWait h.m.cs) (readClock h.cfg h.m)))
    else if waitTimeout < (readClock h.cfg h.m).time - lastProgress h.cfg (readClock h.cfg h.m) then
      .go (h.withM (raiseFailure (.timedOut h.m.cs) { readClock h.cfg h.m with tLast := lastProgress h.cfg (readClock h.cfg h.m) }))
    else .pause (h.withM { sleeping h.cfg (readClock h.cfg h.m) with spot := .wait (.wake (waitSleep h.m.cs)) }) := by
  by_cases h1 : capacity h.m.cs.fsz ≤ h.m.cs.nrs.toNat
  · simp only [phaseWait, hw, waitStep, waitTest_noFe hfe, h1, if_true, readClock_cs]
  · by_cases h2 : waitTimeout < (readClock h.cfg h.m).time - lastProgress h.cfg (readClock h.cfg h.m)
    · simp only [phaseWait, hw, waitStep, waitTest_noFe hfe, h1, h2, if_true, if_false, readClock_cs]
    · simp only [phaseWait, hw, waitStep, waitTest_noFe hfe, h1, h2, if_false]

theorem phaseWait_fe {h : Hand} (hw : waitSpot h.m = .test) (hfe : h.m.cs.fe = true) :
    phaseWait h = .go (h.withM { readClock h.cfg h.m with spot := .wait .clear }) := by
  simp only [phaseWait, hw, waitStep, waitTest_fe hfe]

theorem phaseWait_clear {h : Hand} (hw : waitSpot h.m = .clear) :
    phaseWait h = .go (h.withM (endWait (writeCsr h.cfg h.m.cs h.m))) := by
  simp only [phaseWait, hw, waitStep]

/-- A Master whose wait has just read `c`, presented as an instruction. -/
def presented (cfg : Config) (c : Csr) (m : Master) : Master := { waitReads cfg c (waitSpot m) m with spot := .wait .test }

theorem presented_cs (cfg : Config) (c : Csr) (m : Master) : (presented cfg c m).cs = c := rfl

theorem waitReads_bare (cfg : Config) (c : Csr) (w : WaitSpot) (m : Master) : (waitReads cfg c w m).bare = m.bare := by
  cases w <;> simp [waitReads]

theorem waitReads_spot (cfg : Config) (c : Csr) (w : WaitSpot) (m : Master) : (waitReads cfg c w m).spot = m.spot := by
  cases w <;> simp [waitReads]

theorem waitReads_pc (cfg : Config) (c : Csr) (w : WaitSpot) (m : Master) : (waitReads cfg c w m).pc = m.pc := by
  cases w <;> simp [waitReads]

theorem waitReads_lock (cfg : Config) (c : Csr) (w : WaitSpot) (m : Master) : (waitReads cfg c w m).lock = m.lock := by
  cases w <;> simp [waitReads]

/-- The Master once the clock of the tests of a presented value has been read, with its own spot. -/
def presentedAt (cfg : Config) (c : Csr) (m : Master) : Master := { readClock cfg (presented cfg c m) with spot := m.spot }

/-- The read of a presented value, and what takes no time after it. -/
theorem waitReads_then {cfg : Config} {c : Csr} {w : WaitSpot} {m m1 : Master} (h : PortRun cfg (waitReads cfg c w m) m1 [] 0) :
    PortRun cfg { m with cs := c, tLast := m1.tLast, prev := if w = .start then none else m.prev } m1
        [.read (m.base + cfg.csrOff) (packCsr cfg.layout.csr c)] (dueSleep w) ∧
      (w ≠ .start → m1.tLast = m.tLast) ∧ (w = .start → m.time ≤ m1.tLast ∧ m1.tLast ≤ m1.time) := by
  obtain ⟨hrun, hkept, hbegun⟩ := waitReads_run cfg c w m
  have hlast : m1.tLast = (waitReads cfg c w m).tLast := h.field Master.tLast fun _ _ _ _ _ => rfl
  have htime : (waitReads cfg c w m).time ≤ m1.time := h.2.2.1
  rw [hlast]
  exact ⟨(hrun.trans h).as (List.append_nil _), hkept, fun hw => ⟨(hbegun hw).1, (hbegun hw).2.trans htime⟩⟩

theorem presentedAt_run (cfg : Config) (c : Csr) (m : Master) : PortRun cfg (waitReads cfg c (waitSpot m) m) (presentedAt cfg c m) [] 0 := by
  have h := PortRun.keepSpot (a := waitReads cfg c (waitSpot m) m) (readClock_run cfg (presented cfg c m))
  rwa [waitReads_spot] at h

/-- Presented to the wait of a command, a value is tested at once. -/
theorem exec_csr_waiting {s : State} {m : Master} {c : Csr} (hm : HeldInHand s m) (hb : m.bare = none) (hp : m.pc = .wait ∨ m.pc = .contWait) :
    Machine.exec (.csr false c) s =
      withHand s fun h => runWhile (fun m => m.pc = .wait || m.pc = .contWait) 2 (h.withM (presented s.cfg c m)) := by
  refine (execCsr.eq_1 false c s).trans ?_
  rw [withHand_held hm.1 hm.2, withHand_held hm.1 hm.2]
  rcases hp with hp | hp <;> simp [statusRead, hb, hp, presented]

/-- A Master in the wait of a command. -/
abbrev inWait (m : Master) : Bool := m.pc = .wait || m.pc = .contWait

theorem inWait_of {m : Master} (h : m.pc = .wait ∨ m.pc = .contWait) : inWait m = true := by simpa [inWait] using h

theorem endWait_wait {m : Master} (h : m.pc = .wait) :
    endWait m = { m with e := 0, rem := m.ss, i := 0, j := 0, ad := false, pc := .decode, spot := .outside } := by
  simp [endWait, h]

theorem endWait_contWait {m : Master} (h : m.pc = .contWait) :
    endWait m = { m with e := 0, rem := m.nAnn.toNat, pc := .decode, spot := .outside } := by
  simp [endWait, h]

theorem endWait_setSpot (m : Master) (x : Spot) : endWait { m with spot := x } = endWait m := by
  unfold endWait
  split <;> rfl

/-- A presented value with frame-empty is written back and ends the wait. -/
theorem exec_csr_fe {s : State} {m : Master} {c : Csr} (hm : HeldInHand s m) (hb : m.bare = none) (hp : m.pc = .wait ∨ m.pc = .contWait)
    (hfe : c.fe = true) : Machine.exec (.csr false c) s =
      .next (s.putMaster (endWait (writeCsr s.cfg c { presentedAt s.cfg c m with spot := .wait .clear }))) := by
  have hpc : (presented s.cfg c m).pc = .wait ∨ (presented s.cfg c m).pc = .contWait := by rwa [presented, waitReads_pc]
  have hb' : (presented s.cfg c m).bare = none := (waitReads_bare s.cfg c (waitSpot m) m).trans hb
  refine (exec_csr_waiting hm hb hp).trans (withHand_go hm ?_)
  have hpc' : (readClock s.cfg (presented s.cfg c m)).pc = .wait ∨ (readClock s.cfg (presented s.cfg c m)).pc = .contWait := by
    rwa [readClock_pc]
  have htest := (advance_wait (h := Hand.withM ⟨s.cfg, m, s.mem⟩ (presented s.cfg c m)) hb' hpc).trans (phaseWait_fe rfl hfe)
  have hclear := (advance_wait (h := Hand.withM ⟨s.cfg, m, s.mem⟩ { presentedAt s.cfg c m with spot := .wait .clear })
    ((readClock_bare ..).trans hb') hpc').trans (phaseWait_clear rfl)
  have hcs : (presentedAt s.cfg c m).cs = c := readClock_cs ..
  rw [runWhile_go (inWait_of hpc) htest]
  exact (runWhile_go (inWait_of hpc') hclear).trans (by simp only [Hand.withM_m, hcs]; rfl)

/-- The accesses of that iteration. -/
theorem writtenBack_run (cfg : Config) (c : Csr) (m : Master) :
    PortRun cfg { m with cs := c, tLast := (presentedAt cfg c m).tLast, prev := if waitSpot m = .start then none else m.prev }
      { writeCsr cfg c { presentedAt cfg c m with spot := .wait .clear } with spot := m.spot }
      [.read (m.base + cfg.csrOff) (packCsr cfg.layout.csr c), .write (m.base + cfg.csrOff) (packCsr cfg.layout.csr c)]
      (dueSleep (waitSpot m)) := by
  have hrun := (waitReads_then (presentedAt_run cfg c m)).1
  have hbase : (presentedAt cfg c m).base = m.base := hrun.base
  exact (hrun.snoc ((writeCsr_run cfg c { presentedAt cfg c m with spot := .wait .clear }).setSpot m.spot)).as (by simp [hbase])

/-- Settles O25: frame-empty goes to the write-back, and that to DECODE. -/
theorem frameEmptyEndsTheWait : Obligations.FrameEmptyEndsTheWait := by
  unfold Obligations.FrameEmptyEndsTheWait
  refine ⟨fun h hb hp => ⟨fun hw hfe => ?_, fun hw => ?_⟩, fun s m c hm hb hp hfe => ?_⟩
  · exact ⟨_, (advance_wait hb hp).trans (phaseWait_fe hw hfe), readClock_run ..⟩
  · have hstep := (advance_wait hb hp).trans (phaseWait_clear hw)
    exact ⟨writeCsr h.cfg h.m.cs h.m, writeCsr_run .., fun hpc => by rw [hstep, endWait_wait (by simpa using hpc), writeCsr_ss],
      fun hpc => by rw [hstep, endWait_contWait (by simpa using hpc), writeCsr_nAnn]⟩
  · have hrun := writtenBack_run s.cfg c m
    have hexec := exec_csr_fe hm hb hp hfe
    have hlast := writeCsr_tLast s.cfg c { presentedAt s.cfg c m with spot := .wait .clear }
    rw [← endWait_setSpot _ m.spot] at hexec
    generalize { writeCsr s.cfg c { presentedAt s.cfg c m with spot := .wait .clear } with spot := m.spot } = m' at hrun hexec
    have hpc : m'.pc = m.pc := hrun.field Master.pc fun _ _ _ _ _ => rfl
    have hss : m'.ss = m.ss := hrun.field Master.ss fun _ _ _ _ _ => rfl
    have hn : m'.nAnn = m.nAnn := hrun.field Master.nAnn fun _ _ _ _ _ => rfl
    have ht : m'.tLast = (presentedAt s.cfg c m).tLast := hrun.field Master.tLast fun _ _ _ _ _ => rfl
    rw [← ht] at hrun
    exact ⟨m', hrun, fun hw => ht.trans ((waitReads_then (presentedAt_run s.cfg c m)).2.1 hw), fun hw => by rw [hexec, endWait_wait (hpc.trans hw), hss],
      fun hw => by rw [hexec, endWait_contWait (hpc.trans hw), hn]⟩

theorem beginWait_run (cfg : Config) (m : Master) :
    PortRun cfg { m with tLast := (beginWait cfg m).time, prev := none } (beginWait cfg m) [] 0 :=
  (readClock_run cfg m).map (fun x => { x with tLast := (beginWait cfg m).time, prev := none }) fun _ _ _ _ _ => rfl

/-- A presented value without frame-empty is tested as by the block's own step, and nothing follows. -/
theorem exec_csr_noFe {s : State} {m m' : Master} {c : Csr} (hm : HeldInHand s m) (hb : m.bare = none) (hp : m.pc = .wait ∨ m.pc = .contWait)
    (h : phaseWait ⟨s.cfg, presented s.cfg c m, s.mem⟩ =
      if m'.pc = .leave then .go ⟨s.cfg, m', s.mem⟩ else .pause ⟨s.cfg, m', s.mem⟩) :
    Machine.exec (.csr false c) s = .next (s.putMaster m') := by
  have hpc : (presented s.cfg c m).pc = .wait ∨ (presented s.cfg c m).pc = .contWait := by rwa [presented, waitReads_pc]
  have hb' : (presented s.cfg c m).bare = none := (waitReads_bare s.cfg c (waitSpot m) m).trans hb
  have hstep := (advance_wait (h := Hand.withM ⟨s.cfg, m, s.mem⟩ (presented s.cfg c m)) hb' hpc).trans h
  refine (exec_csr_waiting hm hb hp).trans ?_
  by_cases hl : m'.pc = .leave
  · rw [if_pos hl] at hstep
    have hstop : inWait m' = false := by simp [inWait, hl]
    exact withHand_go hm ((runWhile_go (inWait_of hpc) hstep).trans (runWhile_stop hstop))
  · rw [if_neg hl] at hstep
    exact withHand_pause hm (runWhile_end (inWait_of hpc) hstep fun _ e => by cases e)

/-- Settles O26: the steps of a command's wait, the tests on the clock just read. -/
theorem waitIterationWithoutFrameEmpty : Obligations.WaitIterationWithoutFrameEmpty := by
  unfold Obligations.WaitIterationWithoutFrameEmpty
  intro tested
  refine ⟨fun h hb hp hpr => ⟨fun hw => ?_, fun hw => ?_, fun d hw => ?_, fun hw hfe => ?_⟩, fun s m c hm hb hp hfe hpr => ?_⟩
  · exact ⟨beginWait h.cfg h.m, beginWait_run .., (advance_wait hb hp).trans (by simp only [phaseWait, hw, waitStep])⟩
  · exact ⟨fetchStatus h.cfg h.m, fetchStatus_run .., (advance_wait hb hp).trans (by simp only [phaseWait, hw, waitStep])⟩
  · exact ⟨advanceTime h.cfg d h.m, advanceTime_run .., (advance_wait hb hp).trans (by simp only [phaseWait, hw, waitStep])⟩
  · have hstep := (advance_wait hb hp).trans (phaseWait_noFe hw hfe)
    have hcs := readClock_cs h.cfg h.m
    have hpc : (sleeping h.cfg (readClock h.cfg h.m)).pc ≠ .leave := by
      rcases hp with hp | hp <;> simp [sleeping, hp]
    have hlast := lastProgress_eitherCount hpr (readClock h.cfg h.m)
    have hsleep := sleeping_run (cfg := h.cfg) hcs
    rw [hcs] at hlast
    refine ⟨readClock h.cfg h.m, readClock_run .., ?_⟩
    simp only [tested, ← hlast]
    split
    next h1 => exact hstep.trans (if_pos h1)
    next h1 =>
      have hstep := hstep.trans (if_neg h1)
      split
      next h2 => exact hstep.trans (if_pos h2)
      next h2 => exact ⟨_, hsleep, (hstep.trans (if_neg h2)).trans (if_neg hpc).symm⟩
  · obtain ⟨hrun, hkept, hbegun⟩ := waitReads_then (presentedAt_run s.cfg c m)
    have hstep := phaseWait_noFe (h := ⟨s.cfg, presented s.cfg c m, s.mem⟩) rfl hfe
    have hcs : (readClock s.cfg (presented s.cfg c m)).cs = c := readClock_cs ..
    have hlast := lastProgress_eitherCount hpr (presentedAt s.cfg c m)
    have hpc : (sleeping s.cfg (readClock s.cfg (presented s.cfg c m))).pc ≠ .leave := by
      rcases hp with hp | hp <;> simp [sleeping, presented, waitReads_pc, hp]
    have hsleep := sleeping_run (cfg := s.cfg) hcs
    rw [show (presentedAt s.cfg c m).cs = c from hcs] at hlast
    refine ⟨presentedAt s.cfg c m, hrun, hkept, hbegun, ?_⟩
    simp only [tested, ← hlast]
    split
    next h1 => exact exec_csr_noFe hm hb hp (hstep.trans (if_pos h1))
    next h1 =>
      have hstep := hstep.trans (if_neg h1)
      split
      next h2 => exact exec_csr_noFe hm hb hp (hstep.trans (if_pos h2))
      next h2 => exact ⟨_, hsleep.setSpot m.spot, exec_csr_noFe hm hb hp ((hstep.trans (if_neg h2)).trans (if_neg hpc).symm)⟩

/-! ### A wait called by itself (log 14) -/

theorem advance_bare {h : Hand} {w : WaitSpot} (hb : h.m.bare = some w) : advance h = bareStep w h := by simp [advance, hb]

theorem bareStep_fe {h : Hand} (hfe : h.m.cs.fe = true) :
    bareStep .test h = .go (h.withM { readClock h.cfg h.m with bare := some .clear }) := by
  simp only [bareStep, waitStep, waitTest_fe hfe]

theorem bareStep_noFe {h : Hand} (hfe : h.m.cs.fe = false) : bareStep .test h =
    if capacity h.m.cs.fsz ≤ h.m.cs.nrs.toNat then
      .done (h.withM { readClock h.cfg h.m with bare := none }) h.m.lock.owner (.prim .waitOverflow)
    else if waitTimeout < (readClock h.cfg h.m).time - lastProgress h.cfg (readClock h.cfg h.m) then
      .done (h.withM { readClock h.cfg h.m with tLast := lastProgress h.cfg (readClock h.cfg h.m), bare := none }) h.m.lock.owner
        (.prim .waitTimeout)
    else .pause (h.withM { sleeping h.cfg (readClock h.cfg h.m) with bare := some (.wake (waitSleep h.m.cs)) }) := by
  by_cases h1 : capacity h.m.cs.fsz ≤ h.m.cs.nrs.toNat
  · simp only [bareStep, waitStep, waitTest_noFe hfe, h1, if_true, WaitEnd.result]
  · by_cases h2 : waitTimeout < (readClock h.cfg h.m).time - lastProgress h.cfg (readClock h.cfg h.m)
    · simp only [bareStep, waitStep, waitTest_noFe hfe, h1, h2, if_true, if_false, WaitEnd.result]
    · simp only [bareStep, waitStep, waitTest_noFe hfe, h1, h2, if_false]

/-- The answer of a wait called by itself, whose Master is `m'` after it. -/
abbrev BareAnswers (s : State) (f : Hand → Adv) (m m' : Master) (r : PrimResult) : Prop :=
  withHand s f = .next ((s.putMaster { m' with bare := none }).post m.lock.owner (.prim r))

/-- An instruction on the Master in hand that comes to the tests of a wait called by itself, of the value `c` in the Master `t`. -/
structure ComesToTests (s : State) (f : Hand → Adv) (m t : Master) (c : Csr) : Prop where
  runs : f ⟨s.cfg, m, s.mem⟩ = runWhile (·.bare.isSome) 2 ⟨s.cfg, t, s.mem⟩
  bare : t.bare = some .test
  cs : t.cs = c
  lock : t.lock = m.lock
  base : t.base = m.base

/-- The Master when the clock of those tests has been read, with its own `bare`. -/
def testedAt (cfg : Config) (m t : Master) : Master := { readClock cfg t with bare := m.bare }

theorem ComesToTests.fe {s : State} {f : Hand → Adv} {m t : Master} {c : Csr} (h : ComesToTests s f m t c) (hm : HeldInHand s m)
    (hfe : c.fe = true) : ∃ m2, PortRun s.cfg (testedAt s.cfg m t) m2 [.write (m.base + s.cfg.csrOff) (packCsr s.cfg.layout.csr c)] 0 ∧
      BareAnswers s f m m2 .ok := by
  obtain ⟨hruns, hb, rfl, hl, hbase⟩ := h
  have htest := (advance_bare (h := ⟨s.cfg, t, s.mem⟩) hb).trans (bareStep_fe hfe)
  let t1 : Master := { readClock s.cfg t with bare := some .clear }
  have hclear : advance ⟨s.cfg, t1, s.mem⟩ =
      .done ⟨s.cfg, { writeCsr s.cfg t1.cs t1 with bare := none }, s.mem⟩ t1.lock.owner (.prim .ok) := rfl
  have hcs : t1.cs = t.cs := readClock_cs ..
  have hlock : t1.lock = m.lock := (readClock_lock ..).trans hl
  have hbase1 : t1.base = m.base := (readClock_base ..).trans hbase
  rw [hcs, hlock] at hclear
  have hwrite := ((writeCsr_run s.cfg t.cs t1).setBare m.bare).as (new' := [.write (m.base + s.cfg.csrOff) (packCsr s.cfg.layout.csr t.cs)])
    (by rw [hbase1])
  refine ⟨_, hwrite, withHand_done hm (hruns.trans ?_)⟩
  exact (runWhile_go (by simp [hb]) htest).trans (runWhile_end rfl hclear fun _ e => by cases e)

theorem ComesToTests.noFe {s : State} {f : Hand → Adv} {m t : Master} {c : Csr} (h : ComesToTests s f m t c) (hm : HeldInHand s m)
    (hfe : c.fe = false) :
    if capacity c.fsz ≤ c.nrs.toNat then BareAnswers s f m (testedAt s.cfg m t) .waitOverflow
    else if waitTimeout < (testedAt s.cfg m t).time - lastProgress s.cfg (testedAt s.cfg m t) then
      BareAnswers s f m { testedAt s.cfg m t with tLast := lastProgress s.cfg (testedAt s.cfg m t) } .waitTimeout
    else ∃ m2, PortRun s.cfg { testedAt s.cfg m t with tLast := lastProgress s.cfg (testedAt s.cfg m t), prev := some (c.nrq, c.nrs) } m2
          [.sleep (waitSleep c)] 0 ∧
        withHand s f = .next (s.putMaster { m2 with bare := some (.wake (waitSleep c)) }) := by
  obtain ⟨hruns, hb, rfl, hl, hbase⟩ := h
  have htest := (advance_bare (h := ⟨s.cfg, t, s.mem⟩) hb).trans (bareStep_noFe hfe)
  have hgo : (⟨s.cfg, t, s.mem⟩ : Hand).m.bare.isSome = true := by simp [hb]
  have hcs : (readClock s.cfg t).cs = t.cs := readClock_cs ..
  rw [show (⟨s.cfg, t, s.mem⟩ : Hand).m.lock = m.lock from hl] at htest
  split
  next h1 =>
    exact withHand_done hm (hruns.trans (runWhile_end hgo (htest.trans (if_pos h1)) fun _ e => by cases e))
  next h1 =>
    have htest := htest.trans (if_neg h1)
    split
    next h2 => exact withHand_done hm (hruns.trans (runWhile_end hgo (htest.trans (if_pos h2)) fun _ e => by cases e))
    next h2 =>
      exact ⟨_, (sleeping_run hcs).setBare m.bare,
        withHand_pause hm (hruns.trans (runWhile_end hgo (htest.trans (if_neg h2)) fun _ e => by cases e))⟩

/-- A wait called by itself whose clock and CSR have been read. -/
def bareReads (cfg : Config) (m : Master) : Master :=
  { fetchStatus cfg { beginWait cfg { m with bare := some .start } with bare := some .read } with bare := some .test }

theorem csrAnswer_beginWait_setBare (cfg : Config) (m : Master) (x y : Option WaitSpot) :
    csrAnswer { beginWait cfg { m with bare := x } with bare := y } = csrAnswer (beginWait cfg m) := by
  have ht := (readClock_congr (cfg := cfg) (a := { m with bare := x }) (b := m) rfl rfl rfl rfl).1
  simp [csrAnswer, ht]

theorem bareReads_run (cfg : Config) (m : Master) :
    PortRun cfg { m with cs := unpackCsr cfg.layout.csr (csrAnswer (beginWait cfg m)), tLast := (testedAt cfg m (bareReads cfg m)).tLast,
                         prev := none, csrIn := m.csrIn.tail } (testedAt cfg m (bareReads cfg m))
      [.read (m.base + cfg.csrOff) (csrAnswer (beginWait cfg m))] 0 ∧
    m.time ≤ (testedAt cfg m (bareReads cfg m)).tLast ∧
    (testedAt cfg m (bareReads cfg m)).tLast ≤ (testedAt cfg m (bareReads cfg m)).time := by
  let y : Master := { beginWait cfg { m with bare := some .start } with bare := some .read }
  have hans : csrAnswer y = csrAnswer (beginWait cfg m) := csrAnswer_beginWait_setBare cfg m _ _
  have hcs : csrNow cfg y = unpackCsr cfg.layout.csr (csrAnswer (beginWait cfg m)) := congrArg (unpackCsr cfg.layout.csr) hans
  have hcsr : y.csrIn = m.csrIn := beginWait_csrIn ..
  have hbase : y.base = m.base := beginWait_base ..
  have hbegin := (beginWait_run cfg { m with bare := some .start }).map
    (fun x => { x with bare := some .read, csrIn := y.csrIn.tail, cs := csrNow cfg y }) fun _ _ _ _ _ => rfl
  have hfetch := (fetchStatus_run cfg y).as (new' := [.read (m.base + cfg.csrOff) (csrAnswer (beginWait cfg m))]) (by rw [hbase, hans])
  have hclock := readClock_run cfg (bareReads cfg m)
  have hlast : (testedAt cfg m (bareReads cfg m)).tLast = y.time := by
    simp [testedAt, bareReads, y]
  rw [hlast, ← hcs, ← hcsr]
  have hrun := (((hbegin.trans hfetch).setBare (some .test)).trans hclock).setBare m.bare
  refine ⟨hrun.as (by simp), ?_, ?_⟩
  · exact readClock_time_le cfg { m with bare := some .start }
  · exact (hfetch.2.2.1).trans (readClock_time_le cfg (bareReads cfg m))

/-- A wait called by itself comes to its tests. -/
theorem execWait_comes {s : State} {m : Master} : ComesToTests s (fun h => runWhile (·.bare.isSome) 4 (h.withM { h.m with bare := some .start }))
    m (bareReads s.cfg m) (unpackCsr s.cfg.layout.csr (csrAnswer (beginWait s.cfg m))) where
  runs := rfl
  bare := rfl
  cs := congrArg (unpackCsr s.cfg.layout.csr) (csrAnswer_beginWait_setBare s.cfg m _ _)
  lock := by simp [bareReads]
  base := by simp [bareReads]

/-- So does a wait in progress to which a value is presented (log 15). -/
theorem execCsr_comes {s : State} {m : Master} {w : WaitSpot} (c : Csr) (hb : m.bare = some w) :
    ComesToTests s (statusRead c) m { waitReads s.cfg c w m with bare := some .test } c where
  runs := by simp only [statusRead, hb] <;> rfl
  bare := rfl
  cs := rfl
  lock := waitReads_lock s.cfg c w m
  base := (waitReads_run s.cfg c w m).1.base

/-- Settles O27: by its own call, on a value presented, and by the block's own steps, a wait comes to the same tests. -/
theorem waitCalledByItself : Obligations.WaitCalledByItself := by
  unfold Obligations.WaitCalledByItself
  intro sleeps
  refine ⟨?_, ?_, fun h w hb => ?_⟩
  · intro s m bs addr hm w c csr full answers
    have hcomes := execWait_comes (s := s) (m := m)
    obtain ⟨hrun, hlate, htime⟩ := bareReads_run s.cfg m
    have hlast : lastProgress s.cfg (testedAt s.cfg m (bareReads s.cfg m)) = (testedAt s.cfg m (bareReads s.cfg m)).tLast :=
      lastProgress_first (hrun.field Master.prev fun _ _ _ _ _ => rfl)
    have hexec : ∀ o, withHand s (fun h => runWhile (·.bare.isSome) 4 (h.withM { h.m with bare := some .start })) = o →
        Machine.exec (.waitForCompletion bs addr) s = o := fun o h => (execWait.eq_1 bs addr s).trans h
    refine ⟨testedAt s.cfg m (bareReads s.cfg m), hrun, hlate, htime, ?_⟩
    split
    next hfe =>
      obtain ⟨m2, hwrite, hans⟩ := hcomes.fe hm hfe
      exact ⟨m2, hwrite, hexec _ hans⟩
    next hfe =>
      have htests := hcomes.noFe hm (Bool.eq_false_iff.2 hfe)
      rw [hlast] at htests
      split
      next h1 => exact hexec _ ((if_pos h1).mp htests)
      next h1 =>
        have htests := (if_neg h1).mp htests
        split
        next h2 => exact hexec _ ((if_pos h2).mp htests)
        next h2 =>
          obtain ⟨m2, hsleep, hgoes⟩ := (if_neg h2).mp htests
          exact ⟨m2, hsleep, hexec _ hgoes⟩
  · intro s m c w hm hb csr word answers
    have hcomes := execCsr_comes (s := s) c hb
    have hclock := PortRun.keepBare (a := waitReads s.cfg c w m) (readClock_run s.cfg { waitReads s.cfg c w m with bare := some .test })
    rw [waitReads_bare] at hclock
    obtain ⟨hrun, hkept, hbegun⟩ := waitReads_then hclock
    have hcs : (testedAt s.cfg m { waitReads s.cfg c w m with bare := some .test }).cs = c := readClock_cs ..
    have hexec : ∀ o, withHand s (statusRead c) = o → Machine.exec (.csr false c) s = o := fun o h => (execCsr.eq_1 false c s).trans h
    refine ⟨testedAt s.cfg m { waitReads s.cfg c w m with bare := some .test }, hrun, hkept, hbegun, fun hfe => ?_, fun hfe hpr => ?_⟩
    · obtain ⟨m2, hwrite, hans⟩ := hcomes.fe hm hfe
      exact ⟨m2, hwrite, hexec _ hans⟩
    · have htests := hcomes.noFe hm hfe
      rw [lastProgress_eitherCount hpr, hcs] at htests
      intro last
      split
      next h1 => exact hexec _ ((if_pos h1).mp htests)
      next h1 =>
        have htests := (if_neg h1).mp htests
        split
        next h2 => exact hexec _ ((if_pos h2).mp htests)
        next h2 =>
          obtain ⟨m2, hsleep, hgoes⟩ := (if_neg h2).mp htests
          exact ⟨m2, hsleep, hexec _ hgoes⟩
  · refine ⟨fun d hw => ?_, fun hw => ?_, fun hw hfe => ?_, fun hw => ?_, fun hw hfe hpr => ?_⟩ <;> subst hw
    · exact ⟨_, advanceTime_run .., (advance_bare hb).trans rfl⟩
    · exact ⟨_, fetchStatus_run .., (advance_bare hb).trans rfl⟩
    · exact ⟨_, readClock_run .., (advance_bare hb).trans (bareStep_fe hfe)⟩
    · exact ⟨_, writeCsr_run .., (advance_bare hb).trans rfl⟩
    · intro c
      have hstep := (advance_bare hb).trans (bareStep_noFe hfe)
      have hcs := readClock_cs h.cfg h.m
      have hsleep := sleeping_run (cfg := h.cfg) hcs
      have hlast := lastProgress_eitherCount hpr (readClock h.cfg h.m)
      rw [hcs, readClock_prev, readClock_tLast] at hlast
      refine ⟨readClock h.cfg h.m, readClock_run .., ?_⟩
      intro last
      rw [show last = lastProgress h.cfg (readClock h.cfg h.m) from hlast.symm]
      split
      next h1 => exact hstep.trans (if_pos h1)
      next h1 =>
        have hstep := hstep.trans (if_neg h1)
        split
        next h2 => exact hstep.trans (if_pos h2)
        next h2 => exact ⟨_, hsleep, hstep.trans (if_neg h2)⟩

/-! ### The primitives answer whatever the engine gives -/

/-- Settles O33: what reset(), enter() and leave() come to, and a wait that comes to its tests. -/
theorem primitivesAlwaysReturn : Obligations.PrimitivesAlwaysReturn := by
  unfold Obligations.PrimitivesAlwaysReturn
  intro s m hm
  refine ⟨?_, fun f => ?_, fun f => ?_, fun bs a => ?_⟩
  · obtain ⟨-, hends⟩ := resetOp_spec s.cfg m
    refine ⟨_, _, (execReset.eq_1 s).trans (withHand_done hm rfl), ?_⟩
    cases hok : (resetOp s.cfg m).1 <;> simp only [hok, ResetEnds, if_true, Bool.false_eq_true, if_false] at hends
    · exact .inr ⟨rfl, hends⟩
    · exact .inl ⟨rfl, hends.2.2⟩
  · obtain ⟨-, hends⟩ := enterOp_spec s.cfg f m
    generalize hr : enterOp s.cfg f m = r at hends
    obtain ⟨ok, m'⟩ := r
    refine ⟨m', _, exec_enter hm hr, ?_⟩
    cases ok
    · exact .inr ⟨rfl, hends⟩
    · exact .inl ⟨rfl, hends⟩
  · exact ⟨_, (execLeave.eq_1 f s).trans (withHand_go hm rfl), (leaveOp_spec s.cfg f m).2⟩
  · have hexec := execWait.eq_1 bs a s
    have hcomes := execWait_comes (s := s) (m := m)
    by_cases hfe : (unpackCsr s.cfg.layout.csr (csrAnswer (beginWait s.cfg m))).fe = true
    · obtain ⟨m2, -, hans⟩ := hcomes.fe hm hfe
      exact ⟨_, hexec.trans hans⟩
    · have htests := hcomes.noFe hm (Bool.eq_false_iff.2 hfe)
      split at htests
      · exact ⟨_, hexec.trans htests⟩
      · split at htests
        · exact ⟨_, hexec.trans htests⟩
        · obtain ⟨m2, -, hgoes⟩ := htests
          exact ⟨_, hexec.trans hgoes⟩

end Sys2Proof.Machine
end

