-- ==== Sys2Proof/Proofs/ResponsesRead.lean ====
section
/-! A response read in DECODE, by the block's own step and presented as an instruction: the one that fails validation, and the good one by
where it stands. -/

namespace Sys2Proof.Machine

/-! ### Reading the word -/

/-- The Master after a read of RSP. -/
def hasRead (m : Master) (rest : List Word) (H : List Event) (T : Nat) (D : List Nat) (N : Nat) : Master :=
  withClock H T D N { m with rspIn := rest }

/-- A word presented for reading is read, and in DECODE taken. -/
theorem exec_rsp {h : Hand} (r : Rsp) {s : State} (hm : HeldInHand s h.m) (hc : s.cfg = h.cfg) (hmem : s.mem = h.mem) (hp : h.m.pc = .decode) :
    exec (.rsp r) s = settle s (takeResponse (packRsp h.cfg.layout.rsp r) (h.withM (rspReadIs h.cfg (packRsp h.cfg.layout.rsp r) h.m))) := by
  rw [exec, execRsp, withHand_held hm.1 hm.2, hc, hmem, if_pos hp]

/-- Both ways to read the record, from what it does to a Master that has read its word. -/
theorem responds_of_take {h : Hand} {r : Rsp} {out : Word → Master → Hand} (hl : h.cfg.layout.ok) (hp : h.m.pc = .decode)
    (take : ∀ w R H T D N, unpackRsp h.cfg.layout.rsp w = r →
      takeResponse w (h.withM (hasRead h.m R H T D N)) = .go (out w (hasRead h.m R H T D N))) : Responds h r out := by
  obtain ⟨-, -, -, hrsp, -, -⟩ := hl
  refine ⟨fun hb hn hw => ?_, fun s hm hc hmem => ?_⟩
  · have hrun := readRsp_run h.cfg h.m
    obtain ⟨H, T, D, N, heq, -⟩ := hrun.elim
    have hstep := take (rspAnswer h.m) h.m.rspIn.tail H T D N hw
    refine ⟨_, hrun, (advance_decode hp hb hn).trans ?_⟩
    rw [heq]
    exact hstep
  · have hrun := rspReadIs_run h.cfg (packRsp h.cfg.layout.rsp r) h.m
    obtain ⟨H, T, D, N, heq, -⟩ := hrun.elim
    have hstep := take (packRsp h.cfg.layout.rsp r) h.m.rspIn H T D N (unpackRsp_packRsp hrsp r)
    refine ⟨_, hrun, (exec_rsp r hm hc hmem hp).trans ?_⟩
    rw [heq]
    exact congrArg (settle s) hstep

theorem respondsRefused_of_take {h : Hand} {r : Rsp} {why : Refusal} (hl : h.cfg.layout.ok) (hp : h.m.pc = .decode)
    (take : ∀ w R H T D N, unpackRsp h.cfg.layout.rsp w = r → takeResponse w (h.withM (hasRead h.m R H T D N)) = .refuse why) :
    RespondsRefused h r why := by
  obtain ⟨-, -, -, hrsp, -, -⟩ := hl
  refine ⟨fun hb hn hw => ?_, fun s hm hc hmem => ?_⟩
  · obtain ⟨H, T, D, N, heq, -⟩ := (readRsp_run h.cfg h.m).elim
    rw [advance_decode hp hb hn, heq]
    exact take (rspAnswer h.m) h.m.rspIn.tail H T D N hw
  · obtain ⟨H, T, D, N, heq, -⟩ := (rspReadIs_run h.cfg (packRsp h.cfg.layout.rsp r) h.m).elim
    rw [exec_rsp r hm hc hmem hp, heq]
    exact congrArg (settle s) (take (packRsp h.cfg.layout.rsp r) h.m.rspIn H T D N (unpackRsp_packRsp hrsp r))

/-! ### A response that fails validation -/

theorem isFirstAddr_iff (m : Master) (p : Option (Nat × Nat × Bool)) : isFirstAddr m p = true ↔
    ∃ j msg, p = some (0, j, false) ∧ m.msgs[0]? = some msg ∧ msg.noStart = false := by
  match p with
  | none => simp [isFirstAddr]
  | some (n + 1, j, ad) => simp [isFirstAddr]
  | some (0, j, ad) => cases hm : m.msgs[0]? <;> simp [isFirstAddr, hm, atAddress]

theorem takeResponse_bad {w : Word} {h : Hand} {c : Code}
    (hv : validateRsp h.cfg (unpackRsp h.cfg.layout.rsp w) h.m.e (h.m.rem - 1 == 0) = some c) :
    takeResponse w h = .go (h.withM (raiseFailure (.badResponse c w h.m.e)
      (addDiag (diagFor (isFirstAddr h.m (nextPosition h.m)) c) { h.m with rem := h.m.rem - 1, e := h.m.e + 1 }))) := by
  simp only [takeResponse, countResponse, isLast, hv]

/-- Settles O35: the failure is recorded with its word and index. -/
theorem badResponseRaises : Obligations.BadResponseRaises := by
  unfold Obligations.BadResponseRaises
  intro h r c firstAddr hl hp hv hfirst
  have hfirst' : isFirstAddr h.m (nextPosition h.m) = firstAddr := Bool.eq_iff_iff.2 ((isFirstAddr_iff ..).trans hfirst.symm)
  have hdiag : diagFor firstAddr c = if firstAddr = true ∧ c = .ackError then .expectedNack else .failed c := by
    simp [diagFor]
  refine responds_of_take hl hp fun w R H T D N hw => ?_
  subst hw
  refine (takeResponse_bad (h := h.withM (hasRead h.m R H T D N)) hv).trans ?_
  rw [show isFirstAddr (h.withM (hasRead h.m R H T D N)).m (nextPosition (h.withM (hasRead h.m R H T D N)).m) = firstAddr from hfirst', hdiag]
  rfl

/-! ### A good response -/

/-- The Master that has read a good response and counted it. -/
def counted (m : Master) (R : List Word) (H : List Event) (T : Nat) (D : List Nat) (N : Nat) : Master :=
  { hasRead m R H T D N with rem := m.rem - 1, e := m.e + 1 }

/-- A good record read does what its position does with it. -/
theorem responds_good {h : Hand} {r : Rsp} {out : Word → Master → Hand} (hl : h.cfg.layout.ok) (hp : h.m.pc = .decode)
    (hv : validateRsp h.cfg r h.m.e (h.m.rem - 1 == 0) = none)
    (place : ∀ w R H T D N, placeResponse r (nextPosition h.m) (h.withM (counted h.m R H T D N)) = .go (out w (hasRead h.m R H T D N))) :
    Responds h r out := by
  refine responds_of_take hl hp fun w R H T D N hw => ?_
  subst hw
  exact (takeResponse_good (h := h.withM (hasRead h.m R H T D N)) hv).trans (place w R H T D N)

theorem respondsRefused_good {h : Hand} {r : Rsp} {why : Refusal} (hl : h.cfg.layout.ok) (hp : h.m.pc = .decode)
    (hv : validateRsp h.cfg r h.m.e (h.m.rem - 1 == 0) = none)
    (place : ∀ R H T D N, placeResponse r (nextPosition h.m) (h.withM (counted h.m R H T D N)) = .refuse why) : RespondsRefused h r why := by
  refine respondsRefused_of_take hl hp fun w R H T D N hw => ?_
  subst hw
  exact (takeResponse_good (h := h.withM (hasRead h.m R H T D N)) hv).trans (place R H T D N)

/-- At an address item. -/
theorem placeResponse_address {r : Rsp} {h : Hand} {i j : Nat} {ad : Bool} {msg : Message} (hm : h.m.msgs[i]? = some msg)
    (ha : atAddress msg ad = true) : placeResponse r (some (i, j, ad)) h = .go (h.withM { h.m with i := i, j := j, ad := true }) := by
  simp [placeResponse, hm, ha]

/-- At a data item. -/
theorem placeResponse_data {r : Rsp} {h : Hand} {i j : Nat} {ad : Bool} {msg : Message} (hm : h.m.msgs[i]? = some msg)
    (ha : atAddress msg ad = false) :
    placeResponse r (some (i, j, ad)) h = dataResponse r msg j (h.withM { h.m with i := i, j := j, ad := true }) := by
  simp [placeResponse, hm, ha]

theorem dataResponse_write {r : Rsp} {h : Hand} {j : Nat} {msg : Message} (hr : msg.read = false) :
    dataResponse r msg j h = .go (h.withM { h.m with j := j + 1 }) := by
  simp [dataResponse, hr]

theorem dataResponse_noRoom {r : Rsp} {h : Hand} {j : Nat} {msg : Message} (hr : msg.read = true) (hc : msg.cap ≤ j) :
    dataResponse r msg j h = .refuse .bufferTooSmall := by
  simp [dataResponse, hr, hc]

theorem dataResponse_store {r : Rsp} {h : Hand} {j : Nat} {msg : Message} (hr : msg.read = true) (hc : j < msg.cap)
    (hv : ¬(msg.vlr = true ∧ j = 0)) :
    dataResponse r msg j h = .go ⟨h.cfg, { h.m with j := j + 1 }, Memory.write h.mem (msg.buf + j) r.d⟩ := by
  have hv' : (msg.vlr && j == 0) = false := by simpa using hv
  simp [dataResponse, hr, Nat.not_le.2 hc, hv', bufWrite]

theorem dataResponse_length {r : Rsp} {h : Hand} {msg : Message} (hr : msg.read = true) (hc : 0 < msg.cap) (hv : msg.vlr = true) :
    dataResponse r msg 0 h = blockLength r.d ⟨h.cfg, { h.m with j := 1 }, Memory.write h.mem msg.buf r.d⟩ := by
  simp [dataResponse, hr, Nat.not_le.2 hc, hv, bufWrite]

theorem atAddress_eq_false {msg : Message} {ad : Bool} : atAddress msg ad = false ↔ ad = true ∨ msg.noStart = true := by
  cases ad <;> simp [atAddress]

/-- Settles O36: a good response by its position. -/
theorem goodResponseStoresItsByte : Obligations.GoodResponseStoresItsByte := by
  unfold Obligations.GoodResponseStoresItsByte
  refine ⟨fun h r hl hp hv => ⟨fun hn => ?_, fun i j ad msg hn hm => ⟨fun had hns => ?_, fun hd hr => ?_, fun hd hr hc hvl => ?_,
    fun hd hr hc => ?_⟩⟩, fun h hp hb hn => ?_, fun s m r hm hp => ?_⟩
  · refine responds_good hl hp hv fun w R H T D N => ?_
    rw [hn]
    rfl
  · refine responds_good hl hp hv fun w R H T D N => ?_
    rw [hn]
    exact placeResponse_address (h := h.withM (counted h.m R H T D N)) hm (by simp [atAddress, had, hns])
  · refine responds_good hl hp hv fun w R H T D N => ?_
    rw [hn]
    exact (placeResponse_data (h := h.withM (counted h.m R H T D N)) hm (atAddress_eq_false.2 hd)).trans (dataResponse_write hr)
  · refine ⟨Memory.write h.mem (msg.buf + j) r.d, responds_good hl hp hv fun w R H T D N => ?_, fun hwf a => Memory.read_write hwf _ _ _⟩
    rw [hn]
    exact (placeResponse_data (h := h.withM (counted h.m R H T D N)) hm (atAddress_eq_false.2 hd)).trans (dataResponse_store hr hc hvl)
  · refine respondsRefused_good hl hp hv fun R H T D N => ?_
    rw [hn]
    exact (placeResponse_data (h := h.withM (counted h.m R H T D N)) hm (atAddress_eq_false.2 hd)).trans (dataResponse_noRoom hr hc)
  · simp only [advance, hb, phaseStep, hp, phaseDecode, hn]
  · refine ⟨_, ?_, rspReadIs_run ..⟩
    rw [exec, execRsp, withHand_held hm.1 hm.2, if_neg hp]
    rfl

/-! ### The announced length (42_transfer_decode.md R198 to R202) -/

/-- The hand that has stored an announced length at message `i`. -/
def announced (h : Hand) (msg : Message) (i : Nat) (n : Byte) (m : Master) : Hand :=
  ⟨h.cfg, { m with i := i, j := 1, ad := true }, Memory.write h.mem msg.buf n⟩

/-- A good response at the length item of a vlr message announces its length. -/
theorem placeResponse_length {h : Hand} {r : Rsp} {i : Nat} {ad : Bool} {msg : Message} (m : Master) (hmsgs : m.msgs[i]? = some msg)
    (hd : ad = true ∨ msg.noStart = true) (hr : msg.read = true) (hv : msg.vlr = true) (hc : 0 < msg.cap) :
    placeResponse r (some (i, 0, ad)) (h.withM m) = blockLength r.d (announced h msg i r.d m) :=
  (placeResponse_data (h := h.withM m) hmsgs (atAddress_eq_false.2 hd)).trans (dataResponse_length hr hc hv)

theorem blockLength_outOfRange {n : Byte} {h : Hand} (hn : n.toNat < 1 ∨ 32 < n.toNat) :
    blockLength n h = .go (h.withM (raiseFailure (.framing n) { h.m with nAnn := n })) := by
  have hr : lengthInRange n = false := by simp only [lengthInRange, Bool.and_eq_false_imp, decide_eq_true_eq, decide_eq_false_iff_not]; omega
  simp [blockLength, hr]

theorem blockLength_inline {n : Byte} {h : Hand} {longer : List Message} (h1 : 1 ≤ n.toNat) (h2 : n.toNat ≤ 32) (hv : 2 ≤ h.m.ver.toNat)
    (hg : growMessage h.m.msgs h.m.i n.toNat = longer) :
    blockLength n h = .go (h.withM { h.m with nAnn := n, msgs := longer, rem := h.m.rem + n.toNat }) := by
  subst hg
  simp [blockLength, lengthInRange, h1, h2, inlineExtension, hv]

theorem blockLength_continues {n : Byte} {h : Hand} {longer : List Message} (h1 : 1 ≤ n.toNat) (h2 : n.toNat ≤ 32) (hv : h.m.ver.toNat < 2)
    (hr : h.m.rem = 0) (hg : growMessage h.m.msgs h.m.i n.toNat = longer) :
    blockLength n h = .go (h.withM { h.m with nAnn := n, msgs := longer, pc := .contEncode, ss := n.toNat, k := 0 }) := by
  subst hg
  simp [blockLength, lengthInRange, h1, h2, inlineExtension, Nat.not_le.2 hv, hr]

theorem blockLength_notLast {n : Byte} {h : Hand} (h1 : 1 ≤ n.toNat) (h2 : n.toNat ≤ 32) (hv : h.m.ver.toNat < 2) (hr : h.m.rem ≠ 0) :
    blockLength n h = .refuse .blockReadNotLast := by
  simp [blockLength, lengthInRange, h1, h2, inlineExtension, Nat.not_le.2 hv, hr]

/-- Settles O37: the range check fails. -/
theorem lengthOutOfRangeIsAFramingError : Obligations.LengthOutOfRangeIsAFramingError := by
  unfold Obligations.LengthOutOfRangeIsAFramingError
  intro h r i ad msg hl hp hv hn hm hd hr hvl hc hrange
  refine responds_good hl hp hv fun w R H T D N => ?_
  rw [hn]
  exact (placeResponse_length (counted h.m R H T D N) hm hd hr hvl hc).trans (blockLength_outOfRange hrange)

/-- Settles O38: the growth, then the extension of the session, the continuation or no meaning. -/
theorem lengthInRangeExtendsTheMessage : Obligations.LengthInRangeExtendsTheMessage := by
  unfold Obligations.LengthInRangeExtendsTheMessage
  intro h r i ad msg hl hp hv hn hm hd hr hvl hc h1 h2 longer mem
  have hgrow : ∀ R H T D N, growMessage (announced h msg i r.d (counted h.m R H T D N)).m.msgs i r.d.toNat =
      h.m.msgs.set i { msg with length := msg.length + r.d.toNat } := fun _ _ _ _ _ => growMessage_eq hm
  refine ⟨fun hver => responds_good hl hp hv fun w R H T D N => ?_, fun hver hrem => responds_good hl hp hv fun w R H T D N => ?_,
    fun hver hrem => respondsRefused_good hl hp hv fun R H T D N => ?_⟩ <;>
    refine (congrArg (placeResponse r · _) hn).trans ((placeResponse_length (counted h.m R H T D N) hm hd hr hvl hc).trans ?_)
  · exact blockLength_inline h1 h2 hver (hgrow R H T D N)
  · exact blockLength_continues h1 h2 hver hrem (hgrow R H T D N)
  · exact blockLength_notLast h1 h2 hver hrem

end Sys2Proof.Machine
end

