-- ==== Sys2Proof/Proofs/PhaseOrder.lean ====
section
/-! What one step of the block's own can do to the phase and to the recorded failure. -/

namespace Sys2Proof.Machine

/-- The order of the phases (10_state.md R31), the ones that a failure does not end. -/
abbrev phaseOrder : List (Phase × Phase) :=
  [(.size, .enter), (.enter, .enter), (.enter, .capchk), (.capchk, .encode), (.encode, .encode), (.encode, .wait), (.wait, .wait),
    (.wait, .decode), (.decode, .decode), (.decode, .contEncode), (.contEncode, .contEncode), (.contEncode, .contWait),
    (.contWait, .contWait), (.contWait, .decode), (.decode, .leave), (.contEncode, .leave), (.leave, .leave), (.leave, .unlock),
    (.tearReset, .tearReset)]

/-- Where a failure is raised, and with what (60_exceptions.md R252). -/
def RaisedBy (h h' : Hand) : Failure → Prop
  | .unsupportedTenBit => False
  | .unsupportedMultiBlockRead => False
  | .enterFailed c => h.m.pc = .enter ∧ h'.m.mc = .faulted ∧ h'.m.cs = c
  | .overflowDeclared n cap => h.m.pc = .capchk ∧ n = h.m.ss ∧ cap = capacity h.m.fsz ∧ cap < n
  | .overflowWait c => (h.m.pc = .wait ∨ h.m.pc = .contWait) ∧ c = h.m.cs ∧ c.fe = false ∧ capacity c.fsz ≤ c.nrs.toNat
  | .timedOut c => (h.m.pc = .wait ∨ h.m.pc = .contWait) ∧ c = h.m.cs ∧ c.fe = false ∧ waitTimeout < h'.m.time - h'.m.tLast
  | .badResponse c w e => h.m.pc = .decode ∧ w = rspAnswer h.m ∧ e = h.m.e ∧
      validateRsp h.cfg (unpackRsp h.cfg.layout.rsp w) e (h.m.rem - 1 == 0) = some c
  | .framing n => h.m.pc = .decode ∧ n = (unpackRsp h.cfg.layout.rsp (rspAnswer h.m)).d ∧ (n.toNat < 1 ∨ 32 < n.toNat)

/-- What a step to `h'` has done: it follows the order and records nothing, or it raises. -/
def StepsTo (h h' : Hand) : Prop :=
  (h'.m.err = h.m.err ∧ (h.m.pc, h'.m.pc) ∈ phaseOrder) ∨ ∃ f, h'.m.err = some f ∧ h'.m.pc = .leave ∧ RaisedBy h h' f

theorem StepsTo.follows {h h' : Hand} {p : Phase} (q : Phase) (hp : h.m.pc = p) (hq : h'.m.pc = q) (he : h'.m.err = h.m.err)
    (ho : (p, q) ∈ phaseOrder) : StepsTo h h' := .inl ⟨he, by rw [hp, hq]; exact ho⟩

theorem RaisedBy.phase {h h' : Hand} {f : Failure} (r : RaisedBy h h' f) : h.m.pc ∈ [Phase.enter, .capchk, .wait, .decode, .contWait] := by
  cases f with
  | unsupportedTenBit => exact r.elim
  | unsupportedMultiBlockRead => exact r.elim
  | enterFailed c => simp [r.1]
  | overflowDeclared n cap => simp [r.1]
  | overflowWait c => rcases r.1 with h | h <;> simp [h]
  | timedOut c => rcases r.1 with h | h <;> simp [h]
  | badResponse c w e => simp [r.1]
  | framing n => simp [r.1]

/-! ### One response -/

/-- What a good response has done: it keeps the failure, or announces a length out of range. -/
def Placed (n : Byte) (err : Option Failure) (pc : Phase) (h' : Hand) : Prop :=
  (h'.m.err = err ∧ (h'.m.pc = pc ∨ h'.m.pc = .contEncode)) ∨
    (n.toNat < 1 ∨ 32 < n.toNat) ∧ h'.m.err = some (.framing n) ∧ h'.m.pc = .leave

theorem blockLength_go {n : Byte} {h h' : Hand} (e : blockLength n h = .go h') : Placed n h.m.err h.m.pc h' := by
  by_cases hr : n.toNat < 1 ∨ 32 < n.toNat
  · rw [blockLength_outOfRange hr] at e
    cases e
    exact .inr ⟨hr, rfl, rfl⟩
  · obtain ⟨h1, h2⟩ := not_or.1 hr
    have h1 := Nat.not_lt.1 h1
    have h2 := Nat.not_lt.1 h2
    by_cases hv : 2 ≤ h.m.ver.toNat
    · rw [blockLength_inline h1 h2 hv rfl] at e
      cases e
      exact .inl ⟨rfl, .inl rfl⟩
    · by_cases hz : h.m.rem = 0
      · rw [blockLength_continues h1 h2 (Nat.not_le.1 hv) hz rfl] at e
        cases e
        exact .inl ⟨rfl, .inr rfl⟩
      · rw [blockLength_notLast h1 h2 (Nat.not_le.1 hv) hz] at e
        cases e

theorem dataResponse_go {r : Rsp} {msg : Message} {j : Nat} {h h' : Hand} (e : dataResponse r msg j h = .go h') : Placed r.d h.m.err h.m.pc h' := by
  simp only [dataResponse] at e
  split at e
  · cases e
    exact .inl ⟨rfl, .inl rfl⟩
  · split at e
    · cases e
    · split at e
      · exact (blockLength_go e :)
      · cases e
        exact .inl ⟨rfl, .inl rfl⟩

theorem placeResponse_go {r : Rsp} {p : Option (Nat × Nat × Bool)} {h h' : Hand} (e : placeResponse r p h = .go h') : Placed r.d h.m.err h.m.pc h' := by
  have same : ∀ {h h' : Hand}, Adv.go h = .go h' → Placed r.d h.m.err h.m.pc h' := fun e => by cases e; exact .inl ⟨rfl, .inl rfl⟩
  cases p with
  | none => exact same e
  | some p =>
    obtain ⟨i, j, ad⟩ := p
    cases hm : h.m.msgs[i]? with
    | none =>
      simp only [placeResponse, hm] at e
      exact same e
    | some msg =>
      cases ha : atAddress msg ad with
      | true =>
        rw [placeResponse_address hm ha] at e
        cases e
        exact .inl ⟨rfl, .inl rfl⟩
      | false =>
        rw [placeResponse_data hm ha] at e
        exact (dataResponse_go e :)

/-! ### The phases -/

theorem phaseWait_steps {h h' : Hand} (hp : h.m.pc = .wait ∨ h.m.pc = .contWait) (e : phaseWait h = .go h') : StepsTo h h' := by
  have stays : ∀ m1, m1.pc = h.m.pc → m1.err = h.m.err → StepsTo h (h.withM m1) := fun m1 h1 h2 => by
    rcases hp with hp | hp
    · exact .follows .wait hp (h1.trans hp) h2 (by decide)
    · exact .follows .contWait hp (h1.trans hp) h2 (by decide)
  have port := waitStep_portOnly h.cfg (waitSpot h.m) h.m
  cases hw : waitSpot h.m with
  | start =>
    simp only [phaseWait, hw, waitStep] at e
    cases e
    exact stays _ (by simp) (by simp)
  | read =>
    simp only [phaseWait, hw, waitStep] at e
    cases e
    exact stays _ (by simp) (by simp)
  | wake d =>
    simp only [phaseWait, hw, waitStep] at e
    cases e
    exact stays _ (by simp) (by simp)
  | clear =>
    rw [phaseWait_clear hw] at e
    cases e
    rcases hp with hp | hp
    · rw [endWait_wait (by simpa using hp)]
      exact .follows .decode hp rfl (by simp) (by decide)
    · rw [endWait_contWait (by simpa using hp)]
      exact .follows .decode hp rfl (by simp) (by decide)
  | test =>
    cases hfe : h.m.cs.fe with
    | true =>
      rw [phaseWait_fe hw hfe] at e
      cases e
      exact stays _ (by simp) (by simp)
    | false =>
      rw [phaseWait_noFe hw hfe] at e
      split at e
      next h1 =>
        cases e
        exact .inr ⟨_, rfl, rfl, hp, rfl, hfe, h1⟩
      next h1 =>
        split at e
        next h2 =>
          cases e
          exact .inr ⟨_, rfl, rfl, hp, rfl, hfe, h2⟩
        next h2 => cases e

theorem phaseEnter_steps {h h' : Hand} (hp : h.m.pc = .enter) (e : phaseEnter h = .go h') : StepsTo h h' := by
  have port := enterStep_portOnly h.cfg true (enterSpot h.m) h.m
  have hret := fun b => @enterStep_ret h.cfg true (enterSpot h.m) h.m b
  simp only [phaseEnter] at e
  generalize enterStep h.cfg true (enterSpot h.m) h.m = r at *
  split at e
  · cases e
    exact .follows .enter hp (port.pc.trans hp) port.err (by decide)
  · cases e
    exact .follows .capchk hp rfl port.err (by decide)
  next hr =>
    cases e
    exact .inr ⟨_, rfl, rfl, hp, hret false hr, rfl⟩

theorem phaseCapchk_steps {h h' : Hand} (hp : h.m.pc = .capchk) (e : phaseCapchk h = .go h') : StepsTo h h' := by
  simp only [phaseCapchk] at e
  split at e
  next hc =>
    cases e
    exact .inr ⟨_, rfl, rfl, hp, rfl, rfl, hc⟩
  next =>
    cases e
    exact .follows .encode hp (beginSession_pc ..) (beginSession_err ..) (by decide)

theorem emitItem_go {first : Bool} {it : ReqItem} {h h' : Hand} (e : emitItem first it h = .go h') :
    h'.m.pc = h.m.pc ∧ h'.m.err = h.m.err := by
  cases hok : reqOk h.cfg.layout.req it first with
  | false =>
    rw [emitItem_not hok] at e
    cases e
  | true =>
    rw [emitItem_ok hok] at e
    cases e
    simp

theorem phaseEncode_steps {h h' : Hand} (hp : h.m.pc = .encode) (e : phaseEncode h = .go h') : StepsTo h h' := by
  simp only [phaseEncode] at e
  split at e
  · split at e
    · cases e
      exact .follows .wait hp rfl rfl (by decide)
    · split at e
      · cases e
        exact .follows .wait hp rfl rfl (by decide)
      · obtain ⟨h1, h2⟩ := emitItem_go e
        exact .follows .encode hp (h1.trans hp) h2 (by decide)
  · cases e

theorem phaseContEncode_steps {h h' : Hand} (hp : h.m.pc = .contEncode) (e : phaseContEncode h = .go h') : StepsTo h h' := by
  simp only [phaseContEncode] at e
  split at e
  · cases e
    exact .follows .leave hp rfl rfl (by decide)
  · split at e
    · cases e
      exact .follows .contWait hp rfl rfl (by decide)
    · obtain ⟨h1, h2⟩ := emitItem_go e
      exact .follows .contEncode hp (h1.trans hp) h2 (by decide)

theorem phaseDecode_steps {h h' : Hand} (hp : h.m.pc = .decode) (hb : h.m.bare = none) (e : advance h = .go h') : StepsTo h h' := by
  cases hn : nextPosition h.m with
  | none =>
    simp only [advance, hb, phaseStep, hp, phaseDecode, hn] at e
    cases e
    exact .follows .leave hp rfl rfl (by decide)
  | some p =>
    obtain ⟨H, T, D, N, heq, -⟩ := (readRsp_run h.cfg h.m).elim
    rw [advance_decode hp hb (by simp [hn]), show readRsp h.cfg h.m = hasRead h.m h.m.rspIn.tail H T D N from heq] at e
    cases hv : validateRsp h.cfg (unpackRsp h.cfg.layout.rsp (rspAnswer h.m)) h.m.e (h.m.rem - 1 == 0) with
    | some c =>
      rw [takeResponse_bad (h := h.withM (hasRead h.m h.m.rspIn.tail H T D N)) hv] at e
      cases e
      exact .inr ⟨_, rfl, rfl, hp, rfl, rfl, hv⟩
    | none =>
      rw [takeResponse_good (h := h.withM (hasRead h.m h.m.rspIn.tail H T D N)) hv] at e
      obtain ⟨he, hpc | hpc⟩ | ⟨hr, he, hpc⟩ := placeResponse_go e
      · exact .follows .decode hp (hpc.trans hp) he (by decide)
      · exact .follows .contEncode hp hpc he (by decide)
      · exact .inr ⟨_, he, hpc, hp, rfl, hr⟩

theorem phaseLeave_steps {h h' : Hand} (hp : h.m.pc = .leave) (e : phaseLeave h = .go h') : StepsTo h h' := by
  have port := leaveStep_portOnly h.cfg (hadError h.m) (leaveSpot h.m) h.m
  simp only [phaseLeave] at e
  generalize leaveStep h.cfg (hadError h.m) (leaveSpot h.m) h.m = r at *
  split at e <;> cases e
  · exact .follows .leave hp (port.pc.trans hp) port.err (by decide)
  · exact .follows .unlock hp rfl port.err (by decide)

theorem phaseTearReset_steps {h h' : Hand} (hp : h.m.pc = .tearReset) (e : phaseTearReset h = .go h') : StepsTo h h' := by
  have port := resetStep_portOnly h.cfg (resetSpot h.m) h.m
  simp only [phaseTearReset] at e
  generalize resetStep h.cfg (resetSpot h.m) h.m = r at *
  split at e <;> cases e
  exact .follows .tearReset hp (port.pc.trans hp) port.err (by decide)

/-- A step of the command in hand. -/
theorem advance_steps {h h' : Hand} (hb : h.m.bare = none) (e : advance h = .go h') : StepsTo h h' := by
  have hstep : phaseStep h = .go h' := by rwa [advance, hb] at e
  cases hp : h.m.pc <;> simp only [phaseStep, hp] at hstep
  case size =>
    cases hstep
    exact .follows .enter hp rfl rfl (by decide)
  case enter => exact phaseEnter_steps hp hstep
  case capchk => exact phaseCapchk_steps hp hstep
  case encode => exact phaseEncode_steps hp hstep
  case wait => exact phaseWait_steps (.inl hp) hstep
  case decode => exact phaseDecode_steps hp hb e
  case contEncode => exact phaseContEncode_steps hp hstep
  case contWait => exact phaseWait_steps (.inr hp) hstep
  case leave => exact phaseLeave_steps hp hstep
  case tearReset => exact phaseTearReset_steps hp hstep
  all_goals cases hstep

/-- A step of a wait called by itself leaves the sequencer alone. -/
theorem bareStep_go {w : WaitSpot} {h h' : Hand} (e : bareStep w h = .go h') : h'.m.pc = h.m.pc ∧ h'.m.err = h.m.err := by
  have port := waitStep_portOnly h.cfg w h.m
  simp only [bareStep] at e
  generalize waitStep h.cfg w h.m = r at *
  split at e <;> cases e
  exact ⟨port.pc, port.err⟩

/-- Settles O40: a step follows the order, or raises a failure and goes to LEAVE. -/
theorem phasesFollowInOrder : Obligations.PhasesFollowInOrder := by
  unfold Obligations.PhasesFollowInOrder
  intro h h' e
  refine ⟨fun hb => ?_, fun hb => ?_⟩
  · obtain ⟨w, hw⟩ := Option.ne_none_iff_exists'.1 hb
    rw [advance_bare hw] at e
    exact bareStep_go e
  · rcases advance_steps hb e with ⟨he, ho⟩ | ⟨f, he, hpc, hr⟩
    · refine ⟨?_, fun hne => absurd he hne⟩
      generalize (h.m.pc, h'.m.pc) = pq at ho ⊢
      revert pq
      decide
    · refine ⟨?_, fun _ => ⟨hpc, hr.phase⟩⟩
      rw [hpc]
      have := hr.phase
      generalize h.m.pc = p at this ⊢
      revert p
      decide

/-- Settles O41: a failure that a step records is the one it raises. -/
theorem failuresBelongToTheirPhases : Obligations.FailuresBelongToTheirPhases := by
  unfold Obligations.FailuresBelongToTheirPhases
  refine ⟨fun h h' f e hnone hsome => ?_, rfl, fun f => by cases f <;> rfl⟩
  have hraised : RaisedBy h h' f := by
    cases hb : h.m.bare with
    | some w =>
      rw [advance_bare hb] at e
      rw [(bareStep_go e).2, hnone] at hsome
      cases hsome
    | none =>
      rcases advance_steps hb e with ⟨he, -⟩ | ⟨f', he, -, hr⟩
      · rw [he, hnone] at hsome
        cases hsome
      · cases he.symm.trans hsome
        exact hr
  cases f <;> exact hraised

end Sys2Proof.Machine
end

