-- ==== Sys2Proof/Proofs/Commands.lean ====
section
/-! A TRANSFER as a whole: how an accepted one begins, that it always has a step, and how it ends from LEAVE on. -/

namespace Sys2Proof.Machine

/-! ### The end -/

/-- From LEAVE a command runs leave(), frees the lock and answers. -/
theorem leave_ends (h : Hand) (hp : h.m.pc = .leave) (hb : h.m.bare = none) (hs : h.m.spot = .outside) :
    ∃ j h', j < 1031 ∧ Goes (fun _ => true) j h h' ∧
      advance h' = .done (h.withM { leaveOp h.cfg (hadError h.m) h.m with lock := .free, pc := .idle, spot := .outside })
        h.m.lock.owner (transferAnswer h.m) := by
  obtain ⟨j, hj, hgoes⟩ := leave_goes h hp hb hs
  obtain ⟨hport, -⟩ := leaveOp_spec h.cfg (hadError h.m) h.m
  refine ⟨j, _, hj, hgoes, ?_⟩
  have hb' : (leaveOp h.cfg (hadError h.m) h.m).bare = none := hport.bare.trans hb
  simp only [advance, Hand.withM_m, hb', phaseStep, phaseUnlock, transferAnswer, hport.lock, hport.err, hport.msgs]
  rfl

/-- Settles O42: the turn runs from LEAVE to the answer. -/
theorem leaveUnlockAndReturn : Obligations.LeaveUnlockAndReturn := by
  unfold Obligations.LeaveUnlockAndReturn
  intro s m cmd hm hl hp hs hb hcut
  obtain ⟨j, h', hj, hgoes, hend⟩ := leave_ends ⟨s.cfg, m, s.mem⟩ hp hb hs
  have hrun := hgoes.run_end (lt_budget (by omega) m) rfl hend (by simp)
  obtain ⟨hport, -⟩ := leaveOp_spec s.cfg (hadError m) m
  have hspot : (leaveOp s.cfg (hadError m) m).spot = .outside := hport.spot.trans hs
  rw [masterTurn_held hm (by simp [hl]) (inProgress_of_pc (by simp [hp])), hcut, continueCommand, Option.getD_none, hrun]
  simp only [settle, Hand.withM, State.commit, hl]
  rw [← hspot]
  rfl

/-! ### The beginning -/

/-- An accepted TRANSFER takes the lock and runs. -/
theorem exec_accepted {s : State} {handle : Nat} {msgs : List Message} {m : Master} {b : Bus} (h : Accepted s handle msgs m b) :
    exec (.transfer handle msgs) s = settle { s with nextCmd := s.nextCmd + 1, inHand := m.id }
      (continueCommand s.cut ⟨s.cfg, beginTransfer s.nextCmd b.busId msgs m, s.mem⟩) := by
  obtain ⟨hbus, hlock, hu, hl⟩ := h
  rw [execTransfer_of_bus hu hbus, hl]
  exact if_pos hlock

theorem State.master?_commit {s : State} {h : Hand} {y : Master} (hm : s.master? h.m.id = some y) :
    (s.commit h).master? h.m.id = some h.m := State.master?_putMaster hm

/-- Settles O45: the run ends in one of the ways of `RunEnds`, or goes on where it is cut short. -/
theorem acceptedTransferRuns : Obligations.AcceptedTransferRuns := by
  unfold Obligations.AcceptedTransferRuns
  intro s handle msgs m b hinv hacc
  obtain ⟨-, hrising, hok⟩ := hinv
  obtain ⟨hbus, hlock, hu, hl⟩ := id hacc
  have hmem := (State.busOf_mem hbus).1
  have hbare : m.bare = none := ((hok m hmem).2.2.1 hlock).2
  have hm := State.master?_of_mem hrising hmem
  rw [exec_accepted hacc]
  have hfound : ∀ h' : Hand, h'.m.id = m.id →
      ({ s with nextCmd := s.nextCmd + 1, inHand := m.id }.commit h').master? m.id = some h'.m := fun h' e => by
    rw [← e] at hm ⊢
    exact State.master?_commit (s := { s with nextCmd := s.nextCmd + 1, inHand := h'.m.id }) hm
  rcases continueCommand_running (cfg := s.cfg) (cmd := s.nextCmd) (mem := s.mem) (cut := s.cut) hbare hu hl with
    ⟨hcut, h', e, hr⟩ | hends
  · rw [e]
    exact .inl ⟨_, _, rfl, hfound h' hr.id, hr.rid, .inr ⟨hr.lock, rfl, fun hn => absurd hn hcut⟩⟩
  · generalize continueCommand s.cut _ = a at hends ⊢
    cases a with
    | go h' => exact hends.elim
    | pause h' =>
      obtain ⟨hid, hrid, hlk, hpc, hsp⟩ := hends
      exact .inl ⟨_, _, rfl, hfound h' hid, hrid, .inr ⟨hlk, rfl, fun _ => ⟨hpc, hsp⟩⟩⟩
    | done h' c a =>
      obtain ⟨hid, hrid, hlk, hpc, rfl, ha⟩ := hends
      exact .inl ⟨_, _, rfl, hfound h' hid, hrid, .inl ⟨hlk, hpc, a, rfl, ha⟩⟩
    | gone h' c => exact hends.elim
    | refuse r =>
      obtain ⟨rfl, hv⟩ | ⟨rfl, hw⟩ := hends
      · exact .inr (.inl ⟨by simpa using hv, rfl⟩)
      · exact .inr (.inr ⟨hw, rfl⟩)

end Sys2Proof.Machine
end

