-- ==== Sys2Proof/Proofs/CleanRuns.lean ====
section
/-! A TRANSFER whose answers are known, from its beginning to its end: the phases one after another, each with its accesses. -/

namespace Sys2Proof.Machine

/-! ### A TRANSFER on its way -/

/-- What a run of a command does not change. -/
def carried (m : Master) : Nat × Nat × Lock × Nat × List Bus × Option WaitSpot × Nat × List DiagCode × List Blocked :=
  (m.id, m.base, m.lock, m.rid, m.buses, m.bare, m.bus, m.diag, m.waiting)

/-- An accepted TRANSFER runs without being cut short. -/
structure Runs (s : State) (handle : Nat) (msgs : List Message) (m : Master) (b : Bus) : Prop where
  inv : Inv s
  cut : s.cut = none
  accepted : Accepted s handle msgs m b

/-- It has come to `h` after the accesses `acc`. -/
structure Comes (s : State) (m : Master) (busId : Nat) (msgs : List Message) (h : Hand) (acc : List Access) : Prop where
  goes : ∃ n, Goes (fun _ => true) n ⟨s.cfg, beginTransfer s.nextCmd busId msgs m, s.mem⟩ h
  cfg : h.cfg = s.cfg
  kept : carried h.m = carried (beginTransfer s.nextCmd busId msgs m)
  done : accesses h.m = accesses m ++ acc

theorem Comes.base {s : State} {m : Master} {busId : Nat} {msgs : List Message} {h : Hand} {acc : List Access}
    (c : Comes s m busId msgs h acc) : h.m.base = m.base := congrArg (fun p => p.2.1) c.kept

theorem Comes.bare {s : State} {m : Master} {busId : Nat} {msgs : List Message} {h : Hand} {acc : List Access}
    (c : Comes s m busId msgs h acc) : h.m.bare = m.bare := congrArg (fun p => p.2.2.2.2.2.1) c.kept

theorem Comes.bus {s : State} {m : Master} {busId : Nat} {msgs : List Message} {h : Hand} {acc : List Access}
    (c : Comes s m busId msgs h acc) : h.m.bus = busId := congrArg (fun p => p.2.2.2.2.2.2.1) c.kept

theorem Comes.buses {s : State} {m : Master} {busId : Nat} {msgs : List Message} {h : Hand} {acc : List Access}
    (c : Comes s m busId msgs h acc) : h.m.buses = m.buses := congrArg (fun p => p.2.2.2.2.1) c.kept

/-- It goes on by a run of the port. -/
theorem Comes.step {s : State} {m : Master} {busId : Nat} {msgs : List Message} {h h' : Hand} {acc new : List Access} {a : Master} {t n : Nat}
    {g : Master → Bool} (c : Comes s m busId msgs h acc) (hg : Goes g n h h') (hc : h'.cfg = h.cfg) (hrun : PortRun h.cfg a h'.m new t)
    (hk : carried a = carried h.m) (hh : a.hist = h.m.hist) : Comes s m busId msgs h' (acc ++ new) := by
  obtain ⟨k, hgoes⟩ := c.goes
  obtain ⟨H, T, D, N, heq, hacc, -⟩ := hrun.elim
  refine ⟨⟨_, hgoes.trans hg.any⟩, hc.trans c.cfg, ?_, ?_⟩
  · rw [heq]
    exact hk.trans c.kept
  · rw [heq, ← List.append_assoc, ← c.done, accesses, accesses, ← hh]
    exact hacc

/-- What an accepted TRANSFER has come to when it has answered. -/
structure Answered (s t : State) (m m' : Master) (a : Answer) : Prop where
  master : t.master? m.id = some m'
  replies : t.replies = s.replies ++ [⟨s.nextCmd, a⟩]
  nextCmd : t.nextCmd = s.nextCmd + 1
  others : ∀ x ∈ s.masters, x.id ≠ m.id → x ∈ t.masters
  lock : m'.lock = .free
  pc : m'.pc = .idle
  rid : m'.rid = m.rid + 1
  diag : m'.diag = m.diag
  buses : m'.buses = m.buses
  waiting : m'.waiting = m.waiting

/-- From LEAVE on it makes the accesses of leave(), and answers. -/
theorem Comes.leaves {s : State} {handle : Nat} {msgs : List Message} {m : Master} {b : Bus} {h : Hand} {acc : List Access}
    {w0 w1 : Word} {rest drained rspRest : List Word} (r : Runs s handle msgs m b) (c : Comes s m b.busId msgs h acc) (hp : h.m.pc = .leave)
    (hs : h.m.spot = .outside) (hcsr : h.m.csrIn = w0 :: w1 :: rest) (hrsp : h.m.rspIn = drained ++ rspRest)
    (hlen : drained.length = if hadError h.m then 0 else (unpackCsr s.cfg.layout.csr w0).nrs.toNat) :
    ∃ t m', exec (.transfer handle msgs) s = .next t ∧ Answered s t m m' (transferAnswer h.m) ∧ t.mem = h.mem ∧
      m'.mc = (if h.m.mc = .faulted then .faulted else .idle) ∧ m'.err = h.m.err ∧ m'.csrIn = rest ∧ m'.rspIn = rspRest ∧
      accesses m' = accesses m ++ acc ++ ([.read (m.base + s.cfg.csrOff) w0] ++
        drained.map (fun w => .read (m.base + s.cfg.rspOff) w) ++ [.read (m.base + s.cfg.csrOff) w1] ++
        (if dirty (unpackCsr s.cfg.layout.csr w1) then [.write (m.base + s.cfg.csrOff) (armedWord s.cfg w1)] else [])) := by
  obtain ⟨⟨-, hrising, hok⟩, hcut, hacc⟩ := r
  have hmem := (State.busOf_mem hacc.1).1
  have hbare : m.bare = none := ((hok m hmem).2.2.1 hacc.2.1).2
  have hm := State.master?_of_mem hrising hmem
  obtain ⟨n, hgoes⟩ := c.goes
  obtain ⟨j, h', -, hleave, hend⟩ := leave_ends h hp (c.bare.trans hbare) hs
  obtain ⟨hid, hbase, hlock, hrid, hbuses, -, -, hdiag, hwaiting⟩ :
      h.m.id = m.id ∧ h.m.base = m.base ∧ h.m.lock = .held s.nextCmd ∧ h.m.rid = m.rid + 1 ∧ h.m.buses = m.buses ∧ h.m.bare = m.bare ∧
        h.m.bus = b.busId ∧ h.m.diag = m.diag ∧ h.m.waiting = m.waiting := by simpa [carried, beginTransfer] using c.kept
  have hfinal : continueCommand s.cut ⟨s.cfg, beginTransfer s.nextCmd b.busId msgs m, s.mem⟩ = .done
      (h.withM { leaveOp h.cfg (hadError h.m) h.m with lock := .free, pc := .idle, spot := .outside }) s.nextCmd (transferAnswer h.m) := by
    rw [hlock] at hend
    rw [hcut]
    refine (hgoes.trans hleave).ends hend (by simp) fun x hx => ?_
    rcases continueCommand_running (cfg := s.cfg) (cmd := s.nextCmd) (mem := s.mem) (cut := none) hbare hacc.2.2.1 hacc.2.2.2 with ⟨hn, -⟩ | he
    · exact hn rfl
    · rw [continueCommand] at he
      rw [hx] at he
      exact he
  rw [c.cfg] at hfinal
  have hrun := leaveOp_script s.cfg hcsr hrsp hlen
  rw [exec_accepted hacc, hfinal]
  generalize leaveOp s.cfg (hadError h.m) h.m = left at hrun
  have hid' : left.id = m.id := (hrun.field Master.id fun _ _ _ _ _ => rfl).trans hid
  refine ⟨_, { left with lock := .free, pc := .idle, spot := .outside }, rfl, ⟨?_, rfl, rfl, fun x hx hne => ?_, rfl, rfl, ?_, ?_, ?_, ?_⟩, rfl,
    ?_, ?_, ?_, ?_, ?_⟩
  · rw [← hid'] at hm ⊢
    exact State.master?_commit (s := { s with nextCmd := s.nextCmd + 1, inHand := left.id })
      (h := h.withM { left with lock := .free, pc := .idle, spot := .outside }) hm
  · exact mem_putIn_other hx (by rw [← hid'] at hne; exact hne)
  · exact (hrun.field Master.rid fun _ _ _ _ _ => rfl).trans hrid
  · exact (hrun.field Master.diag fun _ _ _ _ _ => rfl).trans hdiag
  · exact (hrun.field Master.buses fun _ _ _ _ _ => rfl).trans hbuses
  · exact (hrun.field Master.waiting fun _ _ _ _ _ => rfl).trans hwaiting
  · exact hrun.field Master.mc fun _ _ _ _ _ => rfl
  · exact hrun.field Master.err fun _ _ _ _ _ => rfl
  · exact hrun.field Master.csrIn fun _ _ _ _ _ => rfl
  · exact hrun.field Master.rspIn fun _ _ _ _ _ => rfl
  · rw [← c.done, ← hbase]
    exact hrun.2.1

/-! ### The phases before the first item -/

/-- The hand in ENTER. -/
def sized (s : State) (m : Master) (busId : Nat) (msgs : List Message) : Hand :=
  ⟨s.cfg, { beginTransfer s.nextCmd busId msgs m with ss := sessionSize msgs, pc := .enter }, s.mem⟩

theorem comes_sized {s : State} {m : Master} {busId : Nat} {msgs : List Message} (hb : m.bare = none) :
    Comes s m busId msgs (sized s m busId msgs) [] where
  goes := ⟨1, .step rfl (by simp [advance, beginTransfer, hb, phaseStep, phaseSize, sized, Hand.withM])⟩
  cfg := rfl
  kept := rfl
  done := (List.append_nil _).symm

/-- A Runs's Master has no wait called by itself. -/
theorem Runs.bare {s : State} {handle : Nat} {msgs : List Message} {m : Master} {b : Bus} (r : Runs s handle msgs m b) : m.bare = none :=
  ((r.inv.2.2 m (State.busOf_mem r.accepted.1).1).2.2.1 r.accepted.2.1).2

/-- A command in the phase `pc`, without a failure, its engine entered. -/
structure Stands (s : State) (m : Master) (busId : Nat) (msgs0 : List Message) (h : Hand) (acc : List Access) (pc : Phase)
    (msgs : List Message) (csrIn rspIn : List Word) (mem : Memory) : Prop extends Comes s m busId msgs0 h acc where
  pc : h.m.pc = pc
  spot : h.m.spot = .outside
  msgs : h.m.msgs = msgs
  err : h.m.err = none
  mc : h.m.mc = .ready
  csrIn : h.m.csrIn = csrIn
  rspIn : h.m.rspIn = rspIn
  mem : h.mem = mem

/-- One step or more from one phase to the next. -/
theorem Stands.step {s : State} {m : Master} {busId : Nat} {msgs0 : List Message} {h h' : Hand} {acc new : List Access} {pc : Phase}
    {msgs : List Message} {csrIn rspIn : List Word} {mem : Memory} {a : Master} {t n : Nat} {g : Master → Bool}
    (c : Stands s m busId msgs0 h acc pc msgs csrIn rspIn mem) (hg : Goes g n h h') (hc : h'.cfg = h.cfg) (hrun : PortRun h.cfg a h'.m new t)
    (hk : carried a = carried h.m) (hh : a.hist = h.m.hist) (hs : a.spot = .outside) (he : a.err = h.m.err) (hmc : a.mc = h.m.mc) :
    Stands s m busId msgs0 h' (acc ++ new) a.pc a.msgs a.csrIn a.rspIn h'.mem where
  toComes := c.toComes.step hg hc hrun hk hh
  pc := hrun.field Master.pc fun _ _ _ _ _ => rfl
  spot := (hrun.field Master.spot fun _ _ _ _ _ => rfl).trans hs
  msgs := hrun.field Master.msgs fun _ _ _ _ _ => rfl
  err := (hrun.field Master.err fun _ _ _ _ _ => rfl).trans (he.trans c.err)
  mc := (hrun.field Master.mc fun _ _ _ _ _ => rfl).trans (hmc.trans c.mc)
  csrIn := hrun.field Master.csrIn fun _ _ _ _ _ => rfl
  rspIn := hrun.field Master.rspIn fun _ _ _ _ _ => rfl
  mem := rfl

/-- On a clean engine with the flag as asked a command comes to CAPCHK with one read. -/
theorem comes_capchk {s : State} {handle : Nat} {msgs : List Message} {m : Master} {b : Bus} {c0 : Word} {rest : List Word}
    (r : Runs s handle msgs m b) (hmc : m.mc ≠ .faulted) (hcsr : m.csrIn = c0 :: rest) (hclean : CleanWord s.cfg c0)
    (hfoe : (unpackCsr s.cfg.layout.csr c0).foe = true) :
    ∃ h, Stands s m b.busId msgs h [.read (m.base + s.cfg.csrOff) c0] .capchk msgs rest m.rspIn s.mem ∧ h.m.ss = sessionSize msgs ∧
      h.m.fsz = (unpackCsr s.cfg.layout.csr c0).fsz ∧ h.m.ver = (unpackCsr s.cfg.layout.csr c0).ver := by
  let h0 := sized s m b.busId msgs
  have hj : Judged s.cfg h0.m true c0 rest [] true c0 rest := by simp [Judged, hclean.1, hfoe]
  obtain ⟨m1, hop, hrun⟩ := enterFrom_clean (m := h0.m) s.cfg hcsr hclean.2 hj
  obtain ⟨j, h', -, hgoes, hend⟩ := enter_goes h0 rfl r.bare rfl
  have hop' : enterOp h0.cfg true h0.m = (true, m1) := (enterOp_of_not_faulted (m := h0.m) hmc).trans hop
  rw [hop'] at hend
  let h1 : Hand := h0.withM { m1 with ver := m1.cs.ver, fsz := m1.cs.fsz, pc := .capchk, spot := .outside }
  have hcs : m1.cs = unpackCsr s.cfg.layout.csr c0 := hrun.field Master.cs fun _ _ _ _ _ => rfl
  have hrun1 : PortRun s.cfg _ h1.m _ 0 := hrun.map
    (fun x => { x with ver := m1.cs.ver, fsz := m1.cs.fsz, pc := .capchk, spot := .outside }) fun _ _ _ _ _ => rfl
  have hcomes := (comes_sized (s := s) (msgs := msgs) (busId := b.busId) r.bare).step (hgoes.trans (.step rfl (h' := h1) hend)) rfl hrun1 rfl rfl
  have field : ∀ {α : Type} (f : Master → α), (∀ x H T D N, f (withClock H T D N x) = f x) → f m1 = f _ := fun f hf => hrun.field f hf
  exact ⟨h1, ⟨hcomes, rfl, rfl, field Master.msgs fun _ _ _ _ _ => rfl, field Master.err fun _ _ _ _ _ => rfl,
    field Master.mc fun _ _ _ _ _ => rfl, field Master.csrIn fun _ _ _ _ _ => rfl, field Master.rspIn fun _ _ _ _ _ => rfl, rfl⟩,
    field Master.ss fun _ _ _ _ _ => rfl, congrArg Csr.fsz hcs, congrArg Csr.ver hcs⟩

/-- Settles O48: CAPCHK raises, and leave() makes its two reads. -/
theorem declaredOverflowWritesNothing : Obligations.DeclaredOverflowWritesNothing := by
  unfold Obligations.DeclaredOverflowWritesNothing
  intro s handle msgs m b c0 c1 c2 rest hinv hcut hacc hmc hcsr csrOf hclean hfoe hsize csr
  have r : Runs s handle msgs m b := ⟨hinv, hcut, hacc⟩
  obtain ⟨h, hst, hss, hfsz, -⟩ := comes_capchk r hmc hcsr hclean hfoe
  have hover : capacity h.m.fsz < h.m.ss := by rwa [hss, hfsz]
  have hstep : advance h = .go (h.withM (raiseFailure (.overflowDeclared h.m.ss (capacity h.m.fsz)) h.m)) := by
    simp [advance, hst.bare, r.bare, phaseStep, hst.pc, phaseCapchk, hover]
  have hcomes := hst.toComes.step (.step (g := fun _ => true) rfl hstep) rfl (PortRun.refl ..) rfl rfl
  obtain ⟨t, m', hexec, hans, hmem, hmc', herr, -, -, hacc'⟩ := hcomes.leaves (drained := []) r rfl rfl hst.csrIn rfl rfl
  refine ⟨t, m', hexec, hans.master, hans.replies, hmem.trans hst.mem, hans.lock, hans.pc, ?_, hans.rid, hans.diag, hans.buses, ?_, ?_⟩
  · rw [hmc']
    simp [hst.mc]
  · rw [herr]
    simp [hss, hfsz, capacity, csrOf]
  · simpa using hacc'

/-- Settles O49: enter() fails, and leave() makes its two reads. -/
theorem failedRecoveryEndsTheTransfer : Obligations.FailedRecoveryEndsTheTransfer := by
  unfold Obligations.FailedRecoveryEndsTheTransfer
  intro s handle msgs m b c c0 r1 r2 r3 r4 l1 l2 rest hinv hcut hacc hmc hcsr hdirty hnot csr
  have r : Runs s handle msgs m b := ⟨hinv, hcut, hacc⟩
  let h0 := sized s m b.busId msgs
  have hends : BackoffEnds s.cfg [r1, r2, r3] r4 := ⟨fun x hx => hnot x (by simp at hx ⊢; tauto), by simp, .inr rfl⟩
  obtain ⟨m1, hop, hrun⟩ := (enterFrom_dirty (m := h0.m) (f := true) s.cfg (pre := [r1, r2, r3]) hcsr hdirty hends).1 (hnot r4 (by simp))
  obtain ⟨j, h', -, hgoes, hend⟩ := enter_goes h0 rfl r.bare rfl
  have hop' : enterOp h0.cfg true h0.m = (false, m1) := (enterOp_of_not_faulted (m := h0.m) hmc).trans hop
  rw [hop'] at hend
  have field : ∀ {α : Type} (f : Master → α), (∀ x H T D N, f (withClock H T D N x) = f x) → f m1 = f _ := fun f hf => hrun.field f hf
  have hcs : m1.cs = unpackCsr s.cfg.layout.csr r4 := field Master.cs fun _ _ _ _ _ => rfl
  have hmc1 : m1.mc = .faulted := field Master.mc fun _ _ _ _ _ => rfl
  have hcomes := (comes_sized (s := s) (msgs := msgs) (busId := b.busId) r.bare).step
    (hgoes.trans (.step rfl (h' := h0.withM (raiseFailure (.enterFailed m1.cs) m1)) hend)) rfl
    (hrun.map (raiseFailure (.enterFailed m1.cs)) fun _ _ _ _ _ => rfl) rfl rfl
  obtain ⟨t, m', hexec, hans, hmem, hmc', herr, -, -, hacc'⟩ := hcomes.leaves (drained := []) r rfl rfl
    (field Master.csrIn fun _ _ _ _ _ => rfl) rfl rfl
  refine ⟨t, m', hexec, hans.master, hans.replies, hmem, hans.lock, hans.pc, ?_, hans.rid, ?_, ?_⟩
  · rw [hmc']
    simp [hmc1]
  · rw [herr]
    simp [hcs]
  · have hbase : h0.m.base = m.base := rfl
    simpa [resetAccesses, backoffAccesses, hbase] using hacc'

/-! ### The session and its wait -/

theorem beginSession_encode {m : Master} (h : m.pc = .encode) : beginSession m = { m with i := 0, j := 0, ad := false, k := 0 } := by
  simp [beginSession, h]

/-- The items of a command on its way are those of its list. -/
theorem Comes.items {s : State} {m : Master} {busId : Nat} {msgs : List Message} {h : Hand} {acc : List Access}
    (c : Comes s m busId msgs h acc) (hmsgs : h.m.msgs = msgs) (hss : h.m.ss = sessionSize msgs) (hmem : h.mem = s.mem) :
    sessionItems h = itemsOf s.cfg m busId msgs s.mem := by
  simp only [sessionItems, itemsOf, msgParams, Master.storeOf, Master.bus?, c.cfg, c.bus, c.buses, hmsgs, hss, hmem]

theorem endWait_withClock (H : List Event) (T : Nat) (D : List Nat) (N : Nat) (x : Master) :
    endWait (withClock H T D N x) = withClock H T D N (endWait x) := by
  by_cases h : x.pc = .contWait <;> simp [endWait, withClock, h]

/-- A wait of a command that finds frame-empty at its first read: one read, the word written back, DECODE. -/
theorem wait_goes {h : Hand} {w : Word} {rest : List Word} (hb : h.m.bare = none) (hp : h.m.pc = .wait ∨ h.m.pc = .contWait)
    (hs : h.m.spot = .outside) (hcsr : h.m.csrIn = w :: rest) (hfe : (unpackCsr h.cfg.layout.csr w).fe = true) :
    ∃ m' T, Goes (fun _ => true) 4 h (h.withM m') ∧
      PortRun h.cfg (endWait { h.m with cs := unpackCsr h.cfg.layout.csr w, csrIn := rest, tLast := T, prev := none, spot := .outside }) m'
        [.read (h.m.base + h.cfg.csrOff) w, .write (h.m.base + h.cfg.csrOff) (packCsr h.cfg.layout.csr (unpackCsr h.cfg.layout.csr w))] 0 := by
  let m1 : Master := { beginWait h.cfg h.m with spot := .wait .read }
  let m2 : Master := { fetchStatus h.cfg m1 with spot := .wait .test }
  let m3 : Master := { readClock h.cfg m2 with spot := .wait .clear }
  let m4 : Master := writeCsr h.cfg m3.cs m3
  have hcsr1 : m1.csrIn = w :: rest := (beginWait_csrIn ..).trans hcsr
  have hcs2 : m2.cs = unpackCsr h.cfg.layout.csr w := (fetchStatus_cs ..).trans (csrNow_cons hcsr1)
  have hcs3 : m3.cs = unpackCsr h.cfg.layout.csr w := (readClock_cs ..).trans hcs2
  have hpc1 : m1.pc = h.m.pc := beginWait_pc ..
  have hpc2 : m2.pc = h.m.pc := (fetchStatus_pc ..).trans hpc1
  have hpc3 : m3.pc = h.m.pc := (readClock_pc ..).trans hpc2
  have hb1 : m1.bare = none := (beginWait_bare ..).trans hb
  have hb2 : m2.bare = none := (fetchStatus_bare ..).trans hb1
  have hb3 : m3.bare = none := (readClock_bare ..).trans hb2
  have hw : waitSpot h.m = .start := by simp [waitSpot, hs]
  have s1 : advance h = .go (h.withM m1) := (advance_wait hb hp).trans (by simp only [phaseWait, hw, waitStep]; rfl)
  have s2 : advance (h.withM m1) = .go (h.withM m2) := advance_wait hb1 (by rwa [← hpc1] at hp)
  have s3 : advance (h.withM m2) = .go (h.withM m3) :=
    (advance_wait hb2 (by rwa [← hpc2] at hp)).trans (phaseWait_fe rfl (by simpa [hcs2] using hfe))
  have s4 : advance (h.withM m3) = .go (h.withM (endWait m4)) := (advance_wait hb3 (by rwa [← hpc3] at hp)).trans (phaseWait_clear rfl)
  have r1 := (beginWait_run h.cfg h.m).map
    (fun x => { x with cs := unpackCsr h.cfg.layout.csr w, csrIn := rest, spot := .outside }) fun _ _ _ _ _ => rfl
  have r2 := (fetchStatus_script h.cfg hcsr1).setSpot .outside
  have r3 := (readClock_run h.cfg m2).setSpot .outside
  have r4 := (writeCsr_run h.cfg m3.cs m3).setSpot .outside
  have run := ((r1.trans r2).trans r3).trans r4
  have hbase1 : m1.base = h.m.base := beginWait_base ..
  have hbase3 : m3.base = h.m.base := (readClock_base ..).trans ((fetchStatus_base ..).trans hbase1)
  refine ⟨endWait m4, (beginWait h.cfg h.m).time, ((Goes.step rfl s1).trans (.step rfl s2)).trans ((Goes.step rfl s3).trans (.step rfl s4)), ?_⟩
  have hend := run.map endWait endWait_withClock
  rw [endWait_setSpot m4] at hend
  exact hend.as (by simp [hbase1, hbase3, hcs3])

theorem advance_command {h : Hand} (hb : h.m.bare = none) : advance h = phaseStep h := by simp only [advance, hb]

/-- The accesses that write the items of a session. -/
def writesOf (s : State) (m : Master) (items : List ReqItem) : List Access :=
  items.mapIdx fun k it => .write (m.base + s.cfg.reqOff) (reqWord s.cfg.layout.req it (k == 0))

theorem Comes.writes {s : State} {m : Master} {busId : Nat} {msgs : List Message} {h : Hand} {acc : List Access}
    (c : Comes s m busId msgs h acc) (items : List ReqItem) : items.mapIdx (itemWrite h) = writesOf s m items := by
  have hwrite : itemWrite h = fun k it => .write (m.base + s.cfg.reqOff) (reqWord s.cfg.layout.req it (k == 0)) := by
    funext k it
    rw [itemWrite, c.base, c.cfg]
  rw [hwrite, writesOf]

/-- On a clean engine whose capacity the session fits, a command writes the session, waits, and comes to DECODE. -/
theorem comes_decode {s : State} {handle : Nat} {msgs : List Message} {m : Master} {b : Bus} {c0 c1 : Word} {rest : List Word}
    (r : Runs s handle msgs m b) (hmc : m.mc ≠ .faulted) (hwidth : sessionSize msgs < 2 ^ s.cfg.layout.req.ssWidth)
    (hcsr : m.csrIn = c0 :: c1 :: rest) (hclean : CleanWord s.cfg c0) (hfoe : (unpackCsr s.cfg.layout.csr c0).foe = true)
    (hsize : sessionSize msgs ≤ 2 ^ (7 + (unpackCsr s.cfg.layout.csr c0).fsz.toNat) - 1) (hfe : (unpackCsr s.cfg.layout.csr c1).fe = true) :
    ∃ h, Stands s m b.busId msgs h ([.read (m.base + s.cfg.csrOff) c0] ++ writesOf s m (itemsOf s.cfg m b.busId msgs s.mem) ++
          [.read (m.base + s.cfg.csrOff) c1, .write (m.base + s.cfg.csrOff) (packCsr s.cfg.layout.csr (unpackCsr s.cfg.layout.csr c1))])
        .decode msgs rest m.rspIn s.mem ∧
      h.m.ver = (unpackCsr s.cfg.layout.csr c0).ver ∧ h.m.e = 0 ∧ h.m.rem = sessionSize msgs ∧ h.m.i = 0 ∧ h.m.j = 0 ∧ h.m.ad = false := by
  obtain ⟨h, hst, hss, hfsz, hver⟩ := comes_capchk r hmc hcsr hclean hfoe
  -- CAPCHK
  have hcap : ¬capacity h.m.fsz < h.m.ss := by rw [hss, hfsz]; exact Nat.not_lt.2 hsize
  let h1 : Hand := h.withM { h.m with i := 0, j := 0, ad := false, k := 0, pc := .encode }
  have hstep : advance h = .go h1 := by
    refine (advance_command (hst.bare.trans r.bare)).trans (Eq.trans (by simp only [phaseStep, hst.pc]; rfl) ((if_neg hcap).trans ?_))
    rw [beginSession_encode rfl]
  have hst1 := hst.step (.step (g := fun _ => true) rfl hstep) rfl (PortRun.refl ..) rfl rfl hst.spot rfl rfl
  -- ENCODE
  have hl := r.accepted.2.2.2
  have hss1 : h1.m.ss = sessionSize msgs := hss
  have hmsgs1 : h1.m.msgs = msgs := hst.msgs
  have hclass : 2 ^ (7 + (unpackCsr s.cfg.layout.csr c0).fsz.toNat) ≤ 2 ^ 10 := Nat.pow_le_pow_right (by decide) (by omega)
  have hpos := sessionSize_pos hl
  obtain ⟨m2, hgoes2, -, hrun2⟩ := encode_goes (h := h1) rfl (hst.bare.trans r.bare) rfl rfl rfl rfl
    (by rw [hmsgs1]; exact payloadsFit_of_listRefusal hl) (by omega) (by omega) (by rw [hss1, hst1.cfg]; exact hwidth)
  have hst2 := hst1.step (h' := h1.withM m2) hgoes2 rfl hrun2 rfl rfl rfl rfl rfl
  have hss2 : m2.ss = sessionSize msgs := (hrun2.field Master.ss fun _ _ _ _ _ => rfl).trans hss1
  have hver2 : m2.ver = (unpackCsr s.cfg.layout.csr c0).ver := (hrun2.field Master.ver fun _ _ _ _ _ => rfl).trans hver
  -- WAIT
  have hfe2 : (unpackCsr (h1.withM m2).cfg.layout.csr c1).fe = true := by rw [hst2.cfg]; exact hfe
  obtain ⟨m3, T, hgoes3, hrun3⟩ := wait_goes (h := h1.withM m2) (hst2.bare.trans r.bare) (.inl hst2.pc) hst2.spot
    (hst2.csrIn.trans hst.csrIn) hfe2
  rw [endWait_wait (by exact hst2.pc)] at hrun3
  have hst3 := hst2.step (h' := h1.withM m3) hgoes3 rfl hrun3 rfl rfl rfl rfl rfl
  have hmem1 : h1.mem = s.mem := hst.mem
  have hitems : (sessionItems h1).mapIdx (itemWrite h1) = writesOf s m (itemsOf s.cfg m b.busId msgs s.mem) := by
    rw [hst1.items hmsgs1 hss1 hmem1, hst1.writes]
  have hbase2 : m2.base = m.base := hst2.base
  have hcfg1 : h1.cfg = s.cfg := hst1.cfg
  refine ⟨h1.withM m3, ?_, ?_, ?_, ?_, ?_, ?_, ?_⟩
  · have hmsgs2 : m2.msgs = msgs := hst2.msgs.trans hmsgs1
    have hrsp2 : m2.rspIn = m.rspIn := hst2.rspIn.trans hst.rspIn
    have hst4 : Stands s m b.busId msgs (h1.withM m3) ([.read (m.base + s.cfg.csrOff) c0] ++ [] ++ (sessionItems h1).mapIdx (itemWrite h1) ++
        [.read (m2.base + h1.cfg.csrOff) c1, .write (m2.base + h1.cfg.csrOff) (packCsr h1.cfg.layout.csr (unpackCsr h1.cfg.layout.csr c1))])
      .decode m2.msgs rest m2.rspIn h1.mem := hst3
    rwa [hitems, hbase2, hcfg1, hmsgs2, hrsp2, hmem1, List.append_nil] at hst4
  · exact (hrun3.field Master.ver fun _ _ _ _ _ => rfl).trans hver2
  · exact hrun3.field Master.e fun _ _ _ _ _ => rfl
  · exact (hrun3.field Master.rem fun _ _ _ _ _ => rfl).trans hss2
  · exact hrun3.field Master.i fun _ _ _ _ _ => rfl
  · exact hrun3.field Master.j fun _ _ _ _ _ => rfl
  · exact hrun3.field Master.ad fun _ _ _ _ _ => rfl

/-! ### The responses, and success -/

theorem storeBytes_nil (msg : Message) (j : Nat) (mem : Memory) : storeBytes msg j [] mem = mem := by
  simp [storeBytes]

theorem storeResponses_nil (l : List Message) (mem : Memory) : storeResponses l [] mem = mem := by
  induction l with
  | nil => rfl
  | cons msg rest ih => simp [storeResponses, storeBytes_nil, ih]

/-- Without responses nothing is stored. -/
theorem storeFrom_nil (l : List Message) (j : Nat) (ad : Bool) (mem : Memory) : storeFrom l j ad [] mem = mem := by
  cases l with
  | nil => rfl
  | cons msg rest => simp [storeFrom, storeBytes_nil, storeResponses_nil]

/-- The accesses that read responses. -/
def readsOf (s : State) (m : Master) (ws : List Word) : List Access := ws.map fun w => .read (m.base + s.cfg.rspOff) w

/-- A run of good responses, none of them a block length. -/
theorem Stands.decodes {s : State} {m : Master} {busId : Nat} {msgs0 msgs : List Message} {h : Hand} {acc : List Access}
    {csrIn rest : List Word} {mem : Memory} (ws : List Word) (c : Stands s m busId msgs0 h acc .decode msgs csrIn (ws ++ rest) mem)
    (hb : m.bare = none) (hlen : ws.length ≤ untilBlock (msgs.drop h.m.i) h.m.j h.m.ad) (hfit : ∀ x ∈ msgs, x.length ≤ x.cap)
    (hgood : ∀ n w, ws[n]? = some w →
      validateRsp s.cfg (unpackRsp s.cfg.layout.rsp w) (h.m.e + BitVec.ofNat 4 n) (h.m.rem - n - 1 == 0) = none) :
    ∃ h', Stands s m busId msgs0 h' (acc ++ readsOf s m ws) .decode msgs csrIn rest h'.mem ∧ h'.m.ver = h.m.ver ∧
      h'.m.e = h.m.e + BitVec.ofNat 4 ws.length ∧ h'.m.rem = h.m.rem - ws.length ∧
      remCount (msgs.drop h'.m.i) h'.m.j h'.m.ad + ws.length = remCount (msgs.drop h.m.i) h.m.j h.m.ad ∧
      untilBlock (msgs.drop h'.m.i) h'.m.j h'.m.ad + ws.length = untilBlock (msgs.drop h.m.i) h.m.j h.m.ad ∧
      ∀ more, storeFrom (msgs.drop h.m.i) h.m.j h.m.ad (ws.map (unpackRsp s.cfg.layout.rsp) ++ more) mem =
        storeFrom (msgs.drop h'.m.i) h'.m.j h'.m.ad more h'.mem := by
  rw [← c.msgs] at hlen hfit ⊢
  rw [← c.cfg] at hgood
  obtain ⟨m', mem', hgoes, hrun, hrem, huntil, hstore⟩ := decode_goes h.cfg rest ws h.m h.mem c.pc (c.bare.trans hb) c.rspIn hlen hfit hgood
  have hst := c.step (h' := ⟨h.cfg, m', mem'⟩) hgoes rfl hrun rfl rfl c.spot rfl rfl
  have hmsgs : m'.msgs = h.m.msgs := hst.msgs
  rw [hmsgs] at hrem huntil hstore
  have hreads : (ws.map fun w => Access.read (h.m.base + h.cfg.rspOff) w) = readsOf s m ws := by rw [c.base, c.cfg, readsOf]
  have hst' : Stands s m busId msgs0 ⟨h.cfg, m', mem'⟩ (acc ++ ws.map fun w => Access.read (h.m.base + h.cfg.rspOff) w)
    h.m.pc h.m.msgs h.m.csrIn rest mem' := hst
  rw [hreads, c.pc, c.csrIn] at hst'
  rw [c.cfg, c.mem] at hstore
  exact ⟨⟨h.cfg, m', mem'⟩, hst', hrun.field Master.ver fun _ _ _ _ _ => rfl, hrun.field Master.e fun _ _ _ _ _ => rfl,
    hrun.field Master.rem fun _ _ _ _ _ => rfl, hrem, huntil, hstore⟩

/-- At the end of the walk a command goes to LEAVE. -/
theorem Stands.walked {s : State} {m : Master} {busId : Nat} {msgs0 msgs : List Message} {h : Hand} {acc : List Access}
    {csrIn rspIn : List Word} {mem : Memory} (c : Stands s m busId msgs0 h acc .decode msgs csrIn rspIn mem)
    (hb : m.bare = none) (hend : remCount (msgs.drop h.m.i) h.m.j h.m.ad = 0) :
    ∃ h', Stands s m busId msgs0 h' acc .leave msgs csrIn rspIn mem := by
  rw [← c.msgs] at hend
  have hstep : advance h = .go (h.withM { h.m with pc := .leave, spot := .outside }) := by
    refine (advance_command (c.bare.trans hb)).trans ?_
    simp only [phaseStep, c.pc, phaseDecode, nextPosition_none hend]
  have hst := c.step (.step (g := fun _ => true) rfl hstep) rfl (PortRun.refl ..) rfl rfl rfl rfl rfl
  have hst' : Stands s m busId msgs0 (h.withM { h.m with pc := .leave, spot := .outside }) (acc ++ []) .leave h.m.msgs h.m.csrIn h.m.rspIn
    h.mem := hst
  rw [List.append_nil, c.msgs, c.csrIn, c.rspIn, c.mem] at hst'
  exact ⟨_, hst'⟩

/-- From LEAVE with nothing left to drain and a clean engine the command succeeds. -/
theorem Stands.succeeds {s : State} {handle : Nat} {msgs0 msgs : List Message} {m : Master} {b : Bus} {h : Hand} {acc : List Access}
    {c2 c3 : Word} {rest rspIn : List Word} {mem : Memory} (r : Runs s handle msgs0 m b)
    (c : Stands s m b.busId msgs0 h acc .leave msgs (c2 :: c3 :: rest) rspIn mem)
    (hnrs : (unpackCsr s.cfg.layout.csr c2).nrs = 0) (hclean : dirty (unpackCsr s.cfg.layout.csr c3) = false) :
    ∃ t m', exec (.transfer handle msgs0) s = .next t ∧ Answered s t m m' (.success msgs) ∧ t.mem = mem ∧ m'.mc = .idle ∧ m'.err = none ∧
      m'.csrIn = rest ∧ m'.rspIn = rspIn ∧
      accesses m' = accesses m ++ acc ++ [.read (m.base + s.cfg.csrOff) c2, .read (m.base + s.cfg.csrOff) c3] := by
  obtain ⟨t, m', hexec, hans, hmem, hmc, herr, hcsr, hrsp, hacc⟩ := c.toComes.leaves (drained := []) r c.pc c.spot c.csrIn c.rspIn
    (by simp [hadError, c.err, hnrs])
  have hanswer : transferAnswer h.m = .success msgs := by simp [transferAnswer, c.err, c.msgs]
  rw [hanswer] at hans
  exact ⟨t, m', hexec, hans, hmem.trans c.mem, by rw [hmc, c.mc]; rfl, herr.trans c.err, hcsr, hrsp, by simpa [hclean] using hacc⟩

theorem Runs.fits {s : State} {handle : Nat} {msgs : List Message} {m : Master} {b : Bus} (r : Runs s handle msgs m b) :
    ∀ x ∈ msgs, x.length ≤ x.cap :=
  fun x hx => (msgRefusal_facts ((listRefusal_facts r.accepted.2.2.2).2.2 x hx)).2.1

/-- Settles O46: ENTER, the session, its wait, its responses, and leave(). -/
theorem cleanTransferSucceeds : Obligations.CleanTransferSucceeds := by
  unfold Obligations.CleanTransferSucceeds
  intro s handle msgs m b c0 c1 c2 c3 csrRest rs rspRest hinv hcut hacc hmc hvlr hwidth hcsr hrsp csrOf hclean hfoe hsize hfe hnrs hdirty
    hlen hgood csr
  have r : Runs s handle msgs m b := ⟨hinv, hcut, hacc⟩
  obtain ⟨h, hst, hver, he, hrem, hi, hj, had⟩ := comes_decode r hmc hwidth hcsr hclean hfoe hsize hfe
  rw [hrsp] at hst
  have hall : untilBlock msgs 0 false = sessionSize msgs := by
    rw [untilBlock_eq msgs 0 false (fun x hx => hvlr x (List.mem_of_mem_drop hx))
      (fun x hx => by simp [atLength, hvlr x (List.mem_of_head? hx)]), remCount_zero]
  obtain ⟨h1, hst1, -, -, -, hrem1, -, hstore⟩ := hst.decodes rs r.bare (by rw [hi, hj, had, List.drop_zero, hall, hlen]) r.fits
    (fun n w hw => by
      have := hgood n w hw
      have hn : n < sessionSize msgs := hlen ▸ (List.getElem?_eq_some_iff.1 hw).1
      have hlast : (sessionSize msgs - n - 1 == 0) = (n + 1 == sessionSize msgs) := by
        rw [Bool.eq_iff_iff]
        simp
        omega
      rw [he, hrem, hlast]
      simpa using this)
  rw [hi, hj, had, List.drop_zero, remCount_zero, hlen] at hrem1
  have hmem := hstore []
  rw [storeFrom_nil, List.append_nil, hi, hj, had, List.drop_zero, storeFrom_zero] at hmem
  obtain ⟨h2, hst2⟩ := hst1.walked r.bare (by omega)
  obtain ⟨t, m', hexec, hans, hmem', hmc', herr, hcsr', hrsp', hacc'⟩ := hst2.succeeds r hnrs hdirty
  exact ⟨t, m', hexec, hans.master, hans.replies, hans.nextCmd, hmem'.trans hmem.symm, hans.others, hans.lock, hans.pc, hmc', hans.rid, herr,
    hans.diag, hans.buses, hans.waiting, hcsr', hrsp', by simpa [writesOf, readsOf] using hacc'⟩

end Sys2Proof.Machine
end

