-- ==== Sys2Proof/Proofs/BlockReads.lean ====
section
/-! A TRANSFER with a block read: the responses up to the announced length, the length, and the responses after it, in the same session or
in its continuation. -/

namespace Sys2Proof.Machine

/-! ### The block read among the messages -/

/-- `v` is the one block read of the list `pre ++ v :: post`. -/
structure OneBlock (pre : List Message) (v : Message) (post : List Message) : Prop where
  before : ∀ x ∈ pre, x.vlr = false
  after : ∀ x ∈ post, x.vlr = false
  vlr : v.vlr = true
  read : v.read = true
  length : 1 ≤ v.length
  room : v.length + 32 ≤ v.cap

theorem countP_vlr_lt {msgs : List Message} (h : unsupported msgs = none) : msgs.countP (·.vlr) < 2 := by
  simp only [unsupported] at h
  split at h
  · cases h
  · split at h
    · cases h
    · omega

theorem oneBlock_of_accepted {pre : List Message} {v : Message} {post : List Message} {busId : Nat} (hu : unsupported (pre ++ v :: post) = none)
    (hl : listRefusal busId (pre ++ v :: post) = none) (hv : v.vlr = true) : OneBlock pre v post := by
  have hone := countP_vlr_lt hu
  rw [List.countP_append, List.countP_cons_of_pos (p := fun x : Message => x.vlr) hv] at hone
  obtain ⟨-, -, hfit⟩ := msgRefusal_facts ((listRefusal_facts hl).2.2 v (by simp))
  obtain ⟨hread, hlen, hroom⟩ := hfit hv
  refine ⟨fun x hx => ?_, fun x hx => ?_, hv, hread, hlen, hroom⟩
  · have h0 : pre.countP (·.vlr) = 0 := by omega
    simpa using List.countP_eq_zero.1 h0 x hx
  · have h0 : post.countP (·.vlr) = 0 := by omega
    simpa using List.countP_eq_zero.1 h0 x hx

/-- The place of the length response in the session. -/
def lengthAt (pre : List Message) (v : Message) : Nat := sessionSize pre + if v.noStart then 0 else 1

theorem sessionSize_append (a b : List Message) : sessionSize (a ++ b) = sessionSize a + sessionSize b := by
  simp [sessionSize]

theorem sessionSize_cons (v : Message) (post : List Message) : sessionSize (v :: post) = (if v.noStart then 0 else 1) + v.length + sessionSize post := by
  simp [sessionSize, msgItemCount]

/-- The size of the session by the place of the length response. -/
theorem sessionSize_block (pre : List Message) (v : Message) (post : List Message) :
    sessionSize (pre ++ v :: post) = lengthAt pre v + v.length + sessionSize post := by
  rw [sessionSize_append, sessionSize_cons, lengthAt]
  omega

theorem OneBlock.untilBlock_eq {pre : List Message} {v : Message} {post : List Message} (o : OneBlock pre v post) :
    untilBlock (pre ++ v :: post) 0 false = lengthAt pre v := by
  obtain ⟨hpre, -, hv, -, hlen, -⟩ := o
  induction pre with
  | nil =>
    have hat : atLength v 0 = true := by simp [atLength, hv]; omega
    cases hns : v.noStart <;> simp [untilBlock, hat, atAddress, hns, lengthAt, sessionSize]
  | cons x xs ih =>
    have hx : atLength x 0 = false := by simp [atLength, hpre x (by simp)]
    have hrest := ih fun y hy => hpre y (by simp [hy])
    rw [List.cons_append, untilBlock, hx, hrest, lengthAt, lengthAt, sessionSize_cons]
    cases hns : x.noStart <;> simp [atAddress, hns] <;> omega

/-- A position at a block read is its own. -/
theorem OneBlock.index {pre : List Message} {v msg : Message} {post : List Message} (o : OneBlock pre v post) {i : Nat}
    (hi : (pre ++ v :: post)[i]? = some msg) (hv : msg.vlr = true) : i = pre.length ∧ msg = v := by
  rcases Nat.lt_trichotomy i pre.length with hlt | rfl | hgt
  · rw [List.getElem?_append_left hlt] at hi
    have := o.before msg (List.mem_of_getElem? hi)
    rw [hv] at this
    cases this
  · simp at hi
    exact ⟨rfl, hi.symm⟩
  · rw [List.getElem?_append_right (by omega), List.getElem?_cons, if_neg (by omega)] at hi
    have := o.after msg (List.mem_of_getElem? hi)
    rw [hv] at this
    cases this

/-- The list with its block read longer. -/
theorem OneBlock.grown_eq {pre : List Message} {v : Message} {post : List Message} (o : OneBlock pre v post) (n : Nat) :
    grown n (pre ++ v :: post) = pre ++ { v with length := v.length + n } :: post := by
  have hsame : ∀ l : List Message, (∀ x ∈ l, x.vlr = false) → l.map (fun x => if x.vlr then { x with length := x.length + n } else x) = l :=
    fun l hl => by
      conv_rhs => rw [← List.map_id l]
      exact List.map_congr_left fun x hx => by simp [hl x hx]
  simp only [grown, List.map_append, List.map_cons, hsame pre o.before, hsame post o.after, o.vlr, if_true]

theorem set_at_block (pre : List Message) (v v' : Message) (post : List Message) :
    (pre ++ v :: post).set pre.length v' = pre ++ v' :: post := by simp

/-! ### What the responses store -/

/-- The responses before the data of a message store what those before it do. -/
theorem storeResponses_split (v : Message) (post : List Message) (R : List Rsp) : ∀ (pre : List Message) (R0 : List Rsp) (mem : Memory),
    R0.length = lengthAt pre v →
    storeResponses (pre ++ v :: post) (R0 ++ R) mem = storeFrom (v :: post) 0 true R (storeResponses pre R0 mem) := by
  intro pre
  induction pre with
  | nil =>
    intro R0 mem hlen
    have hdata : (if v.noStart then R0 ++ R else (R0 ++ R).drop 1) = R := by
      cases hns : v.noStart <;> simp [lengthAt, sessionSize, hns] at hlen
      · obtain ⟨x, rfl⟩ := List.length_eq_one_iff.1 hlen
        simp
      · simp [hlen]
    simp only [List.nil_append, storeResponses, hdata]
    simp [storeFrom, atAddress]
  | cons x xs ih =>
    intro R0 mem hlen
    have hx : lengthAt (x :: xs) v = (if x.noStart then 0 else 1) + x.length + lengthAt xs v := by
      rw [lengthAt, lengthAt, sessionSize_cons]
      omega
    rw [hx] at hlen
    have hdata : (if x.noStart then R0 ++ R else (R0 ++ R).drop 1) = (if x.noStart then R0 else R0.drop 1) ++ R := by
      cases hns : x.noStart <;> simp [hns] at hlen ⊢
      exact List.tail_append_of_ne_nil (by rintro rfl; simp at hlen; omega)
    have hlen' : (if x.noStart then R0 else R0.drop 1).length = x.length + lengthAt xs v := by
      cases hns : x.noStart <;> simp [hns] at hlen ⊢ <;> omega
    rw [List.cons_append, storeResponses, storeResponses, hdata]
    generalize (if x.noStart then R0 else R0.drop 1) = R1 at hlen' ⊢
    rw [List.take_append_of_le_length (by omega), List.drop_append_of_le_length (by omega)]
    exact ih _ _ (by rw [List.length_drop]; omega)

/-- A data byte of a read message, and the responses after it. -/
theorem storeFrom_data {msg : Message} (rest : List Message) {j : Nat} (r : Rsp) (R : List Rsp) (mem : Memory) (hr : msg.read = true)
    (hj : j < msg.length) :
    storeFrom (msg :: rest) j true (r :: R) mem = storeFrom (msg :: rest) (j + 1) true R (bufWrite mem msg j r.d) := by
  obtain ⟨k, hk⟩ : ∃ k, msg.length - j = k + 1 := ⟨msg.length - j - 1, by omega⟩
  have hk' : msg.length - (j + 1) = k := by omega
  simp [storeFrom, atAddress, hr, hk, hk', storeBytes]

/-! ### The run up to the announced length -/

/-- The responses before the length response. -/
theorem Stands.comesToLength {s : State} {m : Master} {busId : Nat} {pre : List Message} {v : Message} {post : List Message} {h : Hand}
    {acc : List Access} {csrIn rest : List Word} {mem : Memory} (ws : List Word) (o : OneBlock pre v post)
    (c : Stands s m busId (pre ++ v :: post) h acc .decode (pre ++ v :: post) csrIn (ws ++ rest) mem) (hb : m.bare = none)
    (hfit : ∀ x ∈ pre ++ v :: post, x.length ≤ x.cap) (he : h.m.e = 0) (hrem : h.m.rem = sessionSize (pre ++ v :: post))
    (hi : h.m.i = 0) (hj : h.m.j = 0) (had : h.m.ad = false) (hlen : ws.length = lengthAt pre v)
    (hgood : ∀ k w, ws[k]? = some w → validateRsp s.cfg (unpackRsp s.cfg.layout.rsp w) (BitVec.ofNat 4 k) false = none) :
    ∃ h1 ad, Stands s m busId (pre ++ v :: post) h1 (acc ++ readsOf s m ws) .decode (pre ++ v :: post) csrIn rest
        (storeResponses pre (ws.map (unpackRsp s.cfg.layout.rsp)) mem) ∧
      h1.m.ver = h.m.ver ∧ h1.m.e = BitVec.ofNat 4 (lengthAt pre v) ∧ h1.m.rem = sessionSize (pre ++ v :: post) - lengthAt pre v ∧
      nextPosition h1.m = some (pre.length, 0, ad) ∧ (ad = true ∨ v.noStart = true) := by
  have hsize := sessionSize_block pre v post
  have hv1 := o.length
  obtain ⟨h1, hst, hver, he1, hrem1, hcount, huntil, hstore⟩ := c.decodes ws hb (by rw [hi, hj, had, List.drop_zero, o.untilBlock_eq, hlen]) hfit
    (fun k w hw => by
      have hk := (List.getElem?_eq_some_iff.1 hw).1
      have hlast : (sessionSize (pre ++ v :: post) - k - 1 == 0) = false := beq_false_of_ne (by omega)
      rw [he, hrem, hlast]
      simpa using hgood k w hw)
  rw [hi, hj, had, List.drop_zero] at hcount huntil hstore
  rw [o.untilBlock_eq, hlen] at huntil
  rw [remCount_zero, hlen] at hcount
  have hmsgs := hst.msgs
  obtain ⟨i, ad, msg, rest', hn, -, hmsg, ha, hvlr, -⟩ := nextPosition_length (m := h1.m) (by rw [hmsgs]; omega) (by rw [hmsgs]; omega)
  rw [hmsgs] at hmsg
  obtain ⟨rfl, rfl⟩ := o.index hmsg hvlr
  have hmem := hstore []
  have hsplit := storeResponses_split msg post [] pre (ws.map (unpackRsp s.cfg.layout.rsp)) mem (by simpa using hlen)
  rw [List.append_nil, storeFrom_nil, storeFrom_zero] at hmem
  rw [List.append_nil, storeFrom_nil] at hsplit
  refine ⟨h1, ad, by rwa [← hsplit, hmem], hver, by rw [he1, he, hlen]; simp, by rw [hrem1, hrem, hlen], hn, atAddress_eq_false.1 ha⟩

/-- A block read whose length is announced next. -/
structure AwaitsLength (s : State) (m : Master) (busId : Nat) (pre : List Message) (v : Message) (post : List Message) (h : Hand)
    (acc : List Access) (csrIn rspIn : List Word) (mem : Memory) (ad : Bool) : Prop
    extends Stands s m busId (pre ++ v :: post) h acc .decode (pre ++ v :: post) csrIn rspIn mem where
  next : nextPosition h.m = some (pre.length, 0, ad)
  data : ad = true ∨ v.noStart = true

/-- A response that a command on its way reads in DECODE, by what it does to the Master. -/
theorem Stands.responded {s : State} {m : Master} {busId : Nat} {msgs0 msgs : List Message} {h : Hand} {acc : List Access}
    {csrIn rest : List Word} {mem mem' : Memory} {w : Word} {F : Master → Master}
    (c : Stands s m busId msgs0 h acc .decode msgs csrIn (w :: rest) mem) (hb : m.bare = none) (hn : nextPosition h.m ≠ none)
    (hresp : Responds h (unpackRsp s.cfg.layout.rsp w) fun _ m1 => ⟨h.cfg, F m1, mem'⟩)
    (hF : ∀ H T D N x, F (withClock H T D N x) = withClock H T D N (F x))
    (hkeep : ∀ x, carried (F x) = carried x ∧ (F x).hist = x.hist ∧ (F x).spot = x.spot ∧ (F x).err = x.err ∧ (F x).mc = x.mc) :
    ∃ m', Stands s m busId msgs0 ⟨h.cfg, m', mem'⟩ (acc ++ readsOf s m [w]) (F { h.m with rspIn := rest }).pc (F { h.m with rspIn := rest }).msgs
        (F { h.m with rspIn := rest }).csrIn (F { h.m with rspIn := rest }).rspIn mem' ∧
      PortRun s.cfg (F { h.m with rspIn := rest }) m' (readsOf s m [w]) 0 := by
  have hans : rspAnswer h.m = w := rspAnswer_cons c.rspIn
  obtain ⟨m1, hrun, hstep⟩ := hresp.1 (c.bare.trans hb) hn (by rw [c.cfg, hans])
  have hrun' : PortRun h.cfg { h.m with rspIn := rest } m1 (readsOf s m [w]) 0 := by
    rw [c.rspIn, hans, c.base] at hrun
    rw [readsOf, ← c.cfg]
    exact hrun
  have hmap := hrun'.map F hF
  obtain ⟨hk, hh, hs, he, hm⟩ := hkeep { h.m with rspIn := rest }
  exact ⟨F m1, c.step (.step (g := fun _ => true) rfl hstep) rfl hmap hk hh (hs.trans c.spot) he hm, c.cfg ▸ hmap⟩

/-- The length in the same session (42_transfer_decode.md R201). -/
theorem AwaitsLength.extends {s : State} {m : Master} {busId : Nat} {pre : List Message} {v : Message} {post : List Message} {h : Hand}
    {acc : List Access} {csrIn rest : List Word} {mem : Memory} {ad : Bool} {w : Word} {n : Nat} (o : OneBlock pre v post)
    (c : AwaitsLength s m busId pre v post h acc csrIn (w :: rest) mem ad) (hb : m.bare = none) (hl : s.cfg.layout.ok)
    (hgood : validateRsp s.cfg (unpackRsp s.cfg.layout.rsp w) h.m.e (h.m.rem - 1 == 0) = none)
    (hn : (unpackRsp s.cfg.layout.rsp w).d.toNat = n) (hn1 : 1 ≤ n) (hn2 : n ≤ 32) :
    (2 ≤ h.m.ver.toNat → ∃ h', Stands s m busId (pre ++ v :: post) h' (acc ++ readsOf s m [w]) .decode (grown n (pre ++ v :: post)) csrIn rest
        (Memory.write mem v.buf (unpackRsp s.cfg.layout.rsp w).d) ∧
      h'.m.e = h.m.e + 1 ∧ h'.m.rem = h.m.rem - 1 + n ∧ h'.m.i = pre.length ∧ h'.m.j = 1 ∧ h'.m.ad = true) ∧
    (h.m.ver.toNat < 2 → h.m.rem - 1 = 0 →
      ∃ h', Stands s m busId (pre ++ v :: post) h' (acc ++ readsOf s m [w]) .contEncode (grown n (pre ++ v :: post)) csrIn rest
          (Memory.write mem v.buf (unpackRsp s.cfg.layout.rsp w).d) ∧
        h'.m.nAnn.toNat = n ∧ h'.m.k = 0 ∧ h'.m.i = pre.length ∧ h'.m.j = 1 ∧ h'.m.ad = true) := by
  have hall := lengthInRangeExtendsTheMessage
  unfold Obligations.LengthInRangeExtendsTheMessage at hall
  subst hn
  have hmsg : h.m.msgs[pre.length]? = some v := by rw [c.msgs]; simp
  have hroom := o.room
  have hnext : nextPosition h.m ≠ none := by rw [c.next]; simp
  have hgrown : h.m.msgs.set pre.length { v with length := v.length + (unpackRsp s.cfg.layout.rsp w).d.toNat } =
      grown (unpackRsp s.cfg.layout.rsp w).d.toNat (pre ++ v :: post) := by rw [c.msgs, set_at_block, o.grown_eq]
  obtain ⟨hinline, hcont, -⟩ := hall h (unpackRsp s.cfg.layout.rsp w) pre.length ad v (by rw [c.cfg]; exact hl) c.pc
    (by rw [c.cfg]; exact hgood) c.next hmsg c.data o.read o.vlr (by omega) hn1 hn2
  rw [hgrown, c.mem] at hinline hcont
  refine ⟨fun hver => ?_, fun hver hrem => ?_⟩
  · obtain ⟨m', hst, hrun⟩ := c.toStands.responded hb hnext (hinline hver) (fun _ _ _ _ _ => rfl) fun _ => ⟨rfl, rfl, rfl, rfl, rfl⟩
    have hst' : Stands s m busId (pre ++ v :: post) _ _ h.m.pc _ h.m.csrIn rest _ := hst
    rw [c.pc, c.csrIn] at hst'
    exact ⟨_, hst', hrun.field Master.e fun _ _ _ _ _ => rfl, hrun.field Master.rem fun _ _ _ _ _ => rfl,
      hrun.field Master.i fun _ _ _ _ _ => rfl, hrun.field Master.j fun _ _ _ _ _ => rfl, hrun.field Master.ad fun _ _ _ _ _ => rfl⟩
  · obtain ⟨m', hst, hrun⟩ := c.toStands.responded hb hnext (hcont hver hrem) (fun _ _ _ _ _ => rfl) fun _ => ⟨rfl, rfl, rfl, rfl, rfl⟩
    have hst' : Stands s m busId (pre ++ v :: post) _ _ .contEncode _ h.m.csrIn rest _ := hst
    rw [c.csrIn] at hst'
    exact ⟨_, hst', congrArg BitVec.toNat (hrun.field Master.nAnn fun _ _ _ _ _ => rfl), hrun.field Master.k fun _ _ _ _ _ => rfl,
      hrun.field Master.i fun _ _ _ _ _ => rfl, hrun.field Master.j fun _ _ _ _ _ => rfl, hrun.field Master.ad fun _ _ _ _ _ => rfl⟩

/-- The responses after the length: those of the longer message and of the messages after it. -/
theorem Stands.finishes {s : State} {m : Master} {busId : Nat} {pre : List Message} {v : Message} {post msgs0 : List Message} {h : Hand}
    {acc : List Access} {csrIn rest : List Word} {mem : Memory} {n : Nat} (ws : List Word) (o : OneBlock pre v post)
    (c : Stands s m busId msgs0 h acc .decode (grown n (pre ++ v :: post)) csrIn (ws ++ rest) mem) (hb : m.bare = none)
    (hfit : ∀ x ∈ pre ++ v :: post, x.length ≤ x.cap) (hn : n ≤ 32) (hi : h.m.i = pre.length) (hj : h.m.j = 1) (had : h.m.ad = true)
    (hlen : ws.length = v.length + n - 1 + sessionSize post)
    (hgood : ∀ k w, ws[k]? = some w →
      validateRsp s.cfg (unpackRsp s.cfg.layout.rsp w) (h.m.e + BitVec.ofNat 4 k) (h.m.rem - k - 1 == 0) = none) :
    ∃ h', Stands s m busId msgs0 h' (acc ++ readsOf s m ws) .leave (grown n (pre ++ v :: post)) csrIn rest
      (storeFrom ({ v with length := v.length + n } :: post) 1 true (ws.map (unpackRsp s.cfg.layout.rsp)) mem) := by
  rw [o.grown_eq] at c ⊢
  have hdrop : (pre ++ { v with length := v.length + n } :: post).drop pre.length = { v with length := v.length + n } :: post := by simp
  have hcount : remCount ({ v with length := v.length + n } :: post) 1 true = ws.length := by
    simp [remCount, atAddress, hlen]
  have hall : untilBlock ({ v with length := v.length + n } :: post) 1 true = ws.length := by
    rw [untilBlock_eq _ 1 true (fun x hx => o.after x (by simpa using hx)) (fun x hx => by simp [atLength]), hcount]
  have hroom := o.room
  obtain ⟨h1, hst, -, -, -, hcount1, -, hstore⟩ := c.decodes ws hb (by rw [hi, hj, had, hdrop, hall])
    (fun x hx => by
      rcases List.mem_append.1 hx with hx | hx
      · exact hfit x (by simp [hx])
      · rcases List.mem_cons.1 hx with rfl | hx
        · show v.length + n ≤ v.cap
          omega
        · exact hfit x (by simp [hx])) hgood
  rw [hi, hj, had, hdrop, hcount] at hcount1
  have hmem := hstore []
  rw [storeFrom_nil, List.append_nil, hi, hj, had, hdrop] at hmem
  obtain ⟨h2, hst2⟩ := hst.walked hb (by omega)
  exact ⟨h2, by rwa [hmem]⟩

/-- The continuation session of a block read, and its wait (42_transfer_decode.md R202 to R204). -/
theorem Stands.continues {s : State} {m : Master} {busId : Nat} {pre : List Message} {v : Message} {post msgs0 : List Message} {h : Hand}
    {acc : List Access} {csrIn rspIn : List Word} {mem : Memory} {n : Nat} {d1 : Word} (o : OneBlock pre v post)
    (c : Stands s m busId msgs0 h acc .contEncode (grown n (pre ++ v :: post)) (d1 :: csrIn) rspIn mem) (hb : m.bare = none)
    (hn : h.m.nAnn.toNat = n) (hk : h.m.k = 0) (hi : h.m.i = pre.length) (hwidth : n < 2 ^ s.cfg.layout.req.ssWidth)
    (hfe : (unpackCsr s.cfg.layout.csr d1).fe = true) :
    ∃ h', Stands s m busId msgs0 h' (acc ++ writesOf s m ((List.range n).map (contItem s.cfg (BitVec.ofNat 4 busId)
          (lookupParams (m.storeOf busId) (BitVec.ofNat 7 v.addr)) n)) ++
        [.read (m.base + s.cfg.csrOff) d1, .write (m.base + s.cfg.csrOff) (packCsr s.cfg.layout.csr (unpackCsr s.cfg.layout.csr d1))])
        .decode (grown n (pre ++ v :: post)) csrIn rspIn mem ∧
      h'.m.e = 0 ∧ h'.m.rem = n ∧ h'.m.i = h.m.i ∧ h'.m.j = h.m.j ∧ h'.m.ad = h.m.ad := by
  have hmsg : h.m.msgs[h.m.i]? = some { v with length := v.length + n } := by rw [c.msgs, o.grown_eq, hi]; simp
  obtain ⟨m1, hgoes1, hrun1⟩ := contEncode_goes c.pc (c.bare.trans hb) hk hmsg (by rw [hn, c.cfg]; exact hwidth)
  have hst1 := c.step (h' := h.withM m1) hgoes1 rfl hrun1 rfl rfl rfl rfl rfl
  have hitems : contItems h { v with length := v.length + n } = (List.range n).map (contItem s.cfg (BitVec.ofNat 4 busId)
      (lookupParams (m.storeOf busId) (BitVec.ofNat 7 v.addr)) n) := by
    simp only [contItems, msgParams, Master.storeOf, Master.bus?, c.cfg, c.bus, c.buses, hn]
  have hn1 : m1.nAnn.toNat = n := (congrArg BitVec.toNat (hrun1.field Master.nAnn fun _ _ _ _ _ => rfl)).trans hn
  have hfe1 : (unpackCsr (h.withM m1).cfg.layout.csr d1).fe = true := by rw [hst1.cfg]; exact hfe
  obtain ⟨m2, T, hgoes2, hrun2⟩ := wait_goes (h := h.withM m1) (hst1.bare.trans hb) (.inr hst1.pc) hst1.spot (hst1.csrIn.trans c.csrIn) hfe1
  rw [endWait_contWait (by exact hst1.pc)] at hrun2
  have hst2 := hst1.step (h' := h.withM m2) hgoes2 rfl hrun2 rfl rfl rfl rfl rfl
  have hbase1 : m1.base = m.base := hst1.base
  have hcfg1 : h.cfg = s.cfg := c.cfg
  have hmsgs1 : m1.msgs = grown n (pre ++ v :: post) := hst1.msgs.trans c.msgs
  have hrsp1 : m1.rspIn = rspIn := hst1.rspIn.trans c.rspIn
  have hst3 : Stands s m busId msgs0 (h.withM m2) (acc ++ (contItems h { v with length := v.length + n }).mapIdx (itemWrite h) ++
        [.read (m1.base + h.cfg.csrOff) d1, .write (m1.base + h.cfg.csrOff) (packCsr h.cfg.layout.csr (unpackCsr h.cfg.layout.csr d1))])
      .decode m1.msgs csrIn m1.rspIn h.mem := hst2
  rw [c.writes, hitems, hbase1, hcfg1, hmsgs1, hrsp1, c.mem] at hst3
  exact ⟨h.withM m2, hst3, hrun2.field Master.e fun _ _ _ _ _ => rfl, (hrun2.field Master.rem fun _ _ _ _ _ => rfl).trans hn1,
    (hrun2.field Master.i fun _ _ _ _ _ => rfl).trans (hrun1.field Master.i fun _ _ _ _ _ => rfl),
    (hrun2.field Master.j fun _ _ _ _ _ => rfl).trans (hrun1.field Master.j fun _ _ _ _ _ => rfl),
    (hrun2.field Master.ad fun _ _ _ _ _ => rfl).trans (hrun1.field Master.ad fun _ _ _ _ _ => rfl)⟩

/-- What all responses of a block read store, dealt to the longer messages. -/
theorem OneBlock.stored {pre : List Message} {v : Message} {post : List Message} (o : OneBlock pre v post) (n : Nat) (A B : List Rsp) (r : Rsp)
    (mem : Memory) (hlen : A.length = lengthAt pre v) :
    storeResponses (grown n (pre ++ v :: post)) (A ++ r :: B) mem =
      storeFrom ({ v with length := v.length + n } :: post) 1 true B (Memory.write (storeResponses pre A mem) v.buf r.d) := by
  have hv1 := o.length
  rw [o.grown_eq, storeResponses_split { v with length := v.length + n } post (r :: B) pre A mem hlen]
  exact storeFrom_data (msg := { v with length := v.length + n }) post r B _ o.read (show 0 < v.length + n by omega)

/-- The last of `size` responses, by those left and by its index. -/
theorem isLast_iff {size k : Nat} (h : k + 1 ≤ size) : (size - k - 1 == 0) = (k + 1 == size) := by
  rw [Bool.eq_iff_iff, beq_iff_eq, beq_iff_eq]
  omega

theorem ofNat_add_one (k : Nat) : BitVec.ofNat 4 k + 1 = BitVec.ofNat 4 (k + 1) :=
  (BitVec.ofNat_add k 1).symm

/-- Settles O47: the session up to the length, the length, and the rest of the session or its continuation. -/
theorem cleanBlockReadSucceeds : Obligations.CleanBlockReadSucceeds := by
  unfold Obligations.CleanBlockReadSucceeds
  intro s handle pre v post m b n c0 c1 c2 c3 csrRest rs rspRest rw0 msgs hinv hcut hlayout hacc hmc hvlr hwidth hn1 hn2 csrOf rspOf csr size at_
    hclean hfoe hsize hfe hnrs hdirty hrsp hlen hr hrd written reads succeeds
  have r : Runs s handle (pre ++ v :: post) m b := ⟨hinv, hcut, hacc⟩
  have o := oneBlock_of_accepted hacc.2.2.1 hacc.2.2.2 hvlr
  have hsz := sessionSize_block pre v post
  have hv1 := o.length
  -- the words: `A` before the length, `rw0` announces it, `B` after it
  have hlen : rs.length = sessionSize (pre ++ v :: post) + n := hlen
  obtain ⟨A, B, rfl, hA⟩ : ∃ A B, rs = A ++ rw0 :: B ∧ A.length = lengthAt pre v :=
    ⟨rs.take (lengthAt pre v), rs.drop (lengthAt pre v + 1), take_drop_split hr, by rw [List.length_take]; omega⟩
  have hB : B.length = v.length + n - 1 + sessionSize post := by
    rw [List.length_append, List.length_cons] at hlen
    omega
  have hstored := o.stored n (A.map rspOf) (B.map rspOf) (rspOf rw0) s.mem (by simpa using hA)
  -- what leave() makes of a run that comes to LEAVE
  have hends : ∀ {middle h acc mem}, Stands s m b.busId (pre ++ v :: post) h acc .leave (grown n (pre ++ v :: post)) (c2 :: c3 :: csrRest) rspRest
      mem → mem = storeResponses (grown n msgs) ((A ++ rw0 :: B).map rspOf) s.mem →
      acc = [.read csr c0] ++ written (itemsOf s.cfg m b.busId msgs s.mem) ++
        [.read csr c1, .write csr (packCsr s.cfg.layout.csr (csrOf c1))] ++ middle → succeeds middle := by
    intro middle h acc mem hst hmem hacc'
    obtain ⟨t, m', hexec, hans, hmem', hmc', herr, hcsr', hrsp', haccs⟩ := hst.succeeds r hnrs hdirty
    exact ⟨t, m', hexec, hans.master, hans.replies, hmem'.trans hmem, hans.others, hans.lock, hans.pc, hmc', hans.rid, herr,
      hans.diag, hans.buses, hans.waiting, hcsr', hrsp', by rw [haccs, hacc']; simp only [List.append_assoc] <;> rfl⟩
  have hwordA : ∀ {k w}, A[k]? = some w → k < lengthAt pre v ∧ (A ++ rw0 :: B)[k]? = some w := fun {k w} hw => by
    have hk := (List.getElem?_eq_some_iff.1 hw).1
    exact ⟨hA ▸ hk, by rw [List.getElem?_append_left hk, hw]⟩
  have hwordB : ∀ {k w}, B[k]? = some w → k < B.length ∧ (A ++ rw0 :: B)[lengthAt pre v + 1 + k]? = some w := fun {k w} hw =>
    ⟨(List.getElem?_eq_some_iff.1 hw).1, by
      rw [List.getElem?_append_right (by omega), show lengthAt pre v + 1 + k - A.length = k + 1 by omega, List.getElem?_cons_succ, hw]⟩
  rw [List.map_append, List.map_cons] at hends
  refine ⟨fun hver hcsr hgood => ?_, fun hver hpost hvlen hnw d1 hd1 hcsr hgood => ?_⟩
  · have hgood : ∀ k w, (A ++ rw0 :: B)[k]? = some w → validateRsp s.cfg (rspOf w) (BitVec.ofNat 4 k)
        (if k = lengthAt pre v then lengthAt pre v + 1 == sessionSize (pre ++ v :: post) else k + 1 == sessionSize (pre ++ v :: post) + n) =
      none := hgood
    obtain ⟨h, hst, hver0, he, hrem, hi, hj, had⟩ := comes_decode r hmc hwidth hcsr hclean hfoe hsize hfe
    rw [hrsp, List.append_assoc A, List.cons_append (a := rw0)] at hst
    obtain ⟨h1, ad, hst1, hver1, he1, hrem1, hnext, hdata⟩ := hst.comesToLength A o r.bare r.fits he hrem hi hj had hA fun k w hw => by
      obtain ⟨hk, hw⟩ := hwordA hw
      have := hgood k w hw
      rwa [if_neg (by omega), beq_false_of_ne (by omega : k + 1 ≠ sessionSize (pre ++ v :: post) + n)] at this
    have hawaits : AwaitsLength s m b.busId pre v post h1 _ _ _ _ ad := ⟨hst1, hnext, hdata⟩
    have hgoodr : validateRsp s.cfg (rspOf rw0) h1.m.e (h1.m.rem - 1 == 0) = none := by
      have := hgood (lengthAt pre v) rw0 hr
      rw [if_pos rfl] at this
      rw [he1, hrem1, isLast_iff (by omega)]
      exact this
    obtain ⟨h2, hst2, he2, hrem2, hi2, hj2, had2⟩ := (hawaits.extends o r.bare hlayout hgoodr hrd hn1 hn2).1 (by rw [hver1, hver0]; exact hver)
    obtain ⟨h3, hst3⟩ := hst2.finishes B o r.bare r.fits hn2 hi2 hj2 had2 hB fun k w hw => by
      obtain ⟨hk, hw⟩ := hwordB hw
      have := hgood (lengthAt pre v + 1 + k) w hw
      rw [if_neg (by omega)] at this
      rw [he2, hrem2, he1, hrem1, ofNat_add_one, ← BitVec.ofNat_add,
        show sessionSize (pre ++ v :: post) - lengthAt pre v - 1 + n - k - 1 = sessionSize (pre ++ v :: post) + n - (lengthAt pre v + 1 + k) - 1 by omega, isLast_iff (by omega)]
      exact this
    exact hends hst3 hstored.symm (by simp [writesOf, readsOf, reads, written, csr, csrOf, msgs])
  · subst hpost
    have hgood : ∀ k w, (A ++ rw0 :: B)[k]? = some w → validateRsp s.cfg (rspOf w)
        (BitVec.ofNat 4 (if k < sessionSize (pre ++ [v]) then k else k - sessionSize (pre ++ [v])))
        (k + 1 == sessionSize (pre ++ [v]) || k + 1 == sessionSize (pre ++ [v]) + n) = none := hgood
    have hnil : sessionSize [] = 0 := rfl
    have hlast : lengthAt pre v + 1 = sessionSize (pre ++ [v]) := by omega
    obtain ⟨h, hst, hver0, he, hrem, hi, hj, had⟩ := comes_decode r hmc hwidth hcsr hclean hfoe hsize hfe
    rw [hrsp, List.append_assoc A, List.cons_append (a := rw0)] at hst
    obtain ⟨h1, ad, hst1, hver1, he1, hrem1, hnext, hdata⟩ := hst.comesToLength A o r.bare r.fits he hrem hi hj had hA fun k w hw => by
      obtain ⟨hk, hw⟩ := hwordA hw
      have := hgood k w hw
      rwa [if_pos (by omega), beq_false_of_ne (by omega : k + 1 ≠ sessionSize (pre ++ [v])),
        beq_false_of_ne (by omega : k + 1 ≠ sessionSize (pre ++ [v]) + n)] at this
    have hawaits : AwaitsLength s m b.busId pre v [] h1 _ _ _ _ ad := ⟨hst1, hnext, hdata⟩
    have hgoodr : validateRsp s.cfg (rspOf rw0) h1.m.e (h1.m.rem - 1 == 0) = none := by
      have := hgood (lengthAt pre v) rw0 hr
      rw [if_pos (by omega), hlast, beq_self_eq_true, Bool.true_or] at this
      rw [he1, hrem1, isLast_iff (by omega), hlast, beq_self_eq_true]
      exact this
    obtain ⟨h2, hst2, hn2', hk2, hi2, hj2, had2⟩ := (hawaits.extends o r.bare hlayout hgoodr hrd hn1 hn2).2
      (by rw [hver1, hver0]; exact hver) (by omega)
    obtain ⟨h3, hst3, he3, hrem3, hi3, hj3, had3⟩ := hst2.continues o r.bare hn2' hk2 hi2 hnw hd1
    obtain ⟨h4, hst4⟩ := hst3.finishes B o r.bare r.fits hn2 (hi3.trans hi2) (hj3.trans hj2) (had3.trans had2) hB fun k w hw => by
      obtain ⟨hk, hw⟩ := hwordB hw
      have := hgood (lengthAt pre v + 1 + k) w hw
      rw [if_neg (by omega), show lengthAt pre v + 1 + k - sessionSize (pre ++ [v]) = k by omega,
        beq_false_of_ne (by omega : lengthAt pre v + 1 + k + 1 ≠ sessionSize (pre ++ [v])), Bool.false_or, ← isLast_iff (by omega),
        show sessionSize (pre ++ [v]) + n - (lengthAt pre v + 1 + k) - 1 = n - k - 1 by omega] at this
      rw [he3, hrem3, zero_add]
      exact this
    have htake : (A ++ rw0 :: B).take size = A ++ [rw0] := by
      rw [show size = A.length + 1 by omega, List.take_length_add_append, List.take_succ_cons, List.take_zero]
    have hdrop : (A ++ rw0 :: B).drop size = B := by
      rw [show size = A.length + 1 by omega, List.drop_length_add_append, List.drop_succ_cons, List.drop_zero]
    rw [htake, hdrop]
    exact hends hst4 hstored.symm (by simp [writesOf, readsOf, reads, written, csr, csrOf, msgs])

end Sys2Proof.Machine
end

