-- ==== Sys2Proof/Proofs/TextLines.lean ====
section
/-! LEMMAS. The text lines (30_encoding.md R109, R111): fields, numbers, tuning lines and creation lines, and that what is
written reads back. -/

namespace Sys2Proof.Machine

/-! ### Fields -/

/-- A word is taken into the field being read. -/
theorem fieldsFrom_append {w : List Char} (hw : ∀ c ∈ w, isBlank c = false) (cur rest : List Char) :
    fieldsFrom cur (w ++ rest) = fieldsFrom (cur ++ w) rest := by
  induction w generalizing cur with
  | nil => simp
  | cons c cs ih =>
    have hc : isBlank c = false := hw c (by simp)
    simp [fieldsFrom, hc, ih fun d hd => hw d (by simp [hd])]

theorem fields_word {w : List Char} (hne : w ≠ []) (hw : ∀ c ∈ w, isBlank c = false) : fields w = [w] := by
  have h := fieldsFrom_append hw [] []
  simpa [fields, fieldsFrom, hne] using h

/-- A word and a space are one field before the fields of the rest. -/
theorem fields_word_space {w : List Char} (hne : w ≠ []) (hw : ∀ c ∈ w, isBlank c = false) (rest : List Char) :
    fields (w ++ ' ' :: rest) = w :: fields rest := by
  have hspace : isBlank ' ' = true := by decide
  rw [fields, fieldsFrom_append hw]
  simp [fieldsFrom, hspace, hne, fields]

theorem fields_intercalate (ws : List (List Char)) (h : ∀ w ∈ ws, w ≠ [] ∧ ∀ c ∈ w, isBlank c = false) :
    fields ([' '].intercalate ws) = ws := by
  induction ws with
  | nil => rfl
  | cons w ws ih =>
    obtain ⟨hne, hw⟩ := h w (by simp)
    cases ws with
    | nil => simpa using fields_word hne hw
    | cons w' ws =>
      rw [List.intercalate_cons_cons, List.append_assoc, List.singleton_append, fields_word_space hne hw,
        ih fun v hv => h v (by simp [hv])]

/-! ### Digits -/

/-- The digits of the two bases in which numbers are written. -/
def IsDigitOf (base : Nat) (c : Char) : Prop := (digitValue base c).isSome = true

theorem char_le_iff_toNat (c d : Char) : c ≤ d ↔ c.toNat ≤ d.toNat := UInt32.le_iff_toNat_le

theorem isDigit_iff_toNat {c : Char} : c.isDigit = true ↔ 48 ≤ c.toNat ∧ c.toNat ≤ 57 := by
  rw [Char.isDigit, Bool.and_eq_true, decide_eq_true_eq, decide_eq_true_eq]
  exact and_congr UInt32.le_iff_toNat_le UInt32.le_iff_toNat_le

theorem isDigitOf_ten {c : Char} : IsDigitOf 10 c ↔ c.isDigit = true := by
  simp only [IsDigitOf, digitValue, isDigit_iff_toNat, Bool.and_eq_true, decide_eq_true_eq]
  split_ifs <;> simp <;> omega

theorem isDigitOf_sixteen {c : Char} :
    IsDigitOf 16 c ↔ c.isDigit = true ∨ 'a' ≤ c ∧ c ≤ 'f' ∨ 'A' ≤ c ∧ c ≤ 'F' := by
  simp only [IsDigitOf, digitValue, isDigit_iff_toNat, char_le_iff_toNat, Bool.and_eq_true, decide_eq_true_eq,
    Char.reduceToNat]
  split_ifs <;> simp <;> omega

theorem digitValue_digitChar {v : Nat} (base : Nat) (hv : v < base) (h16 : base ≤ 16) :
    digitValue base (Nat.digitChar v) = some v := by
  have h : v < 16 := by omega
  interval_cases v <;> exact if_pos hv

theorem digitsFrom_isSome {base : Nat} (acc : Nat) (cs : List Char) :
    (∃ n, digitsFrom base acc cs = some n) ↔ ∀ c ∈ cs, IsDigitOf base c := by
  induction cs generalizing acc with
  | nil => simp [digitsFrom]
  | cons c cs ih =>
    rw [digitsFrom]
    cases hc : digitValue base c with
    | none => simp [IsDigitOf, hc]
    | some v => simp [IsDigitOf, hc, ih]

/-- A number is read from its digits, and the digits after them are read on. -/
theorem digitsFrom_toDigits {base : Nat} (h1 : 1 < base) (h16 : base ≤ 16) (n : Nat) (ds : List Char) :
    digitsFrom base 0 (Nat.toDigits base n ++ ds) = digitsFrom base n ds := by
  induction n using Nat.strongRecOn generalizing ds with
  | ind n ih =>
    by_cases hn : n < base
    · simp [Nat.toDigits_of_lt_base hn, digitsFrom, digitValue_digitChar base hn h16]
    · have hdiv : n / base < n := Nat.div_lt_self (by omega) h1
      rw [Nat.toDigits_of_base_le h1 (by omega), List.append_assoc, ih _ hdiv, List.singleton_append, digitsFrom,
        digitValue_digitChar base (Nat.mod_lt n (by omega)) h16]
      simp [Nat.div_add_mod']

theorem decimalFrom_eq {fuel n : Nat} (h : n < fuel) (acc : List Char) :
    decimalFrom fuel n acc = Nat.toDigits 10 n ++ acc := by
  induction fuel generalizing n acc with
  | zero => omega
  | succ f ih =>
    rw [decimalFrom]
    split
    · next hn => simp [Nat.toDigits_of_lt_base hn]
    · next hn => rw [ih (by omega), Nat.toDigits_of_base_le (n := n) (by omega : 1 < 10) (by omega)]; simp

theorem decimal_eq_toDigits (n : Nat) : decimal n = Nat.toDigits 10 n := by
  simp [decimal, decimalFrom_eq]

theorem isDigit_of_mem_decimal {n : Nat} {c : Char} (h : c ∈ decimal n) : c.isDigit = true :=
  Nat.isDigit_of_mem_toDigits (by omega) (Nat.le_refl 10) (decimal_eq_toDigits n ▸ h)

theorem decimal_ne_nil (n : Nat) : decimal n ≠ [] := decimal_eq_toDigits n ▸ Nat.toDigits_ne_nil

theorem isBlank_of_isDigit {c : Char} (h : c.isDigit = true) : isBlank c = false := by
  obtain ⟨h48, -⟩ := isDigit_iff_toNat.mp h
  simp only [isBlank, Bool.or_eq_false_iff, beq_eq_false_iff_ne, Bool.and_eq_false_iff, decide_eq_false_iff_not]
  omega

/-! ### Numbers -/

theorem parseNumber_hex {ds : List Char} (h : ds ≠ []) : parseNumber ('0' :: 'x' :: ds) = digitsFrom 16 0 ds := by
  simp [parseNumber, h]

/-- A field that does not begin `0x` is read in decimal. -/
theorem parseNumber_decimal {f : List Char} (h : f ≠ []) (hx : ∀ ds, f ≠ '0' :: 'x' :: ds) :
    parseNumber f = digitsFrom 10 0 f := by
  match f, h, hx with
  | [c], _, _ => rfl
  | c0 :: c1 :: cs, _, hx =>
    refine if_neg fun hc => hx cs ?_
    simp only [Bool.and_eq_true, beq_iff_eq] at hc
    rw [hc.1, hc.2]

theorem ne_hexPrefix_of_digits {f : List Char} (h : ∀ c ∈ f, c.isDigit = true) (ds : List Char) : f ≠ '0' :: 'x' :: ds := by
  rintro rfl
  exact absurd (h 'x' (by simp)) (by decide)

theorem parseNumber_decimal_self (n : Nat) : parseNumber (decimal n) = some n := by
  rw [parseNumber_decimal (decimal_ne_nil n) (ne_hexPrefix_of_digits fun c => isDigit_of_mem_decimal), decimal_eq_toDigits]
  simpa [digitsFrom] using digitsFrom_toDigits (by omega : 1 < 10) (by omega) n []

theorem parseNumber_hex_self (n : Nat) : parseNumber ('0' :: 'x' :: Nat.toDigits 16 n) = some n := by
  rw [parseNumber_hex Nat.toDigits_ne_nil]
  simpa [digitsFrom] using digitsFrom_toDigits (by omega : 1 < 16) (by omega) n []

theorem parseNumber_isSome (f : List Char) : (∃ n, parseNumber f = some n) ↔
    (f ≠ [] ∧ ∀ c ∈ f, IsDigitOf 10 c) ∨ ∃ ds, f = '0' :: 'x' :: ds ∧ ds ≠ [] ∧ ∀ c ∈ ds, IsDigitOf 16 c := by
  by_cases hx : ∃ ds, f = '0' :: 'x' :: ds
  · obtain ⟨ds, rfl⟩ := hx
    have hno : ¬IsDigitOf 10 'x' := by rw [isDigitOf_ten]; decide
    by_cases hds : ds = []
    · subst hds
      simp [parseNumber, hno]
    · simp [parseNumber_hex hds, digitsFrom_isSome, hds, hno]
  · have hx' : ∀ ds, f ≠ '0' :: 'x' :: ds := fun ds hf => hx ⟨ds, hf⟩
    by_cases hf : f = []
    · simp [hf, parseNumber]
    · simp [parseNumber_decimal hf hx', digitsFrom_isSome, hf, hx']

/-! ### Tuning lines and creation lines -/

theorem parseTuneLine_eq_some {line : List Char} {b a t r w e : Nat} : parseTuneLine line = some ⟨b, a, t, r, w, e⟩ ↔
    (fields line).map parseNumber = [some b, some a, some t, some r, some w, some e] := by
  unfold parseTuneLine
  split
  · next heq =>
    split
    · simp [heq, *]
    · next hno =>
      simp only [heq, List.map_cons, List.map_nil, List.cons.injEq, and_true, reduceCtorEq, false_iff]
      rintro ⟨h0, h1, h2, h3, h4, h5⟩
      exact hno b a t r w e h0 h1 h2 h3 h4 h5
  · next hno =>
    simp only [reduceCtorEq, false_iff]
    intro hmap
    have hlen := congrArg List.length hmap
    simp only [List.length_map, List.length_cons, List.length_nil] at hlen
    match hf : fields line, hlen with
    | [f0, f1, f2, f3, f4, f5], _ => exact hno f0 f1 f2 f3 f4 f5 hf

/-- A line whose first word is not that of a creation line is passed to TUNE. -/
theorem decodeLine_other {line : List Char} (h : (fields line).head? ≠ some createWord) :
    decodeLine line = .ok (.tune line) := by
  unfold decodeLine
  split
  · rfl
  · next w rest hf =>
    have hw : w ≠ createWord := fun hw => h (by simp [hf, hw])
    simp [hw]

/-- What a creation line decodes to, from the numbers after its first word. -/
def createOf : List (Option Nat) → Except DecodeError Instr
  | [some a, some m] => .ok (.create a m none)
  | [some a, some m, some n] => .ok (.create a m (some n))
  | _ => .error .malformedCreateLine

theorem decodeLine_create {line : List Char} (h : (fields line).head? = some createWord) :
    decodeLine line = createOf ((fields line).tail.map parseNumber) := by
  unfold decodeLine
  split
  · next hf => simp [hf] at h
  · next w rest hf =>
    have hw : w = createWord := by simpa [hf] using h
    subst hw
    simp only [hf, beq_self_eq_true, if_true, List.tail_cons]
    match rest with
    | [] => rfl
    | [_] => simp [createOf]
    | [a, m] => cases ha : parseNumber a <;> cases hm : parseNumber m <;> simp [createOf, ha, hm]
    | [a, m, n] =>
      cases ha : parseNumber a <;> cases hm : parseNumber m <;> cases hn : parseNumber n <;> simp [createOf, ha, hm, hn]
    | _ :: _ :: _ :: _ :: _ => simp [createOf]

theorem createOf_eq_none_count {ns : List (Option Nat)} {a m : Nat} :
    createOf ns = .ok (.create a m none) ↔ ns = [some a, some m] := by
  unfold createOf
  split <;> simp_all

theorem createOf_eq_some_count {ns : List (Option Nat)} {a m n : Nat} :
    createOf ns = .ok (.create a m (some n)) ↔ ns = [some a, some m, some n] := by
  unfold createOf
  split <;> simp_all

theorem createOf_malformed {ns : List (Option Nat)} (h2 : ¬∃ a m, ns = [some a, some m])
    (h3 : ¬∃ a m n, ns = [some a, some m, some n]) : createOf ns = .error .malformedCreateLine := by
  unfold createOf
  split
  · exact absurd ⟨_, _, rfl⟩ h2
  · exact absurd ⟨_, _, _, rfl⟩ h3
  · rfl

/-- A line decodes to a creation exactly if it begins with the word of one and its numbers give that creation. -/
theorem decodeLine_eq_create {line : List Char} {a m : Nat} {n : Option Nat} :
    decodeLine line = .ok (.create a m n) ↔ (fields line).head? = some createWord ∧
      createOf ((fields line).tail.map parseNumber) = .ok (.create a m n) := by
  by_cases h : (fields line).head? = some createWord
  · simp [decodeLine_create h, h]
  · simp [decodeLine_other h, h]

theorem decodeLine_encodeLine_create (a m : Nat) (n : Option Nat) :
    ∃ line, encodeLine (.create a m n) = some line ∧ decodeLine line = .ok (.create a m n) := by
  have hdec (k : Nat) : decimal k ≠ [] ∧ ∀ c ∈ decimal k, isBlank c = false :=
    ⟨decimal_ne_nil k, fun c hc => isBlank_of_isDigit (isDigit_of_mem_decimal hc)⟩
  have hword : createWord ≠ [] ∧ ∀ c ∈ createWord, isBlank c = false := by simp [createWord, isBlank]
  cases n with
  | none =>
    have hf : fields (createWord ++ [' '] ++ decimal a ++ [' '] ++ decimal m) = [createWord, decimal a, decimal m] := by
      have h := fields_intercalate [createWord, decimal a, decimal m] (by simpa using ⟨hword, hdec a, hdec m⟩)
      simpa [List.intercalate_cons_cons] using h
    refine ⟨_, rfl, decodeLine_eq_create.mpr ?_⟩
    rw [hf]
    simp [parseNumber_decimal_self, createOf]
  | some n =>
    have hf : fields (createWord ++ [' '] ++ decimal a ++ [' '] ++ decimal m ++ [' '] ++ decimal n) =
        [createWord, decimal a, decimal m, decimal n] := by
      have h := fields_intercalate [createWord, decimal a, decimal m, decimal n]
        (by simpa using ⟨hword, hdec a, hdec m, hdec n⟩)
      simpa [List.intercalate_cons_cons] using h
    refine ⟨_, rfl, decodeLine_eq_create.mpr ?_⟩
    rw [hf]
    simp [parseNumber_decimal_self, createOf]

/-- Settles O16: fields, numbers, tuning lines and creation lines, each by its own lemma. -/
theorem textLinesReadBack : Obligations.TextLinesReadBack := by
  have hword : "smbus_master".toList = createWord := by decide
  unfold Obligations.TextLinesReadBack
  simp only [hword]
  refine ⟨fields_intercalate, fun n => ⟨decimal_eq_toDigits n, parseNumber_decimal_self n, parseNumber_hex_self n⟩,
    fun f => ?_, fun line b a t r w e => parseTuneLine_eq_some, fun line => ⟨fun a m => ?_, fun a m n => ?_,
    fun h h2 h3 => ?_, decodeLine_other⟩, decodeLine_encodeLine_create⟩
  · simp only [parseNumber_isSome, isDigitOf_ten, isDigitOf_sixteen]
  · rw [decodeLine_eq_create, createOf_eq_none_count]
  · rw [decodeLine_eq_create, createOf_eq_some_count]
  · rw [decodeLine_create h, createOf_malformed h2 h3]

end Sys2Proof.Machine
end

