-- ==== Sys2Proof/Proofs/Independence.lean ====
section
/-! That Masters share no state (20_memory.md R77): a step of a block makes at most one access and destroys its Master only at the
end of a TEARDOWN, and what works on one Master leaves the others as they were. -/

namespace Sys2Proof.Machine

/-! ### One step of a block -/

/-- At most one access has been made, if the step goes on, and the Master is still there. -/
def OneAccess (m : Master) : Adv → Prop
  | .go h' => h'.m.hist.length ≤ m.hist.length + 1
  | .pause h' => h'.m.hist.length ≤ m.hist.length + 1
  | .done _ _ _ => True
  | .gone _ _ => False
  | .refuse _ => True

theorem waitStep_hist_length (cfg : Config) (w : WaitSpot) (m : Master) : (waitStep cfg w m).2.hist.length ≤ m.hist.length + 1 := by
  cases w with
  | test =>
    simp only [waitStep, waitTest]
    split <;> simp
  | start | read | clear | wake d => simp [waitStep]

theorem resetStep_hist_length (cfg : Config) (r : ResetSpot) (m : Master) : (resetStep cfg r m).2.hist.length ≤ m.hist.length + 1 := by
  cases r with
  | sleep ds => cases ds <;> simp [resetStep]
  | poll ds =>
    simp only [resetStep]
    split
    · split <;> simp
    · simp
  | read | write c | wake d ds => simp [resetStep]

theorem enterStep_hist_length (cfg : Config) (f : Bool) (e : EnterSpot) (m : Master) :
    (enterStep cfg f e m).2.hist.length ≤ m.hist.length + 1 := by
  cases e with
  | recover r | clean r =>
    simp only [enterStep, nested_snd]
    exact resetStep_hist_length cfg r m
  | judge | confirm =>
    simp only [enterStep]
    split <;> simp
  | start | read => simp [enterStep]

theorem leaveStep_hist_length (cfg : Config) (b : Bool) (l : LeaveSpot) (m : Master) :
    (leaveStep cfg b l m).2.hist.length ≤ m.hist.length + 1 := by
  cases l with
  | drain n => cases n <;> simp [leaveStep]
  | again =>
    simp only [leaveStep]
    split <;> simp
  | read | arm c => simp [leaveStep]

theorem emitItem_oneAccess (first : Bool) (it : ReqItem) (h : Hand) : OneAccess h.m (emitItem first it h) := by
  unfold emitItem
  split <;> simp [OneAccess]

/-! ### One response -/

/-- No access is made, and the Master is still there. -/
def NoAccess (m : Master) : Adv → Prop
  | .go h' => h'.m.hist = m.hist
  | .pause h' => h'.m.hist = m.hist
  | .done _ _ _ => True
  | .gone _ _ => False
  | .refuse _ => True

theorem blockLength_noAccess (n : Byte) (h : Hand) : NoAccess h.m (blockLength n h) := by
  simp only [blockLength]
  split
  · rfl
  · split
    · rfl
    · split <;> trivial

theorem dataResponse_noAccess (r : Rsp) (msg : Message) (j : Nat) (h : Hand) : NoAccess h.m (dataResponse r msg j h) := by
  simp only [dataResponse]
  split
  · rfl
  · split
    · trivial
    · split
      · exact blockLength_noAccess _ _
      · rfl

theorem placeResponse_noAccess (r : Rsp) (p : Option (Nat × Nat × Bool)) (h : Hand) : NoAccess h.m (placeResponse r p h) := by
  unfold placeResponse
  split
  · rfl
  · split
    · rfl
    · dsimp only
      split
      · rfl
      · exact dataResponse_noAccess _ _ _ _

theorem takeResponse_noAccess (w : Word) (h : Hand) : NoAccess h.m (takeResponse w h) := by
  simp only [takeResponse]
  split
  · exact rfl
  · exact placeResponse_noAccess _ _ _

theorem NoAccess.oneAccess {m m0 : Master} {a : Adv} (h : NoAccess m a) (hm : m.hist.length ≤ m0.hist.length + 1) : OneAccess m0 a := by
  cases a with
  | go h' => exact (congrArg List.length h).trans_le hm
  | pause h' => exact (congrArg List.length h).trans_le hm
  | done h' c r => trivial
  | gone h' c => exact h
  | refuse r => trivial

/-! ### The phases -/

theorem phaseEnter_oneAccess (h : Hand) : OneAccess h.m (phaseEnter h) := by
  have hlen := enterStep_hist_length h.cfg true (enterSpot h.m) h.m
  simp only [phaseEnter]
  split <;> exact hlen

theorem phaseCapchk_oneAccess (h : Hand) : OneAccess h.m (phaseCapchk h) := by
  unfold phaseCapchk
  split <;> simp [OneAccess]

theorem phaseEncode_oneAccess (h : Hand) : OneAccess h.m (phaseEncode h) := by
  unfold phaseEncode
  split
  · split
    · simp [OneAccess]
    · split
      · simp [OneAccess]
      · exact emitItem_oneAccess _ _ h
  · trivial

theorem phaseWait_oneAccess (h : Hand) : OneAccess h.m (phaseWait h) := by
  have hlen := waitStep_hist_length h.cfg (waitSpot h.m) h.m
  have hend (m : Master) : (endWait m).hist = m.hist := by
    unfold endWait
    split <;> rfl
  simp only [phaseWait]
  split
  · exact hlen
  · exact hlen
  · simpa [OneAccess, hend] using hlen
  · exact hlen
  · exact hlen

theorem phaseDecode_oneAccess (h : Hand) : OneAccess h.m (phaseDecode h) := by
  unfold phaseDecode
  split
  · simp [OneAccess]
  · exact (takeResponse_noAccess _ _).oneAccess (by simp)

theorem phaseContEncode_oneAccess (h : Hand) : OneAccess h.m (phaseContEncode h) := by
  unfold phaseContEncode
  split
  · simp [OneAccess]
  · split
    · simp [OneAccess]
    · exact emitItem_oneAccess _ _ h

theorem phaseLeave_oneAccess (h : Hand) : OneAccess h.m (phaseLeave h) := by
  have hlen := leaveStep_hist_length h.cfg (hadError h.m) (leaveSpot h.m) h.m
  simp only [phaseLeave]
  split <;> exact hlen

theorem phaseTearReset_oneAccess (h : Hand) : OneAccess h.m (phaseTearReset h) := by
  have hlen := resetStep_hist_length h.cfg (resetSpot h.m) h.m
  simp only [phaseTearReset]
  split <;> exact hlen

theorem bareStep_oneAccess (w : WaitSpot) (h : Hand) : OneAccess h.m (bareStep w h) := by
  have hlen := waitStep_hist_length h.cfg w h.m
  simp only [bareStep]
  split
  · exact hlen
  · exact hlen
  · trivial

/-- The next step does not destroy the Master. -/
def Lasting (m : Master) : Prop := m.bare ≠ none ∨ m.pc ≠ .tearDestroy

theorem advance_oneAccess {h : Hand} (hl : Lasting h.m) : OneAccess h.m (advance h) := by
  unfold advance
  split
  · exact bareStep_oneAccess _ h
  · next hb =>
    have hpc : h.m.pc ≠ .tearDestroy := hl.resolve_left (absurd hb)
    cases hp : h.m.pc <;> simp only [phaseStep, hp]
    case idle | precheck | lock | size => simp [OneAccess, phaseSize]
    case enter => exact phaseEnter_oneAccess h
    case capchk => exact phaseCapchk_oneAccess h
    case encode => exact phaseEncode_oneAccess h
    case wait | contWait => exact phaseWait_oneAccess h
    case decode => exact phaseDecode_oneAccess h
    case contEncode => exact phaseContEncode_oneAccess h
    case leave => exact phaseLeave_oneAccess h
    case unlock => trivial
    case tearReset => exact phaseTearReset_oneAccess h
    case tearDestroy => exact absurd hp hpc

theorem advance_tearDestroy {h : Hand} (hl : ¬Lasting h.m) : ∃ h' c, advance h = .gone h' c := by
  obtain ⟨hb, hp⟩ := not_or.mp hl
  exact ⟨h.withM (unlockIdle h.m), h.m.lock.owner, by simp [advance, not_not.mp hb, phaseStep, not_not.mp hp, phaseTearDestroy]⟩

/-! ### Runs that do not destroy their Master -/

/-- The Master is still there. -/
def Stays (a : Adv) : Prop := ∀ h c, a ≠ .gone h c

theorem OneAccess.stays {m : Master} {a : Adv} (h : OneAccess m a) : Stays a := by
  rintro h' c rfl
  exact h

theorem NoAccess.stays {m : Master} {a : Adv} (h : NoAccess m a) : Stays a := by
  rintro h' c rfl
  exact h

/-- No step that goes on leads to the last phase of a TEARDOWN. -/
theorem lasting_of_advance_go {h h' : Hand} (e : advance h = .go h') : Lasting h'.m := by
  cases hb : h.m.bare with
  | some w =>
    rw [advance_bare hb] at e
    simp only [bareStep] at e
    split at e <;> cases e
    exact .inl (by simp)
  | none =>
    refine .inr ?_
    rcases advance_steps hb e with ⟨-, ho⟩ | ⟨f, -, hpc, -⟩
    · intro hd
      rw [hd] at ho
      simp at ho
    · rw [hpc]
      decide

theorem runWhile_stays {goOn : Master → Bool} {n : Nat} {h : Hand} (hl : Lasting h.m) : Stays (runWhile goOn n h) :=
  runWhile_induction (P := fun h => Lasting h.m) (fun _ _ _ _ => nofun) (fun _ _ _ => lasting_of_advance_go)
    (fun _ hl _ => (advance_oneAccess hl).stays) n h hl

theorem statusRead_stays (c : Csr) (h : Hand) : Stays (statusRead c h) := by
  unfold statusRead
  split
  · exact runWhile_stays (.inl (by simp))
  · split
    · next hpc =>
      have hw : (waitReads h.cfg c (waitSpot h.m) h.m).pc = h.m.pc := 
        PortRun.field (waitReads_run h.cfg c (waitSpot h.m) h.m).1 Master.pc fun _ _ _ _ _ => rfl
      refine runWhile_stays (.inr ?_)
      rintro hd
      simp [hw] at hd
      simp [hd] at hpc
    · exact fun _ _ => nofun

/-- Each instruction on the Master in hand runs a phase that keeps what phases keep and does not destroy the Master. -/
theorem exec_onHand_keeps {i : Instr} (hi : OnHand i) : ∃ f, (∀ s, exec i s = withHand s f) ∧ ∀ h, AdvKeeps h (f h) ∧ Stays (f h) := by
  have item (it : ReqItem) (h : Hand) : AdvKeeps h (emitLater it h) ∧ Stays (emitLater it h) :=
    ⟨emitItem_keeps _ _ h, (emitItem_oneAccess _ _ h).stays⟩
  have first (it : ReqItem) (h : Hand) : AdvKeeps h (emitFirst it h) ∧ Stays (emitFirst it h) :=
    ⟨emitFirst_keeps _ h, (emitItem_oneAccess _ _ _).stays⟩
  rcases hi with hi | rfl | ⟨f, rfl⟩ | ⟨f, rfl⟩ | ⟨bs, a, rfl⟩
  · cases i with
    | addrF | contF => exact ⟨_, fun _ => rfl, first _⟩
    | addrN | wdataN | rdataN | brlenN | contN => exact ⟨_, fun _ => rfl, item _⟩
    | rsp r =>
      refine ⟨_, fun s => execRsp.eq_1 r s, fun h => ?_⟩
      have p := rspReadIs_portOnly h.cfg (packRsp h.cfg.layout.rsp r) h.m
      dsimp only
      split
      · next hd =>
        refine ⟨.after p.keeps p.lock (takeResponse_keeps _ _ ?_), (takeResponse_noAccess _ _).stays⟩
        show (rspReadIs _ _ h.m).pc ∈ beforeLeave
        rw [p.pc, hd]
        decide
      · exact ⟨p.advKeeps, fun _ _ => nofun⟩
    | csr write c =>
      refine ⟨_, fun s => execCsr.eq_1 write c s, fun h => ?_⟩
      split
      · exact ⟨(writeCsr_portOnly _ _ _).advKeeps, fun _ _ => nofun⟩
      · exact ⟨statusRead_keeps c h, statusRead_stays c h⟩
    | _ => cases hi
  · exact ⟨_, fun s => execReset.eq_1 s, fun h =>
      ⟨⟨(resetOp_spec h.cfg h.m).1.keeps, .inl (resetOp_spec h.cfg h.m).1.lock⟩, fun _ _ => nofun⟩⟩
  · exact ⟨_, fun s => execEnter.eq_1 f s, fun h =>
      ⟨⟨(enterOp_spec h.cfg f h.m).1.keeps, .inl (enterOp_spec h.cfg f h.m).1.lock⟩, fun _ _ => nofun⟩⟩
  · exact ⟨_, fun s => execLeave.eq_1 f s, fun h => ⟨(leaveOp_spec h.cfg f h.m).1.advKeeps, fun _ _ => nofun⟩⟩
  · refine ⟨_, fun s => execWait.eq_1 bs a s, fun h => ⟨?_, runWhile_stays (.inl (by simp))⟩⟩
    have k : Keeps h (h.withM { h.m with bare := some .start }) := .work rfl rfl (fun h => h) (fun w => w)
    exact .after k rfl (runWhile_keeps _ _ _)

/-! ### The other Masters -/

/-- Every Master but that of `id` is in `t` as it was in `s`. -/
def OthersKept (id : Nat) (s t : State) : Prop := ∀ x ∈ s.masters, x.id ≠ id → x ∈ t.masters

theorem OthersKept.put {s : State} {m : Master} {id : Nat} (h : m.id = id) : OthersKept id s (s.putMaster m) :=
  fun _ hx hne => mem_putIn_other hx (h ▸ hne)

/-- Commands that wait for a Master that is destroyed change no Master, a DUMP apart. -/
theorem releaseAll_masters (id : Nat) {bs : List Blocked} (hb : ∀ cmd ls, Blocked.dump cmd ls ∉ bs) (s : State) :
    (bs.foldl (release id) s).masters = s.masters := by
  induction bs generalizing s with
  | nil => rfl
  | cons b bs ih =>
    have hone : (release id s b).masters = s.masters := by
      cases b with
      | dump cmd ls => exact absurd (List.mem_cons_self ..) (hb cmd ls)
      | transfer | tune | lookup | teardown => rfl
    exact (ih (fun cmd ls h => hb cmd ls (List.mem_cons_of_mem _ h)) _).trans hone

/-- A phase settled leaves the other Masters, if it does not destroy its Master or no DUMP waits for it. -/
theorem settle_others {s t : State} {m : Master} {mem : Memory} {a : Adv} (hk : AdvKeeps ⟨s.cfg, m, mem⟩ a)
    (hd : Stays a ∨ ∀ cmd ls, Blocked.dump cmd ls ∉ m.waiting) (hs : settle s a = .next t) : OthersKept m.id s t := by
  rcases settle_next hs with ⟨h', rfl | rfl, rfl⟩ | ⟨h', c, r, rfl, rfl⟩ | ⟨h', c, rfl, rfl⟩
  · exact .put hk.1.ext.1
  · exact .put hk.1.ext.1
  · exact .put hk.1.ext.1
  · have hk : Keeps ⟨s.cfg, m, mem⟩ h' := hk
    have hid : h'.m.id = m.id := hk.ext.1
    have hw := hd.resolve_left fun h => h h' c rfl
    rw [← hk.waiting] at hw
    intro x hx hne
    rw [destroy, releaseAll_masters _ hw]
    exact List.mem_filter.mpr ⟨mem_putIn_other hx (by rwa [hid]), by simpa [hid] using hne⟩

theorem execTransfer_others {handle : Nat} {msgs : List Message} {s t : State} (h : execTransfer handle msgs s = .next t)
    {x : Master} (hx : x ∈ s.masters) (hne : ∀ m b, s.busOf handle = some (m, b) → x.id ≠ m.id) : x ∈ t.masters := by
  simp only [execTransfer] at h
  split at h
  · cases h
    exact hx
  · split at h
    · cases h
    · next m b hb =>
      split at h
      · cases h
      · have hxm : x.id ≠ m.id := hne m b hb
        simp only [startTransfer] at h
        split at h
        · exact settle_others (continueCommand_keeps ..) (.inl (runWhile_stays (.inr (by simp [beginTransfer])))) h x hx hxm
        · cases h
          exact mem_putIn_other hx hxm

theorem mem_of_pick {n : Nat} {bs : List Blocked} {b : Blocked} (h : pick n bs = some b) : b ∈ bs := by
  match bs, h with
  | [_], h => exact List.mem_singleton.mpr (Option.some.inj h).symm
  | _ :: _ :: _, h => exact List.mem_of_getElem? h

/-- A waiting command that is no DUMP, given the lock. -/
theorem resumeBlocked_others {b : Blocked} {m : Master} {s t : State} (hb : ∀ cmd ls, b ≠ .dump cmd ls)
    (h : resumeBlocked b m s = .next t) : OthersKept m.id s t := by
  cases b with
  | transfer cmd bus msgs =>
    exact (settle_others (m := beginTransfer cmd bus msgs m) (continueCommand_keeps ..)
      (.inl (runWhile_stays (.inr (by simp [beginTransfer])))) h :)
  | dump cmd ls => exact absurd rfl (hb cmd ls)
  | tune cmd bus r =>
    cases h
    exact .put rfl
  | lookup cmd bus a =>
    cases h
    exact .put rfl
  | teardown cmd =>
    cases h
    exact .put rfl

theorem masterTurn_others {id : Nat} {s t : State} (h : masterTurn id s = .next t)
    (hd : ∀ m, s.master? id = some m → ∀ cmd ls, Blocked.dump cmd ls ∉ m.waiting) : OthersKept id s t := by
  simp only [masterTurn] at h
  split at h
  · cases h
    exact fun _ hx _ => hx
  · next m hm =>
    obtain rfl := (State.master?_some hm).2
    have hw := hd m hm
    split at h
    · simp only [grantLock] at h
      split at h
      · cases h
        exact fun _ hx _ => hx
      · next b hb =>
        have hnd : ∀ cmd ls, b ≠ .dump cmd ls := fun cmd ls e => hw cmd ls (e ▸ mem_of_pick hb)
        have hkept := resumeBlocked_others hnd h
        rwa [afterDraw_id] at hkept
    · split at h
      · exact (settle_others (s := { s with inHand := m.id }) (m := m) (continueCommand_keeps ..) (.inr hw) h :)
      · cases h
        exact fun _ hx _ => hx

/-- Settles O8: each works on one Master, and a step that goes on makes at most one access. -/
theorem mastersAreIndependent : Obligations.MastersAreIndependent := by
  unfold Obligations.MastersAreIndependent
  refine ⟨fun i s t _ h hi x hx hne => ?_, fun handle msgs s t _ h x hx hne => ?_, fun id s t _ h hd => ?_, fun h h' e => ?_⟩
  · obtain ⟨f, hf, hk⟩ := exec_onHand_keeps hi
    rw [hf] at h
    obtain ⟨m, hm, -, hs⟩ := withHand_next h
    exact settle_others (hk _).1 (.inl (hk _).2) hs x hx ((State.hand_some hm).2 ▸ hne)
  · exact execTransfer_others h hx hne
  · exact masterTurn_others h hd
  · have hl : Lasting h.m := by
      by_contra hl
      obtain ⟨h1, c, hg⟩ := advance_tearDestroy hl
      rcases e with e | e <;> cases hg.symm.trans e
    have hone := advance_oneAccess hl
    rcases e with e | e <;> rw [e] at hone <;> simpa [accesses, OneAccess] using hone

end Sys2Proof.Machine
end

