-- ==== Sys2Proof/Proofs/TuningOnly.lean ====
section
/-! That only a tuning command writes a parameter store (10_state.md R27): what every other instruction and every turn leaves of the
stores. -/

namespace Sys2Proof.Machine

/-- The stores of a Master's buses. -/
abbrev stores (m : Master) : List (List ParamRec) := m.buses.map (·.params)

/-- `m'` is the Master `m` with its stores as they were. -/
def SameStores (m m' : Master) : Prop := m'.id = m.id ∧ stores m' = stores m

/-- Every Master of `t` was there in `s`, with the stores it has. -/
def StoresKept (s t : State) : Prop := ∀ m' ∈ t.masters, ∃ m ∈ s.masters, SameStores m m'

theorem StoresKept.of_masters {s t : State} (h : ∀ m ∈ t.masters, m ∈ s.masters) : StoresKept s t :=
  fun m hm => ⟨m, h m hm, rfl, rfl⟩

theorem StoresKept.refl (s : State) : StoresKept s s := .of_masters fun _ h => h

theorem StoresKept.trans {s t u : State} (h : StoresKept s t) (g : StoresKept t u) : StoresKept s u := by
  intro m2 h2
  obtain ⟨m1, h1, e1, f1⟩ := g m2 h2
  obtain ⟨m, hm, e, f⟩ := h m1 h1
  exact ⟨m, hm, e1.trans e, f1.trans f⟩

theorem StoresKept.put {s : State} {m m' : Master} (hm : m ∈ s.masters) (h : SameStores m m') : StoresKept s (s.putMaster m') := by
  intro x hx
  rcases mem_putIn hx with rfl | ⟨hx, -⟩
  · exact ⟨m, hm, h⟩
  · exact ⟨x, hx, rfl, rfl⟩

/-- With the ids rising, a Master of one id is the same Master. -/
theorem StoresKept.eq {s t : State} (h : StoresKept s t) (hr : IdsRising s) {m m' : Master} (hm : m ∈ s.masters)
    (hm' : m' ∈ t.masters) (e : m'.id = m.id) : stores m' = stores m := by
  obtain ⟨x, hx, ex, hstores⟩ := h m' hm'
  rwa [hr.eq_of_id hm hx (e.symm.trans ex)]

/-! ### Phases and commands that wait -/

theorem Keeps.sameStores {h h' : Hand} (k : Keeps h h') : SameStores h.m h'.m := ⟨k.ext.1, by rw [stores, k.buses]⟩

theorem dumpRun_stores (cmd : Nat) {ms : List Master} {cut : Option Nat} {ls : List (List Char)} {s : State}
    (h : ∀ m ∈ ms, m ∈ s.masters) : StoresKept s (dumpRun cut cmd ms ls s) := by
  induction ms generalizing cut ls with
  | nil => exact .refl s
  | cons m ms ih =>
    simp only [dumpRun]
    split
    · exact ih fun x hx => h x (List.mem_cons_of_mem _ hx)
    · exact .put (h m (List.mem_cons_self ..)) ⟨rfl, rfl⟩

theorem release_stores (id : Nat) (s : State) (b : Blocked) : StoresKept s (release id s b) := by
  cases b with
  | dump cmd ls => exact dumpRun_stores cmd fun m hm => (List.mem_filter.mp hm).1
  | transfer | tune | lookup | teardown => exact .refl s

theorem releaseAll_stores (id : Nat) (bs : List Blocked) (s : State) : StoresKept s (bs.foldl (release id) s) := by
  induction bs generalizing s with
  | nil => exact .refl s
  | cons b bs ih => exact (release_stores id s b).trans (ih _)

/-- A phase that is settled, of a Master `m` with the stores that a Master `m0` of the machine has. -/
theorem settle_stores {s t : State} {m0 m : Master} {mem : Memory} {a : Adv} (hm : m0 ∈ s.masters) (h0 : SameStores m0 m)
    (hk : AdvKeeps ⟨s.cfg, m, mem⟩ a) (hs : settle s a = .next t) : StoresKept s t := by
  have commit : ∀ h' : Hand, Keeps ⟨s.cfg, m, mem⟩ h' → StoresKept s (s.commit h') := fun h' k =>
    .put hm ⟨k.sameStores.1.trans h0.1, k.sameStores.2.trans h0.2⟩
  rcases settle_next hs with ⟨h', rfl | rfl, rfl⟩ | ⟨h', c, r, rfl, rfl⟩ | ⟨h', c, rfl, rfl⟩
  · exact commit h' hk.1
  · exact commit h' hk.1
  · exact commit h' hk.1
  · refine .trans ?_ (releaseAll_stores _ _ _)
    exact (commit h' hk).trans (.of_masters fun x hx => (List.mem_filter.mp hx).1)

/-! ### Instructions -/

theorem onHand_stores {i : Instr} {s t : State} (hi : OnHand i) (h : exec i s = .next t) : StoresKept s t := by
  obtain ⟨f, hf, hk⟩ := exec_onHand_keeps hi
  rw [hf] at h
  obtain ⟨m, hm, -, hs⟩ := withHand_next h
  exact settle_stores (State.hand_some hm).1 ⟨rfl, rfl⟩ (hk _).1 hs

theorem execTransfer_stores {handle : Nat} {msgs : List Message} {s t : State} (h : execTransfer handle msgs s = .next t) :
    StoresKept s t := by
  simp only [execTransfer] at h
  split at h
  · cases h
    exact .refl s
  · split at h
    · cases h
    · next m b hb =>
      have hm : m ∈ s.masters := (State.busOf_mem hb).1
      split at h
      · cases h
      · simp only [startTransfer] at h
        split at h
        · exact (settle_stores (s := { s with nextCmd := s.nextCmd + 1, inHand := m.id })
            (m := beginTransfer s.nextCmd b.busId msgs m) hm ⟨rfl, rfl⟩ (continueCommand_keeps ..) h :)
        · cases h
          exact .put hm ⟨rfl, rfl⟩

theorem unregisterAll_stores (m : Master) : stores (unregisterAll m) = stores m := by
  simp [stores, unregisterAll]

theorem execTeardown_stores {id : Nat} {s t : State} (h : execTeardown id s = .next t) : StoresKept s t := by
  simp only [execTeardown] at h
  split at h
  · cases h
  · next m hm =>
    have hm := (State.master?_some hm).1
    split at h
    · cases h
      exact .put hm ⟨rfl, unregisterAll_stores m⟩
    · cases h
      exact .put hm ⟨rfl, unregisterAll_stores m⟩

theorem execLookup_stores {handle : Nat} {a : BitVec 7} {s t : State} (h : execLookup handle a s = .next t) : StoresKept s t := by
  simp only [execLookup] at h
  split at h
  · cases h
  · next m b hb =>
    split at h
    · cases h
      exact .refl s
    · cases h
      exact .put (State.busOf_mem hb).1 ⟨rfl, rfl⟩

theorem execOpen_stores {adap : Nat} {s t : State} (h : execOpen adap s = .next t) : StoresKept s t := by
  simp only [execOpen] at h
  split at h
  · cases h
  · cases h
    exact .refl s

/-- Every instruction but a tuning line: CREATE only adds a Master of a new id. -/
theorem exec_stores {i : Instr} {s t : State} (hr : IdsRising s) (hi : ∀ line, i ≠ .tune line) (h : exec i s = .next t) {m m' : Master}
    (hm : m ∈ s.masters) (hm' : m' ∈ t.masters) (e : m'.id = m.id) : stores m' = stores m := by
  have of (k : StoresKept s t) : stores m' = stores m := k.eq hr hm hm' e
  cases i with
  | addrF | addrN | wdataN | rdataN | brlenN | contF | contN | rsp | csr => exact of (onHand_stores (.inl rfl) h)
  | resetEngine => exact of (onHand_stores (.inr (.inl rfl)) h)
  | enter f => exact of (onHand_stores (.inr (.inr (.inl ⟨f, rfl⟩))) h)
  | leave f => exact of (onHand_stores (.inr (.inr (.inr (.inl ⟨f, rfl⟩)))) h)
  | waitForCompletion bs a => exact of (onHand_stores (.inr (.inr (.inr (.inr ⟨bs, a, rfl⟩)))) h)
  | transfer handle msgs => exact of (execTransfer_stores h)
  | tune line => exact absurd rfl (hi line)
  | teardown id => exact of (execTeardown_stores h)
  | lookup handle a => exact of (execLookup_stores h)
  | openBus a => exact of (execOpen_stores h)
  | caps | validate =>
    cases h
    exact of (.refl s)
  | dump =>
    cases h
    exact of (dumpRun_stores _ fun x hx => hx)
  | create base id n =>
    obtain ⟨x, hc⟩ := execCreate_next h
    rw [hc.ms, mem_insertById] at hm'
    rcases hm' with rfl | hm'
    · obtain ⟨bs, hx, -⟩ := hc.fresh
      have hid : m'.id = id := congrArg Master.id hx
      exact absurd (e.symm.trans hid) (hc.new m hm)
    · rw [hr.eq_of_id hm' hm e]

/-! ### Turns -/

/-- A TUNE waits for the lock of this Master. -/
def TuneWaits (m : Master) : Prop := ∃ cmd bus r, Blocked.tune cmd bus r ∈ m.waiting

/-- Every Master of `t` was there in `s`, with the stores it has unless a TUNE waited for it. -/
def StoresTuned (s t : State) : Prop := ∀ m' ∈ t.masters, ∃ m ∈ s.masters, m'.id = m.id ∧ (stores m' = stores m ∨ TuneWaits m)

theorem StoresKept.tuned {s t : State} (h : StoresKept s t) : StoresTuned s t := fun m' hm' =>
  let ⟨m, hm, e, f⟩ := h m' hm'
  ⟨m, hm, e, .inl f⟩

/-- A waiting command given the lock. -/
theorem resumeBlocked_stores {b : Blocked} {m m0 : Master} {s t : State} (hm : m ∈ s.masters) (hb : b ∈ m.waiting)
    (h0 : SameStores m m0) (h : resumeBlocked b m0 s = .next t) : StoresTuned s t := by
  cases b with
  | transfer cmd bus msgs =>
    exact (settle_stores (m := beginTransfer cmd bus msgs m0) hm h0 (continueCommand_keeps ..) h).tuned
  | tune cmd bus r =>
    cases h
    intro x hx
    rcases mem_putIn hx with rfl | ⟨hx, -⟩
    · exact ⟨m, hm, h0.1, .inr ⟨cmd, bus, r, hb⟩⟩
    · exact ⟨x, hx, rfl, .inl rfl⟩
  | dump cmd ls =>
    cases h
    refine ((StoresKept.put hm h0).trans (dumpRun_stores cmd fun x hx => ?_)).tuned
    obtain ⟨hx, hlt⟩ := List.mem_filter.mp hx
    exact mem_putIn_other hx (by simpa using (of_decide_eq_true hlt).ne')
  | lookup cmd bus a =>
    cases h
    exact (StoresKept.put hm h0).tuned
  | teardown cmd =>
    cases h
    exact (StoresKept.put (m' := { m0 with lock := .held cmd, pc := .tearReset, spot := .outside }) hm ⟨h0.1, h0.2⟩).tuned

theorem masterTurn_stores {id : Nat} {s t : State} (h : masterTurn id s = .next t) : StoresTuned s t := by
  simp only [masterTurn] at h
  split at h
  · cases h
    exact (StoresKept.refl s).tuned
  · next m hm =>
    have hmem := (State.master?_some hm).1
    split at h
    · simp only [grantLock] at h
      split at h
      · cases h
        exact (StoresKept.refl s).tuned
      · next b hb =>
        have h0 : SameStores m { afterDraw m with waiting := m.waiting.erase b } := ⟨afterDraw_id m, by simp [stores]⟩
        exact (resumeBlocked_stores (s := { s with inHand := id }) hmem (mem_of_pick hb) h0 h :)
    · split at h
      · exact (settle_stores (s := { s with inHand := id }) hmem ⟨rfl, rfl⟩ (continueCommand_keeps s.cut ⟨s.cfg, m, s.mem⟩) h).tuned
      · cases h
        exact (StoresKept.refl s).tuned

/-- A step is the turn of one agent, or nothing moves. -/
theorem step_turn {s t : State} (h : Machine.step s = .next t) :
    t = s ∨ ∃ a sched n cut, turn a { s with sched := sched, nTurn := n, cut := cut } = .next t := by
  simp only [step, nextTurn] at h
  split at h
  · exact .inr ⟨_, _, _, _, h⟩
  · split at h
    · cases h
      exact .inl rfl
    · cases h
      exact .inl rfl
    · split at h
      · exact .inr ⟨_, _, _, _, h⟩
      · cases h
        exact .inl rfl

/-- The host's turn stores bytes or runs the instruction it presents, or does nothing. -/
theorem hostTurn_next {s t : State} (h : hostTurn s = .next t) :
    t.masters = s.masters ∨ ∃ x rest i, s.inbox = x :: rest ∧ decodeInput s.cfg.layout x = .ok i ∧
      exec i { s with inbox := rest } = .next t := by
  simp only [hostTurn] at h
  split at h
  · cases h
    exact .inl rfl
  · simp only [hostFill] at h
    split at h <;> cases h
    exact .inl rfl
  · next x rest _ hx =>
    split at h
    · next i hi =>
      simp only [runDecoded] at h
      split at h
      · exact .inr ⟨x, rest, i, hx, hi, h⟩
      · cases h
    · cases h

/-- The host presents a tuning line. -/
def TuneLinePresented (s : State) : Prop :=
  ∃ x rest line, s.inbox = x :: rest ∧ decodeInput s.cfg.layout x = .ok (.tune line)

theorem turn_stores {a : Agent} {s t : State} (hr : IdsRising s) (h : turn a s = .next t) {m m' : Master} (hm : m ∈ s.masters)
    (hm' : m' ∈ t.masters) (e : m'.id = m.id) : stores m' = stores m ∨ TuneLinePresented s ∨ TuneWaits m := by
  cases a with
  | world =>
    cases h
    exact .inl (by rw [hr.eq_of_id hm' hm e])
  | master id =>
    obtain ⟨x, hx, ex, hstores⟩ := masterTurn_stores h m' hm'
    obtain rfl := hr.eq_of_id hx hm (ex.symm.trans e)
    exact hstores.imp_right .inr
  | host =>
    rcases hostTurn_next h with hms | ⟨x, rest, i, hx, hi, hexec⟩
    · exact .inl (by rw [hr.eq_of_id (hms ▸ hm') hm e])
    · by_cases htune : ∃ line, i = .tune line
      · obtain ⟨line, rfl⟩ := htune
        exact .inr (.inl ⟨x, rest, line, hx, hi⟩)
      · exact .inl (exec_stores (s := { s with inbox := rest }) hr (fun line hl => htune ⟨line, hl⟩) hexec hm hm' e)

/-- Settles O7: an instruction by its cases, a step by the turn it is. -/
theorem onlyTuneChangesStores : Obligations.OnlyTuneChangesStores := by
  unfold Obligations.OnlyTuneChangesStores
  refine ⟨fun i s t hr hi h m hm m' hm' e => exec_stores hr hi h hm hm' e, fun s t hr h m hm m' hm' e hne => ?_⟩
  rcases step_turn h with rfl | ⟨a, sched, n, cut, ht⟩
  · exact absurd (by rw [hr.eq_of_id hm' hm e]) hne
  · exact (turn_stores (s := { s with sched := sched, nTurn := n, cut := cut }) hr ht hm hm' e).resolve_left hne

end Sys2Proof.Machine
end
